-- ==== Sys2Proof/Word.lean ====
section
/-! DEFINITION. The word and byte types (00_scope.md R7: registers are 32 bits wide, DMEM is byte-addressed). -/

namespace Sys2Proof

/-- A 32-bit register word. -/
abbrev Word := BitVec 32

/-- A byte of DMEM. -/
abbrev Byte := BitVec 8

/-- One 8×8 block of 32-bit two's complement values, index `8·row + column` in natural order (R12, R28). -/
abbrev Block := Vector Word 64

end Sys2Proof
end

