-- ==== Sys2Proof/Config.lean ====
section
/-! DEFINITION. The parameters the spec leaves OPEN (00_scope.md R7) and the free values. -/

namespace Sys2Proof

/-- The OPEN parameters of R7: arguments of the model, held in the state and changed by no step. -/
structure Config where
  /-- REG_BASE: the host address of offset 0 of the register window (92 D2). -/
  regBase : Nat
  /-- DMEM_SIZE in bytes (92 D4). -/
  dmemSize : Nat
  /-- MAX_PIXELS: the largest PAD_W × PAD_H accepted (92 D33). -/
  maxPixels : Nat
  /-- N_INSTANCES on the platform (92 D38). Instances share nothing (R44), so one instance never reads it. -/
  nInstances : Nat
  deriving DecidableEq, Repr

/-- The constraints 92_eei_decisions.md puts on the OPEN parameters. -/
def Config.wf (c : Config) : Bool :=
  c.regBase % 4 == 0 && 1 ≤ c.dmemSize && c.dmemSize ≤ 2 ^ 32 && 256 ≤ c.maxPixels && 1 ≤ c.nInstances

/-- DESIGN CHOICE (log 1): the parameter values `State.reset` carries. No statement rests on them. -/
def Config.atReset : Config :=
  { regBase := 0, dmemSize := 2 ^ 32, maxPixels := 2 ^ 32, nInstances := 1 }

/-- The free values ("a draw": an arbitrary value, fresh at each occurrence, 93_implementation_defined.md).
The n-th draw of a run is `freeWord n`; nothing constrains it (log 4). -/
opaque Config.freeWord : Nat → BitVec 32

/-- What DMEM holds at an address nothing has written: the platform's, any value (R127; log 3). -/
opaque Config.powerOnByte : Nat → BitVec 8

end Sys2Proof
end

