-- ==== Sys2Proof/Machine/Constants.lean ====
section
/-! DEFINITION. The literals of the source kept as named constants (93_implementation_defined.md section 3). -/

namespace Sys2Proof.Machine

/-- PREC, the transform precision (R7, R72). -/
def prec : Nat := 15

/-- The level shift of LUMINANCE samples (R78, R79). -/
def levelShift : Int := 128

/-- The most bits one supply or consume moves (R7). -/
def maxBits : Nat := 32

/-- The end-of-block AC symbol (R100). -/
def symEob : Byte := 0x00

/-- The sixteen-zeros AC symbol (R100). -/
def symZrl : Byte := 0xF0

/-- The longest magnitude a 4-bit size field names (R101, R102). -/
def maxSize : Nat := 15

/-- The output boundary of ENCODE_IMAGE in bytes, and its padding byte (R110). -/
def outputAlign : Nat := 16

/-- The padding byte of ENCODE_IMAGE (R110). -/
def outputPad : Byte := 0xFF

/-- The "no match" sentinel of HT_DECODE, HT_ENCODE and HT_READ (R66, R67, R70). -/
def sentinel : Word := 0xFFFFFFFF

/-- The least and the greatest scale factor times 100 (R82). -/
def s100Min : Int := 100

/-- The greatest scale factor times 100 (R82). -/
def s100Max : Int := 25500

/-- The greatest legal quality factor (R24, R83). -/
def maxQuality : Nat := 100

/-- The ID register: "NVJ" and command-set revision 1 (R14). -/
def idValue : Word := 0x4E564A01

/-- The size of the register window in bytes (R14). -/
def windowSize : Nat := 0x3000

end Sys2Proof.Machine
end

