-- ==== Sys2Proof/Machine/Arith.lean ====
section
/-! DEFINITION. The arithmetic primitives of 00_scope.md R9, on unbounded integers. -/

namespace Sys2Proof.Machine

/-- `s32(v)`: v wrapped to 32-bit two's complement (R9). -/
def s32 (v : Int) : Word := BitVec.ofInt 32 v

/-- `u32(v)` of a natural number (R9). -/
def u32 (v : Nat) : Word := BitVec.ofNat 32 v

/-- `v >> n`: arithmetic right shift, floor division by 2^n (R9). -/
def asr (v : Int) (n : Nat) : Int := v / (2 ^ n : Int)

/-- `rdiv(a, b)`: a / b rounded half up, for b > 0 (R9). -/
def rdiv (a b : Int) : Int := (2 * a + b) / (2 * b)

/-- `tdiv(a, b)`: division truncating toward zero (R9). -/
def tdiv (a b : Int) : Int := a.tdiv b

/-- `clamp(v, lo, hi)` (R9). -/
def clamp (v lo hi : Int) : Int := if v < lo then lo else if hi < v then hi else v

/-- `clamp8(v)` (R9). -/
def clamp8 (v : Int) : Int := clamp v 0 255

/-- `bitlen(v)`: 0 for 0, else floor(log2 |v|) + 1 (R9). -/
def bitlen (v : Int) : Nat := if v = 0 then 0 else Nat.log2 v.natAbs + 1

/-- `ext(b, s)`: the signed value of s magnitude bits (46_block_codec.md R98). -/
def ext (b s : Nat) : Int :=
  if s = 0 then 0 else if b < 2 ^ (s - 1) then (b : Int) - (2 ^ s - 1) else b

/-- `mag(v, s)`: the magnitude bits of v, the inverse of `ext` for s = bitlen(v) (R98). -/
def mag (v : Int) (s : Nat) : Nat := (if 0 ≤ v then v else v + 2 ^ s - 1).toNat

end Sys2Proof.Machine
end

