-- ==== Sys2Proof/Machine/Tables.lean ====
section
/-! DEFINITION. The constant tables: the cosine basis and the zigzag order (42_transform.md R72, R75), and the
reset contents of QBASE (43_quantizer.md R81) and HSRC (41_huffman.md R63). -/

namespace Sys2Proof.Machine

/-- KMAT, row u the frequency, column x the sample position (R72). -/
def kmatRows : List (List Int) := [
  [11585, 11585, 11585, 11585, 11585, 11585, 11585, 11585],
  [16069, 13623, 9102, 3196, -3196, -9102, -13623, -16069],
  [15137, 6270, -6270, -15137, -15137, -6270, 6270, 15137],
  [13623, -3196, -16069, -9102, 9102, 16069, 3196, -13623],
  [11585, -11585, -11585, 11585, 11585, -11585, -11585, 11585],
  [9102, -16069, 3196, 13623, -13623, -3196, 16069, -9102],
  [6270, -15137, 15137, -6270, -6270, 15137, -15137, 6270],
  [3196, -9102, 13623, -16069, 16069, -13623, 9102, -3196]]

/-- `KMAT[u][x]` (R72). -/
def kmat (u x : Nat) : Int := (kmatRows.getD u []).getD x 0

/-- ZZ as a list, k = 0 to 63 (R75). -/
def zzList : List Nat :=
  [0, 1, 8, 16, 9, 2, 3, 10, 17, 24, 32, 25, 18, 11, 4, 5] ++
  [12, 19, 26, 33, 40, 48, 41, 34, 27, 20, 13, 6, 7, 14, 21, 28] ++
  [35, 42, 49, 56, 57, 50, 43, 36, 29, 22, 15, 23, 30, 37, 44, 51] ++
  [58, 59, 52, 45, 38, 31, 39, 46, 53, 60, 61, 54, 47, 55, 62, 63]

/-- `ZZ[k]`: the natural-order index of zigzag position k (R75). -/
def zz (k : Fin 64) : Fin 64 := Fin.ofNat 64 (zzList.getD k.val 0)

/-- The zigzag position of natural-order index i, the inverse of `zz` (R77). -/
def zzInv (i : Fin 64) : Fin 64 := Fin.ofNat 64 (zzList.idxOf i.val)

/-- A table of n bytes from a list, the entries beyond it 0 (R63: unlisted VAL entries reset to 0). -/
def byteTable (n : Nat) (l : List Nat) : Vector Byte n := Vector.ofFn fun i => BitVec.ofNat 8 (l.getD i.val 0)

/-- QBASE[0], LUMINANCE, natural order (R81). -/
def qbaseLuminance : List Nat :=
  [16, 11, 10, 16, 24, 40, 51, 61] ++
  [12, 12, 14, 19, 26, 58, 60, 55] ++
  [14, 13, 16, 24, 40, 57, 69, 56] ++
  [14, 17, 22, 29, 51, 87, 80, 62] ++
  [18, 22, 37, 56, 68, 109, 103, 77] ++
  [24, 35, 55, 64, 81, 104, 113, 92] ++
  [49, 64, 78, 87, 103, 121, 120, 101] ++
  [72, 92, 95, 98, 112, 100, 103, 99]

/-- QBASE[1], CHROMINANCE, natural order (R81). -/
def qbaseChrominance : List Nat :=
  [17, 18, 24, 47, 99, 99, 99, 99] ++
  [18, 21, 26, 66, 99, 99, 99, 99] ++
  [24, 26, 56, 99, 99, 99, 99, 99] ++
  [47, 66, 99, 99, 99, 99, 99, 99] ++
  [99, 99, 99, 99, 99, 99, 99, 99] ++
  [99, 99, 99, 99, 99, 99, 99, 99] ++
  [99, 99, 99, 99, 99, 99, 99, 99] ++
  [99, 99, 99, 99, 99, 99, 99, 99]

/-- HSRC[0].BITS, DC LUMINANCE (R63). -/
def bitsDcLuminance : List Nat := [0, 1, 5, 1, 1, 1, 1, 1, 1, 0, 0, 0, 0, 0, 0, 0]

/-- HSRC[1].BITS, AC LUMINANCE (R63). -/
def bitsAcLuminance : List Nat := [0, 2, 1, 3, 3, 2, 4, 3, 5, 5, 4, 4, 0, 0, 1, 125]

/-- HSRC[2].BITS, DC CHROMINANCE (R63). -/
def bitsDcChrominance : List Nat := [0, 3, 1, 1, 1, 1, 1, 1, 1, 1, 1, 0, 0, 0, 0, 0]

/-- HSRC[3].BITS, AC CHROMINANCE (R63). -/
def bitsAcChrominance : List Nat := [0, 2, 1, 2, 4, 4, 3, 4, 7, 5, 4, 4, 0, 1, 2, 119]

/-- VAL of both DC tables: the size categories 0 to 11 (R63). -/
def valDc : List Nat := List.range 12

/-- HSRC[1].VAL[0..161] (R63). -/
def valAcLuminance : List Nat :=
  [0x01, 0x02, 0x03, 0x00, 0x04, 0x11, 0x05, 0x12, 0x21, 0x31, 0x41, 0x06, 0x13, 0x51, 0x61, 0x07] ++
  [0x22, 0x71, 0x14, 0x32, 0x81, 0x91, 0xA1, 0x08, 0x23, 0x42, 0xB1, 0xC1, 0x15, 0x52, 0xD1, 0xF0] ++
  [0x24, 0x33, 0x62, 0x72, 0x82, 0x09, 0x0A, 0x16, 0x17, 0x18, 0x19, 0x1A, 0x25, 0x26, 0x27, 0x28] ++
  [0x29, 0x2A, 0x34, 0x35, 0x36, 0x37, 0x38, 0x39, 0x3A, 0x43, 0x44, 0x45, 0x46, 0x47, 0x48, 0x49] ++
  [0x4A, 0x53, 0x54, 0x55, 0x56, 0x57, 0x58, 0x59, 0x5A, 0x63, 0x64, 0x65, 0x66, 0x67, 0x68, 0x69] ++
  [0x6A, 0x73, 0x74, 0x75, 0x76, 0x77, 0x78, 0x79, 0x7A, 0x83, 0x84, 0x85, 0x86, 0x87, 0x88, 0x89] ++
  [0x8A, 0x92, 0x93, 0x94, 0x95, 0x96, 0x97, 0x98, 0x99, 0x9A, 0xA2, 0xA3, 0xA4, 0xA5, 0xA6, 0xA7] ++
  [0xA8, 0xA9, 0xAA, 0xB2, 0xB3, 0xB4, 0xB5, 0xB6, 0xB7, 0xB8, 0xB9, 0xBA, 0xC2, 0xC3, 0xC4, 0xC5] ++
  [0xC6, 0xC7, 0xC8, 0xC9, 0xCA, 0xD2, 0xD3, 0xD4, 0xD5, 0xD6, 0xD7, 0xD8, 0xD9, 0xDA, 0xE1, 0xE2] ++
  [0xE3, 0xE4, 0xE5, 0xE6, 0xE7, 0xE8, 0xE9, 0xEA, 0xF1, 0xF2, 0xF3, 0xF4, 0xF5, 0xF6, 0xF7, 0xF8] ++
  [0xF9, 0xFA]

/-- HSRC[3].VAL[0..161] (R63). -/
def valAcChrominance : List Nat :=
  [0x00, 0x01, 0x02, 0x03, 0x11, 0x04, 0x05, 0x21, 0x31, 0x06, 0x12, 0x41, 0x51, 0x07, 0x61, 0x71] ++
  [0x13, 0x22, 0x32, 0x81, 0x08, 0x14, 0x42, 0x91, 0xA1, 0xB1, 0xC1, 0x09, 0x23, 0x33, 0x52, 0xF0] ++
  [0x15, 0x62, 0x72, 0xD1, 0x0A, 0x16, 0x24, 0x34, 0xE1, 0x25, 0xF1, 0x17, 0x18, 0x19, 0x1A, 0x26] ++
  [0x27, 0x28, 0x29, 0x2A, 0x35, 0x36, 0x37, 0x38, 0x39, 0x3A, 0x43, 0x44, 0x45, 0x46, 0x47, 0x48] ++
  [0x49, 0x4A, 0x53, 0x54, 0x55, 0x56, 0x57, 0x58, 0x59, 0x5A, 0x63, 0x64, 0x65, 0x66, 0x67, 0x68] ++
  [0x69, 0x6A, 0x73, 0x74, 0x75, 0x76, 0x77, 0x78, 0x79, 0x7A, 0x82, 0x83, 0x84, 0x85, 0x86, 0x87] ++
  [0x88, 0x89, 0x8A, 0x92, 0x93, 0x94, 0x95, 0x96, 0x97, 0x98, 0x99, 0x9A, 0xA2, 0xA3, 0xA4, 0xA5] ++
  [0xA6, 0xA7, 0xA8, 0xA9, 0xAA, 0xB2, 0xB3, 0xB4, 0xB5, 0xB6, 0xB7, 0xB8, 0xB9, 0xBA, 0xC2, 0xC3] ++
  [0xC4, 0xC5, 0xC6, 0xC7, 0xC8, 0xC9, 0xCA, 0xD2, 0xD3, 0xD4, 0xD5, 0xD6, 0xD7, 0xD8, 0xD9, 0xDA] ++
  [0xE2, 0xE3, 0xE4, 0xE5, 0xE6, 0xE7, 0xE8, 0xE9, 0xEA, 0xF2, 0xF3, 0xF4, 0xF5, 0xF6, 0xF7, 0xF8] ++
  [0xF9, 0xFA]

end Sys2Proof.Machine
end

