-- ==== Sys2Proof/Machine/HuffTable.lean ====
section
/-! DEFINITION. Huffman table sources and built tables (10_state.md R31, R32) and the canonical build
(41_huffman.md R64). -/

namespace Sys2Proof.Machine

/-- HSRC[t]: BITS[i] is the number of codes of length i+1, VAL[j] the j-th symbol (R31). -/
structure Hsrc where
  bits : Vector Byte 16
  vals : Vector Byte 256
  deriving DecidableEq, Repr

/-- One code of a built table; the decode map and the encode map hold the same codes (R64). -/
structure CodeEntry where
  code : BitVec 16
  len  : BitVec 5
  sym  : Byte
  deriving DecidableEq, Repr

/-- HT[t]: the two maps as one list of codes, and MINLEN, MAXLEN, NCODES (R27, R32). -/
structure Ht where
  codes  : List CodeEntry
  minLen : BitVec 5
  maxLen : BitVec 5
  nCodes : BitVec 9
  deriving DecidableEq, Repr

/-- BITS as numbers. -/
def Hsrc.counts (h : Hsrc) : List Nat := h.bits.toList.map BitVec.toNat

/-- `total`, the number of codes the histogram asks for (R64). -/
def Hsrc.total (h : Hsrc) : Nat := h.counts.sum

/-- VAL[0..total-1]. -/
def Hsrc.symbols (h : Hsrc) : List Byte := h.vals.toList.take h.total

/-- The code lengths with at least one code, rising (R64). -/
def Hsrc.lengths (h : Hsrc) : List Nat :=
  (List.range 16).filterMap fun i => if h.counts.getD i 0 = 0 then none else some (i + 1)

/-- Gives `count` consecutive codes of length `len` to the next symbols, from `code` on; answers those codes, the
next code and the symbols left. Fails when a code does not fit its length (over-subscribed, R64). -/
def assignLength (len : Nat) : Nat → Nat → List Byte → Option (List CodeEntry × Nat × List Byte)
  | 0, code, syms => some ([], code, syms)
  | _ + 1, _, [] => none
  | count + 1, code, sym :: syms =>
    if 2 ^ len ≤ code then none
    else
      match assignLength len count (code + 1) syms with
      | none => none
      | some (codes, next, left) =>
        some ({ code := BitVec.ofNat 16 code, len := BitVec.ofNat 5 len, sym := sym } :: codes, next, left)

/-- The codes of every length from `len` on; the running code moves left by 1 from a length to the next (R64). -/
def assignCodes : Nat → List Nat → Nat → List Byte → Option (List CodeEntry)
  | _, [], _, _ => some []
  | len, count :: counts, code, syms =>
    match assignLength len count code syms with
    | none => none
    | some (codes, next, left) =>
      match assignCodes (len + 1) counts (2 * next) left with
      | none => none
      | some more => some (codes ++ more)

/-- No symbol is listed twice (R64). -/
def noRepeats : List Byte → Bool
  | [] => true
  | b :: bs => !bs.contains b && noRepeats bs

/-- `ht_build(BITS, VAL)`: the built table, or none where the build fails (R64). -/
def htBuild (h : Hsrc) : Option Ht :=
  if h.total = 0 || 256 < h.total || !noRepeats h.symbols then none
  else
    match assignCodes 1 h.counts 0 h.symbols with
    | none => none
    | some codes =>
      some { codes := codes
             minLen := BitVec.ofNat 5 (h.lengths.headD 0)
             maxLen := BitVec.ofNat 5 (h.lengths.getLastD 0)
             nCodes := BitVec.ofNat 9 h.total }

/-- The decode map: the symbol of (w, len) (R64, R66). -/
def Ht.decodeMap (h : Ht) (w len : Nat) : Option Byte :=
  (h.codes.find? fun e => e.code.toNat == w && e.len.toNat == len).map CodeEntry.sym

/-- The encode map: the code and length of a symbol (R64, R67). -/
def Ht.encodeMap (h : Ht) (sym : Byte) : Option (Nat × Nat) :=
  (h.codes.find? fun e => e.sym == sym).map fun e => (e.code.toNat, e.len.toNat)

/-- A table source from its reset lists (R63). -/
def hsrcOf (bits vals : List Nat) : Hsrc := { bits := byteTable 16 bits, vals := byteTable 256 vals }

/-- HSRC[0..3] after reset (R63). -/
def hsrcAtReset : Vector Hsrc 4 :=
  #v[hsrcOf bitsDcLuminance valDc, hsrcOf bitsAcLuminance valAcLuminance,
     hsrcOf bitsDcChrominance valDc, hsrcOf bitsAcChrominance valAcChrominance]

/-- A table with no code: the placeholder of a build that fails, which no reset table does (R127). -/
def Ht.empty : Ht := { codes := [], minLen := 0, maxLen := 0, nCodes := 0 }

/-- HT[0..3] after reset: built from the reset HSRC (R63, R127). -/
def htAtReset : Vector Ht 4 := hsrcAtReset.map fun h => (htBuild h).getD Ht.empty

end Sys2Proof.Machine
end

