-- ==== Sys2Proof/Syntax.lean ====
section
/-! DEFINITION. The command set: one constructor of `Instr` for each row of spec/opcode_table.json
(30_encoding.md R48). -/

namespace Sys2Proof

/-- Channel kind, the K field: 0 LUMINANCE, 1 CHROMINANCE (R46). -/
inductive Kind where
  | luminance
  | chrominance
  deriving DecidableEq, Repr

/-- Composition mode, the M field: 0 Direct, 1 Colour-difference (R46). -/
inductive Mode where
  | direct
  | colourDifference
  deriving DecidableEq, Repr

/-- The C field: a channel number (R46). -/
abbrev Channel := Fin 4

/-- The T field: a Huffman table id (R46, R62). -/
abbrev TableId := Fin 4

/-- The 30 commands. `n` is the bit count N of the word, which `Instr.wf` bounds by its 6-bit field. -/
inductive Instr where
  | nop
  | ctxInit
  | bsOpenRead
  | bsOpenWrite
  | bsCanSupply (n : Nat)
  | bsSupply (n : Nat)
  | bsConsume (n : Nat)
  | bsFlush
  | htBuild (t : TableId)
  | htDecode (t : TableId) (n : Nat)
  | htEncode (t : TableId)
  | htLimits (t : TableId)
  | htRead (t : TableId)
  | fdct
  | idct
  | zigzag
  | unzigzag
  | shiftClamp (k : Kind)
  | unshift (k : Kind)
  | qAdjust (c : Channel) (k : Kind)
  | quant (c : Channel)
  | dequant (c : Channel)
  | upsample
  | downsample
  | compose (m : Mode)
  | decompose (m : Mode)
  | blkDecode (c : Channel) (k : Kind)
  | blkEncode (c : Channel) (k : Kind)
  | decodeImage
  | encodeImage
  deriving DecidableEq, Repr

end Sys2Proof
end

