-- ==== Sys2Proof/Machine/State.lean ====
section
/-! DEFINITION. The machine's state as plain data (10_state.md R13 to R32), the reasons a step can stop, and the
state after reset (70_reset_and_hazards.md R127). -/

namespace Sys2Proof.Machine

/-- What stops the machine with a fault. No command does: a command that fails completes with a code in STATUS
(60_exceptions.md R113 to R118), which is a next state. -/
inductive Fault where
  /-- Raised by a host access to a DMEM address that does not exist, DMEM_SIZE or above (20_memory.md R34;
  log 16). Safe: the model stops where the platform does something of its own. -/
  | noSuchDmemByte
  deriving DecidableEq, Repr

/-- What the model refuses. -/
inductive Refusal where
  /-- An instruction without a meaning; none is left. Safe. -/
  | notModelled (mnemonic : String)
  /-- Raised by a host access of the register window that is not 32-bit and 4-byte-aligned (10_state.md R33: "the
  model refuses it"). Safe. -/
  | registerAccessForm
  /-- Raised by a host access at an address outside the register window: not an access to the CORE (R14, R33; log
  16). Safe. -/
  | outsideWindow
  /-- Raised by a host write, while BUSY, to a DMEM byte the running command reads or writes (20_memory.md R40 item
  3, 70_reset_and_hazards.md R134: "a model refuses a run that does"). Safe. -/
  | hostWriteHazard
  /-- Raised by a host read, while BUSY, of a DMEM byte the running command writes (R40 item 3, R134). Safe. -/
  | hostReadHazard
  deriving DecidableEq, Repr

/-- The error codes of 60_exceptions.md R113; 6 to 15 are never reported. -/
inductive ErrCode where
  | none
  | streamUnderrun
  | huffmanDecodingFault
  | huffmanEncodingFault
  | illegalArgument
  | illegalCommand
  deriving DecidableEq, Repr

/-- STATUS but for BUSY, which is 1 exactly while a command is latched (R16, R17). Bits 7:5 and 31:12 read 0. -/
structure Status where
  done    : Bool
  err     : Bool
  trunc   : Bool
  overrun : Bool
  errcode : ErrCode
  deriving DecidableEq, Repr

/-- CH_CFG[c] without its RAZ/WI bits (R24). -/
structure ChCfg where
  defval  : BitVec 8
  defen   : Bool
  quality : BitVec 7
  deriving DecidableEq, Repr

/-- BS_MODE: 0 idle, 1 reading, 2 writing; 3 never occurs (R26). -/
inductive BsMode where
  | idle
  | reading
  | writing
  deriving DecidableEq, Repr

/-- The bitstream unit's registers (R26); `buf` is {BS_BUF_HI, BS_BUF_LO}. -/
structure Bs where
  mode   : BsMode
  count  : BitVec 7
  buf    : BitVec 64
  cursor : Word
  base   : Word
  limit  : Word
  deriving DecidableEq, Repr

/-- DMEM as the bytes that something has written, addresses strictly rising. An unlisted address holds no value of
the model's: it reads as the platform's free value, `Config.powerOnByte` (R127; log 3). -/
abbrev Memory := List Host.Cell

/-- One thing that happens to the CORE next: an access of the host, the platform's reset input, or the moment the
running command completes (R6, R33, R40, R126, R136; log 2). -/
inductive Event where
  /-- The host reads `bytes` bytes of the register window at host address `addr`. -/
  | regRead (addr bytes : Nat)
  /-- The host writes `value` with an access of `bytes` bytes at host address `addr`. -/
  | regWrite (addr bytes : Nat) (value : Word)
  /-- The host reads the DMEM byte at `addr`. -/
  | memRead (addr : Word)
  /-- The host, or another agent of the platform, writes the DMEM byte at `addr`. -/
  | memWrite (addr : Word) (value : Byte)
  /-- The platform's reset input. -/
  | platformReset
  /-- The running command, if there is one, completes. -/
  | complete
  deriving DecidableEq, Repr

/-- The state of the CORE and of its DMEM, with the parameters and the model's own fields. -/
structure State where
  /-- The OPEN parameters (R7); no step changes them. -/
  cfg     : Config
  /-- CTRL.IRQ_EN (R15). -/
  irqEn   : Bool
  /-- STATUS (R16). -/
  status  : Status
  /-- The command latch (R13, R17); none while the engine is idle. STATUS.BUSY is `latch.isSome`. -/
  latch   : Option Word
  /-- ARG0 and ARG1 (R18). -/
  arg0    : Word
  arg1    : Word
  /-- RESULT0, RESULT1, ERRPOS (R19). -/
  result0 : Word
  result1 : Word
  errpos  : Word
  /-- VARIANT, WIDTH, HEIGHT (R20, R21). -/
  variant : BitVec 2
  width   : BitVec 16
  height  : BitVec 16
  /-- PAD_W, PAD_H (R22). -/
  padW    : BitVec 17
  padH    : BitVec 17
  /-- SRC_BASE, SRC_LEN, DST_BASE, DST_CAP (R23). -/
  srcBase : Word
  srcLen  : Word
  dstBase : Word
  dstCap  : Word
  /-- CH_CFG[c] (R24). -/
  chCfg   : Vector ChCfg 4
  /-- DCPRED[c] (R25). -/
  dcpred  : Vector Word 4
  /-- The BS_ registers (R26). -/
  bs      : Bs
  /-- HT[t] (R32), and so HT_INFO[t] (R27). -/
  ht      : Vector Ht 4
  /-- BLK (R28). -/
  blk     : Block
  /-- QBASE[k] (R29). -/
  qbase   : Vector (Vector Byte 64) 2
  /-- QT[c] (R30). -/
  qt      : Vector (Vector (BitVec 15) 64) 4
  /-- HSRC[t] (R31). -/
  hsrc    : Vector Hsrc 4
  /-- The hidden planes PLANE[c] and FULL[c], row-major samples (R32). -/
  plane   : Vector (List Word) 4
  full    : Vector (List Word) 4
  /-- The iteration position of the image commands, as the number of the block in stream order (R32, R107). -/
  iterPos : Word
  /-- DMEM (20_memory.md R34). -/
  mem     : Memory
  /-- The model's own: how many free values have been drawn (log 4). -/
  draws   : Nat
  /-- The model's own: the value the last host read returned (log 5). -/
  busData : Word
  /-- The model's own: what happens next, oldest first (log 2). -/
  events  : List Event
  deriving DecidableEq, Repr

/-- STATUS after reset (R127). -/
def Status.atReset : Status :=
  { done := false, err := false, trunc := false, overrun := false, errcode := .none }

/-- The BS_ registers after reset (R127). -/
def Bs.atReset : Bs := { mode := .idle, count := 0, buf := 0, cursor := 0, base := 0, limit := 0 }

/-- CH_CFG[c] after reset (R127). -/
def ChCfg.atReset : ChCfg := { defval := 0, defen := false, quality := 0 }

/-- The state of R127, around what a reset leaves alone: the parameters, DMEM, and the model's own fields. -/
def State.atReset (cfg : Config) (mem : Memory) (draws : Nat) (busData : Word) (events : List Event) : State :=
  { cfg := cfg, irqEn := false, status := Status.atReset, latch := none
    arg0 := 0, arg1 := 0, result0 := 0, result1 := 0, errpos := 0
    variant := 0, width := 0, height := 0, padW := 0, padH := 0
    srcBase := 0, srcLen := 0, dstBase := 0, dstCap := 0
    chCfg := Vector.replicate 4 ChCfg.atReset, dcpred := Vector.replicate 4 0, bs := Bs.atReset
    ht := htAtReset, blk := Vector.replicate 64 0
    qbase := #v[byteTable 64 qbaseLuminance, byteTable 64 qbaseChrominance]
    qt := Vector.replicate 4 (Vector.replicate 64 100), hsrc := hsrcAtReset
    plane := Vector.replicate 4 [], full := Vector.replicate 4 [], iterPos := 0
    mem := mem, draws := draws, busData := busData, events := events }

/-- The machine right after reset: R127, no DMEM byte written, no host access pending. -/
def State.reset : State := State.atReset Config.atReset [] 0 0 []

/-- What a step answers. -/
abbrev Answer := Host.Outcome State Fault Refusal

end Sys2Proof.Machine
end

