-- ==== Sys2Proof/Machine/Flags.lean ====
section
/-! DEFINITION. STATUS: the error codes, what acceptance, completion, acknowledgement and a lost command do to its
flags, the word the host reads, and the interrupt line (10_state.md R16, R17; 60_exceptions.md R113 to R120). -/

namespace Sys2Proof.Machine

/-- The number of an error code (R113). -/
def errNumber : ErrCode → Nat
  | .none => 0
  | .streamUnderrun => 1
  | .huffmanDecodingFault => 2
  | .huffmanEncodingFault => 3
  | .illegalArgument => 4
  | .illegalCommand => 5

/-- The fatal codes, 2 to 5 (R113). -/
def errFatal : ErrCode → Bool
  | .none | .streamUnderrun => false
  | .huffmanDecodingFault | .huffmanEncodingFault | .illegalArgument | .illegalCommand => true

/-- BS_MODE as its two bits (R26). -/
def bsModeNumber : BsMode → Nat
  | .idle => 0
  | .reading => 1
  | .writing => 2

/-- Acceptance of a command clears DONE, ERR and ERRCODE; TRUNC and OVERRUN keep their values (R17). -/
def statusAccepted (st : Status) : Status := { st with done := false, err := false, errcode := .none }

/-- Completion: DONE set, ERR 1 if the code is fatal, ERRCODE the code, TRUNC set if an underrun occurred (R117). -/
def statusCompleted (code : ErrCode) (underran : Bool) (st : Status) : Status :=
  { st with done := true, err := errFatal code, errcode := code, trunc := st.trunc || underran }

/-- CTRL.CLR_STATUS clears DONE, ERR, TRUNC, OVERRUN and ERRCODE (R15, R119). -/
def statusCleared (_ : Status) : Status :=
  { done := false, err := false, trunc := false, overrun := false, errcode := .none }

/-- A CMD write while BUSY sets OVERRUN (R17, R131). -/
def statusOverrun (st : Status) : Status := { st with overrun := true }

/-- The start of a new Context clears TRUNC (R16, R105). -/
def statusNewContext (st : Status) : Status := { st with trunc := false }

/-- The STATUS word the host reads (R16). -/
def statusWord (busy : Bool) (st : Status) : Word :=
  u32 (busy.toNat + st.done.toNat * 2 + st.err.toNat * 4 + st.trunc.toNat * 8 + st.overrun.toNat * 16
    + errNumber st.errcode * 256)

end Sys2Proof.Machine
end

