-- ==== Sys2Proof/Machine/Ops.lean ====
section
/-! DEFINITION. The named operations over DMEM, the latch and STATUS, and the free values. -/

namespace Sys2Proof.Machine

/-! ### DMEM (20_memory.md R34 to R38) -/

/-- The byte something wrote at `a`, if any. -/
def memLookup : Memory → Nat → Option Byte
  | [], _ => none
  | (b, v) :: rest, a => if b = a then some v else memLookup rest a

/-- One byte of DMEM; a byte nothing has written is the platform's free value (R127; log 3). -/
def memRead (m : Memory) (a : Nat) : Byte := (memLookup m a).getD (Config.powerOnByte a)

/-- The n bytes from `a` on, in rising address order. -/
def memBytes (m : Memory) (a n : Nat) : List Byte := (List.range n).map fun i => memRead m (a + i)

/-- The cells of a run of bytes. -/
def cellsFrom : Nat → List Byte → Memory
  | _, [] => []
  | a, b :: bs => (a, b) :: cellsFrom (a + 1) bs

/-- Writes a run of bytes from `a` on (R38: the engine moves bytes). -/
def memWrite (a : Nat) (bytes : List Byte) (m : Memory) : Memory :=
  m.filter (fun c => decide (c.1 < a)) ++ cellsFrom a bytes ++
    m.filter (fun c => decide (a + bytes.length ≤ c.1))

/-- The canonical form: addresses strictly rising. -/
def memWf (m : Memory) : Bool := decide ((m.map Prod.fst).Pairwise (· < ·))

/-- Every listed byte exists: its address is below DMEM_SIZE (R34). -/
def memInside (size : Nat) (m : Memory) : Bool := m.all fun c => decide (c.1 < size)

/-- `MemRead(addr, 2)`: two bytes as a little-endian value (R10, R36). -/
def memRead16 (m : Memory) (a : Nat) : BitVec 16 := memRead m (a + 1) ++ memRead m a

/-- The two bytes `MemWrite(addr, 2, v)` stores, low byte first (R10, R36). -/
def bytes16 (v : BitVec 16) : List Byte := [v.setWidth 8, (v >>> 8).setWidth 8]

/-! ### The command latch, completion and acknowledgement -/

/-- STATUS.BUSY: a command is latched (R16, R17). -/
def State.busy (s : State) : Bool := s.latch.isSome

/-- The interrupt output, `IRQ_EN AND DONE` (R120). -/
def State.irq (s : State) : Bool := s.irqEn && s.status.done

/-- The engine latches w; BUSY rises and DONE, ERR, ERRCODE fall (R17). -/
def latchCommand (w : Word) (s : State) : State := { s with latch := some w, status := statusAccepted s.status }

/-- Completion of the running command with a code (R117): the CORE's whole trap entry. BUSY falls, DONE rises, ERR
and ERRCODE give the code, TRUNC rises on an underrun. Nothing else is recorded and control passes nowhere (R118). -/
def complete (code : ErrCode) (underran : Bool) (s : State) : State :=
  { s with latch := none, status := statusCompleted code underran s.status }

/-- A command that succeeds (R117). -/
def succeed (s : State) : State := complete .none false s

/-- A command that ends with a fatal code and nothing more (R116 item 2, R117). -/
def fail (code : ErrCode) (s : State) : State := complete code false s

/-- The acknowledgement of a completion by CTRL.CLR_STATUS, the CORE's "return" (R119): ignored while BUSY (R15). -/
def acknowledge (s : State) : State := if s.busy then s else { s with status := statusCleared s.status }

/-- RESULT0 and RESULT1 (R19). -/
def setResults (r0 r1 : Word) (s : State) : State := { s with result0 := r0, result1 := r1 }

/-! ### Free values (93_implementation_defined.md section 1; log 4) -/

/-- The n draws from the k-th on. -/
def freeWords (k n : Nat) : List Word := (List.range n).map fun i => Config.freeWord (k + i)

/-- The n drawn bytes from the k-th draw on. -/
def freeBytes (k n : Nat) : List Byte := (List.range n).map fun i => (Config.freeWord (k + i)).setWidth 8

/-- Every byte of a range takes a draw (R109, R128). -/
def drawRange (base len : Nat) (s : State) : State :=
  { s with mem := memWrite base (freeBytes s.draws len) s.mem, draws := s.draws + len }

/-- BLK takes 64 draws (R111). -/
def drawBlk (s : State) : State :=
  { s with blk := Vector.ofFn fun i => Config.freeWord (s.draws + i.val), draws := s.draws + 64 }

/-- DCPRED takes 4 draws (R109). -/
def drawDcpred (s : State) : State :=
  { s with dcpred := Vector.ofFn fun c => Config.freeWord (s.draws + c.val), draws := s.draws + 4 }

/-- Any mode but 3, which never occurs (R26). -/
def bsModeOfDraw (w : Word) : BsMode :=
  match w.toNat % 3 with
  | 0 => .idle
  | 1 => .reading
  | _ => .writing

/-- The greatest BS_COUNT between commands in a mode (R26). -/
def bsCountMax : BsMode → Nat
  | .idle => 64
  | .reading => 39
  | .writing => 7

/-- An unspecified BS_ state: seven draws, within the limits R26 states for the registers (log 7). -/
def bsOfDraws (k : Nat) : Bs :=
  let mode := bsModeOfDraw (Config.freeWord k)
  let count := (Config.freeWord (k + 1)).toNat % (bsCountMax mode + 1)
  { mode := mode
    count := BitVec.ofNat 7 count
    buf := BitVec.ofNat 64 ((Config.freeWord (k + 2) ++ Config.freeWord (k + 3)).toNat % 2 ^ count)
    cursor := Config.freeWord (k + 4)
    base := Config.freeWord (k + 5)
    limit := Config.freeWord (k + 6) }

/-- The BS_ state takes 7 draws (R109). -/
def drawBs (s : State) : State := { s with bs := bsOfDraws s.draws, draws := s.draws + 7 }

end Sys2Proof.Machine
end

