-- ==== Sys2Proof/Machine/Operands.lean ====
section
/-! DEFINITION. Operands: DMEM ranges, the tables a kind selects, the variant table, samples and pixels
(20_memory.md R35; 41_huffman.md R62; 43_quantizer.md R82; 45_compose.md R91; 47_image.md R106). -/

namespace Sys2Proof.Machine

/-! ### DMEM ranges -/

/-- The check of R35: the range ends inside DMEM, without wrap-around; a range of length 0 passes. -/
def rangeOk (s : State) (base len : Nat) : Bool := len == 0 || base + len ≤ s.cfg.dmemSize

/-- Two ranges share a byte. DEDUCED (log 8): an empty range shares none. -/
def rangesOverlap (b1 l1 b2 l2 : Nat) : Bool := 0 < l1 && 0 < l2 && b1 < b2 + l2 && b2 < b1 + l1

/-- A byte address lies in a range. -/
def inRange (a base len : Nat) : Bool := base ≤ a && a < base + len

/-! ### Bit counts (R46, R58 to R60, R66) -/

/-- N ≤ 32, the check of BS_CAN_SUPPLY, BS_SUPPLY, BS_CONSUME and HT_DECODE. -/
def countOk (n : Nat) : Bool := n ≤ maxBits

/-! ### Tables by kind -/

/-- The DC table of a kind, 2K (R62). -/
def dcTable : Kind → TableId
  | .luminance => 0
  | .chrominance => 2

/-- The AC table of a kind, 2K + 1 (R62). -/
def acTable : Kind → TableId
  | .luminance => 1
  | .chrominance => 3

/-- The index of a kind's base table (R29, R82). -/
def kindIndex : Kind → Fin 2
  | .luminance => 0
  | .chrominance => 1

/-! ### The variant table (R91). VARIANT 3 is reserved and fails every check before a row is used (log 20). -/

/-- The composition mode of a variant (R91). -/
def variantMode (v : BitVec 2) : Mode := if v = 2 then .direct else .colourDifference

/-- The kind of a channel (R91). -/
def variantKind (v : BitVec 2) (c : Channel) : Kind :=
  if v = 2 then .luminance else if c = 1 ∨ c = 2 then .chrominance else .luminance

/-- Whether a channel is subsampled (R91). -/
def variantSub (v : BitVec 2) (c : Channel) : Bool := v == 0 && (c == 1 || c == 2)

/-- The block unit: 16 when the variant has a subsampled channel, else 8 (R91, R106). -/
def variantUnit (v : BitVec 2) : Nat := if v = 0 then 16 else 8

/-- A dimension rounded up to the unit (R106). -/
def padTo (unit w : Nat) : Nat := (w + unit - 1) / unit * unit

/-! ### Blocks and pixels -/

/-- BLK[i] as a signed value (R28). -/
def blkInt (b : Block) (i : Fin 64) : Int := b[i].toInt

/-- A block entry by row and column. -/
def blkAt (b : Block) (row col : Nat) : Int := b[Fin.ofNat 64 (8 * row + col)].toInt

/-- Applies a function to every entry as a signed value, wrapping the result to 32 bits. -/
def blkMap (f : Int → Int) (b : Block) : Block := Vector.ofFn fun i => s32 (f (blkInt b i))

/-- A block from a function of row and column, wrapping to 32 bits. -/
def blkOf (f : Nat → Nat → Int) : Block := Vector.ofFn fun i => s32 (f (i.val / 8) (i.val % 8))

/-- One pixel: A, R, G, B (R36, R92). -/
structure Argb where
  a : Byte
  r : Byte
  g : Byte
  b : Byte
  deriving DecidableEq, Repr

/-- The packed ARGB word, `A << 24 | R << 16 | G << 8 | B` (R95). -/
def argbWord (p : Argb) : Word := p.a ++ p.r ++ p.g ++ p.b

/-- The pixel of a packed ARGB word (R96). -/
def argbOfWord (w : Word) : Argb :=
  { a := w.extractLsb' 24 8, r := w.extractLsb' 16 8, g := w.extractLsb' 8 8, b := w.extractLsb' 0 8 }

/-- A pixel in DMEM: the bytes A, R, G, B at rising addresses (R36). -/
def argbBytes (p : Argb) : List Byte := [p.a, p.r, p.g, p.b]

/-- The four channel samples p1 to p4 of a pixel (R12). -/
structure Samples where
  p1 : Int
  p2 : Int
  p3 : Int
  p4 : Int
  deriving DecidableEq, Repr

/-- The sample of a channel: channel c carries p(c+1) (R91). -/
def Samples.channel (p : Samples) (c : Channel) : Int :=
  if c = 0 then p.p1 else if c = 1 then p.p2 else if c = 2 then p.p3 else p.p4

end Sys2Proof.Machine
end

