-- ==== Sys2Proof/Machine/Stream.lean ====
section
/-! DEFINITION. The internal functions of the bitstream unit (40_bitstream.md R54, R55) and the incremental Huffman
decode (41_huffman.md R69). The reader takes DMEM and answers the new BS_ state; the writer answers the new BS_
state and the bytes it emits at BASE + CURSOR, in rising address order. -/

namespace Sys2Proof.Machine

/-- A stream freshly opened (R56, R57). -/
def bsOpen (mode : BsMode) (base limit : Word) : Bs :=
  { mode := mode, count := 0, buf := 0, cursor := 0, base := base, limit := limit }

/-- The next source byte moves into BUF (the loop body of `bs_can`, R55). -/
def bsPull (m : Memory) (b : Bs) : Bs :=
  { b with
    buf := BitVec.ofNat 64 (b.buf.toNat * 2 ^ 8 + (memRead m (b.base.toNat + b.cursor.toNat)).toNat)
    cursor := b.cursor + 1
    count := BitVec.ofNat 7 (b.count.toNat + 8) }

/-- The pulls of `bs_can(n)`: while COUNT < n and CURSOR < LIMIT. The fuel bounds the rounds; each adds 8 bits. -/
def bsFill (m : Memory) (n : Nat) : Nat → Bs → Bs
  | 0, b => b
  | fuel + 1, b =>
    if b.count.toNat < n ∧ b.cursor.toNat < b.limit.toNat then bsFill m n fuel (bsPull m b) else b

/-- `bs_can(n)`: the BS_ state after its pulls and whether n bits are buffered (R55). -/
def bsCan (m : Memory) (n : Nat) (b : Bs) : Bs × Bool :=
  let b' := bsFill m n n b
  (b', n ≤ b'.count.toNat)

/-- `bs_take(n)`, which requires COUNT ≥ n: the state after it and the n bits, first stream bit highest (R55). -/
def bsTake (n : Nat) (b : Bs) : Bs × Nat :=
  let left := b.count.toNat - n
  ({ b with count := BitVec.ofNat 7 left, buf := BitVec.ofNat 64 (b.buf.toNat % 2 ^ left) },
    b.buf.toNat / 2 ^ left % 2 ^ n)

/-- `bs_room(n)`: n more bits do not overrun the sink (R55). -/
def bsRoom (n : Nat) (b : Bs) : Bool := b.cursor.toNat + (b.count.toNat + n) / 8 ≤ b.limit.toNat

/-- `bs_put(v, n)`: the state after it and the whole bytes it emits (R55). -/
def bsPut (v n : Nat) (b : Bs) : Bs × List Byte :=
  let buf := b.buf.toNat * 2 ^ n + v % 2 ^ n
  let count := b.count.toNat + n
  ({ b with
      buf := BitVec.ofNat 64 (buf % 2 ^ (count % 8))
      count := BitVec.ofNat 7 (count % 8)
      cursor := b.cursor + BitVec.ofNat 32 (count / 8) },
    (List.range (count / 8)).map fun i => BitVec.ofNat 8 (buf / 2 ^ (count - 8 * (i + 1))))

/-- `bs_put` of every item of a list of (value, bit count). -/
def bsPutAll : List (Nat × Nat) → Bs → Bs × List Byte
  | [], b => (b, [])
  | (v, n) :: items, b =>
    let (b1, out) := bsPut v n b
    let (b2, more) := bsPutAll items b1
    (b2, out ++ more)

/-- The check before `bs_flush`: a held partial byte has room (R61). -/
def bsFlushOk (b : Bs) : Bool := b.count.toNat == 0 || b.cursor.toNat + 1 ≤ b.limit.toNat

/-- `bs_flush()`: the last partial byte, padded with 1-bits (R55, R61). -/
def bsFlush (b : Bs) : Bs × List Byte :=
  if b.count.toNat = 0 then (b, [])
  else
    let p := 8 - b.count.toNat
    ({ b with count := 0, buf := 0, cursor := b.cursor + 1 },
      [BitVec.ofNat 8 (b.buf.toNat * 2 ^ p + (2 ^ p - 1))])

/-- The stream a command needs is open: BS_MODE is the mode it needs and the stream's range passes R35. DEDUCED (log
6): R35 checks every range a command will access; it can fail only after an image command left the BS_ state
unspecified (R109). -/
def streamOpen (mode : BsMode) (s : State) : Bool :=
  s.bs.mode == mode && rangeOk s s.bs.base.toNat s.bs.limit.toNat

/-- How `ht_read` ends (R69). -/
inductive HtRead where
  | symbol (sym : Byte) (len : Nat)
  | underrun
  | noMatch
  deriving DecidableEq, Repr

/-- The loop of `ht_read` with the L bits `w` taken; `more` is MAXLEN − L, the bits it may still add (R69). -/
def htExtend (h : Ht) (m : Memory) : Nat → Nat → Nat → Bs → Bs × HtRead
  | 0, len, w, b =>
    match h.decodeMap w len with
    | some sym => (b, .symbol sym len)
    | none => (b, .noMatch)
  | more + 1, len, w, b =>
    match h.decodeMap w len with
    | some sym => (b, .symbol sym len)
    | none =>
      match bsCan m 1 b with
      | (b1, false) => (b1, .underrun)
      | (b1, true) =>
        match bsTake 1 b1 with
        | (b2, bit) => htExtend h m more (len + 1) (2 * w + bit) b2

/-- `ht_read(T)`: MINLEN bits, then one bit at a time up to MAXLEN (R69). -/
def htRead (h : Ht) (m : Memory) (b : Bs) : Bs × HtRead :=
  match bsCan m h.minLen.toNat b with
  | (b1, false) => (b1, .underrun)
  | (b1, true) =>
    match bsTake h.minLen.toNat b1 with
    | (b2, w) => htExtend h m (h.maxLen.toNat - h.minLen.toNat) h.minLen.toNat w b2

end Sys2Proof.Machine
end

