-- ==== Sys2Proof/Machine/Huffman.lean ====
section
/-! DEFINITION. The Huffman commands (41_huffman.md R65 to R70). -/

namespace Sys2Proof.Machine

/-- HT_BUILD (R65): a failed build leaves HT[T] as it was. -/
def execHtBuild (t : TableId) (s : State) : Answer :=
  .next <|
    match htBuild s.hsrc[t] with
    | some h =>
      succeed (setResults (u32 h.nCodes.toNat) (u32 (h.maxLen.toNat * 2 ^ 8 + h.minLen.toNat))
        { s with ht := s.ht.set t h })
    | none => fail .illegalArgument s

/-- The lookup of HT_DECODE: N bits hit only for 1 ≤ N ≤ 16 (R66). -/
def htDecodeLookup (h : Ht) (n : Nat) (word : Word) : Option Byte :=
  if 1 ≤ n ∧ n ≤ 16 then h.decodeMap (word.toNat % 2 ^ n) n else none

/-- HT_DECODE (R66): a miss is the sentinel, not a fault. -/
def execHtDecode (t : TableId) (n : Nat) (s : State) : Answer :=
  .next <|
    if countOk n then
      match htDecodeLookup s.ht[t] n s.arg0 with
      | some sym => succeed (setResults (u32 sym.toNat) 1 s)
      | none => succeed (setResults sentinel 0 s)
    else fail .illegalArgument s

/-- The lookup of HT_ENCODE: a symbol above 255 misses (R67). -/
def htEncodeLookup (h : Ht) (word : Word) : Option (Nat × Nat) :=
  if word.toNat ≤ 255 then h.encodeMap (BitVec.ofNat 8 word.toNat) else none

/-- HT_ENCODE (R67): a miss is the sentinel, not a fault. -/
def execHtEncode (t : TableId) (s : State) : Answer :=
  .next <|
    match htEncodeLookup s.ht[t] s.arg0 with
    | some (code, len) => succeed (setResults (u32 code) (u32 len) s)
    | none => succeed (setResults sentinel 0 s)

/-- HT_LIMITS (R68). -/
def execHtLimits (t : TableId) (s : State) : Answer :=
  .next (succeed (setResults (u32 s.ht[t].minLen.toNat) (u32 s.ht[t].maxLen.toNat) s))

/-- HT_READ (R70): bits taken before an underrun or a fault stay consumed (R69). -/
def execHtRead (t : TableId) (s : State) : Answer :=
  .next <|
    if streamOpen .reading s then
      match htRead s.ht[t] s.mem s.bs with
      | (b, .symbol sym len) => succeed (setResults (u32 sym.toNat) (u32 len) { s with bs := b })
      | (b, .underrun) => complete .streamUnderrun true (setResults sentinel 0 { s with bs := b })
      | (b, .noMatch) => fail .huffmanDecodingFault { s with bs := b }
    else fail .illegalArgument s

end Sys2Proof.Machine
end

