-- ==== Sys2Proof/Machine/Bitstream.lean ====
section
/-! DEFINITION. The bitstream commands (40_bitstream.md R56 to R61). -/

namespace Sys2Proof.Machine

/-- The check of BS_OPEN_READ (R56). -/
def openReadOk (s : State) : Bool := rangeOk s s.srcBase.toNat s.srcLen.toNat

/-- BS_OPEN_READ (R56). DEDUCED (log 23): one that fails its check keeps the BS_ state. -/
def execBsOpenRead (s : State) : Answer :=
  .next <|
    if openReadOk s then succeed { s with bs := bsOpen .reading s.srcBase s.srcLen }
    else fail .illegalArgument s

/-- The check of BS_OPEN_WRITE (R57). -/
def openWriteOk (s : State) : Bool := rangeOk s s.dstBase.toNat s.dstCap.toNat

/-- BS_OPEN_WRITE (R57). DEDUCED (log 23): one that fails its check keeps the BS_ state. -/
def execBsOpenWrite (s : State) : Answer :=
  .next <|
    if openWriteOk s then succeed { s with bs := bsOpen .writing s.dstBase s.dstCap }
    else fail .illegalArgument s

/-- The checks of BS_CAN_SUPPLY (R58). -/
def canSupplyOk (n : Nat) (s : State) : Bool := streamOpen .reading s && countOk n

/-- BS_CAN_SUPPLY (R58): a false answer keeps the pulled bytes and is no underrun (R115). -/
def execBsCanSupply (n : Nat) (s : State) : Answer :=
  .next <|
    if canSupplyOk n s then
      let r := bsCan s.mem n s.bs
      succeed (setResults (u32 r.2.toNat) (u32 r.1.count.toNat) { s with bs := r.1 })
    else fail .illegalArgument s

/-- The checks of BS_SUPPLY (R59): it never pulls bytes itself. -/
def supplyOk (n : Nat) (s : State) : Bool :=
  s.bs.mode == .reading && countOk n && n ≤ s.bs.count.toNat

/-- BS_SUPPLY (R59). -/
def execBsSupply (n : Nat) (s : State) : Answer :=
  .next <|
    if supplyOk n s then
      let r := bsTake n s.bs
      succeed (setResults (u32 r.2) (u32 r.1.count.toNat) { s with bs := r.1 })
    else fail .illegalArgument s

/-- The bytes a writing command emits go to BASE + CURSOR on (R55). -/
def emit (before after : Bs) (out : List Byte) (s : State) : State :=
  { s with bs := after, mem := memWrite (before.base.toNat + before.cursor.toNat) out s.mem }

/-- The checks of BS_CONSUME (R60). -/
def consumeOk (n : Nat) (s : State) : Bool := streamOpen .writing s && countOk n && bsRoom n s.bs

/-- BS_CONSUME (R60). -/
def execBsConsume (n : Nat) (s : State) : Answer :=
  .next <|
    if consumeOk n s then
      let r := bsPut s.arg0.toNat n s.bs
      succeed (setResults r.1.cursor (u32 r.1.count.toNat) (emit s.bs r.1 r.2 s))
    else fail .illegalArgument s

/-- The checks of BS_FLUSH (R61). -/
def flushOk (s : State) : Bool := streamOpen .writing s && bsFlushOk s.bs

/-- BS_FLUSH (R61): the stream stays open. -/
def execBsFlush (s : State) : Answer :=
  .next <|
    if flushOk s then
      let r := bsFlush s.bs
      succeed (setResults r.1.cursor 0 (emit s.bs r.1 r.2 s))
    else fail .illegalArgument s

end Sys2Proof.Machine
end

