-- ==== Sys2Proof/Machine/BlockCodec.lean ====
section
/-! DEFINITION. The block entropy codec: `blk_decode`, `blk_symbols` and the commands BLK_DECODE and BLK_ENCODE
(46_block_codec.md R98 to R102). -/

namespace Sys2Proof.Machine

/-- How `blk_decode` ends. -/
inductive BlkEnd where
  /-- The block is complete. -/
  | complete
  /-- The stream underran; the unread coefficients stay 0 (R101, R115). -/
  | truncated
  /-- HuffmanDecodingFault. -/
  | fault
  deriving DecidableEq, Repr

/-- What `blk_decode` leaves: the BS_ state, the predictor, the zigzag block, the position k. -/
structure BlkDecoded where
  bs   : Bs
  pred : Word
  z    : Block
  k    : Nat
  stop : BlkEnd
  deriving DecidableEq, Repr

/-- The AC loop of `blk_decode`, from position k on. The fuel bounds the rounds; each moves k by at least 1 (R101).
DEDUCED (log 22): an underrun in the magnitude bits answers the position k that already includes the run, as the
pseudocode does. -/
def acLoop (ac : Ht) (m : Memory) (pred : Word) : Nat → Nat → Block → Bs → BlkDecoded
  | 0, k, z, b => ⟨b, pred, z, k, .complete⟩
  | fuel + 1, k, z, b =>
    if 64 ≤ k then ⟨b, pred, z, k, .complete⟩
    else
      match htRead ac m b with
      | (b1, .underrun) => ⟨b1, pred, z, k, .truncated⟩
      | (b1, .noMatch) => ⟨b1, pred, z, k, .fault⟩
      | (b1, .symbol rs _) =>
        if rs = symEob then ⟨b1, pred, z, k, .complete⟩
        else
          let k1 := k + rs.toNat / 16
          if 63 < k1 then ⟨b1, pred, z, k1, .fault⟩
          else
            let size := rs.toNat % 16
            match bsCan m size b1 with
            | (b2, false) => ⟨b2, pred, z, k1, .truncated⟩
            | (b2, true) =>
              match bsTake size b2 with
              | (b3, v) => acLoop ac m pred fuel (k1 + 1) (z.set (Fin.ofNat 64 k1) (s32 (ext v size))) b3

/-- `blk_decode` with the DC and AC tables of the channel's kind (R101). The predictor changes only when the DC
magnitude is complete (R99). -/
def blkDecode (dc ac : Ht) (m : Memory) (pred : Word) (b : Bs) : BlkDecoded :=
  let zeros : Block := Vector.replicate 64 0
  match htRead dc m b with
  | (b1, .underrun) => ⟨b1, pred, zeros, 0, .truncated⟩
  | (b1, .noMatch) => ⟨b1, pred, zeros, 0, .fault⟩
  | (b1, .symbol sym _) =>
    if maxSize < sym.toNat then ⟨b1, pred, zeros, 0, .fault⟩
    else
      match bsCan m sym.toNat b1 with
      | (b2, false) => ⟨b2, pred, zeros, 0, .truncated⟩
      | (b2, true) =>
        match bsTake sym.toNat b2 with
        | (b3, v) =>
          let pred' := s32 (pred.toInt + ext v sym.toNat)
          acLoop ac m pred' 64 1 (zeros.set 0 pred') b3

/-- The bits a block consumed: 8·ΔBS_CURSOR + BS_COUNT before − BS_COUNT after (R101). -/
def bitsConsumed (before after : Bs) : Word :=
  s32 (8 * ((after.cursor.toNat : Int) - before.cursor.toNat) + before.count.toNat - after.count.toNat)

/-- BLK_DECODE (R101). DEDUCED (log 10): on a fault BLK keeps its value, since `BLK <- Z` comes after `blk_decode`. -/
def execBlkDecode (c : Channel) (k : Kind) (s : State) : Answer :=
  .next <|
    if streamOpen .reading s then
      let r := blkDecode s.ht[dcTable k] s.ht[acTable k] s.mem s.dcpred[c] s.bs
      let s1 := { s with bs := r.bs, dcpred := s.dcpred.set c r.pred }
      match r.stop with
      | .complete => succeed (setResults (u32 r.k) (bitsConsumed s.bs r.bs) { s1 with blk := r.z })
      | .truncated =>
        complete .streamUnderrun true (setResults (u32 r.k) (bitsConsumed s.bs r.bs) { s1 with blk := r.z })
      | .fault => fail .huffmanDecodingFault s1
    else fail .illegalArgument s

/-- The items of one coefficient: the code of (run, size) and the magnitude, after a ZRL for every 16 zeros (R102). -/
def coefItems (ac : Ht) (run : Nat) (v : Int) : Option (List (Nat × Nat)) :=
  let size := bitlen v
  if maxSize < size then none
  else
    match ac.encodeMap (BitVec.ofNat 8 (run % 16 * 16 + size)) with
    | none => none
    | some code =>
      if run < 16 then some [code, (mag v size, size)]
      else
        match ac.encodeMap symZrl with
        | none => none
        | some zrl => some (List.replicate (run / 16) zrl ++ [code, (mag v size, size)])

/-- The AC part of `blk_symbols`: `run` zeros precede the coefficients left (R102). -/
def acItems (ac : Ht) : Nat → List Word → Option (List (Nat × Nat))
  | run, [] => if 0 < run then (ac.encodeMap symEob).map fun code => [code] else some []
  | run, v :: vs =>
    if v = 0 then acItems ac (run + 1) vs
    else
      match coefItems ac run v.toInt, acItems ac 0 vs with
      | some items, some more => some (items ++ more)
      | _, _ => none

/-- `blk_symbols`: the list of (value, bit count) of a zigzag block, or none for HuffmanEncodingFault (R102). -/
def blkSymbols (dc ac : Ht) (pred : Word) (z : Block) : Option (List (Nat × Nat)) :=
  let d := (s32 (z[0].toInt - pred.toInt)).toInt
  let size := bitlen d
  if maxSize < size then none
  else
    match dc.encodeMap (BitVec.ofNat 8 size), acItems ac 0 (z.toList.drop 1) with
    | some code, some items => some (code :: (mag d size, size) :: items)
    | _, _ => none

/-- The sum of the bit counts of a list of items (R102). -/
def itemBits (items : List (Nat × Nat)) : Nat := (items.map Prod.snd).sum

/-- How a block's encoding ends: the items, or the code it faults with (R102). -/
inductive BlkItems where
  | items (l : List (Nat × Nat))
  | fault (code : ErrCode)
  deriving DecidableEq, Repr

/-- The checks of `blk_encode` after BS_MODE, in order: the symbols exist, then the sink has room (R102). -/
def blkEncodeItems (dc ac : Ht) (pred : Word) (z : Block) (b : Bs) : BlkItems :=
  match blkSymbols dc ac pred z with
  | none => .fault .huffmanEncodingFault
  | some l => if bsRoom (itemBits l) b then .items l else .fault .illegalArgument

/-- BLK_ENCODE (R102): all or nothing. -/
def execBlkEncode (c : Channel) (k : Kind) (s : State) : Answer :=
  .next <|
    if streamOpen .writing s then
      match blkEncodeItems s.ht[dcTable k] s.ht[acTable k] s.dcpred[c] s.blk s.bs with
      | .fault code => fail code s
      | .items l =>
        let r := bsPutAll l s.bs
        succeed (setResults (u32 (itemBits l)) r.1.cursor
          { emit s.bs r.1 r.2 s with dcpred := s.dcpred.set c s.blk[0] })
    else fail .illegalArgument s

end Sys2Proof.Machine
end

