-- ==== Sys2Proof/Machine/Compose.lean ====
section
/-! DEFINITION. ARGB composition: the formulas of 45_compose.md R92 to R94 and the commands COMPOSE and DECOMPOSE. -/

namespace Sys2Proof.Machine

/-- A clamped value as a byte. -/
def byteOf (v : Int) : Byte := BitVec.ofInt 8 v

/-- Direct mode: p1 to p4 clamped to A, R, G, B (R92). -/
def directCompose (p : Samples) : Argb :=
  { a := byteOf (clamp8 p.p1), r := byteOf (clamp8 p.p2), g := byteOf (clamp8 p.p3), b := byteOf (clamp8 p.p4) }

/-- `cd_compose` (R93): r3 is clamped before R is formed. -/
def cdCompose (p : Samples) : Argb :=
  let r1 := p.p1 - asr p.p3 1
  let r3 := clamp8 (r1 - asr p.p2 1)
  { a := byteOf (clamp8 p.p4), r := byteOf (clamp8 (r3 + p.p2)), g := byteOf (clamp8 (r1 + p.p3)), b := byteOf r3 }

/-- COMPOSE's function for a mode (R95). -/
def composePixel (m : Mode) (p : Samples) : Argb :=
  match m with
  | .direct => directCompose p
  | .colourDifference => cdCompose p

/-- The inverse of direct mode (R92). -/
def directDecompose (p : Argb) : Samples := { p1 := p.a.toNat, p2 := p.r.toNat, p3 := p.g.toNat, p4 := p.b.toNat }

/-- `cd_decompose` (R94). -/
def cdDecompose (p : Argb) : Samples :=
  let co : Int := (p.r.toNat : Int) - p.b.toNat
  let t := p.b.toNat + asr co 1
  let cg := p.g.toNat - t
  { p1 := t + asr cg 1, p2 := co, p3 := cg, p4 := p.a.toNat }

/-- DECOMPOSE's function for a mode (R96). -/
def decomposePixel (m : Mode) (p : Argb) : Samples :=
  match m with
  | .direct => directDecompose p
  | .colourDifference => cdDecompose p

/-- BLK[0..3] as the samples p1 to p4 (R95). -/
def blkSamples (b : Block) : Samples := { p1 := blkInt b 0, p2 := blkInt b 1, p3 := blkInt b 2, p4 := blkInt b 3 }

/-- BLK with its first four entries replaced by p1 to p4 (R96). -/
def withSamples (p : Samples) (b : Block) : Block :=
  (((b.set 0 (s32 p.p1)).set 1 (s32 p.p2)).set 2 (s32 p.p3)).set 3 (s32 p.p4)

/-- COMPOSE (R95). -/
def execCompose (m : Mode) (s : State) : Answer :=
  .next (succeed (setResults (argbWord (composePixel m (blkSamples s.blk))) 0 s))

/-- DECOMPOSE (R96). -/
def execDecompose (m : Mode) (s : State) : Answer :=
  .next (succeed { s with blk := withSamples (decomposePixel m (argbOfWord s.arg0)) s.blk })

end Sys2Proof.Machine
end

