-- ==== Sys2Proof/Machine/Quantizer.lean ====
section
/-! DEFINITION. The quantizer commands Q_ADJUST, QUANT and DEQUANT (43_quantizer.md). -/

namespace Sys2Proof.Machine

/-- `s100(base, q)`, the scale factor times 100 (R82). -/
def s100 (base q : Nat) : Int := clamp (base * (200 - 2 * (q : Int))) s100Min s100Max

/-- A scale table from a base table and a quality factor (R82, R83). -/
def scaleTable (base : Vector Byte 64) (q : Nat) : Vector (BitVec 15) 64 :=
  base.map fun b => BitVec.ofInt 15 (s100 b.toNat q)

/-- The least entry of a scale table (R83). -/
def tableMin (t : Vector (BitVec 15) 64) : Nat :=
  t.toList.foldl (fun least e => min least e.toNat) (2 ^ 15 - 1)

/-- QUANT on a block, half-up rounding (R84). -/
def quantBlock (qt : Vector (BitVec 15) 64) (b : Block) : Block :=
  Vector.ofFn fun i => s32 (rdiv (100 * blkInt b i) qt[i].toNat)

/-- DEQUANT on a block, half-up rounding (R85). -/
def dequantBlock (qt : Vector (BitVec 15) 64) (b : Block) : Block :=
  Vector.ofFn fun i => s32 (rdiv (blkInt b i * qt[i].toNat) 100)

/-- The check of Q_ADJUST: QUALITY ≤ 100 (R83). -/
def qualityOk (cfg : ChCfg) : Bool := cfg.quality.toNat ≤ maxQuality

/-- Q_ADJUST (R83). -/
def execQAdjust (c : Channel) (k : Kind) (s : State) : Answer :=
  .next <|
    if qualityOk s.chCfg[c] then
      let table := scaleTable s.qbase[kindIndex k] s.chCfg[c].quality.toNat
      succeed (setResults (u32 table[0].toNat) (u32 (tableMin table)) { s with qt := s.qt.set c table })
    else fail .illegalArgument s

/-- QUANT (R84). -/
def execQuant (c : Channel) (s : State) : Answer :=
  .next (succeed { s with blk := quantBlock s.qt[c] s.blk })

/-- DEQUANT (R85). -/
def execDequant (c : Channel) (s : State) : Answer :=
  .next (succeed { s with blk := dequantBlock s.qt[c] s.blk })

end Sys2Proof.Machine
end

