-- ==== Sys2Proof/Machine/Control.lean ====
section
/-! DEFINITION. The control commands NOP and CTX_INIT, the Codec Context set-up and the block iteration order
(47_image.md R104 to R107). -/

namespace Sys2Proof.Machine

/-- A block of the iteration: its channel and its position in the channel's plane, in blocks (R107). -/
structure BlockPos where
  c  : Channel
  bx : Nat
  by_ : Nat
  deriving DecidableEq, Repr

/-- PAD_W and PAD_H of the configuration (R106). -/
def padWidth (s : State) : Nat := padTo (variantUnit s.variant) s.width.toNat

/-- PAD_H of the configuration (R106). -/
def padHeight (s : State) : Nat := padTo (variantUnit s.variant) s.height.toNat

/-- The macroblocks in a row and in a column (R107). -/
def mbCols (s : State) : Nat := padWidth s / variantUnit s.variant

/-- The macroblocks in a column (R107). -/
def mbRows (s : State) : Nat := padHeight s / variantUnit s.variant

/-- The blocks of one channel in macroblock (mx, my): none for a channel with a default value, one, or four in the
order top-left, top-right, bottom-left, bottom-right (R107). -/
def channelBlocks (s : State) (mx my : Nat) (c : Channel) : List BlockPos :=
  if s.chCfg[c].defen then []
  else if variantUnit s.variant = 8 ∨ variantSub s.variant c then [⟨c, mx, my⟩]
  else [⟨c, 2 * mx, 2 * my⟩, ⟨c, 2 * mx + 1, 2 * my⟩, ⟨c, 2 * mx, 2 * my + 1⟩, ⟨c, 2 * mx + 1, 2 * my + 1⟩]

/-- The blocks of a macroblock, channels in order (R107). -/
def macroblock (s : State) (mx my : Nat) : List BlockPos :=
  [0, 1, 2, 3].flatMap (channelBlocks s mx my)

/-- `blocks()`: every coded block in stream order (R107). -/
def blocks (s : State) : List BlockPos :=
  (List.range (mbRows s)).flatMap fun my => (List.range (mbCols s)).flatMap fun mx => macroblock s mx my

/-- A channel's scale table can be built: it has a default value, or QUALITY ≤ 100 (R105). -/
def channelOk (cfg : ChCfg) : Bool := cfg.defen || qualityOk cfg

/-- `ctx_check()` (R105). -/
def ctxCheck (s : State) : Bool :=
  s.variant != 3 && padWidth s * padHeight s ≤ s.cfg.maxPixels &&
  channelOk s.chCfg[0] && channelOk s.chCfg[1] && channelOk s.chCfg[2] && channelOk s.chCfg[3]

/-- The scale table `ctx_setup()` gives a channel: a new one unless it has a default value (R105). -/
def ctxTable (s : State) (c : Channel) : Vector (BitVec 15) 64 :=
  if s.chCfg[c].defen then s.qt[c]
  else scaleTable s.qbase[kindIndex (variantKind s.variant c)] s.chCfg[c].quality.toNat

/-- `ctx_setup()` (R105). -/
def ctxSetup (s : State) : State :=
  { s with
    padW := BitVec.ofNat 17 (padWidth s)
    padH := BitVec.ofNat 17 (padHeight s)
    dcpred := Vector.replicate 4 0
    status := statusNewContext s.status
    qt := Vector.ofFn (ctxTable s) }

/-- NOP (R104). -/
def execNop (s : State) : Answer := .next (succeed s)

/-- CTX_INIT (R105). DEDUCED (log 9): TRUNC is cleared by `ctx_setup()`, so a CTX_INIT that fails its checks keeps
it. -/
def execCtxInit (s : State) : Answer :=
  .next <|
    if ctxCheck s then
      succeed (setResults (u32 (blocks s).length) (u32 (mbCols s * mbRows s)) (ctxSetup s))
    else fail .illegalArgument s

end Sys2Proof.Machine
end

