-- ==== Sys2Proof/Machine/Sampler.lean ====
section
/-! DEFINITION. The 2×2 box-filter commands UPSAMPLE and DOWNSAMPLE on 16-bit planes in DMEM (44_sampler.md). -/

namespace Sys2Proof.Machine

/-- `ld16(base, n)` as a signed value (R87). -/
def ld16 (m : Memory) (base n : Nat) : Int := (memRead16 m (base + 2 * n)).toInt

/-- The bytes of a plane of samples in row-major order, each stored mod 2^16 (R87). -/
def planeBytes (samples : List Int) : List Byte := samples.flatMap fun v => bytes16 (BitVec.ofInt 16 v)

/-- A w × h plane from a function of column and row, row-major (R87). -/
def planeOf (w h : Nat) (f : Nat → Nat → Int) : List Int :=
  (List.range h).flatMap fun y => (List.range w).map fun x => f x y

/-- The checks both commands share, in order: even dimensions, both ranges inside DMEM, no overlap but the in-place
one (R88, R89). -/
def samplerOk (srcLen dstLen : Nat) (s : State) : Bool :=
  s.width.toNat % 2 == 0 && s.height.toNat % 2 == 0 &&
  rangeOk s s.arg0.toNat srcLen && rangeOk s s.arg1.toNat dstLen &&
  (s.arg0 == s.arg1 || !rangesOverlap s.arg0.toNat srcLen s.arg1.toNat dstLen)

/-- The bytes of the full-resolution plane, 2·W·H (R88, R89). -/
def fullPlaneLen (s : State) : Nat := 2 * s.width.toNat * s.height.toNat

/-- The bytes of the quarter-resolution plane, W·H/2 (R88, R89). -/
def quarterPlaneLen (s : State) : Nat := s.width.toNat * s.height.toNat / 2

/-- The checks of UPSAMPLE (R88). -/
def upsampleOk (s : State) : Bool := samplerOk (quarterPlaneLen s) (fullPlaneLen s) s

/-- Destination sample (x, y) of UPSAMPLE: the source sample of its 2×2 cell (R88). -/
def upsampled (s : State) (x y : Nat) : Int :=
  ld16 s.mem s.arg0.toNat (y / 2 * (s.width.toNat / 2) + x / 2)

/-- UPSAMPLE (R88): every source sample is read before any is written. -/
def execUpsample (s : State) : Answer :=
  .next <|
    if upsampleOk s then
      let w := s.width.toNat
      let h := s.height.toNat
      succeed (setResults (u32 (w * h)) 0
        { s with mem := memWrite s.arg1.toNat (planeBytes (planeOf w h (upsampled s))) s.mem })
    else fail .illegalArgument s

/-- The checks of DOWNSAMPLE (R89). -/
def downsampleOk (s : State) : Bool := samplerOk (fullPlaneLen s) (quarterPlaneLen s) s

/-- Destination sample (x, y) of DOWNSAMPLE: the truncated average of its 2×2 cell (R89). -/
def downsampled (s : State) (x y : Nat) : Int :=
  let w := s.width.toNat
  let at_ := fun i j => ld16 s.mem s.arg0.toNat (j * w + i)
  tdiv (at_ (2 * x) (2 * y) + at_ (2 * x + 1) (2 * y) + at_ (2 * x) (2 * y + 1) + at_ (2 * x + 1) (2 * y + 1)) 4

/-- DOWNSAMPLE (R89). -/
def execDownsample (s : State) : Answer :=
  .next <|
    if downsampleOk s then
      let w := s.width.toNat / 2
      let h := s.height.toNat / 2
      succeed (setResults (u32 (w * h)) 0
        { s with mem := memWrite s.arg1.toNat (planeBytes (planeOf w h (downsampled s))) s.mem })
    else fail .illegalArgument s

end Sys2Proof.Machine
end

