-- ==== Sys2Proof/Machine/Transform.lean ====
section
/-! DEFINITION. The transform commands FDCT, IDCT, ZIGZAG, UNZIGZAG, SHIFT_CLAMP and UNSHIFT (42_transform.md).
None of them can fail. -/

namespace Sys2Proof.Machine

/-- The sum of f over 0 to 7. -/
def sum8 (f : Nat → Int) : Int := f 0 + f 1 + f 2 + f 3 + f 4 + f 5 + f 6 + f 7

/-- The final rounding of both transforms, `(S + 2^(2·PREC−1)) >> (2·PREC)` (R73, R74). -/
def dctRound (v : Int) : Int := asr (v + 2 ^ (2 * prec - 1)) (2 * prec)

/-- The row pass of FDCT, `R[y][u]` (R73). -/
def fdctRow (b : Block) (y u : Nat) : Int := sum8 fun x => kmat u x * blkAt b y x

/-- The column pass of FDCT, `S[v][u]` (R73). -/
def fdctSum (b : Block) (v u : Nat) : Int := sum8 fun y => kmat v y * fdctRow b y u

/-- FDCT on a block (R73). -/
def fdctBlock (b : Block) : Block := blkOf fun v u => dctRound (fdctSum b v u)

/-- The row pass of IDCT, `R[v][x]` (R74). -/
def idctRow (b : Block) (v x : Nat) : Int := sum8 fun u => kmat u x * blkAt b v u

/-- The column pass of IDCT, `S[y][x]` (R74). -/
def idctSum (b : Block) (y x : Nat) : Int := sum8 fun v => kmat v y * idctRow b v x

/-- IDCT on a block (R74). -/
def idctBlock (b : Block) : Block := blkOf fun y x => dctRound (idctSum b y x)

/-- Natural order to zigzag order: entry k is entry ZZ[k] (R76). -/
def zigzagBlock (b : Block) : Block := Vector.ofFn fun k => b[zz k]

/-- Zigzag order to natural order: entry ZZ[k] is entry k (R77). -/
def unzigzagBlock (z : Block) : Block := Vector.ofFn fun i => z[zzInv i]

/-- SHIFT_CLAMP on one value (R78). -/
def shiftClampValue (k : Kind) (v : Int) : Int :=
  match k with
  | .luminance => clamp (s32 (v + levelShift)).toInt 0 255
  | .chrominance => clamp v (-255) 255

/-- SHIFT_CLAMP on a block (R78). -/
def shiftClampBlock (k : Kind) (b : Block) : Block := blkMap (shiftClampValue k) b

/-- UNSHIFT on one value (R79). -/
def unshiftValue (k : Kind) (v : Int) : Int :=
  match k with
  | .luminance => v - levelShift
  | .chrominance => v

/-- UNSHIFT on a block (R79). -/
def unshiftBlock (k : Kind) (b : Block) : Block := blkMap (unshiftValue k) b

/-- FDCT (R73). -/
def execFdct (s : State) : Answer := .next (succeed { s with blk := fdctBlock s.blk })

/-- IDCT (R74). -/
def execIdct (s : State) : Answer := .next (succeed { s with blk := idctBlock s.blk })

/-- ZIGZAG (R76). -/
def execZigzag (s : State) : Answer := .next (succeed { s with blk := zigzagBlock s.blk })

/-- UNZIGZAG (R77). -/
def execUnzigzag (s : State) : Answer := .next (succeed { s with blk := unzigzagBlock s.blk })

/-- SHIFT_CLAMP (R78). -/
def execShiftClamp (k : Kind) (s : State) : Answer := .next (succeed { s with blk := shiftClampBlock k s.blk })

/-- UNSHIFT (R79). -/
def execUnshift (k : Kind) (s : State) : Answer := .next (succeed { s with blk := unshiftBlock k s.blk })

end Sys2Proof.Machine
end

