-- ==== Sys2Proof/Machine/Image.lean ====
section
/-! DEFINITION. The whole-image commands DECODE_IMAGE and ENCODE_IMAGE (47_image.md R108 to R111). A command is
atomic (00_scope.md R11): each pass runs on a working record, and its results reach the state at once. -/

namespace Sys2Proof.Machine

/-- The bytes of the ARGB image, 4·WIDTH·HEIGHT (R108, R110). -/
def argbLen (s : State) : Nat := 4 * s.width.toNat * s.height.toNat

/-! ### DECODE_IMAGE -/

/-- The checks of DECODE_IMAGE, in order (R108). -/
def decodeImageOk (s : State) : Bool :=
  ctxCheck s && argbLen s ≤ s.dstCap.toNat &&
  rangeOk s s.srcBase.toNat s.srcLen.toNat && rangeOk s s.dstBase.toNat (argbLen s) &&
  !rangesOverlap s.srcBase.toNat s.srcLen.toNat s.dstBase.toNat (argbLen s)

/-- The working record of the decode pass: stream, predictors, blocks done, the first underrun, and the sample blocks
of PLANE decoded so far (R108). -/
structure DecPass where
  bs       : Bs
  pred     : Vector Word 4
  n        : Nat
  firstBad : Option Nat
  planes   : List (BlockPos × Block)
  deriving DecidableEq, Repr

/-- How the decode pass ends: done, or HuffmanDecodingFault in block n, with the first earlier block that underran. -/
inductive DecEnd where
  | done (p : DecPass)
  | fault (n : Nat) (firstBad : Option Nat)
  deriving DecidableEq, Repr

/-- Samples from a zigzag block: un-zigzag, dequantise, inverse transform, level shift and clamp (R108). -/
def reconstruct (k : Kind) (qt : Vector (BitVec 15) 64) (z : Block) : Block :=
  shiftClampBlock k (idctBlock (dequantBlock qt (unzigzagBlock z)))

/-- One block of the decode pass: decoded, reconstructed and put in its place (R108). -/
def decodeOne (s : State) (pos : BlockPos) (p : DecPass) : DecEnd :=
  let k := variantKind s.variant pos.c
  let r := blkDecode s.ht[dcTable k] s.ht[acTable k] s.mem p.pred[pos.c] p.bs
  match r.stop with
  | .fault => .fault p.n p.firstBad
  | .complete | .truncated =>
    .done
      { bs := r.bs, pred := p.pred.set pos.c r.pred, n := p.n + 1
        firstBad := if r.stop = .truncated ∧ p.firstBad = none then some p.n else p.firstBad
        planes := (pos, reconstruct k s.qt[pos.c] r.z) :: p.planes }

/-- The decode pass over the blocks left (R108). -/
def decodePass (s : State) : List BlockPos → DecPass → DecEnd
  | [], p => .done p
  | pos :: rest, p =>
    match decodeOne s pos p with
    | .fault n firstBad => .fault n firstBad
    | .done q => decodePass s rest q

/-- PLANE[c][y][x]: entry (x mod 8, y mod 8) of the block that covers it (R107, R108). -/
def planeSample (planes : List (BlockPos × Block)) (c : Channel) (x y : Nat) : Int :=
  match planes.find? fun e => e.1 == ⟨c, x / 8, y / 8⟩ with
  | some e => blkAt e.2 (y % 8) (x % 8)
  | none => 0

/-- FULL[c][y][x]: the default value, the upsampled plane, or the plane itself (R108). -/
def fullSample (s : State) (planes : List (BlockPos × Block)) (c : Channel) (x y : Nat) : Int :=
  if s.chCfg[c].defen then s.chCfg[c].defval.toNat
  else if variantSub s.variant c then planeSample planes c (x / 2) (y / 2)
  else planeSample planes c x y

/-- The output pixel (x, y) (R108). -/
def outputPixel (s : State) (planes : List (BlockPos × Block)) (x y : Nat) : Argb :=
  composePixel (variantMode s.variant)
    { p1 := fullSample s planes 0 x y, p2 := fullSample s planes 1 x y
      p3 := fullSample s planes 2 x y, p4 := fullSample s planes 3 x y }

/-- The ARGB bytes of the image, cropped to WIDTH × HEIGHT (R108). -/
def outputBytes (s : State) (planes : List (BlockPos × Block)) : List Byte :=
  (List.range s.height.toNat).flatMap fun y =>
    (List.range s.width.toNat).flatMap fun x => argbBytes (outputPixel s planes x y)

/-- The samples of a channel's plane (R32). -/
def planeLen (s : State) (c : Channel) : Nat :=
  if variantSub s.variant c then s.padW.toNat / 2 * (s.padH.toNat / 2) else s.padW.toNat * s.padH.toNat

/-- The hidden planes take draws after an image command (R111; log 17). -/
def drawPlanes (s : State) : State :=
  { s with
    plane := Vector.ofFn fun c => freeWords (s.draws + c.val * (s.padW.toNat * s.padH.toNat)) (planeLen s c)
    full := Vector.ofFn fun c =>
      freeWords (s.draws + (4 + c.val) * (s.padW.toNat * s.padH.toNat)) (s.padW.toNat * s.padH.toNat)
    draws := s.draws + 8 * (s.padW.toNat * s.padH.toNat) }

/-- What every image command leaves unspecified: BLK and the hidden planes (R111). -/
def leaveScratch (s : State) : State := drawPlanes (drawBlk s)

/-- A fatal fault inside an image command, after its set-up, in block `pos` with output range [base, base + len):
ERRPOS takes the number of blocks completed before the first block that faulted or underran (R19, R109) and the
iteration position names the faulting block; the output range, DCPRED, the BS_ state, BLK and the hidden planes are
unspecified (R109). -/
def imageFault (code : ErrCode) (underran : Bool) (completed pos base len : Nat) (s : State) : State :=
  complete code underran
    (leaveScratch (drawBs (drawDcpred (drawRange base len { s with errpos := u32 completed, iterPos := u32 pos }))))

/-- DECODE_IMAGE (R108). A fault after an underrun leaves ERRPOS at the first block that underran (R19; log 11).
DEDUCED (log 23): one that fails its checks keeps BLK, the planes and the BS_ state, by R116 against R111. -/
def execDecodeImage (s : State) : Answer :=
  .next <|
    if decodeImageOk s then
      let s1 := ctxSetup s
      let start : DecPass :=
        { bs := bsOpen .reading s.srcBase s.srcLen, pred := s1.dcpred, n := 0, firstBad := none, planes := [] }
      match decodePass s1 (blocks s) start with
      | .fault n firstBad =>
        imageFault .huffmanDecodingFault firstBad.isSome (firstBad.getD n) n s.dstBase.toNat (argbLen s) s1
      | .done p =>
        let s2 := leaveScratch
          { s1 with
            bs := p.bs
            dcpred := p.pred
            mem := memWrite s.dstBase.toNat (outputBytes s1 p.planes) s.mem
            result0 := u32 (argbLen s)
            result1 := p.bs.cursor
            errpos := u32 (p.firstBad.getD p.n)
            iterPos := u32 p.n }
        match p.firstBad with
        | some _ => complete .streamUnderrun true s2
        | none => succeed s2
    else fail .illegalArgument s

/-! ### ENCODE_IMAGE -/

/-- The checks of ENCODE_IMAGE, in order (R110). -/
def encodeImageOk (s : State) : Bool :=
  ctxCheck s && argbLen s ≤ s.srcLen.toNat &&
  rangeOk s s.srcBase.toNat (argbLen s) && rangeOk s s.dstBase.toNat s.dstCap.toNat &&
  !rangesOverlap s.srcBase.toNat (argbLen s) s.dstBase.toNat s.dstCap.toNat

/-- The input pixel (x, y), ARGB 0 in the padding (R110). -/
def inputPixel (s : State) (x y : Nat) : Argb :=
  if x < s.width.toNat ∧ y < s.height.toNat then
    let o := s.srcBase.toNat + 4 * (y * s.width.toNat + x)
    { a := memRead s.mem o, r := memRead s.mem (o + 1), g := memRead s.mem (o + 2), b := memRead s.mem (o + 3) }
  else { a := 0, r := 0, g := 0, b := 0 }

/-- FULL[c][y][x] of the encode pass (R110). -/
def inputSample (s : State) (c : Channel) (x y : Nat) : Int :=
  (decomposePixel (variantMode s.variant) (inputPixel s x y)).channel c

/-- PLANE[c][y][x] of the encode pass: the plane, downsampled for a subsampled channel (R110, R89). -/
def codedSample (s : State) (c : Channel) (x y : Nat) : Int :=
  if variantSub s.variant c then
    tdiv (inputSample s c (2 * x) (2 * y) + inputSample s c (2 * x + 1) (2 * y)
      + inputSample s c (2 * x) (2 * y + 1) + inputSample s c (2 * x + 1) (2 * y + 1)) 4
  else inputSample s c x y

/-- The 8×8 samples of a block (R110). -/
def sampleBlock (s : State) (pos : BlockPos) : Block :=
  blkOf fun yy xx => codedSample s pos.c (8 * pos.bx + xx) (8 * pos.by_ + yy)

/-- A zigzag block from samples: level shift, forward transform, quantise, zigzag (R110). -/
def prepare (k : Kind) (qt : Vector (BitVec 15) 64) (b : Block) : Block :=
  zigzagBlock (quantBlock qt (fdctBlock (unshiftBlock k b)))

/-- The working record of the encode pass: stream, predictors, blocks done, the bytes emitted from DST_BASE on. -/
structure EncPass where
  bs   : Bs
  pred : Vector Word 4
  n    : Nat
  out  : List Byte
  deriving DecidableEq, Repr

/-- How the encode pass ends: done, or a fatal code in block n. -/
inductive EncEnd where
  | done (p : EncPass)
  | fault (code : ErrCode) (n : Nat)
  deriving DecidableEq, Repr

/-- The blocks ENCODE_IMAGE codes, in stream order: each the samples of its place in the plane, level shifted,
transformed, quantised with the scale tables qt and put in zigzag order (R107, R110). -/
def preparedBlocks (s : State) (qt : Vector (Vector (BitVec 15) 64) 4) : List (BlockPos × Block) :=
  (blocks s).map fun pos => (pos, prepare (variantKind s.variant pos.c) qt[pos.c] (sampleBlock s pos))

/-- One prepared block of the encode pass: checked and appended (R110). -/
def encodeOne (s : State) (pos : BlockPos) (z : Block) (p : EncPass) : EncEnd :=
  let k := variantKind s.variant pos.c
  match blkEncodeItems s.ht[dcTable k] s.ht[acTable k] p.pred[pos.c] z p.bs with
  | .fault code => .fault code p.n
  | .items l =>
    let r := bsPutAll l p.bs
    .done { bs := r.1, pred := p.pred.set pos.c z[0], n := p.n + 1, out := p.out ++ r.2 }

/-- The encode pass over the prepared blocks left (R110). -/
def encodePass (s : State) : List (BlockPos × Block) → EncPass → EncEnd
  | [], p => .done p
  | (pos, z) :: rest, p =>
    match encodeOne s pos z p with
    | .fault code n => .fault code n
    | .done q => encodePass s rest q

/-- The padding bytes after a body of `body` bytes, up to a multiple of 16 (R110). -/
def paddingLen (body : Nat) : Nat := (outputAlign - body % outputAlign) % outputAlign

/-- The flush and the padding after the last block: the pass with the whole output and the length of the body, or a
full sink (R110). -/
def finishEncode (p : EncPass) : Option (EncPass × Nat) :=
  if bsFlushOk p.bs then
    let r := bsFlush p.bs
    let body := r.1.cursor.toNat
    let total := body + paddingLen body
    if total ≤ p.bs.limit.toNat then
      some ({ p with
        bs := { r.1 with cursor := u32 total }
        out := p.out ++ r.2 ++ List.replicate (paddingLen body) outputPad }, body)
    else none
  else none

/-- ENCODE_IMAGE (R110). DEDUCED (log 23): one that fails its checks keeps BLK, the planes and the BS_ state, by R116
against R111. -/
def execEncodeImage (s : State) : Answer :=
  .next <|
    if encodeImageOk s then
      let s1 := ctxSetup s
      let start : EncPass :=
        { bs := bsOpen .writing s.dstBase s.dstCap, pred := s1.dcpred, n := 0, out := [] }
      match encodePass s1 (preparedBlocks s s1.qt) start with
      | .fault code n => imageFault code false n n s.dstBase.toNat s.dstCap.toNat s1
      | .done p =>
        match finishEncode p with
        | none => imageFault .illegalArgument false p.n p.n s.dstBase.toNat s.dstCap.toNat s1
        | some (q, body) =>
          succeed (leaveScratch
            { s1 with
              bs := q.bs
              dcpred := q.pred
              mem := memWrite s.dstBase.toNat q.out s.mem
              result0 := q.bs.cursor
              result1 := u32 body
              errpos := u32 q.n
              iterPos := u32 q.n })
    else fail .illegalArgument s

end Sys2Proof.Machine
end

