-- ==== Sys2Proof/Machine/Dispatch.lean ====
section
/-! DEFINITION. One arm per command, one direct call of its meaning. -/

namespace Sys2Proof.Machine

def exec (i : Instr) (s : State) : Host.Outcome State Fault Refusal :=
  match i with
  | .nop => Sys2Proof.Machine.execNop s
  | .ctxInit => Sys2Proof.Machine.execCtxInit s
  | .bsOpenRead => Sys2Proof.Machine.execBsOpenRead s
  | .bsOpenWrite => Sys2Proof.Machine.execBsOpenWrite s
  | .bsCanSupply n => Sys2Proof.Machine.execBsCanSupply n s
  | .bsSupply n => Sys2Proof.Machine.execBsSupply n s
  | .bsConsume n => Sys2Proof.Machine.execBsConsume n s
  | .bsFlush => Sys2Proof.Machine.execBsFlush s
  | .htBuild t => Sys2Proof.Machine.execHtBuild t s
  | .htDecode t n => Sys2Proof.Machine.execHtDecode t n s
  | .htEncode t => Sys2Proof.Machine.execHtEncode t s
  | .htLimits t => Sys2Proof.Machine.execHtLimits t s
  | .htRead t => Sys2Proof.Machine.execHtRead t s
  | .fdct => Sys2Proof.Machine.execFdct s
  | .idct => Sys2Proof.Machine.execIdct s
  | .zigzag => Sys2Proof.Machine.execZigzag s
  | .unzigzag => Sys2Proof.Machine.execUnzigzag s
  | .shiftClamp k => Sys2Proof.Machine.execShiftClamp k s
  | .unshift k => Sys2Proof.Machine.execUnshift k s
  | .qAdjust c k => Sys2Proof.Machine.execQAdjust c k s
  | .quant c => Sys2Proof.Machine.execQuant c s
  | .dequant c => Sys2Proof.Machine.execDequant c s
  | .upsample => Sys2Proof.Machine.execUpsample s
  | .downsample => Sys2Proof.Machine.execDownsample s
  | .compose m => Sys2Proof.Machine.execCompose m s
  | .decompose m => Sys2Proof.Machine.execDecompose m s
  | .blkDecode c k => Sys2Proof.Machine.execBlkDecode c k s
  | .blkEncode c k => Sys2Proof.Machine.execBlkEncode c k s
  | .decodeImage => Sys2Proof.Machine.execDecodeImage s
  | .encodeImage => Sys2Proof.Machine.execEncodeImage s

end Sys2Proof.Machine
end

