-- ==== Sys2Proof/WellFormed.lean ====
section
/-! DEFINITION. Which instructions a command word can spell: the bit count fits its 6-bit field (30_encoding.md
R45). Channels, tables, kinds and modes fit their fields by their types. A count above 32 is well-formed: it is a
legal spelling with an illegal argument (R50). -/

namespace Sys2Proof

/-- The bit counts the N field can hold (R45). -/
def nFits (n : Nat) : Bool := n < 64

/-- An instruction some command word spells. -/
def Instr.wf : Instr → Bool
  | .bsCanSupply n => nFits n
  | .bsSupply n => nFits n
  | .bsConsume n => nFits n
  | .htDecode _ n => nFits n
  | .nop | .ctxInit | .bsOpenRead | .bsOpenWrite | .bsFlush => true
  | .htBuild _ | .htEncode _ | .htLimits _ | .htRead _ => true
  | .fdct | .idct | .zigzag | .unzigzag | .shiftClamp _ | .unshift _ => true
  | .qAdjust _ _ | .quant _ | .dequant _ => true
  | .upsample | .downsample | .compose _ | .decompose _ => true
  | .blkDecode _ _ | .blkEncode _ _ => true
  | .decodeImage | .encodeImage => true

end Sys2Proof
end

