-- ==== Sys2Proof/Decode.lean ====
section
/-! DEFINITION. The decoder of command words and the encoder (30_encoding.md R45 to R51). -/

namespace Sys2Proof

/-- Why a word spells no command; each gives IllegalCommand (R47, R50). -/
inductive DecodeRefusal where
  /-- Bits 31:18 are not all 0. -/
  | reservedBits
  /-- The opcode is not in the table of R48. -/
  | reservedOpcode
  /-- A field the command does not use is not 0. -/
  | unusedField
  deriving DecidableEq, Repr

/-- `w[lo+len-1 : lo]`, the unsigned value of a field (R8). -/
def bits (w : Word) (lo len : Nat) : Nat := w.toNat / 2 ^ lo % 2 ^ len

/-- The raw fields of a command word (R45). -/
structure Fields where
  /-- bits 13:8 -/
  n : Nat
  /-- bits 15:14 -/
  c : Nat
  /-- bits 17:16; K or M is its low bit -/
  t : Nat
  deriving DecidableEq, Repr

/-- The fields of a word (R45, R46). -/
def fieldsOf (w : Word) : Fields := { n := bits w 8 6, c := bits w 14 2, t := bits w 16 2 }

/-- Which fields a command uses; `kind` and `mode` are one bit, with bit 17 = 0 (R45, R48). -/
inductive Shape where
  | none
  | n
  | c
  | t
  | bit
  | tn
  | cBit
  deriving DecidableEq, Repr

/-- A field the command does not use must be 0 (R47). -/
def Shape.admits : Shape → Fields → Bool
  | .none, f => f.n == 0 && f.c == 0 && f.t == 0
  | .n, f => f.c == 0 && f.t == 0
  | .c, f => f.n == 0 && f.t == 0
  | .t, f => f.n == 0 && f.c == 0
  | .bit, f => f.n == 0 && f.c == 0 && f.t < 2
  | .tn, f => f.c == 0
  | .cBit, f => f.n == 0 && f.t < 2

/-- K from bit 16 (R46). -/
def kindOfBit : Nat → Kind
  | 0 => .luminance
  | _ + 1 => .chrominance

/-- M from bit 16 (R46). -/
def modeOfBit : Nat → Mode
  | 0 => .direct
  | _ + 1 => .colourDifference

/-- A two-bit field as a channel or table number (R46). -/
def idOfBits (v : Nat) : Fin 4 := Fin.ofNat 4 v

/-- The opcode map of R48: which fields the opcode uses and the command they make. -/
def opcodeRow (f : Fields) : Nat → Option (Shape × Instr)
  | 0x00 => some (.none, .nop)
  | 0x01 => some (.none, .ctxInit)
  | 0x10 => some (.none, .bsOpenRead)
  | 0x11 => some (.none, .bsOpenWrite)
  | 0x12 => some (.n, .bsCanSupply f.n)
  | 0x13 => some (.n, .bsSupply f.n)
  | 0x14 => some (.n, .bsConsume f.n)
  | 0x15 => some (.none, .bsFlush)
  | 0x20 => some (.t, .htBuild (idOfBits f.t))
  | 0x21 => some (.tn, .htDecode (idOfBits f.t) f.n)
  | 0x22 => some (.t, .htEncode (idOfBits f.t))
  | 0x23 => some (.t, .htLimits (idOfBits f.t))
  | 0x24 => some (.t, .htRead (idOfBits f.t))
  | 0x30 => some (.none, .fdct)
  | 0x31 => some (.none, .idct)
  | 0x32 => some (.none, .zigzag)
  | 0x33 => some (.none, .unzigzag)
  | 0x34 => some (.bit, .shiftClamp (kindOfBit f.t))
  | 0x35 => some (.bit, .unshift (kindOfBit f.t))
  | 0x40 => some (.cBit, .qAdjust (idOfBits f.c) (kindOfBit f.t))
  | 0x41 => some (.c, .quant (idOfBits f.c))
  | 0x42 => some (.c, .dequant (idOfBits f.c))
  | 0x50 => some (.none, .upsample)
  | 0x51 => some (.none, .downsample)
  | 0x60 => some (.bit, .compose (modeOfBit f.t))
  | 0x61 => some (.bit, .decompose (modeOfBit f.t))
  | 0x70 => some (.cBit, .blkDecode (idOfBits f.c) (kindOfBit f.t))
  | 0x71 => some (.cBit, .blkEncode (idOfBits f.c) (kindOfBit f.t))
  | 0x80 => some (.none, .decodeImage)
  | 0x81 => some (.none, .encodeImage)
  | _ => none

/-- The decoder: reads OPC, then the fields the table assigns to it (R47, R51). -/
def decode (w : Word) : Except DecodeRefusal Instr :=
  if bits w 18 14 ≠ 0 then .error .reservedBits
  else
    match opcodeRow (fieldsOf w) (bits w 0 8) with
    | none => .error .reservedOpcode
    | some (shape, i) => if shape.admits (fieldsOf w) then .ok i else .error .unusedField

/-- The K field of a kind (R46). -/
def Kind.bit : Kind → Nat
  | .luminance => 0
  | .chrominance => 1

/-- The M field of a mode (R46). -/
def Mode.bit : Mode → Nat
  | .direct => 0
  | .colourDifference => 1

/-- `OPC | N << 8 | C << 14 | T << 16` (R49); the fields do not overlap, so the OR is a sum. -/
def pack (opc n c t : Nat) : Word := BitVec.ofNat 32 (opc + n * 2 ^ 8 + c * 2 ^ 14 + t * 2 ^ 16)

/-- The command word of an instruction (R48, R49). -/
def encode : Instr → Word
  | .nop => pack 0x00 0 0 0
  | .ctxInit => pack 0x01 0 0 0
  | .bsOpenRead => pack 0x10 0 0 0
  | .bsOpenWrite => pack 0x11 0 0 0
  | .bsCanSupply n => pack 0x12 n 0 0
  | .bsSupply n => pack 0x13 n 0 0
  | .bsConsume n => pack 0x14 n 0 0
  | .bsFlush => pack 0x15 0 0 0
  | .htBuild t => pack 0x20 0 0 t.val
  | .htDecode t n => pack 0x21 n 0 t.val
  | .htEncode t => pack 0x22 0 0 t.val
  | .htLimits t => pack 0x23 0 0 t.val
  | .htRead t => pack 0x24 0 0 t.val
  | .fdct => pack 0x30 0 0 0
  | .idct => pack 0x31 0 0 0
  | .zigzag => pack 0x32 0 0 0
  | .unzigzag => pack 0x33 0 0 0
  | .shiftClamp k => pack 0x34 0 0 k.bit
  | .unshift k => pack 0x35 0 0 k.bit
  | .qAdjust c k => pack 0x40 0 c.val k.bit
  | .quant c => pack 0x41 0 c.val 0
  | .dequant c => pack 0x42 0 c.val 0
  | .upsample => pack 0x50 0 0 0
  | .downsample => pack 0x51 0 0 0
  | .compose m => pack 0x60 0 0 m.bit
  | .decompose m => pack 0x61 0 0 m.bit
  | .blkDecode c k => pack 0x70 0 c.val k.bit
  | .blkEncode c k => pack 0x71 0 c.val k.bit
  | .decodeImage => pack 0x80 0 0 0
  | .encodeImage => pack 0x81 0 0 0

/-- The 32-bit command word whose low `nbits` bits are `w`. -/
def tableWord (nbits w : Nat) : Word := BitVec.ofNat 32 (w % 2 ^ nbits)

/-- The instruction the decoder reads from the word an opcode-table row numbers `w`. -/
def decodeTableWord (nbits w : Nat) : Option Instr :=
  match decode (tableWord nbits w) with
  | .ok i => some i
  | .error _ => none

end Sys2Proof
end

