-- ==== Sys2Proof/Machine/Window.lean ====
section
/-! DEFINITION. The register window: the map of offsets (10_state.md R14), what a read answers and what a write to a
plain register does (R15 to R31, R33). CMD and CTRL writes are in Machine/Hosting.lean. -/

namespace Sys2Proof.Machine

/-- The registers of R14. -/
inductive Reg where
  | id | ctrl | status | cmd | arg0 | arg1 | result0 | result1 | errpos
  | variant | width | height | padW | padH | srcBase | srcLen | dstBase | dstCap
  | chCfg (c : Channel)
  | dcpred (c : Channel)
  | bsMode | bsCount | bsBufLo | bsBufHi | bsCursor | bsBase | bsLimit
  | htInfo (t : TableId)
  | blk (i : Fin 64)
  | qbase (k : Fin 2) (i : Fin 64)
  | qt (c : Channel) (i : Fin 64)
  | hsrcBits (t : TableId) (i : Fin 16)
  | hsrcVal (t : TableId) (j : Fin 256)
  deriving DecidableEq, Repr

/-- The offset of a register (R14). -/
def regOffset : Reg → Nat
  | .id => 0x000 | .ctrl => 0x004 | .status => 0x008 | .cmd => 0x00C
  | .arg0 => 0x010 | .arg1 => 0x014 | .result0 => 0x018 | .result1 => 0x01C | .errpos => 0x020
  | .variant => 0x024 | .width => 0x028 | .height => 0x02C | .padW => 0x030 | .padH => 0x034
  | .srcBase => 0x038 | .srcLen => 0x03C | .dstBase => 0x040 | .dstCap => 0x044
  | .chCfg c => 0x050 + 4 * c.val
  | .dcpred c => 0x060 + 4 * c.val
  | .bsMode => 0x070 | .bsCount => 0x074 | .bsBufLo => 0x078 | .bsBufHi => 0x07C
  | .bsCursor => 0x080 | .bsBase => 0x084 | .bsLimit => 0x088
  | .htInfo t => 0x0C0 + 4 * t.val
  | .blk i => 0x100 + 4 * i.val
  | .qbase k i => 0x200 + 0x100 * k.val + 4 * i.val
  | .qt c i => 0x400 + 0x100 * c.val + 4 * i.val
  | .hsrcBits t i => 0x1000 + 0x800 * t.val + 4 * i.val
  | .hsrcVal t j => 0x1040 + 0x800 * t.val + 4 * j.val

/-- The registers below 0x050 and the BS_ registers, by word number (offset / 4). -/
def lowReg : Nat → Option Reg
  | 0 => some .id | 1 => some .ctrl | 2 => some .status | 3 => some .cmd
  | 4 => some .arg0 | 5 => some .arg1 | 6 => some .result0 | 7 => some .result1 | 8 => some .errpos
  | 9 => some .variant | 10 => some .width | 11 => some .height | 12 => some .padW | 13 => some .padH
  | 14 => some .srcBase | 15 => some .srcLen | 16 => some .dstBase | 17 => some .dstCap
  | 28 => some .bsMode | 29 => some .bsCount | 30 => some .bsBufLo | 31 => some .bsBufHi
  | 32 => some .bsCursor | 33 => some .bsBase | 34 => some .bsLimit
  | _ => none

/-- The HSRC part of the map, by word number from 0x1000 on: 0x200 words a table, BITS then VAL (R14, R31). -/
def hsrcReg (w : Nat) : Option Reg :=
  let t : TableId := Fin.ofNat 4 (w / 0x200)
  let r := w % 0x200
  if r < 16 then some (.hsrcBits t (Fin.ofNat 16 r))
  else if r < 16 + 256 then some (.hsrcVal t (Fin.ofNat 256 (r - 16)))
  else none

/-- The register of word number w of the window (offset 4w); none where the map names none (R14, R33). -/
def regOfWord (w : Nat) : Option Reg :=
  if 20 ≤ w ∧ w < 24 then some (.chCfg (Fin.ofNat 4 (w - 20)))
  else if 24 ≤ w ∧ w < 28 then some (.dcpred (Fin.ofNat 4 (w - 24)))
  else if 48 ≤ w ∧ w < 52 then some (.htInfo (Fin.ofNat 4 (w - 48)))
  else if 64 ≤ w ∧ w < 128 then some (.blk (Fin.ofNat 64 (w - 64)))
  else if 128 ≤ w ∧ w < 256 then some (.qbase (Fin.ofNat 2 ((w - 128) / 64)) (Fin.ofNat 64 (w % 64)))
  else if 256 ≤ w ∧ w < 512 then some (.qt (Fin.ofNat 4 ((w - 256) / 64)) (Fin.ofNat 64 (w % 64)))
  else if 1024 ≤ w ∧ w < 3072 then hsrcReg (w - 1024)
  else lowReg w

/-- The register at an offset of the window; an offset that is not 4-byte-aligned names none. -/
def regAt (off : Nat) : Option Reg := if off % 4 = 0 then regOfWord (off / 4) else none

/-- HT_INFO[t] (R27). -/
def htInfoWord (h : Ht) : Word := u32 (h.minLen.toNat + h.maxLen.toNat * 2 ^ 8 + h.nCodes.toNat * 2 ^ 16)

/-- CH_CFG[c] (R24). -/
def chCfgWord (c : ChCfg) : Word := u32 (c.defval.toNat + c.defen.toNat * 2 ^ 8 + c.quality.toNat * 2 ^ 16)

/-- CH_CFG[c] from a written word; the reserved bits are dropped (R24). -/
def chCfgOfWord (w : Word) : ChCfg :=
  { defval := w.extractLsb' 0 8, defen := w.getLsbD 8, quality := w.extractLsb' 16 7 }

/-- What a register holds (R14 to R31). CMD reads 0; the write-1 bits of CTRL read 0; reserved bits read 0. -/
def readReg (r : Reg) (s : State) : Word :=
  match r with
  | .id => idValue
  | .ctrl => u32 s.irqEn.toNat
  | .status => statusWord s.busy s.status
  | .cmd => 0
  | .arg0 => s.arg0
  | .arg1 => s.arg1
  | .result0 => s.result0
  | .result1 => s.result1
  | .errpos => s.errpos
  | .variant => s.variant.setWidth 32
  | .width => s.width.setWidth 32
  | .height => s.height.setWidth 32
  | .padW => s.padW.setWidth 32
  | .padH => s.padH.setWidth 32
  | .srcBase => s.srcBase
  | .srcLen => s.srcLen
  | .dstBase => s.dstBase
  | .dstCap => s.dstCap
  | .chCfg c => chCfgWord s.chCfg[c]
  | .dcpred c => s.dcpred[c]
  | .bsMode => u32 (bsModeNumber s.bs.mode)
  | .bsCount => s.bs.count.setWidth 32
  | .bsBufLo => s.bs.buf.extractLsb' 0 32
  | .bsBufHi => s.bs.buf.extractLsb' 32 32
  | .bsCursor => s.bs.cursor
  | .bsBase => s.bs.base
  | .bsLimit => s.bs.limit
  | .htInfo t => htInfoWord s.ht[t]
  | .blk i => s.blk[i]
  | .qbase k i => s.qbase[k][i].setWidth 32
  | .qt c i => s.qt[c][i].setWidth 32
  | .hsrcBits t i => s.hsrc[t].bits[i].setWidth 32
  | .hsrcVal t j => s.hsrc[t].vals[j].setWidth 32

/-- The registers whose read while BUSY is a draw (R33, R132). DESIGN CHOICE (log 14): PAD_W and PAD_H too, which the
rule names on neither side. DEDUCED (log 14): ARG0, ARG1, QBASE and HSRC return their contents, as the registers the
host wrote. -/
def drawnWhileBusy : Reg → Bool
  | .result0 | .result1 | .errpos | .dcpred _ | .htInfo _ | .blk _ | .qt _ _ => true
  | .bsMode | .bsCount | .bsBufLo | .bsBufHi | .bsCursor | .bsBase | .bsLimit => true
  | .padW | .padH => true
  | .id | .ctrl | .status | .cmd | .arg0 | .arg1 | .variant | .width | .height => false
  | .srcBase | .srcLen | .dstBase | .dstCap | .chCfg _ | .qbase _ _ | .hsrcBits _ _ | .hsrcVal _ _ => false

/-- A write to a read-write register other than CTRL; a write to a read-only one is ignored (R33), and CMD and CTRL
act in Machine/Hosting.lean. Bits beyond a register's width are dropped. -/
def writePlain (r : Reg) (v : Word) (s : State) : State :=
  match r with
  | .arg0 => { s with arg0 := v }
  | .arg1 => { s with arg1 := v }
  | .variant => { s with variant := v.extractLsb' 0 2 }
  | .width => { s with width := v.extractLsb' 0 16 }
  | .height => { s with height := v.extractLsb' 0 16 }
  | .srcBase => { s with srcBase := v }
  | .srcLen => { s with srcLen := v }
  | .dstBase => { s with dstBase := v }
  | .dstCap => { s with dstCap := v }
  | .chCfg c => { s with chCfg := s.chCfg.set c (chCfgOfWord v) }
  | .blk i => { s with blk := s.blk.set i v }
  | .qbase k i => { s with qbase := s.qbase.set k (s.qbase[k].set i (v.extractLsb' 0 8)) }
  | .hsrcBits t i =>
    { s with hsrc := s.hsrc.set t { s.hsrc[t] with bits := s.hsrc[t].bits.set i (v.extractLsb' 0 8) } }
  | .hsrcVal t j =>
    { s with hsrc := s.hsrc.set t { s.hsrc[t] with vals := s.hsrc[t].vals.set j (v.extractLsb' 0 8) } }
  | .id | .ctrl | .status | .cmd | .result0 | .result1 | .errpos | .padW | .padH => s
  | .dcpred _ | .bsMode | .bsCount | .bsBufLo | .bsBufHi | .bsCursor | .bsBase | .bsLimit => s
  | .htInfo _ | .qt _ _ => s

end Sys2Proof.Machine
end

