-- ==== Sys2Proof/Machine/Hosting.lean ====
section
/-! DEFINITION. The host's side: accepting a command, CTRL, reset, register and DMEM accesses, and the hazards of a
running command (10_state.md R15, R17, R33; 20_memory.md R40; 70_reset_and_hazards.md R126 to R134). -/

namespace Sys2Proof.Machine

/-! ### The running command's DMEM ranges -/

/-- A DMEM range. -/
structure Span where
  base : Nat
  len  : Nat
  deriving DecidableEq, Repr

/-- No byte. -/
def Span.empty : Span := { base := 0, len := 0 }

/-- A byte address lies in a range. -/
def Span.has (r : Span) (a : Nat) : Bool := inRange a r.base r.len

/-- The open stream's range [BS_BASE, BS_BASE + BS_LIMIT) (R34). -/
def streamSpan (s : State) : Span := { base := s.bs.base.toNat, len := s.bs.limit.toNat }

/-- BLK_ENCODE passes its checks (R102). -/
def blkEncodeOk (c : Channel) (k : Kind) (s : State) : Bool :=
  streamOpen .writing s &&
    match blkEncodeItems s.ht[dcTable k] s.ht[acTable k] s.dcpred[c] s.blk s.bs with
    | .items _ => true
    | .fault _ => false

/-- The range a command reads (R34). DEDUCED (log 15): a command whose checks fail accesses nothing (R35, R116). -/
def readSpan (i : Instr) (s : State) : Span :=
  match i with
  | .bsCanSupply n => if canSupplyOk n s then streamSpan s else .empty
  | .htRead _ => if streamOpen .reading s then streamSpan s else .empty
  | .blkDecode _ _ => if streamOpen .reading s then streamSpan s else .empty
  | .upsample => if upsampleOk s then ⟨s.arg0.toNat, quarterPlaneLen s⟩ else .empty
  | .downsample => if downsampleOk s then ⟨s.arg0.toNat, fullPlaneLen s⟩ else .empty
  | .decodeImage => if decodeImageOk s then ⟨s.srcBase.toNat, s.srcLen.toNat⟩ else .empty
  | .encodeImage => if encodeImageOk s then ⟨s.srcBase.toNat, argbLen s⟩ else .empty
  | .nop | .ctxInit | .bsOpenRead | .bsOpenWrite | .bsSupply _ | .bsConsume _ | .bsFlush => .empty
  | .htBuild _ | .htDecode _ _ | .htEncode _ | .htLimits _ => .empty
  | .fdct | .idct | .zigzag | .unzigzag | .shiftClamp _ | .unshift _ => .empty
  | .qAdjust _ _ | .quant _ | .dequant _ | .compose _ | .decompose _ | .blkEncode _ _ => .empty

/-- The sink or destination range a command writes (R34, R128; log 15). -/
def writeSpan (i : Instr) (s : State) : Span :=
  match i with
  | .bsConsume n => if consumeOk n s then streamSpan s else .empty
  | .bsFlush => if flushOk s then streamSpan s else .empty
  | .blkEncode c k => if blkEncodeOk c k s then streamSpan s else .empty
  | .upsample => if upsampleOk s then ⟨s.arg1.toNat, fullPlaneLen s⟩ else .empty
  | .downsample => if downsampleOk s then ⟨s.arg1.toNat, quarterPlaneLen s⟩ else .empty
  | .decodeImage => if decodeImageOk s then ⟨s.dstBase.toNat, argbLen s⟩ else .empty
  | .encodeImage => if encodeImageOk s then ⟨s.dstBase.toNat, s.dstCap.toNat⟩ else .empty
  | .nop | .ctxInit | .bsOpenRead | .bsOpenWrite | .bsCanSupply _ | .bsSupply _ => .empty
  | .htBuild _ | .htDecode _ _ | .htEncode _ | .htLimits _ | .htRead _ => .empty
  | .fdct | .idct | .zigzag | .unzigzag | .shiftClamp _ | .unshift _ => .empty
  | .qAdjust _ _ | .quant _ | .dequant _ | .compose _ | .decompose _ | .blkDecode _ _ => .empty

/-- The instruction of the latched command, if the latch holds one. -/
def runningInstr (s : State) : Option Instr :=
  match s.latch with
  | none => none
  | some w =>
    match decode w with
    | .ok i => some i
    | .error _ => none

/-- The range the running command writes; no byte while idle. -/
def runningWrites (s : State) : Span :=
  match runningInstr s with
  | some i => writeSpan i s
  | none => .empty

/-- The range the running command reads; no byte while idle. -/
def runningReads (s : State) : Span :=
  match runningInstr s with
  | some i => readSpan i s
  | none => .empty

/-! ### Commands, CTRL and reset -/

/-- A word that spells no command completes with IllegalCommand and changes nothing else (R47, R116 item 1). -/
def illegalCommand (s : State) : State := fail .illegalCommand s

/-- A CMD write while idle: the word is latched (R17). DEDUCED (log 12): a word that spells no command completes at
once (R47), in the same step. -/
def acceptCommand (w : Word) (s : State) : State :=
  match decode w with
  | .ok _ => latchCommand w s
  | .error _ => illegalCommand (latchCommand w s)

/-- A CMD write (R17, R131): discarded while BUSY, with OVERRUN set. -/
def writeCmd (w : Word) (s : State) : State :=
  if s.busy then { s with status := statusOverrun s.status } else acceptCommand w s

/-- A reset (R126 to R128): while a command runs, its output range takes draws; DMEM is otherwise unchanged. DEDUCED
(log 21): what the host has still to do, and the data its last read returned, are outside the CORE and stay. -/
def resetCore (s : State) : State :=
  let d := drawRange (runningWrites s).base (runningWrites s).len s
  State.atReset s.cfg (if s.busy then d.mem else s.mem) (if s.busy then d.draws else s.draws) s.busData s.events

/-- A CTRL write (R15): SOFT_RESET wins (DEDUCED for IRQ_EN, log 13); else IRQ_EN takes bit 0 and CLR_STATUS
acknowledges, unless BUSY. -/
def writeCtrl (v : Word) (s : State) : State :=
  if v.getLsbD 1 then resetCore s
  else
    let s1 := { s with irqEn := v.getLsbD 0 }
    if v.getLsbD 2 then acknowledge s1 else s1

/-- A write to a register: CTRL at any time, CMD by R17, every other one only while idle (R33, R132). -/
def writeReg (r : Reg) (v : Word) (s : State) : State :=
  match r with
  | .ctrl => writeCtrl v s
  | .cmd => writeCmd v s
  | other => if s.busy then s else writePlain other v s

/-! ### Host accesses -/

/-- A host access of the window: 32 bits, 4-byte-aligned, inside the window; `none` is an offset the access may take
(R33). -/
def accessRefusal (s : State) (addr bytes : Nat) : Option Refusal :=
  if addr < s.cfg.regBase ∨ s.cfg.regBase + windowSize ≤ addr then some .outsideWindow
  else if bytes ≠ 4 ∨ (addr - s.cfg.regBase) % 4 ≠ 0 then some .registerAccessForm
  else none

/-- The value of a register read: a draw for a result-type register while BUSY, its contents otherwise; 0 at an
offset the map does not name (R33). -/
def hostReadReg (off : Nat) (s : State) : State :=
  match regAt off with
  | none => { s with busData := 0 }
  | some r =>
    if s.busy && drawnWhileBusy r then { s with busData := Config.freeWord s.draws, draws := s.draws + 1 }
    else { s with busData := readReg r s }

/-- A host read of the register window (R33). -/
def hostRegRead (addr bytes : Nat) (s : State) : Answer :=
  match accessRefusal s addr bytes with
  | some r => .refused r
  | none => .next (hostReadReg (addr - s.cfg.regBase) s)

/-- A host write of the register window (R33); an offset the map does not name ignores it. -/
def hostRegWrite (addr bytes : Nat) (v : Word) (s : State) : Answer :=
  match accessRefusal s addr bytes with
  | some r => .refused r
  | none =>
    match regAt (addr - s.cfg.regBase) with
    | none => .next s
    | some r => .next (writeReg r v s)

/-- A host read of a DMEM byte (R40, R134; log 16). -/
def hostMemRead (a : Nat) (s : State) : Answer :=
  if s.cfg.dmemSize ≤ a then .fault .noSuchDmemByte
  else if (runningWrites s).has a then .refused .hostReadHazard
  else .next { s with busData := (memRead s.mem a).setWidth 32 }

/-- A host write of a DMEM byte (R40, R134; log 16). -/
def hostMemWrite (a : Nat) (b : Byte) (s : State) : Answer :=
  if s.cfg.dmemSize ≤ a then .fault .noSuchDmemByte
  else if (runningWrites s).has a || (runningReads s).has a then .refused .hostWriteHazard
  else .next { s with mem := memWrite a [b] s.mem }

end Sys2Proof.Machine
end

