-- ==== Sys2Proof/Machine/Engine.lean ====
section
/-! DEFINITION. What each event does, and the engine's part: the latched command is decoded and runs (10_state.md R13,
R17; 60_exceptions.md R116, R117). -/

namespace Sys2Proof.Machine

/-- The engine completes the latched command: one atomic step (R11). Idle, nothing advances (R13, R125). -/
def runLatched (s : State) : Answer :=
  match s.latch with
  | none => .next s
  | some w =>
    match decode w with
    | .ok i => exec i s
    | .error _ => .next (illegalCommand s)

/-- One event, in the state whose event list no longer holds it. -/
def handle (e : Event) (s : State) : Answer :=
  match e with
  | .regRead addr bytes => hostRegRead addr bytes s
  | .regWrite addr bytes v => hostRegWrite addr bytes v s
  | .memRead a => hostMemRead a.toNat s
  | .memWrite a b => hostMemWrite a.toNat b s
  | .platformReset => .next (resetCore s)
  | .complete => runLatched s

/-- One step: the next event, or, when the host has nothing left to do, the running command's completion (R136: a
finite delay; log 2). -/
def stepEvent (s : State) : Answer :=
  match s.events with
  | [] => runLatched s
  | e :: rest => handle e { s with events := rest }

/-- The state in which a command word has just been accepted and nothing else is to happen before it runs: the
engine's latch is where the next step finds its command (R13, R17). -/
def placeCommand (w : Word) (s : State) : State := { latchCommand w s with events := [] }

end Sys2Proof.Machine
end

