-- ==== Sys2Proof/Machine/Step.lean ====
section
/-! DEFINITION. One step of the CORE with its host (Machine/Engine.lean), and where the next step finds its command.
-/

namespace Sys2Proof.Machine

/-- One step. -/
def step (s : State) : Host.Outcome State Fault Refusal := stepEvent s

/-- s with a command word latched and no host access pending, so that the very next step runs it (log 2). -/
def State.withFetchWord (s : State) (nbits w : Nat) : State := placeCommand (tableWord nbits w) s

end Sys2Proof.Machine
end

