-- ==== Sys2Proof/Safety.lean ====
section
/-! DEFINITION. The terms claims use: the legal states (what every step keeps), the checks of each command spelled out
from its rule, what a completion leaves, and a stream as its bits. -/

namespace Sys2Proof.Machine

/-! ### Legal states -/

/-- DMEM's canonical form, with no byte beyond DMEM_SIZE (20_memory.md R34). -/
def MemoryLegal (s : State) : Prop := memWf s.mem = true ∧ memInside s.cfg.dmemSize s.mem = true

/-- "It always holds a value in [100, 25500]" (10_state.md R30). -/
def ScalesLegal (s : State) : Prop := ∀ (c : Channel) (i : Fin 64), 100 ≤ s.qt[c][i].toNat ∧ s.qt[c][i].toNat ≤ 25500

/-- Every HT[t] is the result of a successful build (10_state.md R32, 41_huffman.md R64). -/
def TablesLegal (s : State) : Prop := ∀ t : TableId, ∃ h : Hsrc, htBuild h = some s.ht[t]

/-- BS_COUNT is within the limit of its mode, and the bits of BUF above it read 0 (10_state.md R26). -/
def bsLegal (b : Bs) : Prop := b.count.toNat ≤ bsCountMax b.mode ∧ b.buf.toNat < 2 ^ b.count.toNat

/-- The BS_ registers are within R26's limits. -/
def StreamLegal (s : State) : Prop := bsLegal s.bs

/-- ERR tells whether ERRCODE is fatal; DONE is 0 while BUSY; ERRCODE is 0 unless DONE; an underrun code comes with
TRUNC (10_state.md R16, R17; 60_exceptions.md R113, R115, R117). -/
def StatusLegal (s : State) : Prop :=
  s.status.err = errFatal s.status.errcode ∧
  (s.busy = true → s.status.done = false) ∧
  (s.status.done = false → s.status.errcode = .none) ∧
  (s.status.errcode = .streamUnderrun → s.status.trunc = true)

/-- "padded dimensions are always multiples of 8" (47_image.md R106). -/
def PaddingLegal (s : State) : Prop := s.padW.toNat % 8 = 0 ∧ s.padH.toNat % 8 = 0

/-- A legal state: all of the above, and parameters within their constraints. -/
structure Legal (s : State) : Prop where
  params  : s.cfg.wf = true
  memory  : MemoryLegal s
  scales  : ScalesLegal s
  tables  : TablesLegal s
  stream  : StreamLegal s
  status  : StatusLegal s
  padding : PaddingLegal s

/-! ### The checks of each command, from its rule -/

/-- A range passes R35: it ends inside DMEM, or it is empty. -/
def RangePasses (s : State) (base len : Nat) : Prop := len = 0 ∨ base + len ≤ s.cfg.dmemSize

/-- Two ranges share no byte. -/
def Disjoint (b1 l1 b2 l2 : Nat) : Prop := ∀ a : Nat, ¬((b1 ≤ a ∧ a < b1 + l1) ∧ (b2 ≤ a ∧ a < b2 + l2))

/-- A stream is open in a mode, and its range passes R35 (log 6). -/
def StreamOpenIn (mode : BsMode) (s : State) : Prop :=
  s.bs.mode = mode ∧ RangePasses s s.bs.base.toNat s.bs.limit.toNat

/-- `ctx_check()` of R105: VARIANT is not 3, the padded image is within MAX_PIXELS, and every channel without a default
value has QUALITY ≤ 100. -/
def ContextPasses (s : State) : Prop :=
  s.variant ≠ 3 ∧ padWidth s * padHeight s ≤ s.cfg.maxPixels ∧
  ∀ c : Channel, s.chCfg[c].defen = true ∨ s.chCfg[c].quality.toNat ≤ 100

/-- The checks UPSAMPLE and DOWNSAMPLE share (R88, R89). -/
def SamplerPasses (srcLen dstLen : Nat) (s : State) : Prop :=
  s.width.toNat % 2 = 0 ∧ s.height.toNat % 2 = 0 ∧
  RangePasses s s.arg0.toNat srcLen ∧ RangePasses s s.arg1.toNat dstLen ∧
  (s.arg0 = s.arg1 ∨ Disjoint s.arg0.toNat srcLen s.arg1.toNat dstLen)

/-- The checks of a command that give IllegalArgument, from the rule of each (60_exceptions.md R114). BLK_ENCODE's two
further checks, the symbols and the room, are in its own statements. -/
def Passes (i : Instr) (s : State) : Prop :=
  match i with
  | .nop => True
  | .ctxInit => ContextPasses s
  | .bsOpenRead => RangePasses s s.srcBase.toNat s.srcLen.toNat
  | .bsOpenWrite => RangePasses s s.dstBase.toNat s.dstCap.toNat
  | .bsCanSupply n => StreamOpenIn .reading s ∧ n ≤ 32
  | .bsSupply n => s.bs.mode = .reading ∧ n ≤ 32 ∧ n ≤ s.bs.count.toNat
  | .bsConsume n =>
    StreamOpenIn .writing s ∧ n ≤ 32 ∧ s.bs.cursor.toNat + (s.bs.count.toNat + n) / 8 ≤ s.bs.limit.toNat
  | .bsFlush =>
    StreamOpenIn .writing s ∧ (s.bs.count ≠ 0 → s.bs.cursor.toNat + 1 ≤ s.bs.limit.toNat)
  | .htBuild t => ∃ h, htBuild s.hsrc[t] = some h
  | .htDecode _ n => n ≤ 32
  | .htEncode _ | .htLimits _ => True
  | .htRead _ => StreamOpenIn .reading s
  | .fdct | .idct | .zigzag | .unzigzag | .shiftClamp _ | .unshift _ => True
  | .qAdjust c _ => s.chCfg[c].quality.toNat ≤ 100
  | .quant _ | .dequant _ => True
  | .upsample => SamplerPasses (quarterPlaneLen s) (fullPlaneLen s) s
  | .downsample => SamplerPasses (fullPlaneLen s) (quarterPlaneLen s) s
  | .compose _ | .decompose _ => True
  | .blkDecode _ _ => StreamOpenIn .reading s
  | .blkEncode _ _ => StreamOpenIn .writing s
  | .decodeImage =>
    ContextPasses s ∧ 4 * s.width.toNat * s.height.toNat ≤ s.dstCap.toNat ∧
    RangePasses s s.srcBase.toNat s.srcLen.toNat ∧
    RangePasses s s.dstBase.toNat (4 * s.width.toNat * s.height.toNat) ∧
    Disjoint s.srcBase.toNat s.srcLen.toNat s.dstBase.toNat (4 * s.width.toNat * s.height.toNat)
  | .encodeImage =>
    ContextPasses s ∧ 4 * s.width.toNat * s.height.toNat ≤ s.srcLen.toNat ∧
    RangePasses s s.srcBase.toNat (4 * s.width.toNat * s.height.toNat) ∧
    RangePasses s s.dstBase.toNat s.dstCap.toNat ∧
    Disjoint s.srcBase.toNat (4 * s.width.toNat * s.height.toNat) s.dstBase.toNat s.dstCap.toNat

/-! ### Completion and frames -/

/-- What R117 says of STATUS and the latch at a completion with a code; TRUNC keeps or gains. -/
structure Completed (code : ErrCode) (underran : Bool) (s t : State) : Prop where
  idle    : t.busy = false
  done    : t.status.done = true
  err     : t.status.err = errFatal code
  errcode : t.status.errcode = code
  trunc   : t.status.trunc = (s.status.trunc || underran)
  overrun : t.status.overrun = s.status.overrun

/-- s after a command that fails its checks or cannot be decoded with a fatal code: STATUS only (R116, R117). -/
def failedWith (code : ErrCode) (s : State) : State :=
  { s with
    latch := none
    status :=
      { done := true, err := true, errcode := code, trunc := s.status.trunc, overrun := s.status.overrun } }

/-- Every byte of DMEM reads as before. -/
def MemSame (s t : State) : Prop := ∀ a : Nat, memRead t.mem a = memRead s.mem a

/-- Every byte of DMEM outside [base, base + len) reads as before. -/
def MemSameOutside (base len : Nat) (s t : State) : Prop :=
  ∀ a : Nat, ¬(base ≤ a ∧ a < base + len) → memRead t.mem a = memRead s.mem a

/-- The registers and tables only the host writes: CTRL.IRQ_EN, ARG0, ARG1 and the configuration of an image, CH_CFG,
QBASE and HSRC; and the parameters and the host's pending accesses. -/
structure HostSideSame (s t : State) : Prop where
  cfg     : t.cfg = s.cfg
  irqEn   : t.irqEn = s.irqEn
  arg0    : t.arg0 = s.arg0
  arg1    : t.arg1 = s.arg1
  variant : t.variant = s.variant
  width   : t.width = s.width
  height  : t.height = s.height
  srcBase : t.srcBase = s.srcBase
  srcLen  : t.srcLen = s.srcLen
  dstBase : t.dstBase = s.dstBase
  dstCap  : t.dstCap = s.dstCap
  chCfg   : t.chCfg = s.chCfg
  qbase   : t.qbase = s.qbase
  hsrc    : t.hsrc = s.hsrc
  busData : t.busData = s.busData
  events  : t.events = s.events

/-! ### A stream as its bits, first bit of the stream first (40_bitstream.md R54) -/

/-- The low n bits of v, most significant first. -/
def msbBits (v n : Nat) : List Bool := (List.range n).map fun i => v.testBit (n - 1 - i)

/-- The bits of a list of bytes, bit 7 of the first byte first. -/
def byteBits (bytes : List Byte) : List Bool := bytes.flatMap fun b => msbBits b.toNat 8

/-- The buffered bits, oldest first. -/
def heldBits (b : Bs) : List Bool := msbBits b.buf.toNat b.count.toNat

/-- The source bytes not yet pulled. -/
def unread (m : Memory) (b : Bs) : List Byte :=
  memBytes m (b.base.toNat + b.cursor.toNat) (b.limit.toNat - b.cursor.toNat)

/-- All that is left of a reading stream: the buffered bits, then the bytes not yet pulled. -/
def streamBits (m : Memory) (b : Bs) : List Bool := heldBits b ++ byteBits (unread m b)

/-- The bits of a list of (value, bit count) items. -/
def itemsBits (items : List (Nat × Nat)) : List Bool := items.flatMap fun e => msbBits e.1 e.2

/-! ### One block of a stream, over its bits (46_block_codec.md R101) -/

/-- A code of the table starts the bits. -/
def StartsWith (t : Ht) (e : CodeEntry) (S : List Bool) : Prop := e ∈ t.codes ∧ msbBits e.code.toNat e.len.toNat <+: S

/-- No code of the table starts the bits. -/
def NoCode (t : Ht) (S : List Bool) : Prop := ∀ e ∈ t.codes, ¬msbBits e.code.toNat e.len.toNat <+: S

/-- What a code read that underruns takes: every bit left, or none where fewer than MINLEN are left (41_huffman.md
R69). -/
def takenAtUnderrun (t : Ht) (S : List Bool) : Nat := if S.length < t.minLen.toNat then 0 else S.length

/-- The next s bits are the unsigned value b (R98). -/
def ReadsBits (S : List Bool) (s b : Nat) : Prop := b < 2 ^ s ∧ S.take s = msbBits b s ∧ s ≤ S.length

/-- v is the signed value of the s magnitude bits b (R98). -/
def MagnitudeIs (b s : Nat) (v : Int) : Prop :=
  (s = 0 → v = 0) ∧ (0 < s → b < 2 ^ (s - 1) → v = b - (2 ^ s - 1)) ∧ (0 < s → 2 ^ (s - 1) ≤ b → v = b)

/-- The AC part of a block, line by line of R101: from position k of block z with the bits S left it ends in `stop`, at
position k' with block z', having taken `used` bits. -/
inductive AcReads (t : Ht) : Nat → Block → List Bool → BlkEnd → Nat → Block → Nat → Prop where
  /-- Position 64: the block is full. -/
  | full (z : Block) (S : List Bool) : AcReads t 64 z S .complete 64 z 0
  /-- Symbol 0x00: the rest of the block stays 0. -/
  | eob {k : Nat} {z : Block} {S : List Bool} {e : CodeEntry} : k < 64 → StartsWith t e S → e.sym = 0x00 →
      AcReads t k z S .complete k z e.len.toNat
  /-- No code, and fewer than MAXLEN bits left: an underrun. -/
  | noBits {k : Nat} {z : Block} {S : List Bool} : k < 64 → NoCode t S → S.length < t.maxLen.toNat →
      AcReads t k z S .truncated k z (takenAtUnderrun t S)
  /-- No code within MAXLEN bits: a fault. -/
  | noMatch {k : Nat} {z : Block} {S : List Bool} : k < 64 → NoCode t S → t.maxLen.toNat ≤ S.length →
      AcReads t k z S .fault k z t.maxLen.toNat
  /-- The run carries the position past 63: a fault. -/
  | runPast {k : Nat} {z : Block} {S : List Bool} {e : CodeEntry} : k < 64 → StartsWith t e S → e.sym ≠ 0x00 →
      63 < k + e.sym.toNat / 16 → AcReads t k z S .fault (k + e.sym.toNat / 16) z e.len.toNat
  /-- The magnitude bits are not all there: an underrun at the position after the run (log 22). -/
  | noMagnitude {k : Nat} {z : Block} {S : List Bool} {e : CodeEntry} : k < 64 → StartsWith t e S → e.sym ≠ 0x00 →
      k + e.sym.toNat / 16 ≤ 63 → S.length < e.len.toNat + e.sym.toNat % 16 →
      AcReads t k z S .truncated (k + e.sym.toNat / 16) z e.len.toNat
  /-- A coefficient after a run of zeros, and the loop goes on. -/
  | coefficient {k : Nat} {z : Block} {S : List Bool} {e : CodeEntry} {b : Nat} {v : Int} {stop : BlkEnd} {k' : Nat}
      {z' : Block} {used : Nat} : k < 64 → StartsWith t e S → e.sym ≠ 0x00 → k + e.sym.toNat / 16 ≤ 63 →
      ReadsBits (S.drop e.len.toNat) (e.sym.toNat % 16) b → MagnitudeIs b (e.sym.toNat % 16) v →
      AcReads t (k + e.sym.toNat / 16 + 1)
        (z.set (Fin.ofNat 64 (k + e.sym.toNat / 16)) (BitVec.ofInt 32 v))
        (S.drop (e.len.toNat + e.sym.toNat % 16)) stop k' z' used →
      AcReads t k z S stop k' z' (e.len.toNat + e.sym.toNat % 16 + used)

/-- A whole block, line by line of R101, with the DC and the AC table: against predictor `pred` the bits S end in
`stop`, at position k with block z and predictor pred', having taken `used` bits. -/
inductive BlkReads (dc ac : Ht) (pred : Word) (S : List Bool) : BlkEnd → Nat → Block → Word → Nat → Prop where
  /-- No DC code, and fewer than MAXLEN bits left: an underrun. -/
  | noBits : NoCode dc S → S.length < dc.maxLen.toNat →
      BlkReads dc ac pred S .truncated 0 (Vector.replicate 64 0) pred (takenAtUnderrun dc S)
  /-- No DC code within MAXLEN bits: a fault. -/
  | noMatch : NoCode dc S → dc.maxLen.toNat ≤ S.length →
      BlkReads dc ac pred S .fault 0 (Vector.replicate 64 0) pred dc.maxLen.toNat
  /-- A DC size above 15: a fault. -/
  | largeSize {e : CodeEntry} : StartsWith dc e S → 15 < e.sym.toNat →
      BlkReads dc ac pred S .fault 0 (Vector.replicate 64 0) pred e.len.toNat
  /-- The DC magnitude bits are not all there: an underrun, and the predictor stays (R99). -/
  | noMagnitude {e : CodeEntry} : StartsWith dc e S → e.sym.toNat ≤ 15 → S.length < e.len.toNat + e.sym.toNat →
      BlkReads dc ac pred S .truncated 0 (Vector.replicate 64 0) pred e.len.toNat
  /-- The DC value is complete: it is the new predictor, whatever the AC part ends in (R99). -/
  | dcValue {e : CodeEntry} {b : Nat} {v : Int} {p : Word} {stop : BlkEnd} {k : Nat} {z : Block} {used : Nat} :
      StartsWith dc e S → e.sym.toNat ≤ 15 → ReadsBits (S.drop e.len.toNat) e.sym.toNat b →
      MagnitudeIs b e.sym.toNat v → p = pred + BitVec.ofInt 32 v →
      AcReads ac 1 ((Vector.replicate 64 0).set 0 p) (S.drop (e.len.toNat + e.sym.toNat)) stop k z used →
      BlkReads dc ac pred S stop k z p (e.len.toNat + e.sym.toNat + used)

/-! ### The items of a block (46_block_codec.md R102) -/

/-- s is the size of v, `bitlen(v)`: the bits |v| takes, 0 for 0 (00_scope.md R9, R98). -/
def SizeIs (v : Int) (s : Nat) : Prop := |v| < 2 ^ s ∧ (0 < s → 2 ^ (s - 1) ≤ |v|)

/-- b are the magnitude bits of v at size s, `mag(v, s)` (R98). -/
def MagBitsAre (v : Int) (s b : Nat) : Prop := (0 ≤ v → (b : Int) = v) ∧ (v < 0 → (b : Int) = v + 2 ^ s - 1)

/-- The table has this code for symbol n. -/
def CodeFor (t : Ht) (n : Nat) (e : CodeEntry) : Prop := e ∈ t.codes ∧ e.sym.toNat = n

/-- Symbol n is no key of the table. -/
def Absent (t : Ht) (n : Nat) : Prop := ∀ e ∈ t.codes, e.sym.toNat ≠ n

/-- The item of a code. -/
def CodeEntry.item (e : CodeEntry) : Nat × Nat := (e.code.toNat, e.len.toNat)

/-- The loop of `blk_symbols`, line by line of R102: at position k, after r zeros, the items still to come, or none for
HuffmanEncodingFault. -/
inductive AcCodes (t : Ht) (z : Block) : Nat → Nat → Option (List (Nat × Nat)) → Prop where
  /-- Position 63 was not a zero: nothing follows. -/
  | full : AcCodes t z 64 0 (some [])
  /-- The block ends in zeros: EOB. -/
  | eob {r : Nat} {e : CodeEntry} : 0 < r → CodeFor t 0x00 e → AcCodes t z 64 r (some [e.item])
  /-- There is no EOB. -/
  | noEob {r : Nat} : 0 < r → Absent t 0x00 → AcCodes t z 64 r none
  /-- A zero is counted. -/
  | zero {k : Fin 64} {r : Nat} {l : Option (List (Nat × Nat))} : z[k] = 0 → AcCodes t z (k.val + 1) (r + 1) l →
      AcCodes t z k.val r l
  /-- Sixteen zeros before a coefficient: ZRL. -/
  | zrl {k : Fin 64} {r : Nat} {e : CodeEntry} {l : Option (List (Nat × Nat))} : z[k] ≠ 0 → 16 ≤ r →
      CodeFor t 0xF0 e → AcCodes t z k.val (r - 16) l → AcCodes t z k.val r (l.map fun l => e.item :: l)
  /-- There is no ZRL. -/
  | noZrl {k : Fin 64} {r : Nat} : z[k] ≠ 0 → 16 ≤ r → Absent t 0xF0 → AcCodes t z k.val r none
  /-- A size above 15. -/
  | largeSize {k : Fin 64} {r s : Nat} : z[k] ≠ 0 → r < 16 → SizeIs z[k].toInt s → 15 < s → AcCodes t z k.val r none
  /-- The run and the size have no code. -/
  | noCode {k : Fin 64} {r s : Nat} : z[k] ≠ 0 → r < 16 → SizeIs z[k].toInt s → s ≤ 15 → Absent t (16 * r + s) →
      AcCodes t z k.val r none
  /-- A coefficient: the code of its run and size, its magnitude, and the run starts again. -/
  | coefficient {k : Fin 64} {r s b : Nat} {e : CodeEntry} {l : Option (List (Nat × Nat))} : z[k] ≠ 0 → r < 16 →
      SizeIs z[k].toInt s → s ≤ 15 → CodeFor t (16 * r + s) e → MagBitsAre z[k].toInt s b →
      AcCodes t z (k.val + 1) 0 l → AcCodes t z k.val r (l.map fun l => e.item :: (b, s) :: l)

/-- `blk_symbols`, line by line of R102, with the DC and the AC table: the items of block z against predictor `pred`, or
none for HuffmanEncodingFault. -/
inductive BlkCodes (dc ac : Ht) (pred : Word) (z : Block) : Option (List (Nat × Nat)) → Prop where
  /-- The DC difference has a size above 15. -/
  | largeSize {s : Nat} : SizeIs (z[0] - pred).toInt s → 15 < s → BlkCodes dc ac pred z none
  /-- The DC size has no code. -/
  | noCode {s : Nat} : SizeIs (z[0] - pred).toInt s → s ≤ 15 → Absent dc s → BlkCodes dc ac pred z none
  /-- The code of the DC size, the magnitude, and the AC part from position 1 on. -/
  | dcValue {s b : Nat} {e : CodeEntry} {l : Option (List (Nat × Nat))} : SizeIs (z[0] - pred).toInt s → s ≤ 15 →
      CodeFor dc s e → MagBitsAre (z[0] - pred).toInt s b → AcCodes ac z 1 0 l →
      BlkCodes dc ac pred z (l.map fun l => e.item :: (b, s) :: l)

/-- With built tables `blkSymbols` gives a block the items of R102, and none exactly where R102 has
HuffmanEncodingFault, line by line; the tables of a kind are those of R62. -/
def ItemsLineByLine : Prop :=
  (dcTable .luminance = 0 ∧ acTable .luminance = 1 ∧ dcTable .chrominance = 2 ∧ acTable .chrominance = 3) ∧
  ∀ (s : State) (k : Kind) (pred : Word) (z : Block), TablesLegal s → ∀ r : Option (List (Nat × Nat)),
    BlkCodes s.ht[dcTable k] s.ht[acTable k] pred z r ↔ blkSymbols s.ht[dcTable k] s.ht[acTable k] pred z = r

/-! ### Which codes a command reports (60_exceptions.md R114) -/

/-- The row of R114 for a command whose word is well formed; code 0 is always possible. -/
def reportable : Instr → List ErrCode
  | .nop => [.none]
  | .ctxInit => [.none, .illegalArgument]
  | .bsOpenRead | .bsOpenWrite => [.none, .illegalArgument]
  | .bsCanSupply _ | .bsSupply _ => [.none, .illegalArgument]
  | .bsConsume _ | .bsFlush => [.none, .illegalArgument]
  | .htBuild _ => [.none, .illegalArgument]
  | .htDecode _ _ => [.none, .illegalArgument]
  | .htEncode _ | .htLimits _ => [.none]
  | .htRead _ => [.none, .streamUnderrun, .huffmanDecodingFault, .illegalArgument]
  | .fdct | .idct | .zigzag | .unzigzag | .shiftClamp _ | .unshift _ => [.none]
  | .qAdjust _ _ => [.none, .illegalArgument]
  | .quant _ | .dequant _ => [.none]
  | .upsample | .downsample => [.none, .illegalArgument]
  | .compose _ | .decompose _ => [.none]
  | .blkDecode _ _ => [.none, .streamUnderrun, .huffmanDecodingFault, .illegalArgument]
  | .blkEncode _ _ => [.none, .huffmanEncodingFault, .illegalArgument]
  | .decodeImage => [.none, .streamUnderrun, .huffmanDecodingFault, .illegalArgument]
  | .encodeImage => [.none, .huffmanEncodingFault, .illegalArgument]

/-! ### The state after reset (70_reset_and_hazards.md R127) -/

/-- What R127 says each register and table holds after a reset; the hidden planes are unspecified there. -/
structure ResetState (t : State) : Prop where
  idle    : t.latch = none
  irqEn   : t.irqEn = false
  irq     : t.irq = false
  flags   : t.status.done = false ∧ t.status.err = false ∧ t.status.trunc = false ∧ t.status.overrun = false
  errcode : t.status.errcode = .none
  args    : t.arg0 = 0 ∧ t.arg1 = 0
  results : t.result0 = 0 ∧ t.result1 = 0 ∧ t.errpos = 0
  image   : t.variant = 0 ∧ t.width = 0 ∧ t.height = 0 ∧ t.padW = 0 ∧ t.padH = 0
  ranges  : t.srcBase = 0 ∧ t.srcLen = 0 ∧ t.dstBase = 0 ∧ t.dstCap = 0
  chCfg   : ∀ c : Channel, readReg (.chCfg c) t = 0
  dcpred  : ∀ c : Channel, t.dcpred[c] = 0
  stream  : t.bs.mode = .idle ∧ t.bs.count = 0 ∧ t.bs.buf = 0 ∧ t.bs.cursor = 0 ∧ t.bs.base = 0 ∧ t.bs.limit = 0
  blk     : ∀ i : Fin 64, t.blk[i] = 0
  scales  : ∀ (c : Channel) (i : Fin 64), t.qt[c][i] = 100
  qbase   : ∀ i : Fin 64, t.qbase[0][i].toNat = qbaseLuminance.getD i.val 0 ∧
    t.qbase[1][i].toNat = qbaseChrominance.getD i.val 0
  bits    : ∀ i : Fin 16, t.hsrc[0].bits[i].toNat = bitsDcLuminance.getD i.val 0 ∧
    t.hsrc[1].bits[i].toNat = bitsAcLuminance.getD i.val 0 ∧
    t.hsrc[2].bits[i].toNat = bitsDcChrominance.getD i.val 0 ∧
    t.hsrc[3].bits[i].toNat = bitsAcChrominance.getD i.val 0
  vals    : ∀ j : Fin 256, t.hsrc[0].vals[j].toNat = valDc.getD j.val 0 ∧
    t.hsrc[1].vals[j].toNat = valAcLuminance.getD j.val 0 ∧
    t.hsrc[2].vals[j].toNat = valDc.getD j.val 0 ∧
    t.hsrc[3].vals[j].toNat = valAcChrominance.getD j.val 0
  tables  : ∀ k : TableId, htBuild t.hsrc[k] = some t.ht[k]
  htInfo  : readReg (.htInfo 0) t = 0x000C0902 ∧ readReg (.htInfo 1) t = 0x00A21002 ∧
    readReg (.htInfo 2) t = 0x000C0B02 ∧ readReg (.htInfo 3) t = 0x00A21002

/-! ### What a host write stores (10_state.md R18 to R31, R33) -/

/-- The bits of a register a host write stores; none for a register it cannot write, and for CTRL and CMD, whose
writes act (R15, R17). -/
def storedBits : Reg → Option Word
  | .arg0 | .arg1 | .srcBase | .srcLen | .dstBase | .dstCap | .blk _ => some 0xFFFFFFFF
  | .variant => some 0x00000003
  | .width | .height => some 0x0000FFFF
  | .chCfg _ => some 0x007F01FF
  | .qbase _ _ | .hsrcBits _ _ | .hsrcVal _ _ => some 0x000000FF
  | .id | .ctrl | .status | .cmd | .result0 | .result1 | .errpos | .padW | .padH => none
  | .dcpred _ | .bsMode | .bsCount | .bsBufLo | .bsBufHi | .bsCursor | .bsBase | .bsLimit => none
  | .htInfo _ | .qt _ _ => none

/-! ### The window, row by row of R14 -/

/-- The register map of R14 as the host reads it: the offset, what the register there holds, and whether a read while
BUSY is a free value: so for RESULT0, RESULT1, ERRPOS, DCPRED, the BS_ registers, HT_INFO, BLK and QT (R33, R132), and
for PAD_W and PAD_H, where the contents of ARG0, ARG1, QBASE and HSRC stay readable, by the model's choice (log 14). The
fields inside STATUS, CH_CFG and HT_INFO are in RegisterWordLayout. -/
inductive WindowHolds (s : State) : Nat → Word → Bool → Prop where
  | id : WindowHolds s 0x000 0x4E564A01 false
  | ctrl : WindowHolds s 0x004 (if s.irqEn then 1 else 0) false
  | status : WindowHolds s 0x008 (readReg .status s) false
  | cmd : WindowHolds s 0x00C 0 false
  | arg0 : WindowHolds s 0x010 s.arg0 false
  | arg1 : WindowHolds s 0x014 s.arg1 false
  | result0 : WindowHolds s 0x018 s.result0 true
  | result1 : WindowHolds s 0x01C s.result1 true
  | errpos : WindowHolds s 0x020 s.errpos true
  | variant : WindowHolds s 0x024 (BitVec.ofNat 32 s.variant.toNat) false
  | width : WindowHolds s 0x028 (BitVec.ofNat 32 s.width.toNat) false
  | height : WindowHolds s 0x02C (BitVec.ofNat 32 s.height.toNat) false
  | padW : WindowHolds s 0x030 (BitVec.ofNat 32 s.padW.toNat) true
  | padH : WindowHolds s 0x034 (BitVec.ofNat 32 s.padH.toNat) true
  | srcBase : WindowHolds s 0x038 s.srcBase false
  | srcLen : WindowHolds s 0x03C s.srcLen false
  | dstBase : WindowHolds s 0x040 s.dstBase false
  | dstCap : WindowHolds s 0x044 s.dstCap false
  | chCfg (c : Channel) : WindowHolds s (0x050 + 4 * c.val) (readReg (.chCfg c) s) false
  | dcpred (c : Channel) : WindowHolds s (0x060 + 4 * c.val) s.dcpred[c] true
  | bsIdle : s.bs.mode = .idle → WindowHolds s 0x070 0 true
  | bsReading : s.bs.mode = .reading → WindowHolds s 0x070 1 true
  | bsWriting : s.bs.mode = .writing → WindowHolds s 0x070 2 true
  | bsCount : WindowHolds s 0x074 (BitVec.ofNat 32 s.bs.count.toNat) true
  | bsBufLo {lo hi : Word} : hi ++ lo = s.bs.buf → WindowHolds s 0x078 lo true
  | bsBufHi {lo hi : Word} : hi ++ lo = s.bs.buf → WindowHolds s 0x07C hi true
  | bsCursor : WindowHolds s 0x080 s.bs.cursor true
  | bsBase : WindowHolds s 0x084 s.bs.base true
  | bsLimit : WindowHolds s 0x088 s.bs.limit true
  | htInfo (k : TableId) : WindowHolds s (0x0C0 + 4 * k.val) (readReg (.htInfo k) s) true
  | blk (i : Fin 64) : WindowHolds s (0x100 + 4 * i.val) s.blk[i] true
  | qbase (k : Fin 2) (i : Fin 64) :
      WindowHolds s (0x200 + 0x100 * k.val + 4 * i.val) (BitVec.ofNat 32 s.qbase[k][i].toNat) false
  | qt (c : Channel) (i : Fin 64) :
      WindowHolds s (0x400 + 0x100 * c.val + 4 * i.val) (BitVec.ofNat 32 s.qt[c][i].toNat) true
  | hsrcBits (k : TableId) (i : Fin 16) :
      WindowHolds s (0x1000 + 0x800 * k.val + 4 * i.val) (BitVec.ofNat 32 s.hsrc[k].bits[i].toNat) false
  | hsrcVal (k : TableId) (j : Fin 256) :
      WindowHolds s (0x1040 + 0x800 * k.val + 4 * j.val) (BitVec.ofNat 32 s.hsrc[k].vals[j].toNat) false

/-! ### The canonical code, in closed form (41_huffman.md R64) -/

/-- The codes shorter than L. -/
def Hsrc.codesBefore (h : Hsrc) (L : Nat) : Nat := (h.counts.take (L - 1)).sum

/-- The first code of length L: every shorter code, moved left to length L. -/
def Hsrc.firstCode (h : Hsrc) (L : Nat) : Nat :=
  ((List.range (L - 1)).map fun i => h.counts.getD i 0 * 2 ^ (L - 1 - i)).sum

/-- What a source must be for the build to succeed: 1 to 256 codes, no symbol twice, no length over-subscribed. -/
def Hsrc.WellFormed (h : Hsrc) : Prop :=
  1 ≤ h.total ∧ h.total ≤ 256 ∧ (h.vals.toList.take h.total).Nodup ∧
  ∀ L : Nat, 1 ≤ L → L ≤ 16 → h.firstCode L + h.counts.getD (L - 1) 0 ≤ 2 ^ L

/-! ### The iteration order (47_image.md R107) -/

/-- The row of R91 for each variant but the reserved one. -/
def VariantTable : Prop := ∀ (v : BitVec 2) (c : Channel), v ≠ 3 →
  variantMode v = (if v = 2 then .direct else .colourDifference) ∧
  variantKind v c = (if v ≠ 2 ∧ (c = 1 ∨ c = 2) then .chrominance else .luminance) ∧
  (variantSub v c = true ↔ v = 0 ∧ (c = 1 ∨ c = 2)) ∧ variantUnit v = if v = 0 then 16 else 8

/-- How many blocks of a channel stand side by side in a macroblock: two for a full-resolution channel of the 16-unit
variant, else one. -/
def blocksAcross (s : State) (c : Channel) : Nat := if s.variant = 0 ∧ (c = 0 ∨ c = 3) then 2 else 1

/-- What orders the blocks of the stream, the first entry first: the macroblock's row, its column, the channel, the
block's row, its column. -/
def streamKey (s : State) (pos : BlockPos) : List Nat :=
  [pos.by_ / blocksAcross s pos.c, pos.bx / blocksAcross s pos.c, pos.c.val, pos.by_, pos.bx]

/-- The list is the image's blocks in stream order: those of the macroblocks that begin inside the image, of each
channel without a default value, in the order of their keys. -/
structure InStreamOrder (s : State) (l : List BlockPos) : Prop where
  places : ∀ (unit : Nat), unit = (if s.variant = 0 then 16 else 8) → ∀ pos : BlockPos, pos ∈ l ↔
    s.chCfg[pos.c].defen = false ∧ pos.bx / blocksAcross s pos.c * unit < s.width.toNat ∧
      pos.by_ / blocksAcross s pos.c * unit < s.height.toNat
  order : l.Pairwise fun a b => streamKey s a < streamKey s b

/-! ### Images as lists of coded blocks (47_image.md R107 to R110) -/

/-- The predictors after blocks with these first coefficients (46_block_codec.md R99). -/
def lastDc : Vector Word 4 → List (BlockPos × Block) → Vector Word 4
  | pred, [] => pred
  | pred, (pos, z) :: rest => lastDc (pred.set pos.c z[0]) rest

/-- The items of a list of zigzag blocks coded one after another, each against its channel's predictor and with the
tables of its channel's kind; none where a block has no code (46_block_codec.md R102). -/
def codedItems (s : State) : Vector Word 4 → List (BlockPos × Block) → Option (List (Nat × Nat))
  | _, [] => some []
  | pred, (pos, z) :: rest =>
    let k := variantKind s.variant pos.c
    match blkSymbols s.ht[dcTable k] s.ht[acTable k] pred[pos.c] z, codedItems s (pred.set pos.c z[0]) rest with
    | some items, some more => some (items ++ more)
    | _, _ => none

/-- v is the sample of channel c at pixel (x, y) of the image whose quantised blocks are zs: the default value of a
channel that has one; else the entry of the reconstructed block that covers the pixel, in a plane of half the width
and height for a subsampled channel (R108). -/
def SampleIs (s : State) (qt : Vector (Vector (BitVec 15) 64) 4) (zs : List (BlockPos × Block)) (c : Channel) (x y : Nat)
    (v : Int) : Prop :=
  if s.chCfg[c].defen then v = s.chCfg[c].defval.toNat
  else
    let x' := if variantSub s.variant c then x / 2 else x
    let y' := if variantSub s.variant c then y / 2 else y
    ∃ z : Block, (⟨c, x' / 8, y' / 8⟩, z) ∈ zs ∧
      v = blkAt (reconstruct (variantKind s.variant c) qt[c] z) (y' % 8) (x' % 8)

/-! ### The image pipelines, by the block commands (47_image.md R108, R110) -/

/-- t is the state after the instructions, run one after another from s. -/
def Runs : List Instr → State → State → Prop
  | [], s, t => t = s
  | i :: rest, s, t => ∃ u, exec i s = .next u ∧ Runs rest u t

/-- The scale tables `ctx_setup()` leaves, by the formula of R82: a new one for each channel without a default value
(R105). -/
def ContextScales (s : State) (qt : Vector (Vector (BitVec 15) 64) 4) : Prop := ∀ (c : Channel) (i : Fin 64),
  (s.chCfg[c].defen = true → qt[c][i] = s.qt[c][i]) ∧
  (s.chCfg[c].defen = false → ∀ k : Fin 2, k = (if s.variant ≠ 2 ∧ (c = 1 ∨ c = 2) then 1 else 0) →
    (qt[c][i].toNat : Int) =
      max 100 (min 25500 (s.qbase[k][i].toNat * (200 - 2 * (s.chCfg[c].quality.toNat : Int)))))

/-- `reconstruct` is UNZIGZAG, DEQUANT, IDCT and SHIFT_CLAMP, one after another, from a zigzag block in BLK (R108). -/
def ReconstructRuns : Prop := ∀ (s : State) (c : Channel) (k : Kind) (z : Block),
  ∃ t, Runs [.unzigzag, .dequant c, .idct, .shiftClamp k] { s with blk := z } t ∧ t.blk = reconstruct k s.qt[c] z

/-- Every pixel of the image stands in DMEM at DST_BASE + 4(y·WIDTH + x), A R G B: it is COMPOSE, in the variant's
mode, of the four channels' samples at (x, y) (R108). -/
def WritesPixels (s : State) (qt : Vector (Vector (BitVec 15) 64) 4) (zs : List (BlockPos × Block)) (m : Memory) :
    Prop :=
  ∀ x y : Nat, x < s.width.toNat → y < s.height.toNat → ∃ (b : Block) (u : State),
    (∀ c : Channel, SampleIs s qt zs c x y b[Fin.castLE (m := 64) (by decide) c].toInt) ∧
    exec (.compose (variantMode s.variant)) { s with blk := b } = .next u ∧
    memBytes m (s.dstBase.toNat + 4 * (y * s.width.toNat + x)) 4 =
      [u.result0.extractLsb' 24 8, u.result0.extractLsb' 16 8, u.result0.extractLsb' 8 8, u.result0.extractLsb' 0 8]

/-- v is the sample of channel c at pixel (x, y) of the source: DECOMPOSE, in the variant's mode, of the word whose
bytes A R G B stand at SRC_BASE + 4(y·WIDTH + x), or of 0 in the padding (R110). -/
def InputSampleIs (s : State) (c : Channel) (x y : Nat) (v : Int) : Prop :=
  ∃ (w : Word) (u : State),
    (x < s.width.toNat ∧ y < s.height.toNat →
      [w.extractLsb' 24 8, w.extractLsb' 16 8, w.extractLsb' 8 8, w.extractLsb' 0 8] =
        memBytes s.mem (s.srcBase.toNat + 4 * (y * s.width.toNat + x)) 4) ∧
    (¬(x < s.width.toNat ∧ y < s.height.toNat) → w = 0) ∧
    exec (.decompose (variantMode s.variant)) { s with arg0 := w } = .next u ∧
    v = u.blk[Fin.castLE (m := 64) (by decide) c].toInt

/-- v is the sample of channel c at (x, y) of the coded plane: for a subsampled channel the average of a 2×2 cell,
truncated toward zero (44_sampler.md R89), else the sample itself (R110). -/
def PlaneSampleIs (s : State) (c : Channel) (x y : Nat) (v : Int) : Prop :=
  if variantSub s.variant c then
    ∃ v1 v2 v3 v4 sum : Int, InputSampleIs s c (2 * x) (2 * y) v1 ∧ InputSampleIs s c (2 * x + 1) (2 * y) v2 ∧
      InputSampleIs s c (2 * x) (2 * y + 1) v3 ∧ InputSampleIs s c (2 * x + 1) (2 * y + 1) v4 ∧
      sum = v1 + v2 + v3 + v4 ∧ 4 * |v| ≤ |sum| ∧ |sum| < 4 * |v| + 4 ∧ 0 ≤ v * sum
  else InputSampleIs s c x y v

/-- The blocks ENCODE_IMAGE codes are, in the iteration's order, what UNSHIFT, FDCT, QUANT and ZIGZAG, one after
another, make of the 8×8 plane samples of each place (R110). -/
def PreparedRuns : Prop := ∀ (s : State) (qt : Vector (Vector (BitVec 15) 64) 4),
  (preparedBlocks s qt).map Prod.fst = blocks s ∧
  ∀ e ∈ preparedBlocks s qt, ∃ (b : Block) (t : State),
    (∀ y x : Fin 8, PlaneSampleIs s e.1.c (8 * e.1.bx + x) (8 * e.1.by_ + y) (blkAt b y x)) ∧
    Runs [.unshift (variantKind s.variant e.1.c), .fdct, .quant e.1.c, .zigzag] { s with qt := qt, blk := b } t ∧
    e.2 = t.blk

/-- The states of an image decoded block by block: CTX_INIT and BS_OPEN_READ, then BLK_DECODE of each block of the
iteration; `f n` is the state before block n (R105, R108). -/
structure BlockByBlock (s : State) (f : Nat → State) : Prop where
  opened : Runs [.ctxInit, .bsOpenRead] s (f 0)
  block  : ∀ (n : Nat) (pos : BlockPos), (blocks s)[n]? = some pos →
    exec (.blkDecode pos.c (variantKind s.variant pos.c)) (f n) = .next (f (n + 1))

/-- Block n is the first that faulted or underran (10_state.md R19). -/
def FirstBad (s : State) (f : Nat → State) (n : Nat) : Prop :=
  n < (blocks s).length ∧ (f (n + 1)).status.errcode ≠ .none ∧ ∀ m < n, (f (m + 1)).status.errcode = .none

end Sys2Proof.Machine
end

