-- ==== Sys2Proof/Certificates/Slice0/Obligations.lean ====
section
/-! DEFINITION. The statements for the provers. Each says what the rules it names say; the checks of a command are
`Passes` and the other terms are in Sys2Proof/Safety.lean. "The engine's own effect" is stated by an equation
`exec i s = .next t`, and what the command leaves unchanged by an equation t = s with the fields it may write. -/

open Sys2Proof Sys2Proof.Machine

/-! ### Encoding (30_encoding.md) -/

/-- Decoding the word of a well-formed instruction gives the instruction, and a word that decodes is the word of a
well-formed instruction: no bit of an encoding is dropped, and no two words mean the same (R45 to R49, R51). -/
def Obligations.DecodeAndEncodeAgree : Prop :=
  (∀ i : Instr, i.wf = true → decode (encode i) = .ok i) ∧
  ∀ (w : Word) (i : Instr), decode w = .ok i → i.wf = true ∧ encode i = w

/-- The words that spell a command are those of the opcode table's masks: the opcode is listed, bits 31:18 are 0 and
so is every field the command does not use (R45, R47, R48, R50). -/
def Obligations.LegalWordsAreTheTable : Prop :=
  ∀ w : Word, (∃ i, decode w = .ok i) ↔
    (w ∈ [0x00, 0x01, 0x10, 0x11, 0x15, 0x30, 0x31, 0x32, 0x33, 0x50, 0x51, 0x80, 0x81] ∨
      w &&& 0xFFFFC0FF ∈ [0x12, 0x13, 0x14] ∨
      w &&& 0xFFFCFFFF ∈ [0x20, 0x22, 0x23, 0x24] ∨
      w &&& 0xFFFCC0FF = 0x21 ∨
      w &&& 0xFFFEFFFF ∈ [0x34, 0x35, 0x60, 0x61] ∨
      w &&& 0xFFFF3FFF ∈ [0x41, 0x42] ∨
      w &&& 0xFFFE3FFF ∈ [0x40, 0x70, 0x71])

/-- Words written out from the format and the opcode map, the five examples of R49 among them. -/
def Obligations.ListedWordsDecode : Prop :=
  decode 0x00000000 = .ok .nop ∧ decode 0x00000513 = .ok (.bsSupply 5) ∧ decode 0x00010024 = .ok (.htRead 1) ∧
  decode 0x00030821 = .ok (.htDecode 3 8) ∧ decode 0x00000030 = .ok .fdct ∧
  decode 0x00010034 = .ok (.shiftClamp .chrominance) ∧ decode 0x00018040 = .ok (.qAdjust 2 .chrominance) ∧
  decode 0x00000051 = .ok .downsample ∧ decode 0x00010060 = .ok (.compose .colourDifference) ∧
  decode 0x0000C070 = .ok (.blkDecode 3 .luminance) ∧ decode 0x00000081 = .ok .encodeImage

/-! ### A step -/

/-- A step in which the latched command completes is `exec` of the decoded instruction, and nothing else; an idle
engine does nothing (R13, R17, R125). That a running command completes at the event `complete` and when the host has
nothing left to do is the model's choice (log 2). -/
def Obligations.StepRunsTheLatchedCommand : Prop :=
  ∀ s : State,
    (∀ (w : Word) (i : Instr), s.latch = some w → decode w = .ok i →
      (s.events = [] → step s = exec i s) ∧
      ∀ rest, s.events = .complete :: rest → step s = exec i { s with events := rest }) ∧
    (s.latch = none →
      (s.events = [] → step s = .next s) ∧
      ∀ rest, s.events = .complete :: rest → step s = .next { s with events := rest })

/-- Where the next step finds its command: after `withFetchWord` with an instruction's word, the next step runs exactly
that instruction, in the state R17 gives at acceptance (log 2). -/
def Obligations.FetchedWordRunsNext : Prop :=
  ∀ (s : State) (i : Instr), i.wf = true →
    step (s.withFetchWord 32 (encode i).toNat) =
      exec i { s with
        latch := some (encode i)
        status := { s.status with done := false, err := false, errcode := .none }
        events := [] }

/-! ### The host's side (10_state.md, 60_exceptions.md, 70_reset_and_hazards.md) -/

/-- A CMD write while idle of a word that spells a command is accepted, BUSY rises, DONE, ERR and ERRCODE fall, TRUNC
and OVERRUN stay, and so the interrupt falls; CMD reads 0 (R17, R120). -/
def Obligations.CmdWriteIsAccepted : Prop :=
  ∀ (s : State) (rest : List Event),
    (∀ (w : Word) (i : Instr), s.events = .regWrite (s.cfg.regBase + 0x00C) 4 w :: rest → s.busy = false →
      decode w = .ok i →
      ∃ t, step s = .next t ∧ t.busy = true ∧ t.irq = false ∧ t.status.trunc = s.status.trunc ∧
        t.status.overrun = s.status.overrun ∧ t.status.done = false ∧ t.status.err = false ∧
        t.status.errcode = .none ∧ t = { s with events := rest, latch := some w, status := t.status }) ∧
    (s.events = .regRead (s.cfg.regBase + 0x00C) 4 :: rest →
      step s = .next { s with events := rest, busData := 0 })

/-- A word that spells no command completes at once with IllegalCommand and changes nothing else (R47, R116 item 1).
That it does so in the step of the CMD write is the model's reading (log 12). -/
def Obligations.IllegalWordCompletesAtOnce : Prop :=
  ∀ (s : State) (w : Word), (∀ i, decode w ≠ .ok i) →
    (∀ rest, s.events = .regWrite (s.cfg.regBase + 0x00C) 4 w :: rest → s.busy = false →
      step s = .next (failedWith .illegalCommand { s with events := rest })) ∧
    (s.events = [] → s.latch = some w → step s = .next (failedWith .illegalCommand s))

/-- R131: a CMD write while BUSY is discarded and sets OVERRUN, which stays 1 until CTRL.CLR_STATUS or a reset. -/
def Obligations.OverrunMarksALostCommand : Prop :=
  (∀ (s : State) (w : Word) (rest : List Event), s.events = .regWrite (s.cfg.regBase + 0x00C) 4 w :: rest →
    s.busy = true → step s = .next { s with events := rest, status := { s.status with overrun := true } }) ∧
  ∀ s t : State, s.status.overrun = true → step s = .next t →
    (∀ rest, s.events ≠ .platformReset :: rest) →
    (∀ n v rest, s.events = .regWrite (s.cfg.regBase + 0x004) n v :: rest →
      v.getLsbD 1 = false ∧ v.getLsbD 2 = false) →
    t.status.overrun = true

/-- TRUNC is sticky: only CTRL.CLR_STATUS, a reset, and the commands CTX_INIT, DECODE_IMAGE and ENCODE_IMAGE clear it
(R16, R115). -/
def Obligations.TruncIsSticky : Prop :=
  ∀ s t : State, s.status.trunc = true → step s = .next t →
    (∀ rest, s.events ≠ .platformReset :: rest) →
    (∀ n v rest, s.events = .regWrite (s.cfg.regBase + 0x004) n v :: rest →
      v.getLsbD 1 = false ∧ v.getLsbD 2 = false) →
    runningInstr s ∉ [some .ctxInit, some .decodeImage, some .encodeImage] →
    t.status.trunc = true

/-- R15: a CTRL write without SOFT_RESET stores IRQ_EN and, with CLR_STATUS while idle, clears the five flags; with
SOFT_RESET it resets at any time; CTRL reads IRQ_EN in bit 0 and 0 elsewhere. That IRQ_EN is 0 after a write that sets
both bit 0 and bit 1 is the model's reading (log 13). -/
def Obligations.CtrlWriteActs : Prop :=
  ∀ (s : State) (rest : List Event),
    (∀ v : Word, s.events = .regWrite (s.cfg.regBase + 0x004) 4 v :: rest →
      (v.getLsbD 1 = false → (v.getLsbD 2 = false ∨ s.busy = true) →
        step s = .next { s with events := rest, irqEn := v.getLsbD 0 }) ∧
      (v.getLsbD 1 = false → v.getLsbD 2 = true → s.busy = false →
        step s = .next { s with
          events := rest
          irqEn := v.getLsbD 0
          status := { done := false, err := false, trunc := false, overrun := false, errcode := .none } }) ∧
      (v.getLsbD 1 = true → ∃ t, step s = .next t ∧ ResetState t)) ∧
    (s.events = .regRead (s.cfg.regBase + 0x004) 4 :: rest →
      step s = .next { s with events := rest, busData := if s.irqEn then 1 else 0 })

/-- The machine right after reset holds what R127 lists. Both resets have the same effect, from every state, also while
a command runs: the state of R127; DMEM changes at most in the range the running command could write (R126 to R128).
The range is `runningWrites` (log 15), what
the host has still to do stays (log 21), and IRQ_EN is 0 also after a CTRL write that sets bit 0 beside SOFT_RESET
(log 13). -/
def Obligations.ResetFromEveryState : Prop :=
  ResetState State.reset ∧
  ∀ (s : State) (rest : List Event),
    (s.events = .platformReset :: rest ∨
      ∃ v : Word, v.getLsbD 1 = true ∧ s.events = .regWrite (s.cfg.regBase + 0x004) 4 v :: rest) →
    ∃ t, step s = .next t ∧ step { s with events := .platformReset :: rest } = .next t ∧ ResetState t ∧
      t.cfg = s.cfg ∧ t.events = rest ∧ MemSameOutside (runningWrites s).base (runningWrites s).len s t

/-- The register map is one to one: every register of R14 has its own 4-byte-aligned offset below 0x3000, and no offset
names another. -/
def Obligations.RegisterMapIsOneToOne : Prop :=
  (∀ r : Reg, regOffset r % 4 = 0 ∧ regOffset r < 0x3000 ∧ regAt (regOffset r) = some r) ∧
  ∀ (off : Nat) (r : Reg), regAt off = some r → regOffset r = off

/-- The fields of the STATUS, CH_CFG and HT_INFO words, bit by bit (R16, R24, R27). -/
def Obligations.RegisterWordLayout : Prop :=
  ∀ s : State,
    ((readReg .status s).getLsbD 0 = s.busy ∧ (readReg .status s).getLsbD 1 = s.status.done ∧
      (readReg .status s).getLsbD 2 = s.status.err ∧ (readReg .status s).getLsbD 3 = s.status.trunc ∧
      (readReg .status s).getLsbD 4 = s.status.overrun ∧ (readReg .status s).extractLsb' 5 3 = 0 ∧
      ((readReg .status s).extractLsb' 8 4).toNat = errNumber s.status.errcode ∧
      (readReg .status s).extractLsb' 12 20 = 0) ∧
    (∀ c : Channel, (readReg (.chCfg c) s).extractLsb' 0 8 = s.chCfg[c].defval ∧
      (readReg (.chCfg c) s).getLsbD 8 = s.chCfg[c].defen ∧ (readReg (.chCfg c) s).extractLsb' 9 7 = 0 ∧
      (readReg (.chCfg c) s).extractLsb' 16 7 = s.chCfg[c].quality ∧
      (readReg (.chCfg c) s).extractLsb' 23 9 = 0) ∧
    (∀ t : TableId, (readReg (.htInfo t) s).extractLsb' 0 5 = s.ht[t].minLen ∧
      (readReg (.htInfo t) s).extractLsb' 5 3 = 0 ∧ (readReg (.htInfo t) s).extractLsb' 8 5 = s.ht[t].maxLen ∧
      (readReg (.htInfo t) s).extractLsb' 13 3 = 0 ∧ (readReg (.htInfo t) s).extractLsb' 16 9 = s.ht[t].nCodes ∧
      (readReg (.htInfo t) s).extractLsb' 25 7 = 0)

/-- R33 for reads: a named register gives its contents, or while BUSY, for a result-type register, a free value; an
unnamed offset gives 0; nothing else changes; another form of access is refused. That PAD_W and PAD_H are free values
while BUSY, and that ARG0, ARG1, QBASE and HSRC then give their contents, is the model's choice (log 14). The registers,
what each holds and which are of result type are those of `WindowHolds`, row by row of R14 (R18 to R31, R33). -/
def Obligations.HostReadsOfTheWindow : Prop :=
  (∀ (s : State) (off : Nat) (w : Word) (free : Bool), WindowHolds s off w free ↔
    ∃ r : Reg, regOffset r = off ∧ readReg r s = w ∧ drawnWhileBusy r = free) ∧
  ∀ (s : State) (rest : List Event),
    (∀ r : Reg, s.events = .regRead (s.cfg.regBase + regOffset r) 4 :: rest →
      (s.busy = false ∨ drawnWhileBusy r = false →
        step s = .next { s with events := rest, busData := readReg r s }) ∧
      (s.busy = true → drawnWhileBusy r = true →
        step s = .next { s with events := rest, busData := Config.freeWord s.draws, draws := s.draws + 1 })) ∧
    (∀ off : Nat, off < 0x3000 → off % 4 = 0 → (∀ r, regOffset r ≠ off) →
      s.events = .regRead (s.cfg.regBase + off) 4 :: rest →
      step s = .next { s with events := rest, busData := 0 }) ∧
    (∀ off n : Nat, off < 0x3000 → (n ≠ 4 ∨ off % 4 ≠ 0) → s.events = .regRead (s.cfg.regBase + off) n :: rest →
      step s = .refused .registerAccessForm)

/-- R33 and R132 for writes other than to CTRL and CMD: while BUSY ignored; while idle a register the host can write
stores the bits it has, and a read-only register and an unnamed offset ignore the write; no other register, no table
and no DMEM byte changes (R18, R20, R21, R23, R24, R28, R29, R31). -/
def Obligations.HostWritesToTheWindow : Prop :=
  ∀ (s : State) (v : Word) (rest : List Event),
    (∀ r : Reg, r ≠ .ctrl → r ≠ .cmd → s.events = .regWrite (s.cfg.regBase + regOffset r) 4 v :: rest →
      ∃ t, step s = .next t ∧
        (s.busy = true → t = { s with events := rest }) ∧
        (s.busy = false → ∀ mask, storedBits r = some mask → readReg r t = v &&& mask) ∧
        (s.busy = false → storedBits r = none → t = { s with events := rest }) ∧
        (∀ r', r' ≠ r → readReg r' t = readReg r' s) ∧
        t.latch = s.latch ∧ t.status = s.status ∧ t.ht = s.ht ∧ t.mem = s.mem ∧ t.events = rest) ∧
    (∀ off : Nat, off < 0x3000 → off % 4 = 0 → (∀ r, regOffset r ≠ off) →
      s.events = .regWrite (s.cfg.regBase + off) 4 v :: rest → step s = .next { s with events := rest }) ∧
    (∀ off n : Nat, off < 0x3000 → (n ≠ 4 ∨ off % 4 ≠ 0) → s.events = .regWrite (s.cfg.regBase + off) n v :: rest →
      step s = .refused .registerAccessForm)

/-- The host's DMEM accesses: while a command runs, a write to a byte it reads or writes, or a read of a byte it
writes, is refused; any other access to an existing byte is carried out and changes nothing else (R40, R134). The
ranges are `runningReads` and `runningWrites` (log 15). -/
def Obligations.DmemHazardsAreRefused : Prop :=
  ∀ (s : State) (a : Word) (rest : List Event), a.toNat < s.cfg.dmemSize →
    (∀ b : Byte, s.events = .memWrite a b :: rest →
      (((runningReads s).has a.toNat = true ∨ (runningWrites s).has a.toNat = true) →
        step s = .refused .hostWriteHazard) ∧
      ((runningReads s).has a.toNat = false → (runningWrites s).has a.toNat = false →
        ∃ t, step s = .next t ∧ memRead t.mem a.toNat = b ∧ MemSameOutside a.toNat 1 s t ∧
          t = { s with mem := t.mem, events := rest })) ∧
    (s.events = .memRead a :: rest →
      ((runningWrites s).has a.toNat = true → step s = .refused .hostReadHazard) ∧
      ((runningWrites s).has a.toNat = false →
        step s = .next { s with busData := (memRead s.mem a.toNat).setWidth 32, events := rest }))

/-! ### Every command (60_exceptions.md) -/

/-- Every command completes, from every state, with a code its row of R114 lists: BUSY falls, DONE rises, ERR says
whether the code is fatal, an underrun sets TRUNC, OVERRUN stays, the interrupt is IRQ_EN; and no command writes a
register only the host writes, a host-written table or a parameter (R18, R113, R114, R115, R117, R120). -/
def Obligations.EveryCommandCompletes : Prop :=
  ∀ (i : Instr) (s : State), ∃ t, exec i s = .next t ∧ t.busy = false ∧ t.status.done = true ∧
    t.status.errcode ∈ reportable i ∧ t.status.err = errFatal t.status.errcode ∧
    (t.status.errcode = .streamUnderrun → t.status.trunc = true) ∧ t.status.overrun = s.status.overrun ∧
    t.irq = s.irqEn ∧ HostSideSame s t

/-- A command that fails a check reports IllegalArgument and changes no state except STATUS (R35, R116 item 2). For the
stream commands the checks include the open stream's range (log 6). That CTX_INIT and the image commands keep TRUNC when
they fail a check is the model's reading (log 9), and so is that the image commands then keep BLK, the planes and the
BS_ state, and the opens the BS_ state (log 23). -/
def Obligations.FailedCheckChangesOnlyStatus : Prop :=
  ∀ (i : Instr) (s : State), ¬Passes i s → exec i s = .next (failedWith .illegalArgument s)

/-- A command changes no DMEM byte outside the range R34 lets it write; a command that R34 does not list as writing
changes none (log 15). -/
def Obligations.CommandsWriteOnlyTheirRange : Prop :=
  ∀ (i : Instr) (s t : State), exec i s = .next t → MemSameOutside (writeSpan i s).base (writeSpan i s).len s t

/-- A command's effect depends on no DMEM byte outside the range R34 lets it read: with DMEM changed elsewhere, every
register and table ends the same, and every byte ends the same in both or is left alone in both (R34, R40 item 4). The
range is `readSpan` (log 15). -/
def Obligations.CommandsReadOnlyTheirRange : Prop :=
  ∀ (i : Instr) (s : State) (m : Memory),
    (∀ a : Nat, (readSpan i s).has a = true → memRead m a = memRead s.mem a) →
    ∃ t u, exec i s = .next t ∧ exec i { s with mem := m } = .next u ∧ u = { t with mem := u.mem } ∧
      ∀ a : Nat, memRead u.mem a = memRead t.mem a ∨
        (memRead t.mem a = memRead s.mem a ∧ memRead u.mem a = memRead m a)

/-! ### What every step keeps -/

/-- DMEM keeps its canonical form, with no byte beyond DMEM_SIZE (R34, R35). -/
def Obligations.StepKeepsMemoryLegal : Prop := ∀ s t : State, MemoryLegal s → step s = .next t → MemoryLegal t

/-- Every QT entry stays in [100, 25500] (R30, R86), and the padded dimensions stay multiples of 8 (R106). -/
def Obligations.StepKeepsScalesAndPadding : Prop :=
  ∀ s t : State, step s = .next t → (ScalesLegal s → ScalesLegal t) ∧ (PaddingLegal s → PaddingLegal t)

/-- Every HT[t] stays the result of a successful build (R32, R64, R65). -/
def Obligations.StepKeepsTablesBuilt : Prop := ∀ s t : State, TablesLegal s → step s = .next t → TablesLegal t

/-- BS_COUNT stays within the limit of its mode and the bits of BUF above it stay 0 (R26, R55). After an image command
that faults this is the model's reading (log 7). -/
def Obligations.StepKeepsStreamWithinLimits : Prop := ∀ s t : State, StreamLegal s → step s = .next t → StreamLegal t

/-- STATUS stays consistent: ERR says whether ERRCODE is fatal, DONE is 0 while BUSY, ERRCODE is 0 unless DONE, and code
1 comes with TRUNC (R16, R17, R113, R117). -/
def Obligations.StepKeepsStatusConsistent : Prop := ∀ s t : State, StatusLegal s → step s = .next t → StatusLegal t

/-- The state after reset is legal. Its parameter values are the model's choice (log 1). -/
def Obligations.ResetIsLegal : Prop := Legal State.reset

/-! ### Control (47_image.md) -/

/-- R104: NOP does nothing but complete. -/
def Obligations.NopOnlyCompletes : Prop :=
  decode 0x00000000 = .ok .nop ∧
  ∀ s : State, ∃ t, exec .nop s = .next t ∧ Completed .none false s t ∧
    t = { s with latch := t.latch, status := t.status }

/-- CTX_INIT: PAD_W and PAD_H the dimensions rounded up to the unit, the predictors 0, TRUNC 0, a new scale table for
each channel without a default value, and the numbers of blocks and macroblocks; nothing else (R105, R106, R82, R91).
That TRUNC is cleared only once the checks pass is the model's reading (log 9). -/
def Obligations.CtxInitSetsUpTheContext : Prop :=
  ∀ s : State,
    (ContextPasses s → ∃ t, exec .ctxInit s = .next t ∧
      t.busy = false ∧ t.status.done = true ∧ t.status.err = false ∧ t.status.errcode = .none ∧
      t.status.trunc = false ∧ t.status.overrun = s.status.overrun ∧
      (∀ unit : Nat, unit = (if s.variant = 0 then 16 else 8) →
        t.padW.toNat % unit = 0 ∧ s.width.toNat ≤ t.padW.toNat ∧ t.padW.toNat < s.width.toNat + unit ∧
        t.padH.toNat % unit = 0 ∧ s.height.toNat ≤ t.padH.toNat ∧ t.padH.toNat < s.height.toNat + unit ∧
        t.result1.toNat = t.padW.toNat / unit * (t.padH.toNat / unit)) ∧
      t.result0.toNat = t.result1.toNat *
        ∑ c : Channel, (if s.chCfg[c].defen then 0 else if s.variant = 0 ∧ (c = 0 ∨ c = 3) then 4 else 1) ∧
      (∀ c : Channel, t.dcpred[c] = 0) ∧
      (∀ (c : Channel) (i : Fin 64), s.chCfg[c].defen = true → t.qt[c][i] = s.qt[c][i]) ∧
      (∀ (c : Channel) (i : Fin 64), s.chCfg[c].defen = false →
        ∀ k : Fin 2, k = (if s.variant ≠ 2 ∧ (c = 1 ∨ c = 2) then 1 else 0) →
        (t.qt[c][i].toNat : Int) =
          max 100 (min 25500 (s.qbase[k][i].toNat * (200 - 2 * (s.chCfg[c].quality.toNat : Int))))) ∧
      t = { s with
        padW := t.padW, padH := t.padH, dcpred := t.dcpred, qt := t.qt, result0 := t.result0, result1 := t.result1
        latch := t.latch, status := t.status }) ∧
    (¬ContextPasses s → exec .ctxInit s = .next (failedWith .illegalArgument s))

/-! ### Bitstream (40_bitstream.md) -/

/-- R56 and R57: the two opens. That an open that fails its check keeps the BS_ state, as R116 says, where R135 has an
open discard the unflushed bits, is the model's reading (log 23). -/
def Obligations.StreamOpens : Prop :=
  decode 0x00000010 = .ok .bsOpenRead ∧ decode 0x00000011 = .ok .bsOpenWrite ∧
  ∀ s : State,
    (RangePasses s s.srcBase.toNat s.srcLen.toNat → ∃ t, exec .bsOpenRead s = .next t ∧ Completed .none false s t ∧
      t = { s with
        bs := { mode := .reading, count := 0, buf := 0, cursor := 0, base := s.srcBase, limit := s.srcLen }
        latch := t.latch, status := t.status }) ∧
    (¬RangePasses s s.srcBase.toNat s.srcLen.toNat →
      exec .bsOpenRead s = .next (failedWith .illegalArgument s)) ∧
    (RangePasses s s.dstBase.toNat s.dstCap.toNat → ∃ t, exec .bsOpenWrite s = .next t ∧ Completed .none false s t ∧
      t = { s with
        bs := { mode := .writing, count := 0, buf := 0, cursor := 0, base := s.dstBase, limit := s.dstCap }
        latch := t.latch, status := t.status }) ∧
    (¬RangePasses s s.dstBase.toNat s.dstCap.toNat →
      exec .bsOpenWrite s = .next (failedWith .illegalArgument s))

/-- BS_CAN_SUPPLY: the answer says whether N bits are left; the pulls are as many bytes as needed and no more; no bit
of the stream is lost; DMEM and every other register stay (R54, R55, R58; the stream's range by log 6). -/
def Obligations.CanSupplyPullsWhatItNeeds : Prop :=
  ∀ (s : State) (n : Nat), StreamLegal s → StreamOpenIn .reading s → n ≤ 32 →
    ∃ t, exec (.bsCanSupply n) s = .next t ∧ Completed .none false s t ∧
      t.result0 = (if n ≤ (streamBits s.mem s.bs).length then 1 else 0) ∧
      t.result1.toNat = t.bs.count.toNat ∧
      t.bs.cursor.toNat = s.bs.cursor.toNat +
        min ((n - s.bs.count.toNat + 7) / 8) (s.bs.limit.toNat - s.bs.cursor.toNat) ∧
      streamBits t.mem t.bs = streamBits s.mem s.bs ∧ bsLegal t.bs ∧
      t = { s with
        bs := { s.bs with count := t.bs.count, buf := t.bs.buf, cursor := t.bs.cursor }
        result0 := t.result0, result1 := t.result1, latch := t.latch, status := t.status }

/-- R59: BS_SUPPLY takes the N oldest buffered bits, the first of them highest, and never pulls. -/
def Obligations.SupplyTakesTheOldestBits : Prop :=
  (∀ n : Nat, n < 64 → decode (BitVec.ofNat 32 (0x13 + n * 2 ^ 8)) = .ok (.bsSupply n)) ∧
  ∀ (s : State) (n : Nat), StreamLegal s →
    (s.bs.mode = .reading ∧ n ≤ 32 ∧ n ≤ s.bs.count.toNat →
      ∃ t, exec (.bsSupply n) s = .next t ∧ Completed .none false s t ∧
        heldBits s.bs = msbBits t.result0.toNat n ++ heldBits t.bs ∧ t.result0.toNat < 2 ^ n ∧
        t.bs.count.toNat = s.bs.count.toNat - n ∧ t.result1.toNat = t.bs.count.toNat ∧ bsLegal t.bs ∧
        t = { s with
          bs := { s.bs with count := t.bs.count, buf := t.bs.buf }
          result0 := t.result0, result1 := t.result1, latch := t.latch, status := t.status }) ∧
    (¬(s.bs.mode = .reading ∧ n ≤ 32 ∧ n ≤ s.bs.count.toNat) →
      exec (.bsSupply n) s = .next (failedWith .illegalArgument s))

/-- BS_CONSUME: the held bits and the low N bits of ARG0 are the bytes stored at BS_BASE + BS_CURSOR and the bits still
held; no other byte changes (R54, R55, R60; the sink's range by log 6). -/
def Obligations.ConsumeAppendsTheLowBits : Prop :=
  ∀ (s : State) (n : Nat), StreamOpenIn .writing s → n ≤ 32 →
    s.bs.cursor.toNat + (s.bs.count.toNat + n) / 8 ≤ s.bs.limit.toNat →
    ∃ t, exec (.bsConsume n) s = .next t ∧ Completed .none false s t ∧
      t.bs.count.toNat = (s.bs.count.toNat + n) % 8 ∧
      t.bs.cursor.toNat = s.bs.cursor.toNat + (s.bs.count.toNat + n) / 8 ∧
      t.result0 = t.bs.cursor ∧ t.result1.toNat = t.bs.count.toNat ∧
      heldBits s.bs ++ msbBits s.arg0.toNat n =
        byteBits (memBytes t.mem (s.bs.base.toNat + s.bs.cursor.toNat) ((s.bs.count.toNat + n) / 8)) ++
          heldBits t.bs ∧
      bsLegal t.bs ∧
      MemSameOutside (s.bs.base.toNat + s.bs.cursor.toNat) ((s.bs.count.toNat + n) / 8) s t ∧
      t = { s with
        bs := { s.bs with count := t.bs.count, buf := t.bs.buf, cursor := t.bs.cursor }, mem := t.mem
        result0 := t.result0, result1 := t.result1, latch := t.latch, status := t.status }

/-- BS_FLUSH: a held partial byte is filled up with 1-bits and stored at BS_BASE + BS_CURSOR; with no bit held nothing
is stored; the stream stays open (R55, R61; the sink's range by log 6). -/
def Obligations.FlushPadsWithOnes : Prop :=
  ∀ s : State, StreamLegal s → StreamOpenIn .writing s →
    (s.bs.count ≠ 0 → s.bs.cursor.toNat + 1 ≤ s.bs.limit.toNat) →
    ∃ t, exec .bsFlush s = .next t ∧ Completed .none false s t ∧
      byteBits (memBytes t.mem (s.bs.base.toNat + s.bs.cursor.toNat) ((s.bs.count.toNat + 7) / 8)) =
        heldBits s.bs ++ List.replicate ((8 - s.bs.count.toNat) % 8) true ∧
      t.bs.cursor.toNat = s.bs.cursor.toNat + (s.bs.count.toNat + 7) / 8 ∧
      t.result0 = t.bs.cursor ∧ t.result1 = 0 ∧
      MemSameOutside (s.bs.base.toNat + s.bs.cursor.toNat) ((s.bs.count.toNat + 7) / 8) s t ∧
      t = { s with
        bs := { s.bs with count := 0, buf := 0, cursor := t.bs.cursor }, mem := t.mem
        result0 := t.result0, result1 := t.result1, latch := t.latch, status := t.status }

/-! ### Huffman tables (41_huffman.md) -/

/-- R64: the build succeeds exactly for a well-formed source, and then the j-th code of length L is the first code of
that length plus j, for the symbol at its place in length order, in both maps; the maps hold no other code; MINLEN,
MAXLEN and NCODES are the least and greatest lengths used, each from 1 to 16, and the number of codes. -/
def Obligations.CanonicalBuildInClosedForm : Prop :=
  ∀ h : Hsrc, ((∃ t, htBuild h = some t) ↔ h.WellFormed) ∧
    ∀ t, htBuild h = some t →
      (∀ L j : Nat, 1 ≤ L → L ≤ 16 → j < h.counts.getD (L - 1) 0 →
        ∃ sym, h.vals.toList[h.codesBefore L + j]? = some sym ∧
          t.encodeMap sym = some (h.firstCode L + j, L) ∧ t.decodeMap (h.firstCode L + j) L = some sym) ∧
      (∀ (w L : Nat) (sym : Byte), t.decodeMap w L = some sym ↔ t.encodeMap sym = some (w, L)) ∧
      (∀ (w L : Nat) (sym : Byte), t.decodeMap w L = some sym →
        1 ≤ L ∧ L ≤ 16 ∧ ∃ j, j < h.counts.getD (L - 1) 0 ∧ w = h.firstCode L + j) ∧
      1 ≤ t.minLen.toNat ∧ t.maxLen.toNat ≤ 16 ∧ h.counts.getD (t.minLen.toNat - 1) 0 ≠ 0 ∧ h.counts.getD (t.maxLen.toNat - 1) 0 ≠ 0 ∧
      (∀ L : Nat, 1 ≤ L → L ≤ 16 → h.counts.getD (L - 1) 0 ≠ 0 → t.minLen.toNat ≤ L ∧ L ≤ t.maxLen.toNat) ∧
      t.nCodes.toNat = h.total

/-- R65: HT_BUILD puts the built table of HSRC[T] into HT[T] and reports its sizes; a failed build changes no table. -/
def Obligations.HtBuildReplacesOneTable : Prop :=
  (∀ k : TableId, decode (BitVec.ofNat 32 (0x20 + k.val * 2 ^ 16)) = .ok (.htBuild k)) ∧
  ∀ (s : State) (k : TableId),
    (∀ h : Ht, htBuild s.hsrc[k] = some h → ∃ t, exec (.htBuild k) s = .next t ∧ Completed .none false s t ∧
      t.ht[k] = h ∧ (∀ k' : TableId, k' ≠ k → t.ht[k'] = s.ht[k']) ∧
      (readReg (.htInfo k) t).toNat = h.nCodes.toNat * 2 ^ 16 + h.maxLen.toNat * 2 ^ 8 + h.minLen.toNat ∧
      t.result0.toNat = h.nCodes.toNat ∧ t.result1.toNat = h.maxLen.toNat * 256 + h.minLen.toNat ∧
      t = { s with
        ht := t.ht, result0 := t.result0, result1 := t.result1, latch := t.latch, status := t.status }) ∧
    (htBuild s.hsrc[k] = none → exec (.htBuild k) s = .next (failedWith .illegalArgument s))

/-- R66, R67 and R68: the three lookups on a built table, by its codes: HT_DECODE hits exactly the code of N bits that
ARG0's low N bits spell, HT_ENCODE exactly the symbol ARG0, a miss is the sentinel and no fault; HT_LIMITS gives the
least and the greatest length a code has. -/
def Obligations.HtLookupsFollowTheCodes : Prop :=
  (∀ k : TableId, decode (BitVec.ofNat 32 (0x22 + k.val * 2 ^ 16)) = .ok (.htEncode k) ∧
    decode (BitVec.ofNat 32 (0x23 + k.val * 2 ^ 16)) = .ok (.htLimits k) ∧
    ∀ n : Nat, n < 64 → decode (BitVec.ofNat 32 (0x21 + n * 2 ^ 8 + k.val * 2 ^ 16)) = .ok (.htDecode k n)) ∧
  ∀ (s : State) (k : TableId), TablesLegal s →
    (∀ n : Nat, n ≤ 32 → ∃ t, exec (.htDecode k n) s = .next t ∧ Completed .none false s t ∧
      (∀ e ∈ s.ht[k].codes, n = e.len.toNat → s.arg0.toNat % 2 ^ n = e.code.toNat →
        t.result0.toNat = e.sym.toNat ∧ t.result1 = 1) ∧
      ((∀ e ∈ s.ht[k].codes, n = e.len.toNat → s.arg0.toNat % 2 ^ n ≠ e.code.toNat) →
        t.result0 = 0xFFFFFFFF ∧ t.result1 = 0) ∧
      t = { s with result0 := t.result0, result1 := t.result1, latch := t.latch, status := t.status }) ∧
    (∀ n : Nat, 32 < n → exec (.htDecode k n) s = .next (failedWith .illegalArgument s)) ∧
    (∃ t, exec (.htEncode k) s = .next t ∧ Completed .none false s t ∧
      (∀ e ∈ s.ht[k].codes, s.arg0.toNat = e.sym.toNat →
        t.result0.toNat = e.code.toNat ∧ t.result1.toNat = e.len.toNat) ∧
      ((∀ e ∈ s.ht[k].codes, s.arg0.toNat ≠ e.sym.toNat) → t.result0 = 0xFFFFFFFF ∧ t.result1 = 0) ∧
      t = { s with result0 := t.result0, result1 := t.result1, latch := t.latch, status := t.status }) ∧
    (∃ t, exec (.htLimits k) s = .next t ∧ Completed .none false s t ∧
      (∃ e ∈ s.ht[k].codes, t.result0.toNat = e.len.toNat) ∧ (∃ e ∈ s.ht[k].codes, t.result1.toNat = e.len.toNat) ∧
      (∀ e ∈ s.ht[k].codes, t.result0.toNat ≤ e.len.toNat ∧ e.len.toNat ≤ t.result1.toNat) ∧
      t = { s with result0 := t.result0, result1 := t.result1, latch := t.latch, status := t.status })

/-- R71: HT_DECODE of what HT_ENCODE gave for a symbol of the table gives the symbol, and HT_ENCODE of what HT_DECODE
gave for a code gives the code and its length. -/
def Obligations.HuffmanRoundTrip : Prop :=
  ∀ (s : State) (k : TableId), TablesLegal s →
    (∀ t, exec (.htEncode k) s = .next t → t.result1 ≠ 0 →
      ∃ u, exec (.htDecode k t.result1.toNat) { t with arg0 := t.result0 } = .next u ∧
        u.result0 = s.arg0 ∧ u.result1 = 1) ∧
    (∀ (n : Nat) (t : State), n ≤ 32 → s.arg0.toNat < 2 ^ n → exec (.htDecode k n) s = .next t →
      t.result1 = 1 → ∃ u, exec (.htEncode k) { t with arg0 := t.result0 } = .next u ∧
        u.result0 = s.arg0 ∧ u.result1.toNat = n)

/-- HT_READ: where the stream goes on with a code of the table, that code's symbol and length, its bits taken; where no
code starts it, an underrun if fewer than MAXLEN bits are left (taking them all, or none if fewer than MINLEN), else a
HuffmanDecodingFault after MAXLEN bits (R69, R70; the stream's range by log 6). -/
def Obligations.HtReadFollowsTheStream : Prop :=
  ∀ (s : State) (k : TableId), TablesLegal s → StreamLegal s → StreamOpenIn .reading s →
    ∃ t, exec (.htRead k) s = .next t ∧ bsLegal t.bs ∧
      (∀ e ∈ s.ht[k].codes, msbBits e.code.toNat e.len.toNat <+: streamBits s.mem s.bs →
        Completed .none false s t ∧ t.result0.toNat = e.sym.toNat ∧ t.result1.toNat = e.len.toNat ∧
        streamBits t.mem t.bs = (streamBits s.mem s.bs).drop e.len.toNat) ∧
      ((∀ e ∈ s.ht[k].codes, ¬msbBits e.code.toNat e.len.toNat <+: streamBits s.mem s.bs) →
        ((streamBits s.mem s.bs).length < s.ht[k].maxLen.toNat →
          Completed .streamUnderrun true s t ∧ t.result0 = 0xFFFFFFFF ∧ t.result1 = 0 ∧
          streamBits t.mem t.bs =
            if (streamBits s.mem s.bs).length < s.ht[k].minLen.toNat then streamBits s.mem s.bs else []) ∧
        (s.ht[k].maxLen.toNat ≤ (streamBits s.mem s.bs).length →
          Completed .huffmanDecodingFault false s t ∧ t.result0 = s.result0 ∧ t.result1 = s.result1 ∧
          streamBits t.mem t.bs = (streamBits s.mem s.bs).drop s.ht[k].maxLen.toNat)) ∧
      t = { s with
        bs := { s.bs with count := t.bs.count, buf := t.bs.buf, cursor := t.bs.cursor }
        result0 := t.result0, result1 := t.result1, latch := t.latch, status := t.status }

/-! ### Transform (42_transform.md) -/

/-- R73 and R74: each entry of the forward and of the inverse transform is the exact double sum over the 64 inputs,
rounded half up once at the end and wrapped to 32 bits; nothing else changes. -/
def Obligations.TransformsAreExactDoubleSums : Prop :=
  decode 0x00000030 = .ok .fdct ∧ decode 0x00000031 = .ok .idct ∧
  ∀ s : State,
    (∃ t, exec .fdct s = .next t ∧ Completed .none false s t ∧
      (∀ v u : Fin 8, t.blk[Fin.ofNat 64 (8 * v.val + u.val)] = BitVec.ofInt 32
        ((∑ y : Fin 8, ∑ x : Fin 8, kmat v y * kmat u x * blkAt s.blk y x + 2 ^ 29) / 2 ^ 30)) ∧
      t = { s with blk := t.blk, latch := t.latch, status := t.status }) ∧
    (∃ t, exec .idct s = .next t ∧ Completed .none false s t ∧
      (∀ y x : Fin 8, t.blk[Fin.ofNat 64 (8 * y.val + x.val)] = BitVec.ofInt 32
        ((∑ v : Fin 8, ∑ u : Fin 8, kmat v y * kmat u x * blkAt s.blk v u + 2 ^ 29) / 2 ^ 30)) ∧
      t = { s with blk := t.blk, latch := t.latch, status := t.status })

/-- A constant block of centred samples has only a DC coefficient, 8 times the sample (R73's example, R80). -/
def Obligations.ConstantBlockHasOnlyDc : Prop :=
  ∀ (s : State) (c : Int), -128 ≤ c → c ≤ 127 → (∀ i : Fin 64, s.blk[i].toInt = c) →
    ∃ t, exec .fdct s = .next t ∧ t.blk[0].toInt = 8 * c ∧ ∀ i : Fin 64, i ≠ 0 → t.blk[i] = 0

/-- R76 and R77: ZIGZAG and UNZIGZAG move every entry by ZZ, each undoes the other, and ZIGZAG twice is not the
identity; nothing else changes. -/
def Obligations.ZigzagAndItsInverse : Prop :=
  decode 0x00000032 = .ok .zigzag ∧ decode 0x00000033 = .ok .unzigzag ∧
  (∀ s : State,
    (∃ t, exec .zigzag s = .next t ∧ Completed .none false s t ∧ (∀ k : Fin 64, t.blk[k] = s.blk[zz k]) ∧
      t = { s with blk := t.blk, latch := t.latch, status := t.status } ∧
      ∃ u, exec .unzigzag t = .next u ∧ u.blk = s.blk) ∧
    (∃ t, exec .unzigzag s = .next t ∧ Completed .none false s t ∧ (∀ k : Fin 64, t.blk[zz k] = s.blk[k]) ∧
      t = { s with blk := t.blk, latch := t.latch, status := t.status } ∧
      ∃ u, exec .zigzag t = .next u ∧ u.blk = s.blk)) ∧
  ∃ s t u : State, exec .zigzag s = .next t ∧ exec .zigzag t = .next u ∧ u.blk ≠ s.blk

/-- R78 and R79: the level shifts, entry by entry. -/
def Obligations.LevelShiftsByKind : Prop :=
  decode 0x00000034 = .ok (.shiftClamp .luminance) ∧ decode 0x00010034 = .ok (.shiftClamp .chrominance) ∧
  decode 0x00000035 = .ok (.unshift .luminance) ∧ decode 0x00010035 = .ok (.unshift .chrominance) ∧
  ∀ (s : State) (k : Kind),
    (∃ t, exec (.shiftClamp k) s = .next t ∧ Completed .none false s t ∧
      (∀ i : Fin 64, t.blk[i].toInt = match k with
        | .luminance => max 0 (min 255 (s.blk[i] + 128).toInt)
        | .chrominance => max (-255) (min 255 s.blk[i].toInt)) ∧
      t = { s with blk := t.blk, latch := t.latch, status := t.status }) ∧
    (∃ t, exec (.unshift k) s = .next t ∧ Completed .none false s t ∧
      (∀ i : Fin 64, t.blk[i] = match k with
        | .luminance => s.blk[i] - 128
        | .chrominance => s.blk[i]) ∧
      t = { s with blk := t.blk, latch := t.latch, status := t.status })

/-! ### Quantizer (43_quantizer.md) -/

/-- R83 with the formula of R82: Q_ADJUST builds channel C's scale table from the base table of kind K and the
channel's quality factor, and reports its first and least entries; no other table changes. -/
def Obligations.QAdjustBuildsOneScaleTable : Prop :=
  (∀ c : Channel, decode (BitVec.ofNat 32 (0x40 + c.val * 2 ^ 14)) = .ok (.qAdjust c .luminance) ∧
    decode (BitVec.ofNat 32 (0x40 + c.val * 2 ^ 14 + 2 ^ 16)) = .ok (.qAdjust c .chrominance)) ∧
  ∀ (s : State) (c : Channel) (k : Kind),
    (s.chCfg[c].quality.toNat ≤ 100 → ∃ t, exec (.qAdjust c k) s = .next t ∧ Completed .none false s t ∧
      (∀ i : Fin 64, (t.qt[c][i].toNat : Int) = max 100 (min 25500
        (s.qbase[kindIndex k][i].toNat * (200 - 2 * (s.chCfg[c].quality.toNat : Int))))) ∧
      (∀ c' : Channel, c' ≠ c → t.qt[c'] = s.qt[c']) ∧ t.result0.toNat = t.qt[c][0].toNat ∧
      (∃ i : Fin 64, t.result1.toNat = t.qt[c][i].toNat) ∧ (∀ i : Fin 64, t.result1.toNat ≤ t.qt[c][i].toNat) ∧
      t = { s with
        qt := t.qt, result0 := t.result0, result1 := t.result1, latch := t.latch, status := t.status }) ∧
    (100 < s.chCfg[c].quality.toNat → exec (.qAdjust c k) s = .next (failedWith .illegalArgument s))

/-- R84 and R85: QUANT divides by the scale and DEQUANT multiplies, each rounded half up; DEQUANT wraps to 32 bits and
QUANT never needs to. -/
def Obligations.QuantAndDequantRoundHalfUp : Prop :=
  (∀ c : Channel, decode (BitVec.ofNat 32 (0x41 + c.val * 2 ^ 14)) = .ok (.quant c) ∧
    decode (BitVec.ofNat 32 (0x42 + c.val * 2 ^ 14)) = .ok (.dequant c)) ∧
  ∀ (s : State) (c : Channel), ScalesLegal s →
    (∃ t, exec (.quant c) s = .next t ∧ Completed .none false s t ∧
      (∀ i : Fin 64, 2 * t.blk[i].toInt * s.qt[c][i].toNat ≤ 200 * s.blk[i].toInt + s.qt[c][i].toNat ∧
        200 * s.blk[i].toInt + s.qt[c][i].toNat < 2 * (t.blk[i].toInt + 1) * s.qt[c][i].toNat) ∧
      t = { s with blk := t.blk, latch := t.latch, status := t.status }) ∧
    (∃ t, exec (.dequant c) s = .next t ∧ Completed .none false s t ∧
      (∀ i : Fin 64, ∃ q : Int, t.blk[i] = BitVec.ofInt 32 q ∧
        200 * q ≤ 2 * s.blk[i].toInt * s.qt[c][i].toNat + 100 ∧
        2 * s.blk[i].toInt * s.qt[c][i].toNat + 100 < 200 * (q + 1)) ∧
      t = { s with blk := t.blk, latch := t.latch, status := t.status })

/-- QUANT then DEQUANT changes a value by at most half a scale step plus one half (R86), for values small enough that
the result does not wrap. -/
def Obligations.QuantisingLosesHalfAStep : Prop :=
  ∀ (s : State) (c : Channel), ScalesLegal s →
    ∃ t u, exec (.quant c) s = .next t ∧ exec (.dequant c) t = .next u ∧
      ∀ i : Fin 64, -(2 ^ 30) ≤ s.blk[i].toInt → s.blk[i].toInt ≤ 2 ^ 30 →
        200 * |u.blk[i].toInt - s.blk[i].toInt| ≤ s.qt[c][i].toNat + 100

/-! ### Sampler (44_sampler.md) -/

/-- R88: UPSAMPLE replicates each source sample into a 2×2 cell of the destination plane, in place too; no byte outside
that plane changes. -/
def Obligations.UpsampleReplicates : Prop :=
  decode 0x00000050 = .ok .upsample ∧
  ∀ s : State,
    (SamplerPasses (s.width.toNat * s.height.toNat / 2) (2 * s.width.toNat * s.height.toNat) s →
      ∃ t, exec .upsample s = .next t ∧ Completed .none false s t ∧
        (∀ x y : Nat, x < s.width.toNat → y < s.height.toNat →
          ld16 t.mem s.arg1.toNat (y * s.width.toNat + x) =
            ld16 s.mem s.arg0.toNat (y / 2 * (s.width.toNat / 2) + x / 2)) ∧
        t.result0.toNat = s.width.toNat * s.height.toNat ∧ t.result1 = 0 ∧
        MemSameOutside s.arg1.toNat (2 * s.width.toNat * s.height.toNat) s t ∧
        t = { s with
          mem := t.mem, result0 := t.result0, result1 := t.result1, latch := t.latch, status := t.status }) ∧
    (¬SamplerPasses (s.width.toNat * s.height.toNat / 2) (2 * s.width.toNat * s.height.toNat) s →
      exec .upsample s = .next (failedWith .illegalArgument s))

/-- R89: DOWNSAMPLE stores the average of each 2×2 cell, truncated toward zero; no byte outside the destination plane
changes. -/
def Obligations.DownsampleAverages : Prop :=
  decode 0x00000051 = .ok .downsample ∧
  ∀ s : State,
    (SamplerPasses (2 * s.width.toNat * s.height.toNat) (s.width.toNat * s.height.toNat / 2) s →
      ∃ t, exec .downsample s = .next t ∧ Completed .none false s t ∧
        (∀ x y : Nat, x < s.width.toNat / 2 → y < s.height.toNat / 2 → ∀ v sum : Int,
          v = ld16 t.mem s.arg1.toNat (y * (s.width.toNat / 2) + x) →
          sum = ld16 s.mem s.arg0.toNat (2 * y * s.width.toNat + 2 * x) +
            ld16 s.mem s.arg0.toNat (2 * y * s.width.toNat + 2 * x + 1) +
            ld16 s.mem s.arg0.toNat ((2 * y + 1) * s.width.toNat + 2 * x) +
            ld16 s.mem s.arg0.toNat ((2 * y + 1) * s.width.toNat + 2 * x + 1) →
          4 * |v| ≤ |sum| ∧ |sum| < 4 * |v| + 4 ∧ 0 ≤ v * sum) ∧
        t.result0.toNat = s.width.toNat / 2 * (s.height.toNat / 2) ∧ t.result1 = 0 ∧
        MemSameOutside s.arg1.toNat (s.width.toNat * s.height.toNat / 2) s t ∧
        t = { s with
          mem := t.mem, result0 := t.result0, result1 := t.result1, latch := t.latch, status := t.status }) ∧
    (¬SamplerPasses (2 * s.width.toNat * s.height.toNat) (s.width.toNat * s.height.toNat / 2) s →
      exec .downsample s = .next (failedWith .illegalArgument s))

/-- R90: DOWNSAMPLE of the result of UPSAMPLE is the original plane, wherever it is put. -/
def Obligations.DownsampleUndoesUpsample : Prop :=
  ∀ (s t : State) (a : Word), Passes .upsample s → exec .upsample s = .next t →
    Passes .downsample { t with arg0 := s.arg1, arg1 := a } →
    ∃ u, exec .downsample { t with arg0 := s.arg1, arg1 := a } = .next u ∧
      ∀ n : Nat, n < s.width.toNat / 2 * (s.height.toNat / 2) → ld16 u.mem a.toNat n = ld16 s.mem s.arg0.toNat n

/-! ### Composition (45_compose.md) -/

/-- R92 to R96: the two commands by the formulas, with every clamp written out. -/
def Obligations.ComposeAndDecomposeByFormula : Prop :=
  (decode 0x00000060 = .ok (.compose .direct) ∧ decode 0x00010060 = .ok (.compose .colourDifference) ∧
    decode 0x00000061 = .ok (.decompose .direct) ∧ decode 0x00010061 = .ok (.decompose .colourDifference)) ∧
  (∀ s : State, ∀ p1 p2 p3 p4 : Int, p1 = s.blk[0].toInt → p2 = s.blk[1].toInt → p3 = s.blk[2].toInt →
    p4 = s.blk[3].toInt → ∀ clip : Int → BitVec 8, (∀ v, clip v = BitVec.ofInt 8 (max 0 (min 255 v))) →
    (∃ t, exec (.compose .direct) s = .next t ∧ Completed .none false s t ∧
      t.result0 = clip p1 ++ clip p2 ++ clip p3 ++ clip p4 ∧ t.result1 = 0 ∧
      t = { s with result0 := t.result0, result1 := t.result1, latch := t.latch, status := t.status }) ∧
    (∃ t, exec (.compose .colourDifference) s = .next t ∧ Completed .none false s t ∧
      (∀ r1 r3 : Int, r1 = p1 - p3 >>> 1 → r3 = max (0 : Int) (min 255 (r1 - p2 >>> 1)) →
        t.result0 = clip p4 ++ clip (r3 + p2) ++ clip (r1 + p3) ++ clip r3) ∧ t.result1 = 0 ∧
      t = { s with result0 := t.result0, result1 := t.result1, latch := t.latch, status := t.status })) ∧
  (∀ s : State, ∀ A R G B : Int, A = (s.arg0.extractLsb' 24 8).toNat → R = (s.arg0.extractLsb' 16 8).toNat →
    G = (s.arg0.extractLsb' 8 8).toNat → B = (s.arg0.extractLsb' 0 8).toNat →
    (∃ t, exec (.decompose .direct) s = .next t ∧ Completed .none false s t ∧
      t.blk[0].toInt = A ∧ t.blk[1].toInt = R ∧ t.blk[2].toInt = G ∧ t.blk[3].toInt = B ∧
      (∀ i : Fin 64, 4 ≤ i.val → t.blk[i] = s.blk[i]) ∧
      t = { s with blk := t.blk, latch := t.latch, status := t.status }) ∧
    (∃ t, exec (.decompose .colourDifference) s = .next t ∧ Completed .none false s t ∧
      t.blk[1].toInt = R - B ∧ t.blk[2].toInt = G - (B + (R - B) >>> 1) ∧
      t.blk[0].toInt = B + (R - B) >>> 1 + (G - (B + (R - B) >>> 1)) >>> 1 ∧ t.blk[3].toInt = A ∧
      (∀ i : Fin 64, 4 ≤ i.val → t.blk[i] = s.blk[i]) ∧
      t = { s with blk := t.blk, latch := t.latch, status := t.status }))

/-- R97: COMPOSE of the result of DECOMPOSE gives ARG0 back, in both modes, for every ARG0. -/
def Obligations.ComposeUndoesDecompose : Prop :=
  ∀ (s : State) (m : Mode), ∃ t u, exec (.decompose m) s = .next t ∧ exec (.compose m) t = .next u ∧
    u.result0 = s.arg0

/-! ### Block codec (46_block_codec.md) -/

/-- BLK_DECODE from every open stream: it completes the block, underruns, or faults. On the first two BLK holds 0 from
position RESULT0 on, RESULT1 is the number of bits taken, and DCPRED[C] is BLK[0] once the DC value is complete and
unchanged before; on a fault the results and BLK are unchanged. With built tables the stream's bits say which end, with
which coefficients, which position, which predictor (on a fault too) and how many bits taken: `BlkReads` (R98 to R101;
log 6, log 10, log 22). -/
def Obligations.BlkDecodeEndsThreeWays : Prop :=
  ∀ (s : State) (c : Channel) (k : Kind), StreamLegal s → StreamOpenIn .reading s →
    ∃ t, exec (.blkDecode c k) s = .next t ∧
      (Completed .none false s t ∨ Completed .streamUnderrun true s t ∨ Completed .huffmanDecodingFault false s t) ∧
      (∃ n : Nat, streamBits t.mem t.bs = (streamBits s.mem s.bs).drop n ∧ n ≤ (streamBits s.mem s.bs).length ∧
        (t.status.err = false → t.result1 = BitVec.ofNat 32 n)) ∧
      (t.status.err = false → t.result0.toNat ≤ 64 ∧ (∀ i : Fin 64, t.result0.toNat ≤ i.val → t.blk[i] = 0) ∧
        (t.result0 = 0 → t.dcpred[c] = s.dcpred[c]) ∧ (t.result0 ≠ 0 → t.dcpred[c] = t.blk[0])) ∧
      (t.status.err = true → t.result0 = s.result0 ∧ t.result1 = s.result1 ∧ t.blk = s.blk) ∧
      (∀ c' : Channel, c' ≠ c → t.dcpred[c'] = s.dcpred[c']) ∧ bsLegal t.bs ∧
      (TablesLegal s → ∃ (stop : BlkEnd) (n : Nat) (z : Block) (used : Nat),
        BlkReads s.ht[dcTable k] s.ht[acTable k] s.dcpred[c] (streamBits s.mem s.bs) stop n z t.dcpred[c] used ∧
        streamBits t.mem t.bs = (streamBits s.mem s.bs).drop used ∧
        (stop ≠ .fault → t.blk = z ∧ t.result0 = BitVec.ofNat 32 n ∧ t.result1 = BitVec.ofNat 32 used) ∧
        match stop with
        | .complete => Completed .none false s t
        | .truncated => Completed .streamUnderrun true s t
        | .fault => Completed .huffmanDecodingFault false s t) ∧
      t = { s with
        bs := { s.bs with count := t.bs.count, buf := t.bs.buf, cursor := t.bs.cursor }
        dcpred := t.dcpred, blk := t.blk, result0 := t.result0, result1 := t.result1
        latch := t.latch, status := t.status }

/-- R103 item 1: where the stream goes on with the bits of an encoded block, BLK_DECODE with the same predictor gives
the block, without TRUNC, and takes exactly those bits. RESULT0 is the position after the last nonzero coefficient. -/
def Obligations.BlkDecodeOfAnEncodedBlock : Prop :=
  ∀ (s : State) (c : Channel) (k : Kind) (Z : Block) (items : List (Nat × Nat)) (rest : List Bool),
    TablesLegal s → StreamLegal s → StreamOpenIn .reading s →
    blkSymbols s.ht[dcTable k] s.ht[acTable k] s.dcpred[c] Z = some items →
    streamBits s.mem s.bs = itemsBits items ++ rest →
    ∃ t, exec (.blkDecode c k) s = .next t ∧ Completed .none false s t ∧ t.blk = Z ∧ t.dcpred[c] = Z[0] ∧
      streamBits t.mem t.bs = rest ∧ t.result1 = BitVec.ofNat 32 (itemBits items) ∧
      1 ≤ t.result0.toNat ∧ t.result0.toNat ≤ 64 ∧ (∀ i : Fin 64, t.result0.toNat ≤ i.val → Z[i] = 0) ∧
      (t.result0 = 1 ∨ ∃ i : Fin 64, i.val + 1 = t.result0.toNat ∧ Z[i] ≠ 0) ∧
      (∀ c' : Channel, c' ≠ c → t.dcpred[c'] = s.dcpred[c']) ∧
      t = { s with
        bs := { s.bs with count := t.bs.count, buf := t.bs.buf, cursor := t.bs.cursor }
        dcpred := t.dcpred, blk := t.blk, result0 := t.result0, result1 := t.result1
        latch := t.latch, status := t.status }

/-- BLK_ENCODE: the bits of the block's items are appended, DCPRED[C] is BLK[0], and no byte outside those emitted
changes; a block with a symbol that has no code, or too small a sink, faults and changes nothing (R99, R102, R103; the
sink's range by log 6). With built tables the items, and that there are none, are what `blk_symbols` gives line by line
(`BlkCodes`), with the tables R62 gives a kind (R98, R100). -/
def Obligations.BlkEncodeAppendsTheItems : Prop :=
  ItemsLineByLine ∧
  ∀ (s : State) (c : Channel) (k : Kind), StreamLegal s → StreamOpenIn .writing s →
    (∀ items, blkSymbols s.ht[dcTable k] s.ht[acTable k] s.dcpred[c] s.blk = some items →
      (s.bs.cursor.toNat + (s.bs.count.toNat + itemBits items) / 8 ≤ s.bs.limit.toNat →
        ∃ t, exec (.blkEncode c k) s = .next t ∧ Completed .none false s t ∧
          t.result0 = BitVec.ofNat 32 (itemBits items) ∧ t.result1 = t.bs.cursor ∧ t.dcpred[c] = s.blk[0] ∧
          (∀ c' : Channel, c' ≠ c → t.dcpred[c'] = s.dcpred[c']) ∧
          t.bs.cursor.toNat = s.bs.cursor.toNat + (s.bs.count.toNat + itemBits items) / 8 ∧
          heldBits s.bs ++ itemsBits items =
            byteBits (memBytes t.mem (s.bs.base.toNat + s.bs.cursor.toNat)
              ((s.bs.count.toNat + itemBits items) / 8)) ++ heldBits t.bs ∧
          bsLegal t.bs ∧
          MemSameOutside (s.bs.base.toNat + s.bs.cursor.toNat) ((s.bs.count.toNat + itemBits items) / 8) s t ∧
          t = { s with
            bs := { s.bs with count := t.bs.count, buf := t.bs.buf, cursor := t.bs.cursor }, mem := t.mem
            dcpred := t.dcpred, result0 := t.result0, result1 := t.result1
            latch := t.latch, status := t.status }) ∧
      (s.bs.limit.toNat < s.bs.cursor.toNat + (s.bs.count.toNat + itemBits items) / 8 →
        exec (.blkEncode c k) s = .next (failedWith .illegalArgument s))) ∧
    (blkSymbols s.ht[dcTable k] s.ht[acTable k] s.dcpred[c] s.blk = none →
      exec (.blkEncode c k) s = .next (failedWith .huffmanEncodingFault s))

/-- R103 item 3: a block whose AC coefficients are all 0 is coded as its DC symbol, the magnitude and one EOB. -/
def Obligations.DcOnlyBlockIsOneEob : Prop :=
  ∀ (s : State) (c : Channel) (k : Kind) (dc eob : CodeEntry) (d : Int), TablesLegal s → StreamLegal s →
    StreamOpenIn .writing s → (∀ i : Fin 64, i ≠ 0 → s.blk[i] = 0) → d = (s.blk[0] - s.dcpred[c]).toInt →
    bitlen d ≤ 15 → dc ∈ s.ht[dcTable k].codes → dc.sym.toNat = bitlen d →
    eob ∈ s.ht[acTable k].codes → eob.sym = 0x00 →
    s.bs.cursor.toNat + (s.bs.count.toNat + (dc.len.toNat + bitlen d + eob.len.toNat)) / 8 ≤ s.bs.limit.toNat →
    ∃ t, exec (.blkEncode c k) s = .next t ∧ Completed .none false s t ∧
      t.result0.toNat = dc.len.toNat + bitlen d + eob.len.toNat ∧
      heldBits s.bs ++ (msbBits dc.code.toNat dc.len.toNat ++ msbBits (mag d (bitlen d)) (bitlen d) ++
          msbBits eob.code.toNat eob.len.toNat) =
        byteBits (memBytes t.mem (s.bs.base.toNat + s.bs.cursor.toNat) (t.bs.cursor.toNat - s.bs.cursor.toNat)) ++
          heldBits t.bs

/-! ### Images (47_image.md) -/

/-- DECODE_IMAGE of a source that holds the coded blocks of the image, one for each place of the iteration: it
completes without TRUNC, sets the context up as CTX_INIT does, writes the composed pixel of every (x, y) of WIDTH ×
HEIGHT and no other byte, and reports the bytes written, the source bytes pulled and the number of blocks (R106 to
R108). The terms it names are the spec's: the iteration is R107's order, the variant's row is R91's, a block's items
are R102's line by line, and its samples are those UNZIGZAG, DEQUANT, IDCT and SHIFT_CLAMP make of it. -/
def Obligations.DecodeImageOfCodedBlocks : Prop :=
  VariantTable ∧ (∀ s : State, s.variant ≠ 3 → InStreamOrder s (blocks s)) ∧ ReconstructRuns ∧
  ItemsLineByLine ∧
  ∀ (s : State) (qt : Vector (Vector (BitVec 15) 64) 4) (zs : List (BlockPos × Block)) (items : List (Nat × Nat))
    (rest : List Bool),
    TablesLegal s → Passes .decodeImage s → ContextScales s qt →
    zs.map Prod.fst = blocks s → codedItems s (Vector.replicate 4 0) zs = some items →
    byteBits (memBytes s.mem s.srcBase.toNat s.srcLen.toNat) = itemsBits items ++ rest →
    ∃ ctx t, exec .ctxInit s = .next ctx ∧ exec .decodeImage s = .next t ∧
      t.busy = false ∧ t.status.err = false ∧ t.status.errcode = .none ∧ t.status.trunc = false ∧
      t.status = ctx.status ∧ t.padW = ctx.padW ∧ t.padH = ctx.padH ∧ t.qt = qt ∧ ctx.qt = qt ∧
      t.dcpred = lastDc (Vector.replicate 4 0) zs ∧
      t.result0.toNat = 4 * s.width.toNat * s.height.toNat ∧
      t.result1.toNat = (itemBits items + 7) / 8 ∧ t.errpos = BitVec.ofNat 32 zs.length ∧
      t.bs.mode = .reading ∧ t.bs.base = s.srcBase ∧ t.bs.limit = s.srcLen ∧ t.bs.cursor = t.result1 ∧
      streamBits s.mem t.bs = rest ∧ WritesPixels s qt zs t.mem ∧
      MemSameOutside s.dstBase.toNat (4 * s.width.toNat * s.height.toNat) s t ∧
      t.ht = s.ht ∧ HostSideSame s t

/-- DECODE_IMAGE ends as its blocks do when they are decoded one by one with BLK_DECODE: it aborts exactly when one of
them faults. Otherwise the image is full-size, its pixels composed of the blocks as decoded, the truncated ones too;
TRUNC and ERRCODE say whether a block underran, and ERRPOS is the first that did, or the number of blocks (R19, R108,
R115). -/
def Obligations.TruncatedImageIsFullSize : Prop :=
  ∀ s : State, Passes .decodeImage s → ∃ (f : Nat → State) (t : State), BlockByBlock s f ∧
    exec .decodeImage s = .next t ∧
    t.status.errcode ∈ [.none, .streamUnderrun, .huffmanDecodingFault] ∧
    (t.status.errcode = .huffmanDecodingFault ↔
      ∃ n : Nat, n < (blocks s).length ∧ (f (n + 1)).status.errcode = .huffmanDecodingFault) ∧
    (t.status.errcode ≠ .huffmanDecodingFault →
      t.result0 = BitVec.ofNat 32 (4 * s.width.toNat * s.height.toNat) ∧ t.result1 = t.bs.cursor ∧
      (t.status.trunc = true ↔ t.status.errcode = .streamUnderrun) ∧
      (t.status.errcode = .none → t.errpos = BitVec.ofNat 32 (blocks s).length ∧
        ∀ n : Nat, n < (blocks s).length → (f (n + 1)).status.errcode = .none) ∧
      (t.status.errcode = .streamUnderrun → ∃ n : Nat, FirstBad s f n ∧
        (f (n + 1)).status.errcode = .streamUnderrun ∧ t.errpos = BitVec.ofNat 32 n) ∧
      t.dcpred = (f (blocks s).length).dcpred ∧ t.bs = (f (blocks s).length).bs ∧ t.qt = (f 0).qt ∧
      ∃ zs : List (BlockPos × Block), zs.map Prod.fst = blocks s ∧
        (∀ (n : Nat) (e : BlockPos × Block), zs[n]? = some e → e.2 = (f (n + 1)).blk) ∧
        WritesPixels s t.qt zs t.mem) ∧
    MemSameOutside s.dstBase.toNat (4 * s.width.toNat * s.height.toNat) s t

/-- A source of no bytes is an image of blocks of zeros: with a coded channel the command completes with
StreamUnderrun in block 0, and every pixel is composed of the default values and of the sample a zero block gives, 128
for a LUMINANCE channel and 0 for a CHROMINANCE one (R78, R108, R115). That such a source passes the overlap check
wherever SRC_BASE points is the model's reading (log 8). -/
def Obligations.EmptySourceGivesMidGrey : Prop :=
  ∀ s : State, TablesLegal s → Passes .decodeImage s → s.srcLen = 0 → blocks s ≠ [] →
    ∃ t, exec .decodeImage s = .next t ∧ t.busy = false ∧ t.status.err = false ∧
      t.status.errcode = .streamUnderrun ∧ t.status.trunc = true ∧ t.errpos = 0 ∧ t.result1 = 0 ∧
      (∀ c : Channel, t.dcpred[c] = 0) ∧
      ∀ x y : Nat, x < s.width.toNat → y < s.height.toNat → ∃ p : Samples,
        (∀ c : Channel, p.channel c =
          if s.chCfg[c].defen then (s.chCfg[c].defval.toNat : Int)
          else match variantKind s.variant c with
            | .luminance => 128
            | .chrominance => 0) ∧
        memBytes t.mem (s.dstBase.toNat + 4 * (y * s.width.toNat + x)) 4 =
          argbBytes (composePixel (variantMode s.variant) p)

/-- ENCODE_IMAGE, where every block has a code and the sink holds the result, completes: the output is the bits of the
blocks in stream order, then 1-bits to a whole byte, then 0xFF bytes to a multiple of 16, and no other byte changes;
RESULT0 is its length and RESULT1 the length before the 0xFF padding (R61, R106, R107, R110). The blocks are the
spec's: in R107's order (DecodeImageOfCodedBlocks states it) and, of each place, what UNSHIFT, FDCT, QUANT and ZIGZAG
make of the plane samples DECOMPOSE gives, averaged for a subsampled channel; with built tables a block's items are
R102's line by line. -/
def Obligations.EncodeImageWritesTheCodedBlocks : Prop :=
  PreparedRuns ∧ ItemsLineByLine ∧
  ∀ (s : State) (qt : Vector (Vector (BitVec 15) 64) 4) (items : List (Nat × Nat)) (body total : Nat),
    Passes .encodeImage s → ContextScales s qt →
    codedItems s (Vector.replicate 4 0) (preparedBlocks s qt) = some items →
    body = (itemBits items + 7) / 8 → total = (body + 15) / 16 * 16 → total ≤ s.dstCap.toNat →
    ∃ ctx t, exec .ctxInit s = .next ctx ∧ exec .encodeImage s = .next t ∧
      t.busy = false ∧ t.status.err = false ∧ t.status.errcode = .none ∧ t.status.trunc = false ∧
      t.status = ctx.status ∧ t.padW = ctx.padW ∧ t.padH = ctx.padH ∧ t.qt = qt ∧ ctx.qt = qt ∧
      t.dcpred = lastDc (Vector.replicate 4 0) (preparedBlocks s qt) ∧
      t.result0.toNat = total ∧ t.result1.toNat = body ∧ t.errpos = BitVec.ofNat 32 (blocks s).length ∧
      t.bs = { mode := .writing, count := 0, buf := 0, cursor := t.result0, base := s.dstBase, limit := s.dstCap } ∧
      byteBits (memBytes t.mem s.dstBase.toNat total) =
        itemsBits items ++ List.replicate (8 * total - itemBits items) true ∧
      MemSameOutside s.dstBase.toNat total s t ∧ t.ht = s.ht ∧ HostSideSame s t

/-- A fatal fault inside an image command, after its checks: the code is fatal, the results keep their values, the
padded dimensions and scale tables are those of the set-up, and no byte outside the output range changes. ERRPOS counts
the blocks completed: of DECODE_IMAGE, whose blocks BLK_DECODE decodes one by one, those before the first that faulted
or underran (log 11); of ENCODE_IMAGE, the blocks that have a code and fit the sink, before one that does not, or all
of them where the flush or the padding does not fit (R19, R109, R115). With built tables the items of a block, and
which block has none, are R102's line by line. -/
def Obligations.ImageFaultLeavesTheRest : Prop :=
  ItemsLineByLine ∧
  ∀ (s ctx t : State) (i : Instr), i = .decodeImage ∨ i = .encodeImage → Passes i s →
    exec .ctxInit s = .next ctx → exec i s = .next t → t.status.err = true →
    t.status.errcode ∈ [.huffmanDecodingFault, .huffmanEncodingFault, .illegalArgument] ∧
    t.result0 = s.result0 ∧ t.result1 = s.result1 ∧
    t.padW = ctx.padW ∧ t.padH = ctx.padH ∧ t.qt = ctx.qt ∧ t.ht = s.ht ∧ HostSideSame s t ∧
    (i = .decodeImage → MemSameOutside s.dstBase.toNat (4 * s.width.toNat * s.height.toNat) s t ∧
      t.status.errcode = .huffmanDecodingFault ∧
      ∃ (f : Nat → State) (n : Nat), BlockByBlock s f ∧ FirstBad s f n ∧ t.errpos = BitVec.ofNat 32 n ∧
        (t.status.trunc = true ↔ (f (n + 1)).status.errcode = .streamUnderrun)) ∧
    (i = .encodeImage → MemSameOutside s.dstBase.toNat s.dstCap.toNat s t ∧ t.status.trunc = false ∧
      ∃ (zs : List (BlockPos × Block)) (n : Nat) (items : List (Nat × Nat)), zs = preparedBlocks s ctx.qt ∧
        n ≤ zs.length ∧ t.errpos = BitVec.ofNat 32 n ∧
        codedItems s (Vector.replicate 4 0) (zs.take n) = some items ∧ itemBits items / 8 ≤ s.dstCap.toNat ∧
        (n < zs.length →
          (t.status.errcode = .huffmanEncodingFault ∧
            codedItems s (Vector.replicate 4 0) (zs.take (n + 1)) = none) ∨
          (t.status.errcode = .illegalArgument ∧ ∃ more : List (Nat × Nat),
            codedItems s (Vector.replicate 4 0) (zs.take (n + 1)) = some more ∧
            s.dstCap.toNat < itemBits more / 8)) ∧
        (n = zs.length → t.status.errcode = .illegalArgument ∧
          s.dstCap.toNat < ((itemBits items + 7) / 8 + 15) / 16 * 16))

/-- What ENCODE_IMAGE wrote, DECODE_IMAGE reads to its end: from the bytes of a successful encode, with the same
configuration and tables, the decode succeeds, with no underrun, the same number of blocks, the same last DC values and
the body's bytes pulled (R103, R107, R108, R110). -/
def Obligations.DecodeImageReadsWhatEncodeImageWrote : Prop :=
  ∀ (s t u : State) (d c : Word), TablesLegal s → Passes .encodeImage s → exec .encodeImage s = .next t →
    t.status.err = false →
    u = { t with srcBase := s.dstBase, srcLen := t.result0, dstBase := d, dstCap := c } → Passes .decodeImage u →
    ∃ v, exec .decodeImage u = .next v ∧ v.status.err = false ∧ v.status.errcode = .none ∧
      v.status.trunc = false ∧ v.errpos = t.errpos ∧ v.dcpred = t.dcpred ∧ v.result1 = t.result1
end

