-- ==== Sys2Proof/Laws/Memory.lean ====
section
/-! SUPPORT. DMEM: a read after a write, what a write leaves alone, and the canonical form (20_memory.md R34 to R38). -/

namespace Sys2Proof.Machine

/-! ### Lookup in a list of cells -/

theorem memLookup_append (m n : Memory) (a : Nat) :
    memLookup (m ++ n) a = (memLookup m a).orElse fun _ => memLookup n a := by
  induction m with
  | nil => simp [memLookup]
  | cons c rest ih =>
    obtain ⟨b, v⟩ := c
    by_cases h : b = a <;> simp [memLookup, h, ih]

theorem memLookup_filter (p : Nat → Bool) (m : Memory) (a : Nat) :
    memLookup (m.filter fun c => p c.1) a = if p a then memLookup m a else none := by
  induction m with
  | nil => simp [memLookup]
  | cons c rest ih =>
    obtain ⟨b, v⟩ := c
    by_cases hb : p b
    · by_cases h : b = a
      · subst h; simp [memLookup, hb]
      · simp [memLookup, hb, h, ih]
    · by_cases h : b = a
      · subst h; simp [hb, ih]
      · simp [memLookup, hb, h, ih]

theorem memLookup_cellsFrom (bytes : List Byte) (b a : Nat) :
    memLookup (cellsFrom b bytes) a = if b ≤ a then bytes[a - b]? else none := by
  induction bytes generalizing b with
  | nil => simp [cellsFrom, memLookup]
  | cons v vs ih =>
    simp only [cellsFrom, memLookup, ih]
    rcases Nat.lt_trichotomy b a with h | h | h
    · obtain ⟨d, rfl⟩ : ∃ d, a = b + 1 + d := ⟨a - (b + 1), by omega⟩
      rw [if_neg (by omega), if_pos (by omega), if_pos (by omega)]
      rw [show b + 1 + d - b = d + 1 by omega, show b + 1 + d - (b + 1) = d by omega]
      simp
    · subst h; simp
    · rw [if_neg (by omega), if_neg (by omega), if_neg (by omega)]

/-! ### A read after a write -/

/-- Inside the written range a read gives the written byte. -/
theorem memRead_memWrite_inside (m : Memory) (b : Nat) (bytes : List Byte) (a : Nat) (h₁ : b ≤ a)
    (h₂ : a < b + bytes.length) : memRead (memWrite b bytes m) a = bytes[a - b]'(by omega) := by
  have hlt : a - b < bytes.length := by omega
  simp [memRead, memWrite, memLookup_append, memLookup_filter (fun x => decide (x < b)),
    memLookup_filter (fun x => decide (b + bytes.length ≤ x)), memLookup_cellsFrom, h₁, Nat.not_lt.mpr h₁,
    List.getElem?_eq_getElem hlt]

/-- Outside the written range a read gives what it gave. -/
theorem memRead_memWrite_outside (m : Memory) (b : Nat) (bytes : List Byte) (a : Nat)
    (h : ¬(b ≤ a ∧ a < b + bytes.length)) : memRead (memWrite b bytes m) a = memRead m a := by
  simp only [memRead, memWrite, memLookup_append, memLookup_filter (fun x => decide (x < b)),
    memLookup_filter (fun x => decide (b + bytes.length ≤ x)), memLookup_cellsFrom]
  by_cases hb : a < b
  · rw [if_pos (by simpa using hb), if_neg (by omega), if_neg (by simp; omega)]
    cases memLookup m a <;> simp
  · rw [if_neg (by simpa using hb), if_pos (by omega), if_pos (by simp; omega),
      List.getElem?_eq_none (by omega)]
    simp

/-- A read after a write, in one equation. -/
theorem memRead_memWrite (m : Memory) (b : Nat) (bytes : List Byte) (a : Nat) :
    memRead (memWrite b bytes m) a =
      if h : b ≤ a ∧ a < b + bytes.length then bytes[a - b]'(by omega) else memRead m a := by
  split
  · rename_i h; exact memRead_memWrite_inside m b bytes a h.1 h.2
  · rename_i h; exact memRead_memWrite_outside m b bytes a h

@[simp] theorem memRead_memWrite_nil (m : Memory) (b a : Nat) : memRead (memWrite b [] m) a = memRead m a :=
  memRead_memWrite_outside m b [] a (by simp)

/-- The written range reads back as the bytes written. -/
theorem memBytes_memWrite_same (m : Memory) (b : Nat) (bytes : List Byte) :
    memBytes (memWrite b bytes m) b bytes.length = bytes := by
  apply List.ext_getElem
  · simp [memBytes]
  · intro i h₁ h₂
    simp only [memBytes, List.getElem_map, List.getElem_range]
    rw [memRead_memWrite_inside m b bytes (b + i) (by omega) (by omega)]
    simp

/-- A range that a write does not touch reads back as it did. -/
theorem memBytes_memWrite_outside (m : Memory) (b : Nat) (bytes : List Byte) (a n : Nat)
    (h : a + n ≤ b ∨ b + bytes.length ≤ a) : memBytes (memWrite b bytes m) a n = memBytes m a n := by
  apply List.map_congr_left
  intro i hi
  rw [List.mem_range] at hi
  exact memRead_memWrite_outside m b bytes (a + i) (by omega)

@[simp] theorem length_memBytes (m : Memory) (a n : Nat) : (memBytes m a n).length = n := by simp [memBytes]

@[simp] theorem getElem_memBytes (m : Memory) (a n i : Nat) (h : i < (memBytes m a n).length) :
    (memBytes m a n)[i] = memRead m (a + i) := by simp [memBytes]

theorem memBytes_succ (m : Memory) (a n : Nat) :
    memBytes m a (n + 1) = memRead m a :: memBytes m (a + 1) n := by
  simp only [memBytes, List.range_succ_eq_map, List.map_cons, List.map_map, Nat.add_zero, List.cons.injEq,
    true_and]
  apply List.map_congr_left
  intro i _
  simp [Nat.add_comm, Nat.add_left_comm]

theorem memBytes_append (m : Memory) (a n k : Nat) :
    memBytes m a (n + k) = memBytes m a n ++ memBytes m (a + n) k := by
  induction n generalizing a with
  | zero => simp [memBytes]
  | succ n ih =>
    rw [show n + 1 + k = n + k + 1 by omega, memBytes_succ, memBytes_succ, ih, show a + 1 + n = a + (n + 1) by omega]
    rfl

theorem memBytes_congr {m n : Memory} {a k : Nat} (h : ∀ i < k, memRead m (a + i) = memRead n (a + i)) :
    memBytes m a k = memBytes n a k := by
  apply List.map_congr_left
  intro i hi
  exact h i (List.mem_range.mp hi)

/-! ### The canonical form -/

theorem mem_cellsFrom {bytes : List Byte} {b : Nat} {c : Host.Cell} (h : c ∈ cellsFrom b bytes) :
    b ≤ c.1 ∧ c.1 < b + bytes.length := by
  induction bytes generalizing b with
  | nil => simp [cellsFrom] at h
  | cons v vs ih =>
    rcases List.mem_cons.mp h with rfl | h
    · simp
    · have := ih h; simp only [List.length_cons]; omega

theorem cellsFrom_rising (bytes : List Byte) (b : Nat) :
    ((cellsFrom b bytes).map Prod.fst).Pairwise (· < ·) := by
  induction bytes generalizing b with
  | nil => simp [cellsFrom]
  | cons v vs ih =>
    simp only [cellsFrom, List.map_cons, List.pairwise_cons]
    refine ⟨fun x hx => ?_, ih (b + 1)⟩
    obtain ⟨c, hc, rfl⟩ := List.mem_map.mp hx
    have := mem_cellsFrom hc
    omega

/-- A write keeps the canonical form. -/
theorem memWf_memWrite (m : Memory) (b : Nat) (bytes : List Byte) (h : memWf m = true) :
    memWf (memWrite b bytes m) = true := by
  simp only [memWf, decide_eq_true_eq, memWrite, List.map_append, List.pairwise_append] at *
  have hsub : ∀ p : Host.Cell → Bool, ((m.filter p).map Prod.fst).Pairwise (· < ·) := fun p =>
    h.sublist (List.filter_sublist.map _)
  refine ⟨⟨hsub _, cellsFrom_rising bytes b, ?_⟩, hsub _, ?_⟩
  · intro x hx y hy
    obtain ⟨c, hc, rfl⟩ := List.mem_map.mp hx
    obtain ⟨d, hd, rfl⟩ := List.mem_map.mp hy
    have h1 := (List.mem_filter.mp hc).2
    have h2 := mem_cellsFrom hd
    simp only [decide_eq_true_eq] at h1
    omega
  · intro x hx y hy
    obtain ⟨d, hd, rfl⟩ := List.mem_map.mp hy
    have h2 := (List.mem_filter.mp hd).2
    simp only [decide_eq_true_eq] at h2
    rcases List.mem_append.mp hx with hx | hx <;> obtain ⟨c, hc, rfl⟩ := List.mem_map.mp hx
    · have h1 := (List.mem_filter.mp hc).2
      simp only [decide_eq_true_eq] at h1
      omega
    · have h1 := mem_cellsFrom hc
      omega

/-- A write inside DMEM lists no byte beyond it. -/
theorem memInside_memWrite (size : Nat) (m : Memory) (b : Nat) (bytes : List Byte) (h : memInside size m = true)
    (hin : bytes = [] ∨ b + bytes.length ≤ size) : memInside size (memWrite b bytes m) = true := by
  simp only [memInside, List.all_eq_true, decide_eq_true_eq] at *
  intro c hc
  simp only [memWrite, List.mem_append, List.mem_filter] at hc
  rcases hc with (⟨hc, -⟩ | hc) | ⟨hc, -⟩
  · exact h c hc
  · have := mem_cellsFrom hc
    rcases hin with rfl | hin
    · simp at this; omega
    · omega
  · exact h c hc

@[simp] theorem memWf_nil : memWf [] = true := by decide

@[simp] theorem memInside_nil (size : Nat) : memInside size [] = true := rfl

@[simp] theorem length_freeBytes (k n : Nat) : (freeBytes k n).length = n := by simp [freeBytes]

@[simp] theorem length_freeWords (k n : Nat) : (freeWords k n).length = n := by simp [freeWords]

end Sys2Proof.Machine
end

