-- ==== Sys2Proof/Laws/Bits.lean ====
section
/-! SUPPORT. Values as bit strings, most significant bit first (40_bitstream.md R54). -/

namespace Sys2Proof.Machine

@[simp] theorem length_msbBits (v n : Nat) : (msbBits v n).length = n := by simp [msbBits]

@[simp] theorem msbBits_zero (v : Nat) : msbBits v 0 = [] := rfl

theorem getElem_msbBits (v n i : Nat) (h : i < (msbBits v n).length) :
    (msbBits v n)[i] = v.testBit (n - 1 - i) := by simp [msbBits]

/-- Only the low n bits count. -/
theorem msbBits_mod (v n : Nat) : msbBits (v % 2 ^ n) n = msbBits v n := by
  apply List.map_congr_left
  intro i hi
  have := List.mem_range.mp hi
  rw [Nat.testBit_mod_two_pow, decide_eq_true (by omega)]
  simp

/-- The bits of a value split at any place. -/
theorem msbBits_add (v n k : Nat) : msbBits v (n + k) = msbBits (v / 2 ^ k) n ++ msbBits v k := by
  apply List.ext_getElem
  · simp
  · intro i h₁ h₂
    rw [getElem_msbBits, List.getElem_append]
    simp only [length_msbBits] at h₁ ⊢
    split
    · rw [getElem_msbBits, Nat.testBit_div_two_pow]
      congr 1; omega
    · rw [getElem_msbBits]
      congr 1; omega

/-- Two values' bits in a row are the bits of their concatenation. -/
theorem msbBits_append (u v n k : Nat) : msbBits u n ++ msbBits v k = msbBits (u * 2 ^ k + v % 2 ^ k) (n + k) := by
  have hk : 0 < 2 ^ k := Nat.two_pow_pos k
  rw [msbBits_add, Nat.add_comm (u * 2 ^ k), Nat.add_mul_div_right _ _ hk,
    Nat.div_eq_of_lt (Nat.mod_lt _ hk), Nat.zero_add, ← msbBits_mod (v % 2 ^ k + u * 2 ^ k) k,
    Nat.add_mul_mod_self_right, Nat.mod_mod, msbBits_mod]

/-- A value is its bits. -/
theorem msbBits_inj {u v n : Nat} (hu : u < 2 ^ n) (hv : v < 2 ^ n) (h : msbBits u n = msbBits v n) : u = v := by
  apply Nat.eq_of_testBit_eq
  intro i
  by_cases hi : i < n
  · have h₁ := getElem_msbBits u n (n - 1 - i) (by simp; omega)
    have h₂ := getElem_msbBits v n (n - 1 - i) (by simp; omega)
    rw [show n - 1 - (n - 1 - i) = i by omega] at h₁ h₂
    rw [← h₁, ← h₂]
    simp [h]
  · have hle : 2 ^ n ≤ 2 ^ i := Nat.pow_le_pow_right (by decide) (by omega)
    rw [Nat.testBit_lt_two_pow (by omega), Nat.testBit_lt_two_pow (by omega)]

theorem msbBits_eq_iff {u v n : Nat} : msbBits u n = msbBits v n ↔ u % 2 ^ n = v % 2 ^ n := by
  constructor
  · intro h
    exact msbBits_inj (Nat.mod_lt _ (Nat.two_pow_pos n)) (Nat.mod_lt _ (Nat.two_pow_pos n))
      (by rw [msbBits_mod, msbBits_mod, h])
  · intro h
    rw [← msbBits_mod u, h, msbBits_mod]

/-- All ones. -/
theorem msbBits_ones (n : Nat) : msbBits (2 ^ n - 1) n = List.replicate n true := by
  apply List.ext_getElem
  · simp
  · intro i h₁ h₂
    simp only [length_msbBits] at h₁
    rw [getElem_msbBits, Nat.testBit_two_pow_sub_one, List.getElem_replicate]
    simp; omega

@[simp] theorem byteBits_nil : byteBits [] = [] := rfl

@[simp] theorem byteBits_cons (b : Byte) (bs : List Byte) : byteBits (b :: bs) = msbBits b.toNat 8 ++ byteBits bs := rfl

@[simp] theorem byteBits_append (a b : List Byte) : byteBits (a ++ b) = byteBits a ++ byteBits b := by
  simp [byteBits]

@[simp] theorem length_byteBits (l : List Byte) : (byteBits l).length = 8 * l.length := by
  induction l with
  | nil => rfl
  | cons b bs ih => simp [ih]; omega

@[simp] theorem itemsBits_nil : itemsBits [] = [] := rfl

@[simp] theorem itemsBits_cons (e : Nat × Nat) (l : List (Nat × Nat)) :
    itemsBits (e :: l) = msbBits e.1 e.2 ++ itemsBits l := rfl

@[simp] theorem itemsBits_append (a b : List (Nat × Nat)) : itemsBits (a ++ b) = itemsBits a ++ itemsBits b := by
  simp [itemsBits]

@[simp] theorem itemBits_nil : itemBits [] = 0 := rfl

@[simp] theorem itemBits_cons (e : Nat × Nat) (l : List (Nat × Nat)) : itemBits (e :: l) = e.2 + itemBits l := rfl

@[simp] theorem itemBits_append (a b : List (Nat × Nat)) : itemBits (a ++ b) = itemBits a + itemBits b := by
  simp [itemBits]

@[simp] theorem length_itemsBits (l : List (Nat × Nat)) : (itemsBits l).length = itemBits l := by
  induction l with
  | nil => rfl
  | cons e l ih => simp [ih]

/-- The bytes taken from the top of a value of 8·k + r bits, then the r bits left, are the value's bits. -/
theorem byteBits_top (v k r : Nat) :
    byteBits ((List.range k).map fun i => BitVec.ofNat 8 (v / 2 ^ (8 * k + r - 8 * (i + 1)))) ++ msbBits v r
      = msbBits v (8 * k + r) := by
  induction k generalizing r with
  | zero => simp
  | succ k ih =>
    rw [List.range_succ, List.map_append, byteBits_append, List.append_assoc]
    have h8 : byteBits (List.map (fun i => BitVec.ofNat 8 (v / 2 ^ (8 * (k + 1) + r - 8 * (i + 1)))) [k])
        ++ msbBits v r = msbBits v (8 + r) := by
      rw [msbBits_add]
      simp only [List.map_cons, List.map_nil, byteBits_cons, byteBits_nil, List.append_nil, BitVec.toNat_ofNat,
        show 8 * (k + 1) + r - 8 * (k + 1) = r by omega]
      rw [show (2 : Nat) ^ 8 = 2 ^ 8 from rfl, msbBits_mod]
    rw [h8, show 8 * (k + 1) + r = 8 * k + (8 + r) by omega, ← ih (8 + r)]

end Sys2Proof.Machine
end

