-- ==== Sys2Proof/Laws/Stream.lean ====
section
/-! SUPPORT. What the internal functions of the bitstream unit do, said once each in terms of the stream's bits
(40_bitstream.md R54, R55). -/

namespace Sys2Proof.Machine

/-- The bits of BUF above COUNT are 0 (10_state.md R26). -/
def BufOk (b : Bs) : Prop := b.buf.toNat < 2 ^ b.count.toNat

/-- The reader moved from b to b' by taking k bits; the pulls it needed happened too. -/
structure Reads (m : Memory) (k : Nat) (b b' : Bs) : Prop where
  mode   : b'.mode = b.mode
  base   : b'.base = b.base
  limit  : b'.limit = b.limit
  bufOk  : BufOk b'
  bits   : streamBits m b' = (streamBits m b).drop k
  enough : k ≤ (streamBits m b).length
  rises  : b.cursor.toNat ≤ b'.cursor.toNat
  inside : b'.cursor.toNat ≤ b.cursor.toNat ∨ b'.cursor.toNat ≤ b.limit.toNat
  moved  : 8 * (b'.cursor.toNat - b.cursor.toNat) + b.count.toNat = b'.count.toNat + k

@[simp] theorem length_heldBits (b : Bs) : (heldBits b).length = b.count.toNat := by simp [heldBits]

@[simp] theorem length_streamBits (m : Memory) (b : Bs) :
    (streamBits m b).length = b.count.toNat + 8 * (b.limit.toNat - b.cursor.toNat) := by
  simp [streamBits, unread]

theorem Reads.refl {m : Memory} {b : Bs} (h : BufOk b) : Reads m 0 b b :=
  ⟨rfl, rfl, rfl, h, by simp, by simp, le_rfl, .inl le_rfl, by simp⟩

theorem Reads.trans {m : Memory} {k l : Nat} {b c d : Bs} (h₁ : Reads m k b c) (h₂ : Reads m l c d) :
    Reads m (k + l) b d := by
  have e := h₁.enough
  have e₂ := h₂.enough
  rw [h₁.bits, List.length_drop] at e₂
  refine ⟨h₂.mode.trans h₁.mode, h₂.base.trans h₁.base, h₂.limit.trans h₁.limit, h₂.bufOk, ?_, by omega,
    h₁.rises.trans h₂.rises, ?_, ?_⟩
  · rw [h₂.bits, h₁.bits, List.drop_drop]
  · have i₁ := h₁.inside
    have i₂ := h₂.inside
    have r₁ := h₁.rises
    rw [h₁.limit] at i₂
    omega
  · have m₁ := h₁.moved
    have m₂ := h₂.moved
    have r₁ := h₁.rises
    have r₂ := h₂.rises
    omega

/-! ### bs_can -/

theorem bsPull_spec (m : Memory) (b : Bs) (h : BufOk b) (hn : b.count.toNat < 57)
    (hc : b.cursor.toNat < b.limit.toNat) :
    (bsPull m b).cursor.toNat = b.cursor.toNat + 1 ∧ (bsPull m b).count.toNat = b.count.toNat + 8 ∧
      Reads m 0 b (bsPull m b) := by
  have hcur : (b.cursor + 1).toNat = b.cursor.toNat + 1 := by
    rw [BitVec.toNat_add]
    have := b.limit.isLt
    exact Nat.mod_eq_of_lt (by simpa using by omega)
  have hcount : (BitVec.ofNat 7 (b.count.toNat + 8)).toNat = b.count.toNat + 8 := by
    rw [BitVec.toNat_ofNat]; exact Nat.mod_eq_of_lt (by omega)
  have hbyte := (memRead m (b.base.toNat + b.cursor.toNat)).isLt
  have hpow : b.buf.toNat * 2 ^ 8 + (memRead m (b.base.toNat + b.cursor.toNat)).toNat < 2 ^ (b.count.toNat + 8) := by
    have : b.buf.toNat + 1 ≤ 2 ^ b.count.toNat := h
    rw [Nat.pow_add]
    nlinarith
  have hbuf : (bsPull m b).buf.toNat =
      b.buf.toNat * 2 ^ 8 + (memRead m (b.base.toNat + b.cursor.toNat)).toNat := by
    rw [bsPull, BitVec.toNat_ofNat]
    exact Nat.mod_eq_of_lt (hpow.trans_le (Nat.pow_le_pow_right (by decide) (by omega)))
  refine ⟨hcur, hcount, ⟨rfl, rfl, rfl, ?_, ?_, by simp, ?_, ?_, ?_⟩⟩
  · rw [BufOk, hbuf, bsPull, hcount]; exact hpow
  · simp only [streamBits, heldBits, hbuf, unread, List.drop_zero]
    rw [show (bsPull m b).count.toNat = b.count.toNat + 8 from hcount,
      show (bsPull m b).cursor.toNat = b.cursor.toNat + 1 from hcur, show (bsPull m b).base = b.base from rfl,
      show (bsPull m b).limit = b.limit from rfl]
    obtain ⟨d, hd⟩ : ∃ d, b.limit.toNat - b.cursor.toNat = d + 1 := ⟨b.limit.toNat - b.cursor.toNat - 1, by omega⟩
    rw [hd, show b.limit.toNat - (b.cursor.toNat + 1) = d by omega, memBytes_succ, byteBits_cons, ← List.append_assoc,
      msbBits_append, Nat.mod_eq_of_lt hbyte, Nat.add_assoc]
  · show b.cursor.toNat ≤ (b.cursor + 1).toNat; omega
  · right; show (b.cursor + 1).toNat ≤ _; omega
  · show 8 * ((b.cursor + 1).toNat - _) + _ = (BitVec.ofNat 7 (b.count.toNat + 8)).toNat + 0; omega

/-- The pulls of `bs_can(n)`: as many as needed and no more. -/
theorem bsFill_spec (m : Memory) (n : Nat) (hn : n ≤ 57) (fuel : Nat) (b : Bs) (h : BufOk b)
    (hf : (n - b.count.toNat + 7) / 8 ≤ fuel) :
    Reads m 0 b (bsFill m n fuel b) ∧
      (bsFill m n fuel b).cursor.toNat =
        b.cursor.toNat + min ((n - b.count.toNat + 7) / 8) (b.limit.toNat - b.cursor.toNat) := by
  induction fuel generalizing b with
  | zero =>
    refine ⟨Reads.refl h, ?_⟩
    simp only [bsFill]; omega
  | succ fuel ih =>
    rw [bsFill]
    split
    · rename_i hc
      obtain ⟨hcur, hcount, hr⟩ := bsPull_spec m b h (by omega) hc.2
      obtain ⟨h₁, h₂⟩ := ih (bsPull m b) hr.bufOk (by omega)
      refine ⟨hr.trans h₁, ?_⟩
      rw [h₂, hcur, hcount, hr.limit]
      omega
    · rename_i hc
      refine ⟨Reads.refl h, ?_⟩
      omega

/-- `bs_can(n)`: no bit is taken; the answer says whether n bits are left. -/
theorem bsCan_spec (m : Memory) (n : Nat) (hn : n ≤ 57) (b : Bs) (h : BufOk b) :
    Reads m 0 b (bsCan m n b).1 ∧
      (bsCan m n b).1.cursor.toNat =
        b.cursor.toNat + min ((n - b.count.toNat + 7) / 8) (b.limit.toNat - b.cursor.toNat) ∧
      (bsCan m n b).2 = decide (n ≤ (streamBits m b).length) ∧
      ((bsCan m n b).2 = true → n ≤ (bsCan m n b).1.count.toNat) := by
  obtain ⟨hr, hc⟩ := bsFill_spec m n hn n b h (by omega)
  refine ⟨hr, hc, ?_, by simp [bsCan]⟩
  have hm := hr.moved
  simp only [bsCan, length_streamBits, decide_eq_decide]
  omega

/-- A `bs_can` that answers yes pulls at most up to 7 bits more than it was asked for. -/
theorem bsCan_count_le (m : Memory) (n : Nat) (hn : n ≤ 57) (b : Bs) (h : BufOk b) :
    (bsCan m n b).1.count.toNat ≤ max b.count.toNat (n + 7) := by
  obtain ⟨hr, hc, -⟩ := bsCan_spec m n hn b h
  have hm := hr.moved
  omega

/-! ### bs_take -/

theorem bsTake_count (n : Nat) (b : Bs) : (bsTake n b).1.count.toNat = b.count.toNat - n := by
  simp only [bsTake, BitVec.toNat_ofNat]
  exact Nat.mod_eq_of_lt (by have := b.count.isLt; omega)

theorem bsTake_lt (n : Nat) (b : Bs) : (bsTake n b).2 < 2 ^ n := Nat.mod_lt _ (Nat.two_pow_pos n)

/-- `bs_take(n)`: the n oldest bits. -/
theorem bsTake_held (n : Nat) (b : Bs) (hn : n ≤ b.count.toNat) :
    heldBits b = msbBits (bsTake n b).2 n ++ heldBits (bsTake n b).1 ∧ BufOk (bsTake n b).1 := by
  have hbuf : (bsTake n b).1.buf.toNat = b.buf.toNat % 2 ^ (b.count.toNat - n) := by
    simp only [bsTake, BitVec.toNat_ofNat]
    exact Nat.mod_eq_of_lt ((Nat.mod_le _ _).trans_lt b.buf.isLt)
  constructor
  · simp only [heldBits, bsTake_count, hbuf, msbBits_mod]
    obtain ⟨d, hd⟩ : ∃ d, b.count.toNat = n + d := ⟨b.count.toNat - n, by omega⟩
    rw [hd, msbBits_add, show n + d - n = d by omega]
    simp only [bsTake, hd, show n + d - n = d by omega, msbBits_mod]
  · rw [BufOk, hbuf, bsTake_count]; exact Nat.mod_lt _ (Nat.two_pow_pos _)

theorem bsTake_spec (m : Memory) (n : Nat) (b : Bs) (hn : n ≤ b.count.toNat) :
    Reads m n b (bsTake n b).1 ∧ streamBits m b = msbBits (bsTake n b).2 n ++ streamBits m (bsTake n b).1 := by
  obtain ⟨h₁, h₂⟩ := bsTake_held n b hn
  have hs : streamBits m b = msbBits (bsTake n b).2 n ++ streamBits m (bsTake n b).1 := by
    simp only [streamBits, h₁, List.append_assoc]; rfl
  refine ⟨⟨rfl, rfl, rfl, h₂, ?_, ?_, le_rfl, .inl le_rfl, ?_⟩, hs⟩
  · rw [hs, List.drop_left' (by simp)]
  · rw [length_streamBits]; omega
  · rw [bsTake_count]; show 8 * (b.cursor.toNat - b.cursor.toNat) + _ = _; omega

/-- `bs_can(n)` and then `bs_take(n)`, where n bits are left: the next n bits of the stream. -/
theorem bsCan_bsTake (m : Memory) (n : Nat) (hn : n ≤ 57) (b : Bs) (h : BufOk b)
    (hl : n ≤ (streamBits m b).length) :
    (bsCan m n b).2 = true ∧ Reads m n b (bsTake n (bsCan m n b).1).1 ∧
      (streamBits m b).take n = msbBits (bsTake n (bsCan m n b).1).2 n := by
  obtain ⟨hr, -, hb, hc⟩ := bsCan_spec m n hn b h
  have ht : (bsCan m n b).2 = true := by rw [hb, decide_eq_true hl]
  obtain ⟨hr₂, hs⟩ := bsTake_spec m n (bsCan m n b).1 (hc ht)
  refine ⟨ht, by simpa using hr.trans hr₂, ?_⟩
  rw [show streamBits m b = streamBits m (bsCan m n b).1 by simp [hr.bits], hs, List.take_left' (by simp)]

/-- After a `bs_can` that answered yes and its `bs_take`, at most 7 bits more than before stay buffered. -/
theorem bsCan_bsTake_count (m : Memory) (n : Nat) (hn : n ≤ 57) (b : Bs) (h : BufOk b) :
    (bsTake n (bsCan m n b).1).1.count.toNat ≤ max b.count.toNat 7 := by
  have := bsCan_count_le m n hn b h
  rw [bsTake_count]; omega

/-! ### bs_put and bs_flush -/

/-- `bs_put(v, n)`: the held bits and the n new ones are the bytes emitted and the bits still held. -/
theorem bsPut_spec (v n : Nat) (b : Bs) :
    (bsPut v n b).2.length = (b.count.toNat + n) / 8 ∧
      (bsPut v n b).1.count.toNat = (b.count.toNat + n) % 8 ∧
      BufOk (bsPut v n b).1 ∧
      heldBits b ++ msbBits v n = byteBits (bsPut v n b).2 ++ heldBits (bsPut v n b).1 := by
  have hcount : (bsPut v n b).1.count.toNat = (b.count.toNat + n) % 8 := by
    simp only [bsPut, BitVec.toNat_ofNat]; exact Nat.mod_eq_of_lt (by omega)
  have hbuf : (bsPut v n b).1.buf.toNat = (b.buf.toNat * 2 ^ n + v % 2 ^ n) % 2 ^ ((b.count.toNat + n) % 8) := by
    simp only [bsPut, BitVec.toNat_ofNat]
    refine Nat.mod_eq_of_lt ((Nat.mod_lt _ (Nat.two_pow_pos _)).trans_le (Nat.pow_le_pow_right (by decide) (by omega)))
  refine ⟨by simp [bsPut], hcount, ?_, ?_⟩
  · rw [BufOk, hbuf, hcount]; exact Nat.mod_lt _ (Nat.two_pow_pos _)
  · have htop := byteBits_top (b.buf.toNat * 2 ^ n + v % 2 ^ n) ((b.count.toNat + n) / 8) ((b.count.toNat + n) % 8)
    rw [show 8 * ((b.count.toNat + n) / 8) + (b.count.toNat + n) % 8 = b.count.toNat + n by omega] at htop
    rw [heldBits, msbBits_append, ← htop, heldBits, hbuf, hcount, msbBits_mod]
    rfl

@[simp] theorem bsPut_mode (v n : Nat) (b : Bs) : (bsPut v n b).1.mode = b.mode := rfl
@[simp] theorem bsPut_base (v n : Nat) (b : Bs) : (bsPut v n b).1.base = b.base := rfl
@[simp] theorem bsPut_limit (v n : Nat) (b : Bs) : (bsPut v n b).1.limit = b.limit := rfl

theorem bsPut_cursor (v n : Nat) (b : Bs) (h : b.cursor.toNat + (b.count.toNat + n) / 8 < 2 ^ 32) :
    (bsPut v n b).1.cursor.toNat = b.cursor.toNat + (b.count.toNat + n) / 8 := by
  simp only [bsPut, BitVec.toNat_add, BitVec.toNat_ofNat]
  rw [Nat.mod_eq_of_lt (a := (b.count.toNat + n) / 8) (by omega)]
  exact Nat.mod_eq_of_lt h

/-- `bs_put` of a list of items, with room for all: the bits of the items in a row. -/
theorem bsPutAll_spec (items : List (Nat × Nat)) (b : Bs)
    (h : b.cursor.toNat + (b.count.toNat + itemBits items) / 8 < 2 ^ 32) (hb : BufOk b) :
    (bsPutAll items b).1.mode = b.mode ∧ (bsPutAll items b).1.base = b.base ∧
      (bsPutAll items b).1.limit = b.limit ∧ BufOk (bsPutAll items b).1 ∧
      8 * (bsPutAll items b).2.length + (bsPutAll items b).1.count.toNat = b.count.toNat + itemBits items ∧
      (bsPutAll items b).1.cursor.toNat = b.cursor.toNat + (bsPutAll items b).2.length ∧
      (items ≠ [] ∨ b.count.toNat < 8 → (bsPutAll items b).1.count.toNat < 8) ∧
      heldBits b ++ itemsBits items = byteBits (bsPutAll items b).2 ++ heldBits (bsPutAll items b).1 := by
  induction items generalizing b with
  | nil => simp [bsPutAll, hb]
  | cons e items ih =>
    obtain ⟨v, n⟩ := e
    obtain ⟨hlen, hcount, hok, hbits⟩ := bsPut_spec v n b
    simp only [itemBits_cons] at h
    have hcur := bsPut_cursor v n b (by omega)
    obtain ⟨i₁, i₂, i₃, i₄, i₅, i₆, i₇, i₈⟩ := ih (bsPut v n b).1 (by rw [hcur, hcount]; omega) hok
    simp only [bsPutAll, List.length_append, byteBits_append, itemBits_cons, itemsBits_cons]
    refine ⟨i₁, i₂, i₃, i₄, ?_, ?_, ?_, ?_⟩
    · omega
    · omega
    · intro _; apply i₇; right; omega
    · rw [← List.append_assoc, hbits, List.append_assoc, i₈, List.append_assoc]

/-- `bs_flush()`: the held bits, filled up with 1-bits to a whole byte. -/
theorem bsFlush_spec (b : Bs) (hc : b.count.toNat ≤ 7) :
    byteBits (bsFlush b).2 = heldBits b ++ List.replicate ((8 - b.count.toNat) % 8) true ∧
      (bsFlush b).2.length = (b.count.toNat + 7) / 8 ∧ (bsFlush b).1.count.toNat = 0 ∧
      (bsFlush b).1.mode = b.mode ∧ (bsFlush b).1.base = b.base ∧ (bsFlush b).1.limit = b.limit ∧
      (BufOk b → BufOk (bsFlush b).1) := by
  by_cases h : b.count.toNat = 0
  · simp [bsFlush, h, heldBits, msbBits]
  · have hp : 2 ^ (8 - b.count.toNat) - 1 < 2 ^ (8 - b.count.toNat) := by have := Nat.two_pow_pos (8 - b.count.toNat); omega
    refine ⟨?_, by simp [bsFlush, h]; omega, by simp [bsFlush, h], by simp [bsFlush, h], by simp [bsFlush, h],
      by simp [bsFlush, h], by simp [bsFlush, h, BufOk]⟩
    simp only [bsFlush, h, if_false, byteBits_cons, byteBits_nil, List.append_nil, BitVec.toNat_ofNat]
    rw [msbBits_mod, show (8 - b.count.toNat) % 8 = 8 - b.count.toNat by omega, ← msbBits_ones, heldBits, msbBits_append,
      Nat.mod_eq_of_lt hp, show b.count.toNat + (8 - b.count.toNat) = 8 by omega]

end Sys2Proof.Machine
end

