-- ==== Sys2Proof/Laws/Huffman.lean ====
section
/-! SUPPORT. Built Huffman tables: what the canonical build gives (41_huffman.md R64), the two maps (R66, R67, R71),
and the incremental decode in terms of the stream's bits (R69). -/

namespace Sys2Proof.Machine

/-- a comes before b in the canonical order, and b's bits do not start with a's. -/
def Before (a b : CodeEntry) : Prop :=
  a.len.toNat ≤ b.len.toNat ∧ a.code.toNat < b.code.toNat / 2 ^ (b.len.toNat - a.len.toNat)

theorem assignLength_spec {len : Nat} (hl : len ≤ 16) {count code : Nat} {syms left : List Byte}
    {codes : List CodeEntry} {next : Nat} (h : assignLength len count code syms = some (codes, next, left)) :
    next = code + count ∧ codes.length = count ∧ syms = codes.map CodeEntry.sym ++ left ∧
      (count = 0 ∨ code + count ≤ 2 ^ len) ∧
      (∀ e ∈ codes, e.len.toNat = len ∧ code ≤ e.code.toNat ∧ e.code.toNat < next) ∧ codes.Pairwise Before := by
  induction count generalizing code syms left codes next with
  | zero =>
    simp only [assignLength, Option.some.injEq, Prod.mk.injEq] at h
    obtain ⟨rfl, rfl, rfl⟩ := h
    simp
  | succ count ih =>
    cases syms with
    | nil => simp [assignLength] at h
    | cons sym syms =>
      simp only [assignLength] at h
      split at h
      · cases h
      rename_i hc
      split at h
      · cases h
      rename_i codes' next' left' h'
      simp only [Option.some.injEq, Prod.mk.injEq] at h
      obtain ⟨rfl, rfl, rfl⟩ := h
      obtain ⟨i₁, i₂, i₃, i₄, i₅, i₆⟩ := ih h'
      have hpow : 2 ^ len ≤ 2 ^ 16 := Nat.pow_le_pow_right (by decide) hl
      have hcode : (BitVec.ofNat 16 code).toNat = code := by
        rw [BitVec.toNat_ofNat]; exact Nat.mod_eq_of_lt (by omega)
      have hlen : (BitVec.ofNat 5 len).toNat = len := by
        rw [BitVec.toNat_ofNat]; exact Nat.mod_eq_of_lt (by omega)
      refine ⟨by omega, by simp [i₂], by simp [i₃], by omega, ?_, ?_⟩
      · intro e he
        rcases List.mem_cons.mp he with rfl | he
        · exact ⟨hlen, by simp only [hcode]; omega, by simp only [hcode]; omega⟩
        · obtain ⟨a, b, c⟩ := i₅ e he
          exact ⟨a, by omega, c⟩
      · refine List.pairwise_cons.mpr ⟨fun e he => ?_, i₆⟩
        obtain ⟨a, b, c⟩ := i₅ e he
        simp only [Before, hlen, hcode, a]
        simp; omega

/-- The codes of the canonical build. -/
theorem assignCodes_spec {len : Nat} {counts : List Nat} (hl : len + counts.length ≤ 17) {code : Nat}
    {syms : List Byte} {codes : List CodeEntry} (h : assignCodes len counts code syms = some codes) :
    codes.map CodeEntry.sym = syms.take counts.sum ∧ codes.length = counts.sum ∧
      (∀ e ∈ codes, len ≤ e.len.toNat ∧ e.len.toNat < len + counts.length ∧
        code ≤ e.code.toNat / 2 ^ (e.len.toNat - len) ∧ e.code.toNat < 2 ^ e.len.toNat ∧
        counts.getD (e.len.toNat - len) 0 ≠ 0) ∧
      (∀ i, counts.getD i 0 ≠ 0 → ∃ e ∈ codes, e.len.toNat = len + i) ∧ codes.Pairwise Before := by
  induction counts generalizing len code syms codes with
  | nil =>
    simp only [assignCodes, Option.some.injEq] at h
    subst h; simp
  | cons count counts ih =>
    simp only [assignCodes] at h
    split at h
    · cases h
    rename_i codes₁ next left h₁
    split at h
    · cases h
    rename_i more h₂
    simp only [Option.some.injEq] at h
    subst h
    simp only [List.length_cons] at hl
    obtain ⟨a₁, a₂, a₃, a₄, a₅, a₆⟩ := assignLength_spec (by omega) h₁
    obtain ⟨b₁, b₂, b₃, b₄, b₅⟩ := ih (by omega) h₂
    have hmore : ∀ e ∈ more, next ≤ e.code.toNat / 2 ^ (e.len.toNat - len) := by
      intro e he
      obtain ⟨c₁, c₂, c₃, -⟩ := b₃ e he
      rw [show e.len.toNat - len = e.len.toNat - (len + 1) + 1 by omega, Nat.pow_succ, ← Nat.div_div_eq_div_mul]
      omega
    refine ⟨?_, by simp [a₂, b₂], ?_, ?_, ?_⟩
    · rw [List.map_append, b₁, a₃, List.sum_cons, ← a₂,
        show codes₁.length = (codes₁.map CodeEntry.sym).length by simp, List.take_length_add_append]
    · intro e he
      rcases List.mem_append.mp he with he | he
      · obtain ⟨c₁, c₂, c₃⟩ := a₅ e he
        have : count ≠ 0 := by rintro rfl; simp [a₁] at c₃; omega
        refine ⟨by omega, by simp; omega, by simp [c₁, c₂], by rw [c₁]; omega, by simp [c₁, this]⟩
      · obtain ⟨c₁, c₂, c₃, c₄, c₅⟩ := b₃ e he
        have := hmore e he
        refine ⟨by omega, by simp; omega, by omega, c₄, ?_⟩
        rw [show e.len.toNat - len = e.len.toNat - (len + 1) + 1 by omega]
        simpa using c₅
    · intro i hi
      cases i with
      | zero =>
        have hne : codes₁ ≠ [] := by rintro rfl; simp at hi a₂; omega
        obtain ⟨e, es, rfl⟩ := List.exists_cons_of_ne_nil hne
        exact ⟨e, by simp, (a₅ e (by simp)).1⟩
      | succ i =>
        obtain ⟨e, he, hel⟩ := b₄ i (by simpa using hi)
        exact ⟨e, List.mem_append_right _ he, by omega⟩
    · refine List.pairwise_append.mpr ⟨a₆, b₅, fun x hx y hy => ?_⟩
      obtain ⟨c₁, c₂, c₃⟩ := a₅ x hx
      obtain ⟨d₁, -⟩ := b₃ y hy
      have := hmore y hy
      exact ⟨by omega, by rw [c₁]; omega⟩

theorem noRepeats_iff (l : List Byte) : noRepeats l = true ↔ l.Nodup := by
  induction l with
  | nil => simp [noRepeats]
  | cons b bs ih => simp [noRepeats, ih]

@[simp] theorem length_counts (h : Hsrc) : h.counts.length = 16 := by simp [Hsrc.counts]

/-- What every built table is (R64): its codes in canonical order, no symbol twice, MINLEN and MAXLEN attained. -/
structure TableOk (h : Ht) : Prop where
  order   : h.codes.Pairwise Before
  symbols : (h.codes.map CodeEntry.sym).Nodup
  fits    : ∀ e ∈ h.codes, e.code.toNat < 2 ^ e.len.toNat
  lens    : ∀ e ∈ h.codes, h.minLen.toNat ≤ e.len.toNat ∧ e.len.toNat ≤ h.maxLen.toNat
  short   : ∃ e ∈ h.codes, e.len.toNat = h.minLen.toNat
  long    : ∃ e ∈ h.codes, e.len.toNat = h.maxLen.toNat
  bounds  : 1 ≤ h.minLen.toNat ∧ h.maxLen.toNat ≤ 16
  count   : h.nCodes.toNat = h.codes.length

theorem mem_lengths (h : Hsrc) (l : Nat) : l ∈ h.lengths ↔ 1 ≤ l ∧ l ≤ 16 ∧ h.counts.getD (l - 1) 0 ≠ 0 := by
  simp only [Hsrc.lengths, List.mem_filterMap, List.mem_range]
  constructor
  · rintro ⟨i, hi, hs⟩
    split at hs
    · cases hs
    · cases hs; simpa using ⟨by omega, ‹_›⟩
  · rintro ⟨h₁, h₂, h₃⟩
    exact ⟨l - 1, by omega, by rw [if_neg h₃, Nat.sub_add_cancel h₁]⟩

theorem lengths_rising (h : Hsrc) : h.lengths.Pairwise (· < ·) := by
  rw [Hsrc.lengths, List.pairwise_filterMap]
  refine List.Pairwise.imp ?_ List.pairwise_lt_range
  intro a b hab x hx y hy
  split at hx <;> split at hy <;> simp_all
  omega

theorem getLastD_rising {l : List Nat} (hl : l.Pairwise (· < ·)) {x : Nat} (hx : x ∈ l) : x ≤ l.getLastD 0 := by
  induction l generalizing x with
  | nil => cases hx
  | cons a as ih =>
    rw [List.pairwise_cons] at hl
    cases as with
    | nil => simp at hx; simp [hx]
    | cons b bs =>
      have hlast : (a :: b :: bs).getLastD 0 = (b :: bs).getLastD 0 := by simp
      rw [hlast]
      rcases List.mem_cons.mp hx with rfl | hx
      · exact (hl.1 b (by simp)).le.trans (ih hl.2 (by simp))
      · exact ih hl.2 hx

theorem getLastD_mem {l : List Nat} (hl : l ≠ []) : l.getLastD 0 ∈ l := by
  cases l with
  | nil => contradiction
  | cons a as => rw [List.getLastD_cons]; cases as <;> simp [List.getLastD_eq_getLast?, List.getLast?_eq_getLast_of_ne_nil]

/-- A build that succeeds gives a table of that form, whose symbols are the listed ones in order. -/
theorem htBuild_spec {h : Hsrc} {t : Ht} (hb : htBuild h = some t) :
    TableOk t ∧ t.codes.map CodeEntry.sym = h.symbols ∧ t.codes.length = h.total := by
  unfold htBuild at hb
  split at hb
  · cases hb
  rename_i hc
  simp only [Bool.or_eq_true, decide_eq_true_eq, Bool.not_eq_true', not_or, Bool.not_eq_false, noRepeats_iff] at hc
  obtain ⟨⟨h0, h256⟩, hnd⟩ := hc
  split at hb
  · cases hb
  rename_i codes hcodes
  simp only [Option.some.injEq] at hb
  subst hb
  obtain ⟨b₁, b₂, b₃, b₄, b₅⟩ := assignCodes_spec (by simp) hcodes
  have hsym : codes.map CodeEntry.sym = h.symbols := by
    rw [b₁, show h.counts.sum = h.total from rfl]; simp [Hsrc.symbols]
  have hne : codes ≠ [] := by rintro rfl; simp at b₂; exact h0 (by rw [Hsrc.total, ← b₂])
  have hmem : ∀ e ∈ codes, e.len.toNat ∈ h.lengths := by
    intro e he
    obtain ⟨c₁, c₂, -, -, c₅⟩ := b₃ e he
    simp only [length_counts] at c₂
    exact (mem_lengths h _).mpr ⟨c₁, by omega, c₅⟩
  have hlne : h.lengths ≠ [] := by
    obtain ⟨e, es, rfl⟩ := List.exists_cons_of_ne_nil hne
    exact List.ne_nil_of_mem (hmem e (by simp))
  obtain ⟨l, ls, hls⟩ := List.exists_cons_of_ne_nil hlne
  have hrise := lengths_rising h
  have hlmem : l ∈ h.lengths := by rw [hls]; simp
  have hl := (mem_lengths h l).mp hlmem
  have hx := getLastD_mem hlne
  have hL := (mem_lengths h _).mp hx
  have hmin : (BitVec.ofNat 5 (h.lengths.headD 0)).toNat = l := by
    rw [hls, List.headD_cons, BitVec.toNat_ofNat]; exact Nat.mod_eq_of_lt (by omega)
  have hmax : (BitVec.ofNat 5 (h.lengths.getLastD 0)).toNat = h.lengths.getLastD 0 := by
    rw [BitVec.toNat_ofNat]; exact Nat.mod_eq_of_lt (by omega)
  have attained : ∀ x ∈ h.lengths, ∃ e ∈ codes, e.len.toNat = x := by
    intro x hx
    obtain ⟨h₁, h₂, h₃⟩ := (mem_lengths h x).mp hx
    obtain ⟨e, he, hel⟩ := b₄ (x - 1) h₃
    exact ⟨e, he, by omega⟩
  refine ⟨⟨b₅, by rw [hsym]; exact hnd, fun e he => (b₃ e he).2.2.2.1, ?_, ?_, ?_, ?_, ?_⟩, hsym, by rw [b₂, Hsrc.total]⟩
  · intro e he
    have := hmem e he
    rw [hmin, hmax]
    refine ⟨?_, getLastD_rising hrise this⟩
    rw [hls] at this hrise
    rcases List.mem_cons.mp this with h' | h'
    · omega
    · exact ((List.pairwise_cons.mp hrise).1 _ h').le
  · rw [hmin]; exact attained l hlmem
  · rw [hmax]; exact attained _ hx
  · rw [hmin, hmax]; omega
  · show (BitVec.ofNat 9 h.total).toNat = codes.length
    rw [BitVec.toNat_ofNat, b₂, show h.counts.sum = h.total from rfl]
    exact Nat.mod_eq_of_lt (by omega)

/-! ### The two maps -/

/-- Two codes of a built table, one a prefix of the other (or equal), are one entry. -/
theorem TableOk.prefix_free {h : Ht} (ok : TableOk h) {a b : CodeEntry} (ha : a ∈ h.codes) (hb : b ∈ h.codes)
    (hl : a.len.toNat ≤ b.len.toNat) (hc : b.code.toNat / 2 ^ (b.len.toNat - a.len.toNat) = a.code.toNat) : a = b := by
  by_contra hne
  obtain ⟨i, hi, rfl⟩ := List.getElem_of_mem ha
  obtain ⟨j, hj, rfl⟩ := List.getElem_of_mem hb
  have hp := List.pairwise_iff_getElem.mp ok.order
  rcases Nat.lt_trichotomy i j with hij | rfl | hij
  · have := (hp i j hi hj hij).2; omega
  · exact hne rfl
  · obtain ⟨h₁, h₂⟩ := hp j i hj hi hij
    have : h.codes[j].len.toNat = h.codes[i].len.toNat := by omega
    rw [this] at h₂ hc
    simp at h₂ hc
    omega

theorem TableOk.code_inj {h : Ht} (ok : TableOk h) {a b : CodeEntry} (ha : a ∈ h.codes) (hb : b ∈ h.codes)
    (hc : a.code.toNat = b.code.toNat) (hl : a.len.toNat = b.len.toNat) : a = b :=
  ok.prefix_free ha hb hl.le (by simp [hl, hc])

theorem TableOk.sym_inj {h : Ht} (ok : TableOk h) {a b : CodeEntry} (ha : a ∈ h.codes) (hb : b ∈ h.codes)
    (hs : a.sym = b.sym) : a = b := by
  exact List.inj_on_of_nodup_map ok.symbols ha hb hs

theorem TableOk.decodeMap_eq {h : Ht} (ok : TableOk h) (w len : Nat) (s : Byte) :
    h.decodeMap w len = some s ↔ ∃ e ∈ h.codes, e.code.toNat = w ∧ e.len.toNat = len ∧ e.sym = s := by
  simp only [Ht.decodeMap, Option.map_eq_some_iff]
  constructor
  · rintro ⟨e, he, rfl⟩
    have := List.find?_some he
    simp only [Bool.and_eq_true, beq_iff_eq] at this
    exact ⟨e, List.mem_of_find?_eq_some he, this.1, this.2, rfl⟩
  · rintro ⟨e, he, rfl, rfl, rfl⟩
    cases hf : h.codes.find? fun e' => e'.code.toNat == e.code.toNat && e'.len.toNat == e.len.toNat with
    | none => simpa using List.find?_eq_none.mp hf e he
    | some e' =>
      have hs := List.find?_some hf
      simp only [Bool.and_eq_true, beq_iff_eq] at hs
      exact ⟨e', rfl, by rw [ok.code_inj (List.mem_of_find?_eq_some hf) he hs.1 hs.2]⟩

theorem Ht.decodeMap_none {h : Ht} (w len : Nat) :
    h.decodeMap w len = none ↔ ∀ e ∈ h.codes, e.len.toNat = len → e.code.toNat ≠ w := by
  simp only [Ht.decodeMap, Option.map_eq_none_iff, List.find?_eq_none, Bool.and_eq_true, beq_iff_eq]
  exact ⟨fun h e he hl hc => h e he ⟨hc, hl⟩, fun h e he hx => h e he hx.2 hx.1⟩

theorem TableOk.encodeMap_eq {h : Ht} (ok : TableOk h) (s : Byte) (c l : Nat) :
    h.encodeMap s = some (c, l) ↔ ∃ e ∈ h.codes, e.sym = s ∧ e.code.toNat = c ∧ e.len.toNat = l := by
  simp only [Ht.encodeMap, Option.map_eq_some_iff, Prod.mk.injEq]
  constructor
  · rintro ⟨e, he, rfl, rfl⟩
    have := List.find?_some he
    exact ⟨e, List.mem_of_find?_eq_some he, by simpa using this, rfl, rfl⟩
  · rintro ⟨e, he, rfl, rfl, rfl⟩
    cases hf : h.codes.find? fun e' => e'.sym == e.sym with
    | none => simpa using List.find?_eq_none.mp hf e he
    | some e' =>
      have hs := List.find?_some hf
      simp only [beq_iff_eq] at hs
      rw [ok.sym_inj (List.mem_of_find?_eq_some hf) he hs]
      exact ⟨e, rfl, rfl, rfl⟩

theorem Ht.encodeMap_none {h : Ht} (s : Byte) : h.encodeMap s = none ↔ ∀ e ∈ h.codes, e.sym ≠ s := by
  simp [Ht.encodeMap, List.find?_eq_none]

/-! ### The incremental decode -/

/-- The number a bit string spells. -/
def bitsVal (l : List Bool) : Nat := l.foldl (fun v b => 2 * v + b.toNat) 0

theorem bitsVal_snoc (l : List Bool) (b : Bool) : bitsVal (l ++ [b]) = 2 * bitsVal l + b.toNat := by
  simp [bitsVal]

theorem msbBits_one (v : Nat) : msbBits v 1 = [decide (v % 2 = 1)] := by
  simp [msbBits, Nat.testBit_zero]

theorem bitsVal_msbBits (v n : Nat) : bitsVal (msbBits v n) = v % 2 ^ n := by
  induction n generalizing v with
  | zero => simp [bitsVal, Nat.mod_one]
  | succ n ih =>
    rw [msbBits_add v n 1, msbBits_one, bitsVal_snoc, ih, Nat.pow_one, Nat.pow_succ', Nat.mod_mul]
    rcases Nat.mod_two_eq_zero_or_one v with h | h <;> simp [h]; omega

theorem msbBits_bitsVal (l : List Bool) : msbBits (bitsVal l) l.length = l := by
  induction l using List.reverseRecOn with
  | nil => rfl
  | append_singleton l b ih =>
    rw [List.length_append, List.length_singleton, msbBits_add, bitsVal_snoc, Nat.pow_one, msbBits_one]
    have : (2 * bitsVal l + b.toNat) / 2 = bitsVal l := by cases b <;> simp; omega
    rw [this, ih]
    cases b <;> simp

/-- The symbol a bit string spells whole, if it is a code. -/
def Ht.symbolOf (h : Ht) (l : List Bool) : Option Byte := h.decodeMap (bitsVal l) l.length

/-- How the incremental decode ends, over the bits S that are left of the stream, having looked at every length from
`lo` up to `hi`; the second part is the number of bits taken. -/
inductive HtEnds (h : Ht) (lo hi : Nat) (S : List Bool) : HtRead → Nat → Prop where
  | symbol (len : Nat) (sym : Byte) (h₁ : lo ≤ len) (h₂ : len ≤ hi) (h₃ : len ≤ S.length)
      (hit : h.symbolOf (S.take len) = some sym)
      (first : ∀ k, lo ≤ k → k < len → h.symbolOf (S.take k) = none) : HtEnds h lo hi S (.symbol sym len) len
  | underrun (h₁ : lo ≤ S.length) (h₂ : S.length < hi)
      (miss : ∀ k, lo ≤ k → k ≤ S.length → h.symbolOf (S.take k) = none) : HtEnds h lo hi S .underrun S.length
  | short (h₁ : S.length < lo) : HtEnds h lo hi S .underrun 0
  | noMatch (h₁ : lo ≤ hi) (h₂ : hi ≤ S.length)
      (miss : ∀ k, lo ≤ k → k ≤ hi → h.symbolOf (S.take k) = none) : HtEnds h lo hi S .noMatch hi

theorem HtEnds.le_length {h : Ht} {lo hi : Nat} {S : List Bool} {r : HtRead} {k : Nat} (e : HtEnds h lo hi S r k) :
    k ≤ S.length := by cases e <;> omega

theorem htExtend_spec (h : Ht) (m : Memory) (S : List Bool) (more len : Nat) (b₀ b : Bs) (hr : Reads m len b₀ b)
    (hS : S = streamBits m b₀) (w : Nat) (hw : w = bitsVal (S.take len)) :
    ∃ k, HtEnds h len (len + more) S (htExtend h m more len w b).2 k ∧
      Reads m k b₀ (htExtend h m more len w b).1 := by
  subst hS
  have hlen : ((streamBits m b₀).take len).length = len := by rw [List.length_take]; have := hr.enough; omega
  have hsym : h.decodeMap w len = h.symbolOf ((streamBits m b₀).take len) := by rw [Ht.symbolOf, hlen, hw]
  induction more generalizing len b w with
  | zero =>
    rw [htExtend, hsym]
    split
    · exact ⟨len, .symbol len _ le_rfl le_rfl hr.enough ‹_› (by omega), hr⟩
    · exact ⟨len, .noMatch le_rfl hr.enough (fun k h₁ h₂ => by rwa [show k = len by omega]), hr⟩
  | succ more ih =>
    rw [htExtend, hsym]
    split
    · exact ⟨len, .symbol len _ le_rfl (by omega) hr.enough ‹_› (by omega), hr⟩
    · rename_i hmiss
      obtain ⟨hr₁, -, hb, -⟩ := bsCan_spec m 1 (by decide) b hr.bufOk
      have hlb : (streamBits m b).length = (streamBits m b₀).length - len := by rw [hr.bits, List.length_drop]
      split
      · rename_i b₁ heq
        rw [heq] at hb hr₁
        have h1 : (streamBits m b₀).length = len := by
          have := of_decide_eq_false hb.symm; have := hr.enough; omega
        refine ⟨(streamBits m b₀).length, .underrun h1.ge (by omega) fun k h₁ h₂ => ?_, ?_⟩
        · rwa [show k = len by omega]
        · rw [h1]; simpa using hr.trans hr₁
      · rename_i b₁ heq
        have h1 : 1 ≤ (streamBits m b).length := by
          rw [heq] at hb; exact of_decide_eq_true hb.symm
        obtain ⟨-, hr₂, ht⟩ := bsCan_bsTake m 1 (by decide) b hr.bufOk h1
        rw [heq] at hr₂ ht
        simp only at hr₂ ht
        have hlt := bsTake_lt 1 b₁
        have htake : (streamBits m b₀).take (len + 1) =
            (streamBits m b₀).take len ++ msbBits (bsTake 1 b₁).2 1 := by
          rw [List.take_add, ← hr.bits, ht]
        have hlen' : ((streamBits m b₀).take (len + 1)).length = len + 1 := by
          rw [List.length_take]; omega
        have hw' : 2 * w + (bsTake 1 b₁).2 = bitsVal ((streamBits m b₀).take (len + 1)) := by
          rw [htake, msbBits_one, bitsVal_snoc, hw]
          have : (bsTake 1 b₁).2 = 0 ∨ (bsTake 1 b₁).2 = 1 := by omega
          rcases this with h | h <;> simp [h]
        obtain ⟨k, hk, hrk⟩ := ih (len + 1) (bsTake 1 b₁).1 (hr.trans hr₂) _ hw' hlen'
          (by rw [Ht.symbolOf, hlen', hw'])
        refine ⟨k, ?_, hrk⟩
        have below : ∀ j, len ≤ j → (len + 1 ≤ j → h.symbolOf ((streamBits m b₀).take j) = none) →
            h.symbolOf ((streamBits m b₀).take j) = none := by
          intro j h₁ h₂
          rcases Nat.eq_or_lt_of_le h₁ with rfl | h₁
          · exact hmiss
          · exact h₂ h₁
        have hgoal : HtEnds h len (len + (more + 1)) (streamBits m b₀)
            (htExtend h m more (len + 1) (2 * w + (bsTake 1 b₁).2) (bsTake 1 b₁).1).2 k := by
          revert hk
          generalize (htExtend h m more (len + 1) (2 * w + (bsTake 1 b₁).2) (bsTake 1 b₁).1).2 = r
          intro hk
          cases hk with
          | symbol len' sym h₁ h₂ h₃ hit first =>
            exact .symbol k sym (by omega) (by omega) h₃ hit fun j a c => below j a fun a' => first j a' c
          | underrun h₁ h₂ miss =>
            exact .underrun (by omega) (by omega) fun j a c => below j a fun a' => miss j a' c
          | short h₁ => omega
          | noMatch h₁ h₂ miss =>
            have := HtEnds.noMatch (h := h) (lo := len) (hi := len + (more + 1)) (S := streamBits m b₀) (by omega)
              (by omega) fun j a c => below j a fun a' => miss j a' (by omega)
            rwa [show len + 1 + more = len + (more + 1) by omega] at *
        exact hgoal

/-- `ht_read`: over the stream's bits, the first length from MINLEN to MAXLEN at which the bits so far are a code. -/
theorem htRead_spec (h : Ht) (m : Memory) (b : Bs) (hb : BufOk b) :
    ∃ k, HtEnds h h.minLen.toNat (max h.minLen.toNat h.maxLen.toNat) (streamBits m b) (htRead h m b).2 k ∧
      Reads m k b (htRead h m b).1 := by
  have hmin : h.minLen.toNat ≤ 57 := by have := h.minLen.isLt; omega
  obtain ⟨hr, -, hd, -⟩ := bsCan_spec m h.minLen.toNat hmin b hb
  rw [htRead]
  split
  · rename_i b₁ heq
    rw [heq] at hr hd
    have : (streamBits m b).length < h.minLen.toNat := by have := of_decide_eq_false hd.symm; omega
    exact ⟨0, .short this, hr⟩
  · rename_i b₁ heq
    rw [heq] at hd
    have hle : h.minLen.toNat ≤ (streamBits m b).length := of_decide_eq_true hd.symm
    obtain ⟨-, hr₂, ht⟩ := bsCan_bsTake m _ hmin b hb hle
    rw [heq] at hr₂ ht
    simp only at hr₂ ht
    have := htExtend_spec h m _ (h.maxLen.toNat - h.minLen.toNat) h.minLen.toNat b _ hr₂ rfl
      (bsTake h.minLen.toNat b₁).2 (by rw [ht, bitsVal_msbBits, Nat.mod_eq_of_lt (bsTake_lt _ _)])
    rwa [show h.minLen.toNat + (h.maxLen.toNat - h.minLen.toNat) = max h.minLen.toNat h.maxLen.toNat by omega] at this

theorem htExtend_count (h : Ht) (m : Memory) (more len w : Nat) (b : Bs) (hb : BufOk b) :
    (htExtend h m more len w b).1.count.toNat ≤ max b.count.toNat 8 ∧
      ((htExtend h m more len w b).2 ≠ .underrun → (htExtend h m more len w b).1.count.toNat ≤ max b.count.toNat 7) := by
  induction more generalizing len w b with
  | zero => rw [htExtend]; split <;> exact ⟨Nat.le_max_left .., fun _ => Nat.le_max_left ..⟩
  | succ more ih =>
    rw [htExtend]
    split
    · exact ⟨Nat.le_max_left .., fun _ => Nat.le_max_left ..⟩
    · have hc := bsCan_count_le m 1 (by decide) b hb
      obtain ⟨hr, -, -, hle⟩ := bsCan_spec m 1 (by decide) b hb
      have ht := bsCan_bsTake_count m 1 (by decide) b hb
      split
      · rename_i b₁ heq
        rw [heq] at hc
        exact ⟨hc, fun h => absurd rfl h⟩
      · rename_i b₁ heq
        rw [heq] at hle ht
        obtain ⟨i₁, i₂⟩ := ih (len + 1) (2 * w + (bsTake 1 b₁).2) _ (bsTake_held 1 b₁ (hle rfl)).2
        simp only at ht
        exact ⟨i₁.trans (by omega), fun h => (i₂ h).trans (by omega)⟩

/-- How many bits an `ht_read` leaves buffered. -/
theorem htRead_count (h : Ht) (m : Memory) (b : Bs) (hb : BufOk b) :
    (htRead h m b).1.count.toNat ≤ max b.count.toNat 39 ∧
      ((htRead h m b).2 ≠ .underrun → (htRead h m b).1.count.toNat ≤ max b.count.toNat 7) := by
  have hmin := h.minLen.isLt
  have hc := bsCan_count_le m h.minLen.toNat (by omega) b hb
  obtain ⟨hr, -, -, hle⟩ := bsCan_spec m h.minLen.toNat (by omega) b hb
  have ht := bsCan_bsTake_count m h.minLen.toNat (by omega) b hb
  rw [htRead]
  split
  · rename_i b₁ heq
    rw [heq] at hc
    exact ⟨by simp only at hc ⊢; omega, fun h => absurd rfl h⟩
  · rename_i b₁ heq
    rw [heq] at hle ht
    obtain ⟨i₁, i₂⟩ := htExtend_count h m (h.maxLen.toNat - h.minLen.toNat) h.minLen.toNat
      (bsTake h.minLen.toNat b₁).2 _ (bsTake_held _ b₁ (hle rfl)).2
    simp only at ht
    exact ⟨i₁.trans (by omega), fun h => (i₂ h).trans (by omega)⟩

/-- Over bits that start with a code of a built table, `ht_read` gives that code's symbol. -/
theorem htRead_code {h : Ht} (ok : TableOk h) (m : Memory) (b : Bs) (hb : BufOk b) (e : CodeEntry) (he : e ∈ h.codes)
    (rest : List Bool) (hS : streamBits m b = msbBits e.code.toNat e.len.toNat ++ rest) :
    (htRead h m b).2 = .symbol e.sym e.len.toNat ∧ Reads m e.len.toNat b (htRead h m b).1 := by
  obtain ⟨k, hk, hr⟩ := htRead_spec h m b hb
  have hlens := ok.lens e he
  have hSlen : e.len.toNat ≤ (streamBits m b).length := by rw [hS]; simp
  have hmaxeq : max h.minLen.toNat h.maxLen.toNat = h.maxLen.toNat := by omega
  have hfit : e.code.toNat % 2 ^ e.len.toNat = e.code.toNat := Nat.mod_eq_of_lt (ok.fits e he)
  have hhit : h.symbolOf ((streamBits m b).take e.len.toNat) = some e.sym := by
    rw [hS, List.take_left' (by simp), Ht.symbolOf, length_msbBits, bitsVal_msbBits, hfit]
    exact (ok.decodeMap_eq _ _ _).mpr ⟨e, he, rfl, rfl, rfl⟩
  have hshort : ∀ j sym, j ≤ e.len.toNat → h.symbolOf ((streamBits m b).take j) = some sym → j = e.len.toNat := by
    intro j sym hj hs
    rw [hS, List.take_append_of_le_length (by simpa using hj), Ht.symbolOf, List.length_take, length_msbBits,
      Nat.min_eq_left hj] at hs
    obtain ⟨d, hd, h₁, h₂, -⟩ := (ok.decodeMap_eq _ _ _).mp hs
    obtain ⟨q, hq⟩ : ∃ q, e.len.toNat = j + q := ⟨e.len.toNat - j, by omega⟩
    rw [hq, msbBits_add, List.take_left' (by simp), bitsVal_msbBits] at h₁
    have hlt : e.code.toNat / 2 ^ q < 2 ^ j := by
      rw [Nat.div_lt_iff_lt_mul (Nat.two_pow_pos _), ← Nat.pow_add, ← hq]; exact ok.fits e he
    rw [Nat.mod_eq_of_lt hlt] at h₁
    have := ok.prefix_free hd he (by omega) (by rw [h₂, hq, show j + q - j = q by omega, h₁])
    rw [← h₂, this]
  rw [hmaxeq] at hk
  revert hk
  generalize (htRead h m b).2 = r
  intro hk
  cases hk with
  | symbol len sym h₁ h₂ h₃ hit first =>
    rcases Nat.lt_trichotomy k e.len.toNat with hlt | heq | hgt
    · exact absurd (hshort k sym hlt.le hit) (by omega)
    · subst heq
      rw [hhit] at hit
      cases hit
      exact ⟨rfl, hr⟩
    · have := first _ hlens.1 hgt
      rw [hhit] at this; cases this
  | underrun h₁ h₂ miss => have := miss _ hlens.1 hSlen; rw [hhit] at this; cases this
  | short h₁ => omega
  | noMatch h₁ h₂ miss => have := miss _ hlens.1 hlens.2; rw [hhit] at this; cases this

/-- The three ends of `ht_read` with a built table, over the stream's bits: a code starts them, or none does and they
are too few, or none does within MAXLEN bits (R69). -/
theorem htRead_cases {h : Ht} (ok : TableOk h) (m : Memory) (b : Bs) (hb : BufOk b) :
    (∃ e, StartsWith h e (streamBits m b) ∧ (htRead h m b).2 = .symbol e.sym e.len.toNat ∧
      Reads m e.len.toNat b (htRead h m b).1) ∨
    (NoCode h (streamBits m b) ∧ (streamBits m b).length < h.maxLen.toNat ∧ (htRead h m b).2 = .underrun ∧
      Reads m (takenAtUnderrun h (streamBits m b)) b (htRead h m b).1) ∨
    (NoCode h (streamBits m b) ∧ h.maxLen.toNat ≤ (streamBits m b).length ∧ (htRead h m b).2 = .noMatch ∧
      Reads m h.maxLen.toNat b (htRead h m b).1) := by
  by_cases hc : ∃ e, StartsWith h e (streamBits m b)
  · obtain ⟨e, he, rest, hS⟩ := hc
    obtain ⟨h₁, h₂⟩ := htRead_code ok m b hb e he rest hS.symm
    exact .inl ⟨e, ⟨he, rest, hS⟩, h₁, h₂⟩
  have hno : NoCode h (streamBits m b) := fun e he hp => hc ⟨e, he, hp⟩
  obtain ⟨k, hk, hr⟩ := htRead_spec h m b hb
  obtain ⟨e₀, he₀, hl₀⟩ := ok.short
  have hmax : max h.minLen.toNat h.maxLen.toNat = h.maxLen.toNat := by have := ok.lens e₀ he₀; omega
  rw [hmax] at hk
  refine .inr ?_
  revert hk
  generalize (htRead h m b).2 = r
  intro hk
  cases hk with
  | symbol len sym h₁ h₂ h₃ hit first =>
    rw [Ht.symbolOf] at hit
    obtain ⟨e, he, c₁, c₂, -⟩ := (ok.decodeMap_eq _ _ _).mp hit
    refine absurd ?_ (hno e he)
    rw [c₁, c₂, msbBits_bitsVal]
    exact List.take_prefix _ _
  | underrun h₁ h₂ miss =>
    refine .inl ⟨hno, h₂, rfl, ?_⟩
    rwa [takenAtUnderrun, if_neg (by omega)]
  | short h₁ =>
    refine .inl ⟨hno, by have := ok.lens e₀ he₀; omega, rfl, ?_⟩
    rwa [takenAtUnderrun, if_pos h₁]
  | noMatch h₁ h₂ miss => exact .inr ⟨hno, h₂, rfl, hr⟩

end Sys2Proof.Machine
end

