-- ==== Sys2Proof/Laws/Block.lean ====
section
/-! SUPPORT. The block entropy codec: magnitudes (46_block_codec.md R98), decoding what was encoded (R103 item 1), and
the two directions line by line (R101, R102). -/

namespace Sys2Proof.Machine

/-! ### Magnitudes -/

theorem bitlen_zero : bitlen 0 = 0 := rfl

theorem bitlen_pos {v : Int} (h : v ≠ 0) : 1 ≤ bitlen v := by simp [bitlen, h]

theorem bitlen_bounds {v : Int} (h : v ≠ 0) : 2 ^ (bitlen v - 1) ≤ v.natAbs ∧ v.natAbs < 2 ^ bitlen v := by
  have hne : v.natAbs ≠ 0 := by simpa using h
  simp only [bitlen, h, if_false, Nat.add_sub_cancel]
  exact ⟨Nat.log2_self_le hne, Nat.lt_log2_self⟩

theorem mag_lt (v : Int) : mag v (bitlen v) < 2 ^ bitlen v := by
  by_cases h : v = 0
  · subst h; decide
  · obtain ⟨h₁, h₂⟩ := bitlen_bounds h
    simp only [mag]
    have hc : ((2 ^ bitlen v : Nat) : Int) = 2 ^ bitlen v := by push_cast; rfl
    split <;> omega

/-- `ext` undoes `mag` (R98). -/
theorem ext_mag (v : Int) : ext (mag v (bitlen v)) (bitlen v) = v := by
  by_cases h : v = 0
  · subst h; decide
  · obtain ⟨h₁, h₂⟩ := bitlen_bounds h
    have hp := bitlen_pos h
    obtain ⟨s, hs⟩ : ∃ s, bitlen v = s + 1 := ⟨bitlen v - 1, by omega⟩
    rw [hs] at h₁ h₂ ⊢
    simp only [Nat.add_sub_cancel, Nat.pow_succ] at h₁ h₂
    have hc : ((2 ^ s : Nat) : Int) = 2 ^ s := by push_cast; rfl
    simp only [ext, mag, Nat.add_sub_cancel, Nat.add_eq_zero_iff, one_ne_zero, and_false, if_false, pow_succ]
    split <;> split <;> omega

theorem s32_toInt (w : Word) : s32 w.toInt = w := BitVec.ofInt_toInt

theorem toInt_s32 (v : Int) : (s32 v).toInt = v.bmod (2 ^ 32) := BitVec.toInt_ofInt v

/-- The predictor plus the coded difference is the value (R99). -/
theorem s32_add_diff (p z : Word) : s32 (p.toInt + (s32 (z.toInt - p.toInt)).toInt) = z := by
  have hb : (z.toInt - p.toInt).bmod (2 ^ 32) = (z - p).toInt := BitVec.toInt_sub.symm
  rw [toInt_s32, hb]
  apply BitVec.eq_of_toInt_eq
  rw [toInt_s32, ← BitVec.toInt_add, BitVec.add_comm, BitVec.sub_add_cancel]

/-! ### Reading one coded value -/

/-- Reading the magnitude bits of a value gives the value. -/
theorem read_magnitude (m : Memory) (b : Bs) (hb : BufOk b) (v : Int) (hs : bitlen v ≤ maxSize) (rest : List Bool)
    (hS : streamBits m b = msbBits (mag v (bitlen v)) (bitlen v) ++ rest) :
    (bsCan m (bitlen v) b).2 = true ∧ Reads m (bitlen v) b (bsTake (bitlen v) (bsCan m (bitlen v) b).1).1 ∧
      (bsTake (bitlen v) (bsCan m (bitlen v) b).1).2 = mag v (bitlen v) := by
  have hle : bitlen v ≤ 57 := by simp only [maxSize] at hs; omega
  obtain ⟨h₁, h₂, h₃⟩ := bsCan_bsTake m _ hle b hb (by rw [hS]; simp)
  refine ⟨h₁, h₂, ?_⟩
  rw [hS, List.take_left' (by simp)] at h₃
  exact (msbBits_inj (mag_lt v) (bsTake_lt _ _) h₃).symm

theorem Reads.rest {m : Memory} {k : Nat} {b b' : Bs} (h : Reads m k b b') {l rest : List Bool}
    (hS : streamBits m b = l ++ rest) (hl : l.length = k) : streamBits m b' = rest := by
  rw [h.bits, hS, List.drop_left' hl]

/-- The bits of a symbol's code. -/
theorem code_bits {t : Ht} (ok : TableOk t) {s : Byte} {c : Nat × Nat} (h : t.encodeMap s = some c) :
    ∃ e ∈ t.codes, e.sym = s ∧ c = (e.code.toNat, e.len.toNat) := by
  obtain ⟨c, l⟩ := c
  obtain ⟨e, he, h₁, h₂, h₃⟩ := (ok.encodeMap_eq s c l).mp h
  exact ⟨e, he, h₁, by rw [h₂, h₃]⟩

theorem htRead_encoded {t : Ht} (ok : TableOk t) {m : Memory} {b : Bs} (hb : BufOk b) {s : Byte} {c : Nat × Nat}
    (h : t.encodeMap s = some c) {rest : List Bool} (hS : streamBits m b = msbBits c.1 c.2 ++ rest) :
    (htRead t m b).2 = .symbol s c.2 ∧ Reads m c.2 b (htRead t m b).1 ∧ streamBits m (htRead t m b).1 = rest := by
  obtain ⟨e, he, rfl, rfl⟩ := code_bits ok h
  obtain ⟨h₁, h₂⟩ := htRead_code ok m b hb e he rest hS
  exact ⟨h₁, h₂, h₂.rest hS (by simp)⟩

/-! ### Decoding an encoded block -/

/-- The decoder has the entries of Z before position k, and 0 from there on. -/
def Filled (Z z : Block) (k : Nat) : Prop := ∀ i : Fin 64, z[i] = if i.val < k then Z[i] else 0

/-- One round of the AC loop that reads a symbol (run, size) other than EOB. -/
theorem acLoop_symbol {ac : Ht} {m : Memory} {pred : Word} {fuel k : Nat} {z : Block} {b b₁ : Bs} {rs : Byte}
    {len run size : Nat} (hrun : rs.toNat / 16 = run) (hsize : rs.toNat % 16 = size) (hk : k < 64)
    (hread : htRead ac m b = (b₁, .symbol rs len)) (hrs : rs ≠ symEob) (hk₁ : k + run ≤ 63)
    (hcan : (bsCan m size b₁).2 = true) :
    acLoop ac m pred (fuel + 1) k z b =
      acLoop ac m pred fuel (k + run + 1)
        (z.set (Fin.ofNat 64 (k + run)) (s32 (ext (bsTake size (bsCan m size b₁).1).2 size)))
        (bsTake size (bsCan m size b₁).1).1 := by
  subst hrun hsize
  rw [acLoop, if_neg (by omega), hread]
  simp only [hrs, if_false, if_neg (show ¬63 < k + rs.toNat / 16 by omega)]
  generalize bsCan m (rs.toNat % 16) b₁ = r at *
  obtain ⟨b₂, c⟩ := r
  simp only at hcan
  subst hcan
  rfl

theorem filled_set {Z z : Block} {k p : Nat} (h : Filled Z z k) (hkp : k ≤ p) (hp : p ≤ 63)
    (hzero : ∀ i : Fin 64, k ≤ i.val → i.val < p → Z[i] = 0) (v : Word) (hv : v = Z[Fin.ofNat 64 p]) :
    Filled Z (z.set (Fin.ofNat 64 p) v) (p + 1) := by
  have hpv : (Fin.ofNat 64 p).val = p := by simp; omega
  intro i
  by_cases hi : i.val = p
  · have : i = Fin.ofNat 64 p := Fin.ext (by omega)
    subst this
    rw [if_pos (by omega), ← hv]
    simp
  · have hne : ¬(Fin.ofNat 64 p).val = i.val := by omega
    simp only [Fin.getElem_fin] at h ⊢
    rw [Vector.getElem_set_ne _ _ hne]
    have hi' := h i
    simp only [Fin.getElem_fin] at hi'
    rw [hi']
    by_cases h₁ : i.val < k
    · rw [if_pos h₁, if_pos (by omega)]
    · rw [if_neg h₁]
      split
      · have := hzero i (by omega) (by omega)
        simpa using this.symm
      · rfl

theorem filled_all {Z z : Block} {k : Nat} (hf : Filled Z z k) (h0 : ∀ i : Fin 64, k ≤ i.val → Z[i] = 0) : z = Z := by
  apply Vector.ext
  intro i hi
  have := hf ⟨i, hi⟩
  simp only [Fin.getElem_fin] at this
  rw [this]
  split
  · rfl
  · have := h0 ⟨i, hi⟩ (by simpa using by omega)
    simpa using this.symm

/-- The ZRLs of a run: each moves the position by 16 over zeros. -/
theorem acLoop_zrl {ac : Ht} (ok : TableOk ac) {m : Memory} {pred : Word} {zrl : Nat × Nat}
    (hz : ac.encodeMap symZrl = some zrl) {Z : Block} (q : Nat) {fuel k : Nat} {z : Block} {b : Bs} (hb : BufOk b)
    {rest : List Bool} (hS : streamBits m b = itemsBits (List.replicate q zrl) ++ rest)
    (hfill : Filled Z z k) (hk : k + 16 * q ≤ 63)
    (hzero : ∀ i : Fin 64, k ≤ i.val → i.val < k + 16 * q → Z[i] = 0) :
    ∃ z' b', acLoop ac m pred (fuel + q) k z b = acLoop ac m pred fuel (k + 16 * q) z' b' ∧
      Filled Z z' (k + 16 * q) ∧ Reads m (itemBits (List.replicate q zrl)) b b' := by
  induction q generalizing k z b with
  | zero => exact ⟨z, b, rfl, by simpa using hfill, Reads.refl hb⟩
  | succ q ih =>
    rw [List.replicate_succ, itemsBits_cons, List.append_assoc] at hS
    obtain ⟨h₁, h₂, h₃⟩ := htRead_encoded ok hb hz hS
    have hcan : (bsCan m 0 (htRead ac m b).1).2 = true := by
      obtain ⟨-, -, h, -⟩ := bsCan_spec m 0 (by decide) _ h₂.bufOk
      rw [h]; simp
    have hround := acLoop_symbol (pred := pred) (fuel := fuel + q) (k := k) (z := z) (rs := symZrl) (run := 15)
      (size := 0) (by decide) (by decide) (by omega)
      (show htRead ac m b = ((htRead ac m b).1, .symbol symZrl zrl.2) by rw [← h₁]) (by decide) (by omega) hcan
    have hr₀ : Reads m 0 (htRead ac m b).1 (bsTake 0 (bsCan m 0 (htRead ac m b).1).1).1 := by
      obtain ⟨hr, -, -, -⟩ := bsCan_spec m 0 (by decide) _ h₂.bufOk
      simpa using hr.trans (bsTake_spec m 0 _ (by omega)).1
    have hbs : streamBits m (bsTake 0 (bsCan m 0 (htRead ac m b).1).1).1 = itemsBits (List.replicate q zrl) ++ rest := by
      rw [hr₀.bits, h₃]; rfl
    have hfill' := filled_set hfill (show k ≤ k + 15 by omega) (by omega)
      (fun i h₁ h₂ => hzero i h₁ (by omega))
      (s32 (ext (bsTake 0 (bsCan m 0 (htRead ac m b).1).1).2 0))
      (by rw [hzero (Fin.ofNat 64 (k + 15)) (by simp; omega) (by simp; omega)]; rfl)
    obtain ⟨z', b', g₁, g₂, g₃⟩ := ih (k := k + 16) hr₀.bufOk hbs hfill' (by omega)
      (fun i h₁ h₂ => hzero i (by omega) (by omega))
    refine ⟨z', b', ?_, ?_, ?_⟩
    · rw [show fuel + (q + 1) = fuel + q + 1 by omega, hround, show k + 16 * (q + 1) = k + 16 + 16 * q by omega]
      exact g₁
    · rwa [show k + 16 * (q + 1) = k + 16 + 16 * q by omega]
    · rw [List.replicate_succ, itemBits_cons]
      simpa using (h₂.trans hr₀).trans g₃

/-- The AC loop over the bits of `acItems`: it completes the block, and its position is just after the last nonzero
coefficient, or where it began. -/
theorem acLoop_acItems {ac : Ht} (ok : TableOk ac) {m : Memory} {pred : Word} {Z : Block} (vs : List Word)
    {run k fuel : Nat} {z : Block} {b : Bs} {items : List (Nat × Nat)} {rest : List Bool} (hb : BufOk b)
    (hi : acItems ac run vs = some items) (hS : streamBits m b = itemsBits items ++ rest)
    (hvs : vs = Z.toList.drop (k + run)) (hk : k + run ≤ 64) (hfuel : 64 - k ≤ fuel)
    (hfill : Filled Z z k) (hzero : ∀ i : Fin 64, k ≤ i.val → i.val < k + run → Z[i] = 0) :
    ∃ k' b', acLoop ac m pred fuel k z b = ⟨b', pred, Z, k', .complete⟩ ∧ Reads m (itemBits items) b b' ∧
      k ≤ k' ∧ k' ≤ 64 ∧ (∀ i : Fin 64, k' ≤ i.val → Z[i] = 0) ∧ (k' = k ∨ ∃ i : Fin 64, i.val + 1 = k' ∧ Z[i] ≠ 0) := by
  induction vs generalizing run k fuel z b items with
  | nil =>
    have hend : k + run = 64 := by
      have : (Z.toList.drop (k + run)).length = 0 := by rw [← hvs]; rfl
      rw [List.length_drop] at this; simp at this; omega
    have h0 : ∀ i : Fin 64, k ≤ i.val → Z[i] = 0 := fun i h => hzero i h (by omega)
    rw [acItems] at hi
    split at hi
    · obtain ⟨code, hc, hcode⟩ := Option.map_eq_some_iff.mp hi
      subst hcode
      obtain ⟨h₁, h₂, h₃⟩ := htRead_encoded ok hb hc (by simpa using hS)
      obtain ⟨f, rfl⟩ : ∃ f, fuel = f + 1 := ⟨fuel - 1, by omega⟩
      refine ⟨k, (htRead ac m b).1, ?_, by simpa using h₂, le_rfl, by omega, h0, .inl rfl⟩
      rw [acLoop, if_neg (by omega), show htRead ac m b = ((htRead ac m b).1, .symbol symEob code.2) by rw [← h₁]]
      simp [filled_all hfill h0]
    · simp only [Option.some.injEq] at hi
      subst hi
      refine ⟨k, b, ?_, Reads.refl hb, le_rfl, by omega, h0, .inl rfl⟩
      have hz := filled_all hfill h0
      cases fuel with
      | zero => rw [acLoop, hz]
      | succ f => rw [acLoop, if_pos (by omega), hz]
  | cons v vs ih =>
    have hlt : k + run < 64 := by
      by_contra h
      rw [List.drop_eq_nil_of_le (by simp; omega)] at hvs
      cases hvs
    have hdrop := List.drop_eq_getElem_cons (l := Z.toList) (i := k + run) (by simpa using hlt)
    rw [hdrop] at hvs
    obtain ⟨rfl, rfl⟩ := List.cons.inj hvs
    have hv : Z.toList[k + run]'(by simpa using hlt) = Z[Fin.ofNat 64 (k + run)] := by
      simp [Nat.mod_eq_of_lt hlt]
    rw [hv] at hi
    rw [acItems] at hi
    split at hi
    · rename_i hv0
      exact ih (run := run + 1) hb hi hS (by rw [Nat.add_assoc]) (by omega) hfuel hfill (fun i h₁ h₂ => by
        rcases Nat.lt_or_ge i.val (k + run) with h | h
        · exact hzero i h₁ h
        · have : i = Fin.ofNat 64 (k + run) := Fin.ext (by simp; omega)
          rw [this]; exact hv0)
    · rename_i hv0
      have hv0' : (Z[Fin.ofNat 64 (k + run)]).toInt ≠ 0 := by
        intro h; apply hv0; rw [← s32_toInt (Z[Fin.ofNat 64 (k + run)]), h]; rfl
      split at hi
      · rename_i its more hits hmore
        simp only [Option.some.injEq] at hi
        subst hi
        rw [itemsBits_append, List.append_assoc] at hS
        -- the items of this coefficient
        unfold coefItems at hits
        simp only at hits
        split at hits
        · cases hits
        rename_i hsize
        split at hits
        · cases hits
        rename_i code hcode
        have hbs := bitlen_pos hv0'
        have hsz : bitlen (Z[Fin.ofNat 64 (k + run)]).toInt ≤ 15 := by simp only [maxSize] at hsize; omega
        -- the round that reads (run mod 16, size) and the magnitude
        have last : ∀ {q fuel' : Nat} {z' : Block} {b' : Bs}, q + 16 * (run / 16) = k + 16 * (run / 16) →
            64 - (k + 16 * (run / 16)) ≤ fuel' → BufOk b' → Filled Z z' (k + 16 * (run / 16)) →
            streamBits m b' = msbBits code.1 code.2 ++
              (msbBits (mag (Z[Fin.ofNat 64 (k + run)]).toInt (bitlen (Z[Fin.ofNat 64 (k + run)]).toInt))
                (bitlen (Z[Fin.ofNat 64 (k + run)]).toInt) ++ (itemsBits more ++ rest)) →
            ∃ k' b'', acLoop ac m pred fuel' (k + 16 * (run / 16)) z' b' = ⟨b'', pred, Z, k', .complete⟩ ∧
              Reads m (code.2 + bitlen (Z[Fin.ofNat 64 (k + run)]).toInt + itemBits more) b' b'' ∧
              k + run + 1 ≤ k' ∧ k' ≤ 64 ∧ (∀ i : Fin 64, k' ≤ i.val → Z[i] = 0) ∧
              (∃ i : Fin 64, i.val + 1 = k' ∧ Z[i] ≠ 0) := by
          intro q fuel' z' b' _ hf hb' hfill' hS'
          obtain ⟨h₁, h₂, h₃⟩ := htRead_encoded ok hb' hcode hS'
          have hrs : (BitVec.ofNat 8 (run % 16 * 16 + bitlen (Z[Fin.ofNat 64 (k + run)]).toInt)).toNat =
              run % 16 * 16 + bitlen (Z[Fin.ofNat 64 (k + run)]).toInt := by
            rw [BitVec.toNat_ofNat]; exact Nat.mod_eq_of_lt (by omega)
          obtain ⟨m₁, m₂, m₃⟩ := read_magnitude m _ h₂.bufOk _ (by simp only [maxSize]; omega) _ h₃
          obtain ⟨f, rfl⟩ : ∃ f, fuel' = f + 1 := ⟨fuel' - 1, by omega⟩
          have hround := acLoop_symbol (pred := pred) (fuel := f) (k := k + 16 * (run / 16)) (z := z')
            (run := run % 16) (size := bitlen (Z[Fin.ofNat 64 (k + run)]).toInt) (by rw [hrs]; omega)
            (by rw [hrs]; omega) (by omega)
            (show htRead ac m b' = ((htRead ac m b').1, .symbol _ code.2) by rw [← h₁])
            (by
              intro h
              have := congrArg BitVec.toNat h
              rw [hrs, show symEob.toNat = 0 from rfl] at this
              omega)
            (by omega) m₁
          have hpos : k + 16 * (run / 16) + run % 16 = k + run := by omega
          simp only [m₃, ext_mag, hpos, s32_toInt] at hround
          have hfill'' := filled_set (p := k + run) hfill' (by omega) (by omega)
            (fun i h₁ h₂ => hzero i (by omega) h₂) _ rfl
          obtain ⟨k', b'', g₁, g₂, g₃, g₄, g₅, g₆⟩ := ih (run := 0) (k := k + run + 1) (fuel := f) m₂.bufOk hmore
            (m₂.rest h₃ (by simp)) rfl (by omega) (by omega) hfill'' (fun i h₁ h₂ => by omega)
          refine ⟨k', b'', by rw [hround]; exact g₁, ?_, g₃, g₄, g₅, ?_⟩
          · exact (h₂.trans m₂).trans g₂
          · rcases g₆ with rfl | g₆
            · exact ⟨Fin.ofNat 64 (k + run), by simp; omega, hv0⟩
            · exact g₆
        split at hits
        · rename_i hrun
          simp only [Option.some.injEq] at hits
          subst hits
          have e0 : run / 16 = 0 := by omega
          obtain ⟨k', b'', g₁, g₂, g₃, g₄, g₅, g₆⟩ := last (q := k) (fuel' := fuel) (z' := z) (b' := b) rfl
            (by omega) hb (by simpa [e0] using hfill) (by simpa using hS)
          refine ⟨k', b'', by simpa [e0] using g₁, ?_, by omega, g₄, g₅, .inr g₆⟩
          simpa [Nat.add_assoc] using g₂
        · rename_i hrun
          split at hits
          · cases hits
          rename_i zrl hzrl
          simp only [Option.some.injEq] at hits
          subst hits
          rw [itemsBits_append, List.append_assoc] at hS
          obtain ⟨f, hf⟩ : ∃ f, fuel = f + run / 16 := ⟨fuel - run / 16, by omega⟩
          subst hf
          obtain ⟨z', b', h₁, h₂, h₃⟩ := acLoop_zrl (pred := pred) (fuel := f) ok hzrl (run / 16) hb hS hfill (by omega)
            (fun i h₁ h₂ => hzero i h₁ (by omega))
          obtain ⟨k', b'', g₁, g₂, g₃, g₄, g₅, g₆⟩ := last (q := k) (fuel' := f) (z' := z') (b' := b') rfl (by omega)
            h₃.bufOk h₂ (by simpa using h₃.rest hS (by simp))
          refine ⟨k', b'', by rw [h₁, g₁], ?_, by omega, g₄, g₅, .inr g₆⟩
          simpa [Nat.add_assoc] using h₃.trans g₂
      · cases hi

/-- Decoding the bits of an encoded block with the same predictor (R103 item 1). -/
theorem blkDecode_blkSymbols {dc ac : Ht} (okd : TableOk dc) (oka : TableOk ac) {m : Memory} {pred : Word} {Z : Block}
    {b : Bs} (hb : BufOk b) {items : List (Nat × Nat)} (hi : blkSymbols dc ac pred Z = some items) {rest : List Bool}
    (hS : streamBits m b = itemsBits items ++ rest) :
    ∃ k b', blkDecode dc ac m pred b = ⟨b', Z[0], Z, k, .complete⟩ ∧ Reads m (itemBits items) b b' ∧
      1 ≤ k ∧ k ≤ 64 ∧ (∀ i : Fin 64, k ≤ i.val → Z[i] = 0) ∧ (k = 1 ∨ ∃ i : Fin 64, i.val + 1 = k ∧ Z[i] ≠ 0) := by
  unfold blkSymbols at hi
  simp only at hi
  split at hi
  · cases hi
  rename_i hsize
  split at hi
  · rename_i code its hcode hits
    simp only [Option.some.injEq] at hi
    subst hi
    simp only [itemsBits_cons, List.append_assoc] at hS
    have hsz : bitlen (s32 (Z[0].toInt - pred.toInt)).toInt ≤ 15 := by simp only [maxSize] at hsize; omega
    obtain ⟨h₁, h₂, h₃⟩ := htRead_encoded okd hb hcode hS
    obtain ⟨m₁, m₂, m₃⟩ := read_magnitude m _ h₂.bufOk _ (by simp only [maxSize]; omega) _ h₃
    have hrs : (BitVec.ofNat 8 (bitlen (s32 (Z[0].toInt - pred.toInt)).toInt)).toNat =
        bitlen (s32 (Z[0].toInt - pred.toInt)).toInt := by
      rw [BitVec.toNat_ofNat]; exact Nat.mod_eq_of_lt (by omega)
    have hfill : Filled Z ((Vector.replicate 64 0 : Block).set 0 Z[0]) 1 := by
      intro i
      by_cases h : i.val = 0
      · have : i = 0 := Fin.ext h
        subst this; simp
      · have hne : ¬0 = i.val := by omega
        simp only [Fin.getElem_fin]
        rw [Vector.getElem_set_ne _ _ hne, if_neg (by omega)]
        simp
    obtain ⟨k, b', g₁, g₂, g₃, g₄, g₅, g₆⟩ := acLoop_acItems (pred := Z[0]) (Z := Z) (k := 1) (run := 0) (fuel := 64) oka
      (Z.toList.drop 1) m₂.bufOk hits (m₂.rest h₃ (by simp)) rfl (by omega) (by omega) hfill (fun i h₁ h₂ => by omega)
    refine ⟨k, b', ?_, ?_, g₃, g₄, g₅, g₆⟩
    · rw [blkDecode, show htRead dc m b = ((htRead dc m b).1, .symbol _ code.2) by rw [← h₁]]
      simp only [hrs, if_neg (show ¬maxSize < bitlen (s32 (Z[0].toInt - pred.toInt)).toInt by simp only [maxSize]; omega)]
      generalize bsCan m (bitlen (s32 (Z[0].toInt - pred.toInt)).toInt) (htRead dc m b).1 = r at *
      obtain ⟨b₂, c⟩ := r
      simp only at m₁ m₃ g₁
      subst m₁
      simp only [m₃, ext_mag, s32_add_diff]
      exact g₁
    · simpa [Nat.add_assoc] using (h₂.trans m₂).trans g₂
  · cases hi

/-! ### Any block -/

/-- What the AC loop leaves, from a block that begins with z₀: the bits it took, and, unless it faulted, a position with
only zeros from it on. -/
structure AcLeaves (m : Memory) (b : Bs) (pred z₀ : Word) (r : BlkDecoded) : Prop where
  reads   : ∃ n, Reads m n b r.bs
  pred    : r.pred = pred
  first   : r.z[0] = z₀
  count   : r.bs.count.toNat ≤ max b.count.toNat 39
  tight   : r.stop ≠ .truncated → r.bs.count.toNat ≤ max b.count.toNat 7
  zeros   : r.stop ≠ .fault → 1 ≤ r.k ∧ r.k ≤ 64 ∧ ∀ i : Fin 64, r.k ≤ i.val → r.z[i] = 0

theorem AcLeaves.stay {m : Memory} {b b' : Bs} {pred : Word} {z : Block} {k k' : Nat} {e : BlkEnd} (hk₁ : 1 ≤ k)
    (hz : ∀ i : Fin 64, k ≤ i.val → z[i] = 0) (h₁ : k ≤ k') (h₂ : e ≠ .fault → k' ≤ 64) {n : Nat}
    (h₃ : Reads m n b b') (h₄ : b'.count.toNat ≤ max b.count.toNat 39)
    (h₅ : e ≠ .truncated → b'.count.toNat ≤ max b.count.toNat 7) :
    AcLeaves m b pred z[0] ⟨b', pred, z, k', e⟩ :=
  ⟨⟨n, h₃⟩, rfl, rfl, h₄, h₅, fun h => ⟨hk₁.trans h₁, h₂ h, fun i hi => hz i (h₁.trans hi)⟩⟩

theorem acLoop_spec (ac : Ht) (m : Memory) (pred : Word) (fuel k : Nat) (z : Block) (b : Bs) (hb : BufOk b) (hk : k ≤ 64)
    (hk₁ : 1 ≤ k) (hz : ∀ i : Fin 64, k ≤ i.val → z[i] = 0) :
    AcLeaves m b pred z[0] (acLoop ac m pred fuel k z b) := by
  induction fuel generalizing k z b with
  | zero =>
    rw [acLoop]
    exact .stay hk₁ hz le_rfl (fun _ => hk) (Reads.refl hb) (Nat.le_max_left ..) (fun _ => Nat.le_max_left ..)
  | succ fuel ih =>
    rw [acLoop]
    dsimp only
    split
    · exact .stay hk₁ hz le_rfl (fun _ => hk) (Reads.refl hb) (Nat.le_max_left ..) (fun _ => Nat.le_max_left ..)
    rename_i hlt
    obtain ⟨n₁, -, hr₁⟩ := htRead_spec ac m b hb
    obtain ⟨c₁, c₂⟩ := htRead_count ac m b hb
    split
    · rename_i b₁ heq
      rw [heq] at hr₁ c₁
      exact .stay hk₁ hz le_rfl (fun _ => hk) hr₁ c₁ (fun h => absurd rfl h)
    · rename_i b₁ heq
      rw [heq] at hr₁ c₁ c₂
      exact .stay hk₁ hz le_rfl (fun h => absurd rfl h) hr₁ c₁ (fun _ => c₂ (by simp))
    · rename_i b₁ rs len heq
      rw [heq] at hr₁ c₁ c₂
      have c₂ := c₂ (by simp)
      simp only at hr₁ c₁ c₂
      split
      · exact .stay hk₁ hz le_rfl (fun _ => hk) hr₁ c₁ (fun _ => c₂)
      split
      · exact .stay hk₁ hz (Nat.le_add_right ..) (fun h => absurd rfl h) hr₁ c₁ (fun _ => c₂)
      rename_i hrun
      have hs : rs.toNat % 16 ≤ 57 := by omega
      obtain ⟨hr₂, -, -, hle⟩ := bsCan_spec m (rs.toNat % 16) hs b₁ hr₁.bufOk
      have c₃ := bsCan_count_le m (rs.toNat % 16) hs b₁ hr₁.bufOk
      have c₄ := bsCan_bsTake_count m (rs.toNat % 16) hs b₁ hr₁.bufOk
      split
      · rename_i b₂ heq₂
        rw [heq₂] at hr₂ c₃
        exact .stay hk₁ hz (Nat.le_add_right ..) (fun _ => by omega) (hr₁.trans hr₂) (c₃.trans (by omega))
          (fun h => absurd rfl h)
      · rename_i b₂ heq₂
        rw [heq₂] at hr₂ hle c₄
        simp only at c₄
        have hr₃ := (bsTake_spec m (rs.toNat % 16) b₂ (hle rfl)).1
        have hp : (Fin.ofNat 64 (k + rs.toNat / 16)).val = k + rs.toNat / 16 := by simp; omega
        have g := ih (k + rs.toNat / 16 + 1)
          (z.set (Fin.ofNat 64 (k + rs.toNat / 16)) (s32 (ext (bsTake (rs.toNat % 16) b₂).2 (rs.toNat % 16))))
          (bsTake (rs.toNat % 16) b₂).1 hr₃.bufOk (by omega) (by omega)
          (by
            intro i hi
            simp only [Fin.getElem_fin]
            rw [Vector.getElem_set_ne _ _ (by omega)]
            simpa using hz i (by omega))
        obtain ⟨n₂, gr⟩ := g.reads
        refine ⟨⟨_, (hr₁.trans hr₂).trans (hr₃.trans gr)⟩, g.pred, ?_, g.count.trans (by omega),
          fun h => (g.tight h).trans (by omega), g.zeros⟩
        rw [g.first, Vector.getElem_set_ne _ _ (by omega)]

/-- What `blk_decode` leaves (R101): the bits it took; unless it faulted, a position with only zeros from it on, where
position 0 is a predictor unchanged and any other a predictor equal to the first coefficient. -/
theorem blkDecode_spec (dc ac : Ht) (m : Memory) (pred : Word) (b : Bs) (hb : BufOk b) (r : BlkDecoded)
    (hr : r = blkDecode dc ac m pred b) :
    (∃ n, Reads m n b r.bs) ∧ r.bs.count.toNat ≤ max b.count.toNat 39 ∧
      (r.stop ≠ .truncated → r.bs.count.toNat ≤ max b.count.toNat 7) ∧
      (r.stop ≠ .fault → r.k ≤ 64 ∧ (∀ i : Fin 64, r.k ≤ i.val → r.z[i] = 0) ∧
        (r.k = 0 → r.pred = pred) ∧ (r.k ≠ 0 → r.pred = r.z[0])) := by
  subst hr
  obtain ⟨n₁, -, hr₁⟩ := htRead_spec dc m b hb
  obtain ⟨c₁, c₂⟩ := htRead_count dc m b hb
  have zeros : ∀ i : Fin 64, (Vector.replicate 64 0 : Block)[i] = 0 := fun i => by simp
  rw [blkDecode]
  dsimp only
  split
  · rename_i b₁ heq
    rw [heq] at hr₁ c₁
    exact ⟨⟨n₁, hr₁⟩, c₁, fun h => absurd rfl h, fun _ => ⟨Nat.zero_le _, fun i _ => zeros i, fun _ => rfl, fun h => absurd rfl h⟩⟩
  · rename_i b₁ heq
    rw [heq] at hr₁ c₁ c₂
    exact ⟨⟨n₁, hr₁⟩, c₁, fun _ => c₂ (by simp), fun h => absurd rfl h⟩
  · rename_i b₁ sym len heq
    rw [heq] at hr₁ c₁ c₂
    have c₂ := c₂ (by simp)
    simp only at c₁ c₂
    split
    · exact ⟨⟨n₁, hr₁⟩, c₁, fun _ => c₂, fun h => absurd rfl h⟩
    rename_i hsym
    have hs : sym.toNat ≤ 57 := by simp only [maxSize] at hsym; omega
    obtain ⟨hr₂, -, -, hle⟩ := bsCan_spec m sym.toNat hs b₁ hr₁.bufOk
    have c₃ := bsCan_count_le m sym.toNat hs b₁ hr₁.bufOk
    have c₄ := bsCan_bsTake_count m sym.toNat hs b₁ hr₁.bufOk
    simp only [maxSize] at hsym
    split
    · rename_i b₂ heq₂
      rw [heq₂] at hr₂ c₃
      simp only at c₃
      exact ⟨⟨_, hr₁.trans hr₂⟩, c₃.trans (by omega), fun h => absurd rfl h,
        fun _ => ⟨Nat.zero_le _, fun i _ => zeros i, fun _ => rfl, fun h => absurd rfl h⟩⟩
    · rename_i b₂ heq₂
      rw [heq₂] at hr₂ hle c₄
      simp only at c₄
      have hr₃ := (bsTake_spec m sym.toNat b₂ (hle rfl)).1
      have g := acLoop_spec ac m (s32 (pred.toInt + ext (bsTake sym.toNat b₂).2 sym.toNat)) 64 1
        ((Vector.replicate 64 0 : Block).set 0 (s32 (pred.toInt + ext (bsTake sym.toNat b₂).2 sym.toNat)))
        (bsTake sym.toNat b₂).1 hr₃.bufOk (by omega) (by omega)
        (by
          intro i hi
          simp only [Fin.getElem_fin]
          rw [Vector.getElem_set_ne _ _ (by omega)]
          simp)
      obtain ⟨n₂, gr⟩ := g.reads
      refine ⟨⟨_, (hr₁.trans hr₂).trans (hr₃.trans gr)⟩, g.count.trans (by omega),
        fun h => (g.tight h).trans (by omega), fun h => ?_⟩
      obtain ⟨k₁, k₂, k₃⟩ := g.zeros h
      refine ⟨k₂, k₃, fun h => by omega, fun _ => ?_⟩
      rw [g.pred, g.first]; simp

/-! ### Line by line over the bits -/

theorem magnitudeIs_ext (b s : Nat) : MagnitudeIs b s (ext b s) := by
  refine ⟨fun h => by rw [ext, if_pos h], fun h h' => ?_, fun h h' => ?_⟩ <;> rw [ext, if_neg (by omega)]
  · rw [if_pos h']
  · rw [if_neg (by omega)]

/-- Enough bits for a magnitude: they are taken. -/
theorem readsBits_taken {m : Memory} {n s : Nat} (hs : s ≤ 57) {b b₁ : Bs} (hr : Reads m n b b₁)
    (hl : n + s ≤ (streamBits m b).length) :
    (bsCan m s b₁).2 = true ∧ Reads m (n + s) b (bsTake s (bsCan m s b₁).1).1 ∧
      ReadsBits ((streamBits m b).drop n) s (bsTake s (bsCan m s b₁).1).2 := by
  have hl₁ : s ≤ (streamBits m b₁).length := by rw [hr.bits, List.length_drop]; omega
  obtain ⟨h₁, h₂, h₃⟩ := bsCan_bsTake m s hs b₁ hr.bufOk hl₁
  rw [hr.bits] at h₃ hl₁
  exact ⟨h₁, hr.trans h₂, bsTake_lt _ _, h₃, hl₁⟩

/-- Too few bits for a magnitude: `bs_can` says so and takes none. -/
theorem bsCan_short {m : Memory} {n s : Nat} (hs : s ≤ 57) {b b₁ : Bs} (hr : Reads m n b b₁)
    (hl : (streamBits m b).length < n + s) :
    (bsCan m s b₁).2 = false ∧ Reads m n b (bsCan m s b₁).1 := by
  obtain ⟨h₁, -, h₂, -⟩ := bsCan_spec m s hs b₁ hr.bufOk
  refine ⟨?_, by simpa using hr.trans h₁⟩
  have := hr.enough
  rw [h₂, decide_eq_false_iff_not, hr.bits, List.length_drop]
  omega

/-- The AC loop follows R101 line by line, and takes the bits it says. -/
theorem acLoop_reads {ac : Ht} (ok : TableOk ac) (m : Memory) (pred : Word) (fuel k : Nat) (z : Block) (b : Bs)
    (hb : BufOk b) (hk : k ≤ 64) (hf : 64 - k ≤ fuel) : ∃ used,
    AcReads ac k z (streamBits m b) (acLoop ac m pred fuel k z b).stop (acLoop ac m pred fuel k z b).k
      (acLoop ac m pred fuel k z b).z used ∧ Reads m used b (acLoop ac m pred fuel k z b).bs := by
  induction fuel generalizing k z b with
  | zero =>
    obtain rfl : k = 64 := by omega
    rw [acLoop]
    exact ⟨0, .full z _, .refl hb⟩
  | succ fuel ih =>
    by_cases hk64 : 64 ≤ k
    · obtain rfl : k = 64 := by omega
      rw [acLoop, if_pos le_rfl]
      exact ⟨0, .full z _, .refl hb⟩
    have hlt : k < 64 := by omega
    rw [acLoop, if_neg hk64]
    rcases htRead_cases ok m b hb with ⟨e, he, hs, hr⟩ | ⟨hno, hl, hs, hr⟩ | ⟨hno, hl, hs, hr⟩
    · rw [show htRead ac m b = ((htRead ac m b).1, .symbol e.sym e.len.toNat) by rw [← hs]]
      dsimp only
      by_cases heob : e.sym = symEob
      · rw [if_pos heob]
        exact ⟨_, .eob hlt he heob, hr⟩
      rw [if_neg heob]
      by_cases hrun : 63 < k + e.sym.toNat / 16
      · rw [if_pos hrun]
        exact ⟨_, .runPast hlt he heob hrun, hr⟩
      rw [if_neg hrun]
      by_cases hbits : e.len.toNat + e.sym.toNat % 16 ≤ (streamBits m b).length
      · obtain ⟨h₁, h₂, h₃⟩ := readsBits_taken (by omega) hr hbits
        rw [show bsCan m (e.sym.toNat % 16) (htRead ac m b).1 =
          ((bsCan m (e.sym.toNat % 16) (htRead ac m b).1).1, true) by rw [← h₁]]
        dsimp only
        obtain ⟨used, g₁, g₂⟩ := ih (k + e.sym.toNat / 16 + 1) (z.set (Fin.ofNat 64 (k + e.sym.toNat / 16))
          (s32 (ext (bsTake (e.sym.toNat % 16) (bsCan m (e.sym.toNat % 16) (htRead ac m b).1).1).2
            (e.sym.toNat % 16)))) _ h₂.bufOk (by omega) (by omega)
        rw [h₂.bits] at g₁
        exact ⟨_, .coefficient hlt he heob (by omega) h₃ (magnitudeIs_ext _ _) g₁, h₂.trans g₂⟩
      · obtain ⟨h₁, h₂⟩ := bsCan_short (s := e.sym.toNat % 16) (by omega) hr (by omega)
        rw [show bsCan m (e.sym.toNat % 16) (htRead ac m b).1 =
          ((bsCan m (e.sym.toNat % 16) (htRead ac m b).1).1, false) by rw [← h₁]]
        exact ⟨_, .noMagnitude hlt he heob (by omega) (by omega), h₂⟩
    · rw [show htRead ac m b = ((htRead ac m b).1, .underrun) by rw [← hs]]
      exact ⟨_, .noBits hlt hno hl, hr⟩
    · rw [show htRead ac m b = ((htRead ac m b).1, .noMatch) by rw [← hs]]
      exact ⟨_, .noMatch hlt hno hl, hr⟩

/-- `blk_decode` follows R101 line by line, and takes the bits it says. -/
theorem blkDecode_reads {dc ac : Ht} (okd : TableOk dc) (oka : TableOk ac) (m : Memory) (pred : Word) (b : Bs)
    (hb : BufOk b) : ∃ used,
    BlkReads dc ac pred (streamBits m b) (blkDecode dc ac m pred b).stop (blkDecode dc ac m pred b).k
      (blkDecode dc ac m pred b).z (blkDecode dc ac m pred b).pred used ∧
      Reads m used b (blkDecode dc ac m pred b).bs := by
  have acPred : ∀ (p : Word) (fuel k : Nat) (z : Block) (b : Bs), (acLoop ac m p fuel k z b).pred = p := by
    intro p fuel
    induction fuel with
    | zero => intro k z b; rw [acLoop]
    | succ fuel ih =>
      intro k z b
      rw [acLoop]
      dsimp only
      repeat' split
      all_goals first | rfl | exact ih _ _ _
  rw [blkDecode]
  dsimp only
  rcases htRead_cases okd m b hb with ⟨e, he, hs, hr⟩ | ⟨hno, hl, hs, hr⟩ | ⟨hno, hl, hs, hr⟩
  · rw [show htRead dc m b = ((htRead dc m b).1, .symbol e.sym e.len.toNat) by rw [← hs]]
    dsimp only
    by_cases hsize : maxSize < e.sym.toNat
    · rw [if_pos hsize]
      exact ⟨_, .largeSize he hsize, hr⟩
    rw [if_neg hsize]
    simp only [maxSize, Nat.not_lt] at hsize
    by_cases hbits : e.len.toNat + e.sym.toNat ≤ (streamBits m b).length
    · obtain ⟨h₁, h₂, h₃⟩ := readsBits_taken (by omega) hr hbits
      rw [show bsCan m e.sym.toNat (htRead dc m b).1 = ((bsCan m e.sym.toNat (htRead dc m b).1).1, true) by rw [← h₁]]
      dsimp only
      obtain ⟨used, g₁, g₂⟩ := acLoop_reads oka m
        (s32 (pred.toInt + ext (bsTake e.sym.toNat (bsCan m e.sym.toNat (htRead dc m b).1).1).2 e.sym.toNat)) 64 1
        ((Vector.replicate 64 0 : Block).set 0
          (s32 (pred.toInt + ext (bsTake e.sym.toNat (bsCan m e.sym.toNat (htRead dc m b).1).1).2 e.sym.toNat)))
        _ h₂.bufOk (by omega) (by omega)
      rw [h₂.bits] at g₁
      refine ⟨_, ?_, h₂.trans g₂⟩
      rw [acPred]
      exact .dcValue he hsize h₃ (magnitudeIs_ext _ _) (by rw [s32, BitVec.ofInt_add, BitVec.ofInt_toInt]) g₁
    · obtain ⟨h₁, h₂⟩ := bsCan_short (s := e.sym.toNat) (by omega) hr (by omega)
      rw [show bsCan m e.sym.toNat (htRead dc m b).1 = ((bsCan m e.sym.toNat (htRead dc m b).1).1, false) by rw [← h₁]]
      exact ⟨_, .noMagnitude he hsize (by omega), h₂⟩
  · rw [show htRead dc m b = ((htRead dc m b).1, .underrun) by rw [← hs]]
    exact ⟨_, .noBits hno hl, hr⟩
  · rw [show htRead dc m b = ((htRead dc m b).1, .noMatch) by rw [← hs]]
    exact ⟨_, .noMatch hno hl, hr⟩

/-! ### The items line by line -/

theorem sizeIs_iff (v : Int) (s : Nat) : SizeIs v s ↔ s = bitlen v := by
  have hc : ∀ n : Nat, ((2 ^ n : Nat) : Int) = 2 ^ n := fun n => by push_cast; rfl
  have ha : |v| = (v.natAbs : Int) := Int.abs_eq_natAbs v
  simp only [SizeIs, ha, ← hc, Nat.cast_lt, Nat.cast_le]
  by_cases h : v = 0
  · subst h
    simp only [Int.natAbs_zero, bitlen_zero, Nat.le_zero, Nat.pow_eq_zero]
    constructor
    · rintro ⟨-, h⟩; by_contra hs; have := h (by omega); omega
    · rintro rfl; simp
  · obtain ⟨h₁, h₂⟩ := bitlen_bounds h
    have hp := bitlen_pos h
    constructor
    · rintro ⟨g₁, g₂⟩
      rcases Nat.lt_trichotomy s (bitlen v) with hs | hs | hs
      · have := Nat.pow_le_pow_right (n := 2) (by omega) (show s ≤ bitlen v - 1 by omega)
        omega
      · exact hs
      · have := Nat.pow_le_pow_right (n := 2) (by omega) (show bitlen v ≤ s - 1 by omega)
        have := g₂ (by omega)
        omega
    · rintro rfl; exact ⟨h₂, fun _ => h₁⟩

theorem magBitsAre_iff (v : Int) (b : Nat) : MagBitsAre v (bitlen v) b ↔ b = mag v (bitlen v) := by
  have hc : ((2 ^ bitlen v : Nat) : Int) = 2 ^ bitlen v := by push_cast; rfl
  simp only [MagBitsAre, mag]
  by_cases h : v = 0
  · subst h; simp
  · obtain ⟨h₁, h₂⟩ := bitlen_bounds h
    split <;> omega

theorem encodeMap_codeFor {t : Ht} (ok : TableOk t) {n : Nat} {e : CodeEntry} (h : CodeFor t n e) :
    t.encodeMap (BitVec.ofNat 8 n) = some e.item := by
  obtain ⟨he, rfl⟩ := h
  exact (ok.encodeMap_eq _ _ _).mpr ⟨e, he, by simp, rfl, rfl⟩

theorem encodeMap_absent {t : Ht} (ok : TableOk t) {n : Nat} (hn : n < 256) (h : Absent t n) :
    t.encodeMap (BitVec.ofNat 8 n) = none := by
  rw [Option.eq_none_iff_forall_ne_some]
  rintro ⟨c, l⟩ hs
  obtain ⟨e, he, hsym, -⟩ := (ok.encodeMap_eq _ _ _).mp hs
  exact h e he (by rw [hsym, BitVec.toNat_ofNat]; exact Nat.mod_eq_of_lt hn)

theorem codeFor_or_absent (t : Ht) (n : Nat) : (∃ e, CodeFor t n e) ∨ Absent t n := by
  by_cases h : ∃ e ∈ t.codes, e.sym.toNat = n
  · exact .inl h
  · exact .inr fun e he hs => h ⟨e, he, hs⟩

/-- A coefficient after 16 zeros or more: a ZRL, and the loop goes on with 16 fewer. -/
theorem acItems_zrl (ac : Ht) {r : Nat} {v : Word} (vs : List Word) (hv : v ≠ 0) (hr : 16 ≤ r) :
    acItems ac r (v :: vs) = (ac.encodeMap symZrl).bind fun c => (acItems ac (r - 16) (v :: vs)).map (c :: ·) := by
  have hm : (r - 16) % 16 = r % 16 := by omega
  have hd : r / 16 = (r - 16) / 16 + 1 := by omega
  simp only [acItems, if_neg hv, coefItems, hm, if_neg (show ¬r < 16 by omega)]
  by_cases hs : maxSize < bitlen v.toInt
  · simp only [if_pos hs]
    cases ac.encodeMap symZrl <;> rfl
  simp only [if_neg hs]
  cases ac.encodeMap (BitVec.ofNat 8 (r % 16 * 16 + bitlen v.toInt)) with
  | none => cases ac.encodeMap symZrl <;> rfl
  | some c =>
    cases ac.encodeMap symZrl with
    | none => rfl
    | some y =>
      by_cases h : r - 16 < 16
      · simp only [if_pos h, show r / 16 = 1 by omega]
        cases acItems ac 0 vs <;> rfl
      · simp only [if_neg h, hd, List.replicate_succ]
        cases acItems ac 0 vs <;> rfl

/-- A coefficient after fewer than 16 zeros: one code and the magnitude. -/
theorem acItems_coefficient (ac : Ht) {r : Nat} {v : Word} (vs : List Word) (hv : v ≠ 0) (hr : r < 16) :
    acItems ac r (v :: vs) = if 15 < bitlen v.toInt then none else
      (ac.encodeMap (BitVec.ofNat 8 (16 * r + bitlen v.toInt))).bind fun c =>
        (acItems ac 0 vs).map (c :: (mag v.toInt (bitlen v.toInt), bitlen v.toInt) :: ·) := by
  simp only [acItems, if_neg hv, coefItems, maxSize, show r % 16 * 16 = 16 * r by omega, if_pos hr]
  by_cases h15 : 15 < bitlen v.toInt
  · simp only [if_pos h15]
  simp only [if_neg h15]
  cases ac.encodeMap (BitVec.ofNat 8 (16 * r + bitlen v.toInt)) with
  | none => rfl
  | some c => cases acItems ac 0 vs <;> rfl

theorem drop_coefficient (z : Block) (k : Fin 64) : z.toList.drop k = z[k] :: z.toList.drop (k + 1) := by
  rw [List.drop_eq_getElem_cons (by simp)]
  simp

/-- The loop of R102 is `acItems`. -/
theorem AcCodes.eq {t : Ht} (ok : TableOk t) {z : Block} {k r : Nat} {l : Option (List (Nat × Nat))}
    (h : AcCodes t z k r l) : acItems t r (z.toList.drop k) = l := by
  induction h with
  | full => rw [List.drop_eq_nil_of_le (by simp), acItems]; rfl
  | eob hr he =>
    rw [List.drop_eq_nil_of_le (by simp), acItems, if_pos hr, show t.encodeMap symEob = _ from encodeMap_codeFor ok he]
    rfl
  | noEob hr he =>
    rw [List.drop_eq_nil_of_le (by simp), acItems, if_pos hr,
      show t.encodeMap symEob = _ from encodeMap_absent ok (by decide) he]
    rfl
  | zero hz _ ih => rw [drop_coefficient, acItems, if_pos hz, ih]
  | zrl hz hr he _ ih =>
    rw [drop_coefficient] at ih ⊢
    rw [acItems_zrl _ _ hz hr, ih, show t.encodeMap symZrl = _ from encodeMap_codeFor ok he]
    rfl
  | noZrl hz hr he =>
    rw [drop_coefficient, acItems_zrl _ _ hz hr, show t.encodeMap symZrl = _ from encodeMap_absent ok (by decide) he]
    rfl
  | largeSize hz hr hs h15 =>
    rw [drop_coefficient, acItems_coefficient _ _ hz hr, ← (sizeIs_iff _ _).mp hs, if_pos h15]
  | noCode hz hr hs h15 he =>
    rw [drop_coefficient, acItems_coefficient _ _ hz hr, ← (sizeIs_iff _ _).mp hs, if_neg (by omega),
      encodeMap_absent ok (by omega) he]
    rfl
  | coefficient hz hr hs h15 he hb _ ih =>
    obtain rfl := (sizeIs_iff _ _).mp hs
    obtain rfl := (magBitsAre_iff _ _).mp hb
    rw [drop_coefficient, acItems_coefficient _ _ hz hr, if_neg (by omega), encodeMap_codeFor ok he, ih]
    rfl

/-- The loop of R102 always ends. -/
theorem acCodes_exists (t : Ht) (z : Block) (n k r : Nat) (hk : k ≤ 64) (hn : (64 - k) * 2 + r < n) :
    ∃ l, AcCodes t z k r l := by
  induction n generalizing k r with
  | zero => omega
  | succ n ih =>
    by_cases hk64 : k = 64
    · subst hk64
      rcases Nat.eq_zero_or_pos r with rfl | hr
      · exact ⟨_, .full⟩
      · rcases codeFor_or_absent t 0x00 with ⟨e, he⟩ | he
        · exact ⟨_, .eob hr he⟩
        · exact ⟨_, .noEob hr he⟩
    obtain ⟨k, rfl⟩ : ∃ k' : Fin 64, k'.val = k := ⟨⟨k, by omega⟩, rfl⟩
    by_cases hz : z[k] = 0
    · obtain ⟨l, hl⟩ := ih (k.val + 1) (r + 1) (by omega) (by omega)
      exact ⟨l, .zero hz hl⟩
    by_cases hr : 16 ≤ r
    · rcases codeFor_or_absent t 0xF0 with ⟨e, he⟩ | he
      · obtain ⟨l, hl⟩ := ih k.val (r - 16) hk (by omega)
        exact ⟨_, .zrl hz hr he hl⟩
      · exact ⟨_, .noZrl hz hr he⟩
    have hs := (sizeIs_iff z[k].toInt _).mpr rfl
    by_cases h15 : bitlen z[k].toInt ≤ 15
    · rcases codeFor_or_absent t (16 * r + bitlen z[k].toInt) with ⟨e, he⟩ | he
      · obtain ⟨l, hl⟩ := ih (k.val + 1) 0 (by omega) (by omega)
        exact ⟨_, .coefficient hz (by omega) hs h15 he ((magBitsAre_iff _ _).mpr rfl) hl⟩
      · exact ⟨_, .noCode hz (by omega) hs h15 he⟩
    · exact ⟨_, .largeSize hz (by omega) hs (by omega)⟩

/-- `blk_symbols` line by line is `blkSymbols` (R102). -/
theorem blkCodes_iff {dc ac : Ht} (okd : TableOk dc) (oka : TableOk ac) (pred : Word) (z : Block)
    (r : Option (List (Nat × Nat))) : BlkCodes dc ac pred z r ↔ blkSymbols dc ac pred z = r := by
  have hd : s32 (z[0].toInt - pred.toInt) = z[0] - pred := by
    apply BitVec.eq_of_toInt_eq
    rw [toInt_s32, BitVec.toInt_sub]
  have eq : ∀ {r}, BlkCodes dc ac pred z r → blkSymbols dc ac pred z = r := by
    intro r h
    simp only [blkSymbols, hd, maxSize]
    cases h with
    | largeSize hs h15 => rw [← (sizeIs_iff _ _).mp hs, if_pos h15]
    | noCode hs h15 he => rw [← (sizeIs_iff _ _).mp hs, if_neg (by omega), encodeMap_absent okd (by omega) he]
    | dcValue hs h15 he hb hac =>
      obtain rfl := (sizeIs_iff _ _).mp hs
      obtain rfl := (magBitsAre_iff _ _).mp hb
      rw [if_neg (by omega), encodeMap_codeFor okd he, hac.eq oka]
      cases ‹Option (List (Nat × Nat))› <;> rfl
  refine ⟨eq, fun h => ?_⟩
  have hs := (sizeIs_iff (z[0] - pred).toInt _).mpr rfl
  obtain ⟨r', hr'⟩ : ∃ r', BlkCodes dc ac pred z r' := by
    by_cases h15 : bitlen (z[0] - pred).toInt ≤ 15
    · rcases codeFor_or_absent dc (bitlen (z[0] - pred).toInt) with ⟨e, he⟩ | he
      · obtain ⟨l, hl⟩ := acCodes_exists ac z 127 1 0 (by omega) (by omega)
        exact ⟨_, .dcValue hs h15 he ((magBitsAre_iff _ _).mpr rfl) hl⟩
      · exact ⟨_, .noCode hs h15 he⟩
    · exact ⟨_, .largeSize hs (by omega)⟩
  rw [← h, eq hr']
  exact hr'

end Sys2Proof.Machine
end

