-- ==== Sys2Proof/Laws/State.lean ====
section
/-! SUPPORT. Each named update of State, field by field. -/

namespace Sys2Proof.Machine

variable (s : State)

/-! ### latchCommand -/

@[simp] theorem latchCommand_cfg (w : Word) : (latchCommand w s).cfg = s.cfg := rfl
@[simp] theorem latchCommand_irqEn (w : Word) : (latchCommand w s).irqEn = s.irqEn := rfl
@[simp] theorem latchCommand_status (w : Word) : (latchCommand w s).status = statusAccepted s.status := rfl
@[simp] theorem latchCommand_latch (w : Word) : (latchCommand w s).latch = some w := rfl
@[simp] theorem latchCommand_arg0 (w : Word) : (latchCommand w s).arg0 = s.arg0 := rfl
@[simp] theorem latchCommand_arg1 (w : Word) : (latchCommand w s).arg1 = s.arg1 := rfl
@[simp] theorem latchCommand_result0 (w : Word) : (latchCommand w s).result0 = s.result0 := rfl
@[simp] theorem latchCommand_result1 (w : Word) : (latchCommand w s).result1 = s.result1 := rfl
@[simp] theorem latchCommand_errpos (w : Word) : (latchCommand w s).errpos = s.errpos := rfl
@[simp] theorem latchCommand_variant (w : Word) : (latchCommand w s).variant = s.variant := rfl
@[simp] theorem latchCommand_width (w : Word) : (latchCommand w s).width = s.width := rfl
@[simp] theorem latchCommand_height (w : Word) : (latchCommand w s).height = s.height := rfl
@[simp] theorem latchCommand_padW (w : Word) : (latchCommand w s).padW = s.padW := rfl
@[simp] theorem latchCommand_padH (w : Word) : (latchCommand w s).padH = s.padH := rfl
@[simp] theorem latchCommand_srcBase (w : Word) : (latchCommand w s).srcBase = s.srcBase := rfl
@[simp] theorem latchCommand_srcLen (w : Word) : (latchCommand w s).srcLen = s.srcLen := rfl
@[simp] theorem latchCommand_dstBase (w : Word) : (latchCommand w s).dstBase = s.dstBase := rfl
@[simp] theorem latchCommand_dstCap (w : Word) : (latchCommand w s).dstCap = s.dstCap := rfl
@[simp] theorem latchCommand_chCfg (w : Word) : (latchCommand w s).chCfg = s.chCfg := rfl
@[simp] theorem latchCommand_dcpred (w : Word) : (latchCommand w s).dcpred = s.dcpred := rfl
@[simp] theorem latchCommand_bs (w : Word) : (latchCommand w s).bs = s.bs := rfl
@[simp] theorem latchCommand_ht (w : Word) : (latchCommand w s).ht = s.ht := rfl
@[simp] theorem latchCommand_blk (w : Word) : (latchCommand w s).blk = s.blk := rfl
@[simp] theorem latchCommand_qbase (w : Word) : (latchCommand w s).qbase = s.qbase := rfl
@[simp] theorem latchCommand_qt (w : Word) : (latchCommand w s).qt = s.qt := rfl
@[simp] theorem latchCommand_hsrc (w : Word) : (latchCommand w s).hsrc = s.hsrc := rfl
@[simp] theorem latchCommand_plane (w : Word) : (latchCommand w s).plane = s.plane := rfl
@[simp] theorem latchCommand_full (w : Word) : (latchCommand w s).full = s.full := rfl
@[simp] theorem latchCommand_iterPos (w : Word) : (latchCommand w s).iterPos = s.iterPos := rfl
@[simp] theorem latchCommand_mem (w : Word) : (latchCommand w s).mem = s.mem := rfl
@[simp] theorem latchCommand_draws (w : Word) : (latchCommand w s).draws = s.draws := rfl
@[simp] theorem latchCommand_busData (w : Word) : (latchCommand w s).busData = s.busData := rfl
@[simp] theorem latchCommand_events (w : Word) : (latchCommand w s).events = s.events := rfl

/-! ### complete -/

@[simp] theorem complete_cfg (code : ErrCode) (u : Bool) : (complete code u s).cfg = s.cfg := rfl
@[simp] theorem complete_irqEn (code : ErrCode) (u : Bool) : (complete code u s).irqEn = s.irqEn := rfl
@[simp] theorem complete_status (code : ErrCode) (u : Bool) : (complete code u s).status = statusCompleted code u s.status := rfl
@[simp] theorem complete_latch (code : ErrCode) (u : Bool) : (complete code u s).latch = none := rfl
@[simp] theorem complete_arg0 (code : ErrCode) (u : Bool) : (complete code u s).arg0 = s.arg0 := rfl
@[simp] theorem complete_arg1 (code : ErrCode) (u : Bool) : (complete code u s).arg1 = s.arg1 := rfl
@[simp] theorem complete_result0 (code : ErrCode) (u : Bool) : (complete code u s).result0 = s.result0 := rfl
@[simp] theorem complete_result1 (code : ErrCode) (u : Bool) : (complete code u s).result1 = s.result1 := rfl
@[simp] theorem complete_errpos (code : ErrCode) (u : Bool) : (complete code u s).errpos = s.errpos := rfl
@[simp] theorem complete_variant (code : ErrCode) (u : Bool) : (complete code u s).variant = s.variant := rfl
@[simp] theorem complete_width (code : ErrCode) (u : Bool) : (complete code u s).width = s.width := rfl
@[simp] theorem complete_height (code : ErrCode) (u : Bool) : (complete code u s).height = s.height := rfl
@[simp] theorem complete_padW (code : ErrCode) (u : Bool) : (complete code u s).padW = s.padW := rfl
@[simp] theorem complete_padH (code : ErrCode) (u : Bool) : (complete code u s).padH = s.padH := rfl
@[simp] theorem complete_srcBase (code : ErrCode) (u : Bool) : (complete code u s).srcBase = s.srcBase := rfl
@[simp] theorem complete_srcLen (code : ErrCode) (u : Bool) : (complete code u s).srcLen = s.srcLen := rfl
@[simp] theorem complete_dstBase (code : ErrCode) (u : Bool) : (complete code u s).dstBase = s.dstBase := rfl
@[simp] theorem complete_dstCap (code : ErrCode) (u : Bool) : (complete code u s).dstCap = s.dstCap := rfl
@[simp] theorem complete_chCfg (code : ErrCode) (u : Bool) : (complete code u s).chCfg = s.chCfg := rfl
@[simp] theorem complete_dcpred (code : ErrCode) (u : Bool) : (complete code u s).dcpred = s.dcpred := rfl
@[simp] theorem complete_bs (code : ErrCode) (u : Bool) : (complete code u s).bs = s.bs := rfl
@[simp] theorem complete_ht (code : ErrCode) (u : Bool) : (complete code u s).ht = s.ht := rfl
@[simp] theorem complete_blk (code : ErrCode) (u : Bool) : (complete code u s).blk = s.blk := rfl
@[simp] theorem complete_qbase (code : ErrCode) (u : Bool) : (complete code u s).qbase = s.qbase := rfl
@[simp] theorem complete_qt (code : ErrCode) (u : Bool) : (complete code u s).qt = s.qt := rfl
@[simp] theorem complete_hsrc (code : ErrCode) (u : Bool) : (complete code u s).hsrc = s.hsrc := rfl
@[simp] theorem complete_plane (code : ErrCode) (u : Bool) : (complete code u s).plane = s.plane := rfl
@[simp] theorem complete_full (code : ErrCode) (u : Bool) : (complete code u s).full = s.full := rfl
@[simp] theorem complete_iterPos (code : ErrCode) (u : Bool) : (complete code u s).iterPos = s.iterPos := rfl
@[simp] theorem complete_mem (code : ErrCode) (u : Bool) : (complete code u s).mem = s.mem := rfl
@[simp] theorem complete_draws (code : ErrCode) (u : Bool) : (complete code u s).draws = s.draws := rfl
@[simp] theorem complete_busData (code : ErrCode) (u : Bool) : (complete code u s).busData = s.busData := rfl
@[simp] theorem complete_events (code : ErrCode) (u : Bool) : (complete code u s).events = s.events := rfl

/-! ### setResults -/

@[simp] theorem setResults_cfg (r0 r1 : Word) : (setResults r0 r1 s).cfg = s.cfg := rfl
@[simp] theorem setResults_irqEn (r0 r1 : Word) : (setResults r0 r1 s).irqEn = s.irqEn := rfl
@[simp] theorem setResults_status (r0 r1 : Word) : (setResults r0 r1 s).status = s.status := rfl
@[simp] theorem setResults_latch (r0 r1 : Word) : (setResults r0 r1 s).latch = s.latch := rfl
@[simp] theorem setResults_arg0 (r0 r1 : Word) : (setResults r0 r1 s).arg0 = s.arg0 := rfl
@[simp] theorem setResults_arg1 (r0 r1 : Word) : (setResults r0 r1 s).arg1 = s.arg1 := rfl
@[simp] theorem setResults_result0 (r0 r1 : Word) : (setResults r0 r1 s).result0 = r0 := rfl
@[simp] theorem setResults_result1 (r0 r1 : Word) : (setResults r0 r1 s).result1 = r1 := rfl
@[simp] theorem setResults_errpos (r0 r1 : Word) : (setResults r0 r1 s).errpos = s.errpos := rfl
@[simp] theorem setResults_variant (r0 r1 : Word) : (setResults r0 r1 s).variant = s.variant := rfl
@[simp] theorem setResults_width (r0 r1 : Word) : (setResults r0 r1 s).width = s.width := rfl
@[simp] theorem setResults_height (r0 r1 : Word) : (setResults r0 r1 s).height = s.height := rfl
@[simp] theorem setResults_padW (r0 r1 : Word) : (setResults r0 r1 s).padW = s.padW := rfl
@[simp] theorem setResults_padH (r0 r1 : Word) : (setResults r0 r1 s).padH = s.padH := rfl
@[simp] theorem setResults_srcBase (r0 r1 : Word) : (setResults r0 r1 s).srcBase = s.srcBase := rfl
@[simp] theorem setResults_srcLen (r0 r1 : Word) : (setResults r0 r1 s).srcLen = s.srcLen := rfl
@[simp] theorem setResults_dstBase (r0 r1 : Word) : (setResults r0 r1 s).dstBase = s.dstBase := rfl
@[simp] theorem setResults_dstCap (r0 r1 : Word) : (setResults r0 r1 s).dstCap = s.dstCap := rfl
@[simp] theorem setResults_chCfg (r0 r1 : Word) : (setResults r0 r1 s).chCfg = s.chCfg := rfl
@[simp] theorem setResults_dcpred (r0 r1 : Word) : (setResults r0 r1 s).dcpred = s.dcpred := rfl
@[simp] theorem setResults_bs (r0 r1 : Word) : (setResults r0 r1 s).bs = s.bs := rfl
@[simp] theorem setResults_ht (r0 r1 : Word) : (setResults r0 r1 s).ht = s.ht := rfl
@[simp] theorem setResults_blk (r0 r1 : Word) : (setResults r0 r1 s).blk = s.blk := rfl
@[simp] theorem setResults_qbase (r0 r1 : Word) : (setResults r0 r1 s).qbase = s.qbase := rfl
@[simp] theorem setResults_qt (r0 r1 : Word) : (setResults r0 r1 s).qt = s.qt := rfl
@[simp] theorem setResults_hsrc (r0 r1 : Word) : (setResults r0 r1 s).hsrc = s.hsrc := rfl
@[simp] theorem setResults_plane (r0 r1 : Word) : (setResults r0 r1 s).plane = s.plane := rfl
@[simp] theorem setResults_full (r0 r1 : Word) : (setResults r0 r1 s).full = s.full := rfl
@[simp] theorem setResults_iterPos (r0 r1 : Word) : (setResults r0 r1 s).iterPos = s.iterPos := rfl
@[simp] theorem setResults_mem (r0 r1 : Word) : (setResults r0 r1 s).mem = s.mem := rfl
@[simp] theorem setResults_draws (r0 r1 : Word) : (setResults r0 r1 s).draws = s.draws := rfl
@[simp] theorem setResults_busData (r0 r1 : Word) : (setResults r0 r1 s).busData = s.busData := rfl
@[simp] theorem setResults_events (r0 r1 : Word) : (setResults r0 r1 s).events = s.events := rfl

/-! ### drawRange -/

@[simp] theorem drawRange_cfg (b n : Nat) : (drawRange b n s).cfg = s.cfg := rfl
@[simp] theorem drawRange_irqEn (b n : Nat) : (drawRange b n s).irqEn = s.irqEn := rfl
@[simp] theorem drawRange_status (b n : Nat) : (drawRange b n s).status = s.status := rfl
@[simp] theorem drawRange_latch (b n : Nat) : (drawRange b n s).latch = s.latch := rfl
@[simp] theorem drawRange_arg0 (b n : Nat) : (drawRange b n s).arg0 = s.arg0 := rfl
@[simp] theorem drawRange_arg1 (b n : Nat) : (drawRange b n s).arg1 = s.arg1 := rfl
@[simp] theorem drawRange_result0 (b n : Nat) : (drawRange b n s).result0 = s.result0 := rfl
@[simp] theorem drawRange_result1 (b n : Nat) : (drawRange b n s).result1 = s.result1 := rfl
@[simp] theorem drawRange_errpos (b n : Nat) : (drawRange b n s).errpos = s.errpos := rfl
@[simp] theorem drawRange_variant (b n : Nat) : (drawRange b n s).variant = s.variant := rfl
@[simp] theorem drawRange_width (b n : Nat) : (drawRange b n s).width = s.width := rfl
@[simp] theorem drawRange_height (b n : Nat) : (drawRange b n s).height = s.height := rfl
@[simp] theorem drawRange_padW (b n : Nat) : (drawRange b n s).padW = s.padW := rfl
@[simp] theorem drawRange_padH (b n : Nat) : (drawRange b n s).padH = s.padH := rfl
@[simp] theorem drawRange_srcBase (b n : Nat) : (drawRange b n s).srcBase = s.srcBase := rfl
@[simp] theorem drawRange_srcLen (b n : Nat) : (drawRange b n s).srcLen = s.srcLen := rfl
@[simp] theorem drawRange_dstBase (b n : Nat) : (drawRange b n s).dstBase = s.dstBase := rfl
@[simp] theorem drawRange_dstCap (b n : Nat) : (drawRange b n s).dstCap = s.dstCap := rfl
@[simp] theorem drawRange_chCfg (b n : Nat) : (drawRange b n s).chCfg = s.chCfg := rfl
@[simp] theorem drawRange_dcpred (b n : Nat) : (drawRange b n s).dcpred = s.dcpred := rfl
@[simp] theorem drawRange_bs (b n : Nat) : (drawRange b n s).bs = s.bs := rfl
@[simp] theorem drawRange_ht (b n : Nat) : (drawRange b n s).ht = s.ht := rfl
@[simp] theorem drawRange_blk (b n : Nat) : (drawRange b n s).blk = s.blk := rfl
@[simp] theorem drawRange_qbase (b n : Nat) : (drawRange b n s).qbase = s.qbase := rfl
@[simp] theorem drawRange_qt (b n : Nat) : (drawRange b n s).qt = s.qt := rfl
@[simp] theorem drawRange_hsrc (b n : Nat) : (drawRange b n s).hsrc = s.hsrc := rfl
@[simp] theorem drawRange_plane (b n : Nat) : (drawRange b n s).plane = s.plane := rfl
@[simp] theorem drawRange_full (b n : Nat) : (drawRange b n s).full = s.full := rfl
@[simp] theorem drawRange_iterPos (b n : Nat) : (drawRange b n s).iterPos = s.iterPos := rfl
@[simp] theorem drawRange_mem (b n : Nat) : (drawRange b n s).mem = memWrite b (freeBytes s.draws n) s.mem := rfl
@[simp] theorem drawRange_draws (b n : Nat) : (drawRange b n s).draws = s.draws + n := rfl
@[simp] theorem drawRange_busData (b n : Nat) : (drawRange b n s).busData = s.busData := rfl
@[simp] theorem drawRange_events (b n : Nat) : (drawRange b n s).events = s.events := rfl

/-! ### drawBlk -/

@[simp] theorem drawBlk_cfg : (drawBlk s).cfg = s.cfg := by simp only [drawBlk]
@[simp] theorem drawBlk_irqEn : (drawBlk s).irqEn = s.irqEn := by simp only [drawBlk]
@[simp] theorem drawBlk_status : (drawBlk s).status = s.status := by simp only [drawBlk]
@[simp] theorem drawBlk_latch : (drawBlk s).latch = s.latch := by simp only [drawBlk]
@[simp] theorem drawBlk_arg0 : (drawBlk s).arg0 = s.arg0 := by simp only [drawBlk]
@[simp] theorem drawBlk_arg1 : (drawBlk s).arg1 = s.arg1 := by simp only [drawBlk]
@[simp] theorem drawBlk_result0 : (drawBlk s).result0 = s.result0 := by simp only [drawBlk]
@[simp] theorem drawBlk_result1 : (drawBlk s).result1 = s.result1 := by simp only [drawBlk]
@[simp] theorem drawBlk_errpos : (drawBlk s).errpos = s.errpos := by simp only [drawBlk]
@[simp] theorem drawBlk_variant : (drawBlk s).variant = s.variant := by simp only [drawBlk]
@[simp] theorem drawBlk_width : (drawBlk s).width = s.width := by simp only [drawBlk]
@[simp] theorem drawBlk_height : (drawBlk s).height = s.height := by simp only [drawBlk]
@[simp] theorem drawBlk_padW : (drawBlk s).padW = s.padW := by simp only [drawBlk]
@[simp] theorem drawBlk_padH : (drawBlk s).padH = s.padH := by simp only [drawBlk]
@[simp] theorem drawBlk_srcBase : (drawBlk s).srcBase = s.srcBase := by simp only [drawBlk]
@[simp] theorem drawBlk_srcLen : (drawBlk s).srcLen = s.srcLen := by simp only [drawBlk]
@[simp] theorem drawBlk_dstBase : (drawBlk s).dstBase = s.dstBase := by simp only [drawBlk]
@[simp] theorem drawBlk_dstCap : (drawBlk s).dstCap = s.dstCap := by simp only [drawBlk]
@[simp] theorem drawBlk_chCfg : (drawBlk s).chCfg = s.chCfg := by simp only [drawBlk]
@[simp] theorem drawBlk_dcpred : (drawBlk s).dcpred = s.dcpred := by simp only [drawBlk]
@[simp] theorem drawBlk_bs : (drawBlk s).bs = s.bs := by simp only [drawBlk]
@[simp] theorem drawBlk_ht : (drawBlk s).ht = s.ht := by simp only [drawBlk]
@[simp] theorem drawBlk_blk : (drawBlk s).blk = Vector.ofFn fun i => Config.freeWord (s.draws + i.val) := by simp only [drawBlk]
@[simp] theorem drawBlk_qbase : (drawBlk s).qbase = s.qbase := by simp only [drawBlk]
@[simp] theorem drawBlk_qt : (drawBlk s).qt = s.qt := by simp only [drawBlk]
@[simp] theorem drawBlk_hsrc : (drawBlk s).hsrc = s.hsrc := by simp only [drawBlk]
@[simp] theorem drawBlk_plane : (drawBlk s).plane = s.plane := by simp only [drawBlk]
@[simp] theorem drawBlk_full : (drawBlk s).full = s.full := by simp only [drawBlk]
@[simp] theorem drawBlk_iterPos : (drawBlk s).iterPos = s.iterPos := by simp only [drawBlk]
@[simp] theorem drawBlk_mem : (drawBlk s).mem = s.mem := by simp only [drawBlk]
@[simp] theorem drawBlk_draws : (drawBlk s).draws = s.draws + 64 := by simp only [drawBlk]
@[simp] theorem drawBlk_busData : (drawBlk s).busData = s.busData := by simp only [drawBlk]
@[simp] theorem drawBlk_events : (drawBlk s).events = s.events := by simp only [drawBlk]

/-! ### drawDcpred -/

@[simp] theorem drawDcpred_cfg : (drawDcpred s).cfg = s.cfg := rfl
@[simp] theorem drawDcpred_irqEn : (drawDcpred s).irqEn = s.irqEn := rfl
@[simp] theorem drawDcpred_status : (drawDcpred s).status = s.status := rfl
@[simp] theorem drawDcpred_latch : (drawDcpred s).latch = s.latch := rfl
@[simp] theorem drawDcpred_arg0 : (drawDcpred s).arg0 = s.arg0 := rfl
@[simp] theorem drawDcpred_arg1 : (drawDcpred s).arg1 = s.arg1 := rfl
@[simp] theorem drawDcpred_result0 : (drawDcpred s).result0 = s.result0 := rfl
@[simp] theorem drawDcpred_result1 : (drawDcpred s).result1 = s.result1 := rfl
@[simp] theorem drawDcpred_errpos : (drawDcpred s).errpos = s.errpos := rfl
@[simp] theorem drawDcpred_variant : (drawDcpred s).variant = s.variant := rfl
@[simp] theorem drawDcpred_width : (drawDcpred s).width = s.width := rfl
@[simp] theorem drawDcpred_height : (drawDcpred s).height = s.height := rfl
@[simp] theorem drawDcpred_padW : (drawDcpred s).padW = s.padW := rfl
@[simp] theorem drawDcpred_padH : (drawDcpred s).padH = s.padH := rfl
@[simp] theorem drawDcpred_srcBase : (drawDcpred s).srcBase = s.srcBase := rfl
@[simp] theorem drawDcpred_srcLen : (drawDcpred s).srcLen = s.srcLen := rfl
@[simp] theorem drawDcpred_dstBase : (drawDcpred s).dstBase = s.dstBase := rfl
@[simp] theorem drawDcpred_dstCap : (drawDcpred s).dstCap = s.dstCap := rfl
@[simp] theorem drawDcpred_chCfg : (drawDcpred s).chCfg = s.chCfg := rfl
@[simp] theorem drawDcpred_dcpred : (drawDcpred s).dcpred = Vector.ofFn fun c => Config.freeWord (s.draws + c.val) := rfl
@[simp] theorem drawDcpred_bs : (drawDcpred s).bs = s.bs := rfl
@[simp] theorem drawDcpred_ht : (drawDcpred s).ht = s.ht := rfl
@[simp] theorem drawDcpred_blk : (drawDcpred s).blk = s.blk := rfl
@[simp] theorem drawDcpred_qbase : (drawDcpred s).qbase = s.qbase := rfl
@[simp] theorem drawDcpred_qt : (drawDcpred s).qt = s.qt := rfl
@[simp] theorem drawDcpred_hsrc : (drawDcpred s).hsrc = s.hsrc := rfl
@[simp] theorem drawDcpred_plane : (drawDcpred s).plane = s.plane := rfl
@[simp] theorem drawDcpred_full : (drawDcpred s).full = s.full := rfl
@[simp] theorem drawDcpred_iterPos : (drawDcpred s).iterPos = s.iterPos := rfl
@[simp] theorem drawDcpred_mem : (drawDcpred s).mem = s.mem := rfl
@[simp] theorem drawDcpred_draws : (drawDcpred s).draws = s.draws + 4 := rfl
@[simp] theorem drawDcpred_busData : (drawDcpred s).busData = s.busData := rfl
@[simp] theorem drawDcpred_events : (drawDcpred s).events = s.events := rfl

/-! ### drawBs -/

@[simp] theorem drawBs_cfg : (drawBs s).cfg = s.cfg := rfl
@[simp] theorem drawBs_irqEn : (drawBs s).irqEn = s.irqEn := rfl
@[simp] theorem drawBs_status : (drawBs s).status = s.status := rfl
@[simp] theorem drawBs_latch : (drawBs s).latch = s.latch := rfl
@[simp] theorem drawBs_arg0 : (drawBs s).arg0 = s.arg0 := rfl
@[simp] theorem drawBs_arg1 : (drawBs s).arg1 = s.arg1 := rfl
@[simp] theorem drawBs_result0 : (drawBs s).result0 = s.result0 := rfl
@[simp] theorem drawBs_result1 : (drawBs s).result1 = s.result1 := rfl
@[simp] theorem drawBs_errpos : (drawBs s).errpos = s.errpos := rfl
@[simp] theorem drawBs_variant : (drawBs s).variant = s.variant := rfl
@[simp] theorem drawBs_width : (drawBs s).width = s.width := rfl
@[simp] theorem drawBs_height : (drawBs s).height = s.height := rfl
@[simp] theorem drawBs_padW : (drawBs s).padW = s.padW := rfl
@[simp] theorem drawBs_padH : (drawBs s).padH = s.padH := rfl
@[simp] theorem drawBs_srcBase : (drawBs s).srcBase = s.srcBase := rfl
@[simp] theorem drawBs_srcLen : (drawBs s).srcLen = s.srcLen := rfl
@[simp] theorem drawBs_dstBase : (drawBs s).dstBase = s.dstBase := rfl
@[simp] theorem drawBs_dstCap : (drawBs s).dstCap = s.dstCap := rfl
@[simp] theorem drawBs_chCfg : (drawBs s).chCfg = s.chCfg := rfl
@[simp] theorem drawBs_dcpred : (drawBs s).dcpred = s.dcpred := rfl
@[simp] theorem drawBs_bs : (drawBs s).bs = bsOfDraws s.draws := rfl
@[simp] theorem drawBs_ht : (drawBs s).ht = s.ht := rfl
@[simp] theorem drawBs_blk : (drawBs s).blk = s.blk := rfl
@[simp] theorem drawBs_qbase : (drawBs s).qbase = s.qbase := rfl
@[simp] theorem drawBs_qt : (drawBs s).qt = s.qt := rfl
@[simp] theorem drawBs_hsrc : (drawBs s).hsrc = s.hsrc := rfl
@[simp] theorem drawBs_plane : (drawBs s).plane = s.plane := rfl
@[simp] theorem drawBs_full : (drawBs s).full = s.full := rfl
@[simp] theorem drawBs_iterPos : (drawBs s).iterPos = s.iterPos := rfl
@[simp] theorem drawBs_mem : (drawBs s).mem = s.mem := rfl
@[simp] theorem drawBs_draws : (drawBs s).draws = s.draws + 7 := rfl
@[simp] theorem drawBs_busData : (drawBs s).busData = s.busData := rfl
@[simp] theorem drawBs_events : (drawBs s).events = s.events := rfl

/-! ### emit -/

@[simp] theorem emit_cfg (b b' : Bs) (out : List Byte) : (emit b b' out s).cfg = s.cfg := rfl
@[simp] theorem emit_irqEn (b b' : Bs) (out : List Byte) : (emit b b' out s).irqEn = s.irqEn := rfl
@[simp] theorem emit_status (b b' : Bs) (out : List Byte) : (emit b b' out s).status = s.status := rfl
@[simp] theorem emit_latch (b b' : Bs) (out : List Byte) : (emit b b' out s).latch = s.latch := rfl
@[simp] theorem emit_arg0 (b b' : Bs) (out : List Byte) : (emit b b' out s).arg0 = s.arg0 := rfl
@[simp] theorem emit_arg1 (b b' : Bs) (out : List Byte) : (emit b b' out s).arg1 = s.arg1 := rfl
@[simp] theorem emit_result0 (b b' : Bs) (out : List Byte) : (emit b b' out s).result0 = s.result0 := rfl
@[simp] theorem emit_result1 (b b' : Bs) (out : List Byte) : (emit b b' out s).result1 = s.result1 := rfl
@[simp] theorem emit_errpos (b b' : Bs) (out : List Byte) : (emit b b' out s).errpos = s.errpos := rfl
@[simp] theorem emit_variant (b b' : Bs) (out : List Byte) : (emit b b' out s).variant = s.variant := rfl
@[simp] theorem emit_width (b b' : Bs) (out : List Byte) : (emit b b' out s).width = s.width := rfl
@[simp] theorem emit_height (b b' : Bs) (out : List Byte) : (emit b b' out s).height = s.height := rfl
@[simp] theorem emit_padW (b b' : Bs) (out : List Byte) : (emit b b' out s).padW = s.padW := rfl
@[simp] theorem emit_padH (b b' : Bs) (out : List Byte) : (emit b b' out s).padH = s.padH := rfl
@[simp] theorem emit_srcBase (b b' : Bs) (out : List Byte) : (emit b b' out s).srcBase = s.srcBase := rfl
@[simp] theorem emit_srcLen (b b' : Bs) (out : List Byte) : (emit b b' out s).srcLen = s.srcLen := rfl
@[simp] theorem emit_dstBase (b b' : Bs) (out : List Byte) : (emit b b' out s).dstBase = s.dstBase := rfl
@[simp] theorem emit_dstCap (b b' : Bs) (out : List Byte) : (emit b b' out s).dstCap = s.dstCap := rfl
@[simp] theorem emit_chCfg (b b' : Bs) (out : List Byte) : (emit b b' out s).chCfg = s.chCfg := rfl
@[simp] theorem emit_dcpred (b b' : Bs) (out : List Byte) : (emit b b' out s).dcpred = s.dcpred := rfl
@[simp] theorem emit_bs (b b' : Bs) (out : List Byte) : (emit b b' out s).bs = b' := rfl
@[simp] theorem emit_ht (b b' : Bs) (out : List Byte) : (emit b b' out s).ht = s.ht := rfl
@[simp] theorem emit_blk (b b' : Bs) (out : List Byte) : (emit b b' out s).blk = s.blk := rfl
@[simp] theorem emit_qbase (b b' : Bs) (out : List Byte) : (emit b b' out s).qbase = s.qbase := rfl
@[simp] theorem emit_qt (b b' : Bs) (out : List Byte) : (emit b b' out s).qt = s.qt := rfl
@[simp] theorem emit_hsrc (b b' : Bs) (out : List Byte) : (emit b b' out s).hsrc = s.hsrc := rfl
@[simp] theorem emit_plane (b b' : Bs) (out : List Byte) : (emit b b' out s).plane = s.plane := rfl
@[simp] theorem emit_full (b b' : Bs) (out : List Byte) : (emit b b' out s).full = s.full := rfl
@[simp] theorem emit_iterPos (b b' : Bs) (out : List Byte) : (emit b b' out s).iterPos = s.iterPos := rfl
@[simp] theorem emit_mem (b b' : Bs) (out : List Byte) : (emit b b' out s).mem = memWrite (b.base.toNat + b.cursor.toNat) out s.mem := rfl
@[simp] theorem emit_draws (b b' : Bs) (out : List Byte) : (emit b b' out s).draws = s.draws := rfl
@[simp] theorem emit_busData (b b' : Bs) (out : List Byte) : (emit b b' out s).busData = s.busData := rfl
@[simp] theorem emit_events (b b' : Bs) (out : List Byte) : (emit b b' out s).events = s.events := rfl

/-! ### ctxSetup -/

@[simp] theorem ctxSetup_cfg : (ctxSetup s).cfg = s.cfg := rfl
@[simp] theorem ctxSetup_irqEn : (ctxSetup s).irqEn = s.irqEn := rfl
@[simp] theorem ctxSetup_status : (ctxSetup s).status = statusNewContext s.status := rfl
@[simp] theorem ctxSetup_latch : (ctxSetup s).latch = s.latch := rfl
@[simp] theorem ctxSetup_arg0 : (ctxSetup s).arg0 = s.arg0 := rfl
@[simp] theorem ctxSetup_arg1 : (ctxSetup s).arg1 = s.arg1 := rfl
@[simp] theorem ctxSetup_result0 : (ctxSetup s).result0 = s.result0 := rfl
@[simp] theorem ctxSetup_result1 : (ctxSetup s).result1 = s.result1 := rfl
@[simp] theorem ctxSetup_errpos : (ctxSetup s).errpos = s.errpos := rfl
@[simp] theorem ctxSetup_variant : (ctxSetup s).variant = s.variant := rfl
@[simp] theorem ctxSetup_width : (ctxSetup s).width = s.width := rfl
@[simp] theorem ctxSetup_height : (ctxSetup s).height = s.height := rfl
@[simp] theorem ctxSetup_padW : (ctxSetup s).padW = BitVec.ofNat 17 (padWidth s) := rfl
@[simp] theorem ctxSetup_padH : (ctxSetup s).padH = BitVec.ofNat 17 (padHeight s) := rfl
@[simp] theorem ctxSetup_srcBase : (ctxSetup s).srcBase = s.srcBase := rfl
@[simp] theorem ctxSetup_srcLen : (ctxSetup s).srcLen = s.srcLen := rfl
@[simp] theorem ctxSetup_dstBase : (ctxSetup s).dstBase = s.dstBase := rfl
@[simp] theorem ctxSetup_dstCap : (ctxSetup s).dstCap = s.dstCap := rfl
@[simp] theorem ctxSetup_chCfg : (ctxSetup s).chCfg = s.chCfg := rfl
@[simp] theorem ctxSetup_dcpred : (ctxSetup s).dcpred = Vector.replicate 4 0 := rfl
@[simp] theorem ctxSetup_bs : (ctxSetup s).bs = s.bs := rfl
@[simp] theorem ctxSetup_ht : (ctxSetup s).ht = s.ht := rfl
@[simp] theorem ctxSetup_blk : (ctxSetup s).blk = s.blk := rfl
@[simp] theorem ctxSetup_qbase : (ctxSetup s).qbase = s.qbase := rfl
@[simp] theorem ctxSetup_qt : (ctxSetup s).qt = Vector.ofFn (ctxTable s) := rfl
@[simp] theorem ctxSetup_hsrc : (ctxSetup s).hsrc = s.hsrc := rfl
@[simp] theorem ctxSetup_plane : (ctxSetup s).plane = s.plane := rfl
@[simp] theorem ctxSetup_full : (ctxSetup s).full = s.full := rfl
@[simp] theorem ctxSetup_iterPos : (ctxSetup s).iterPos = s.iterPos := rfl
@[simp] theorem ctxSetup_mem : (ctxSetup s).mem = s.mem := rfl
@[simp] theorem ctxSetup_draws : (ctxSetup s).draws = s.draws := rfl
@[simp] theorem ctxSetup_busData : (ctxSetup s).busData = s.busData := rfl
@[simp] theorem ctxSetup_events : (ctxSetup s).events = s.events := rfl

/-! ### drawPlanes -/

@[simp] theorem drawPlanes_cfg : (drawPlanes s).cfg = s.cfg := rfl
@[simp] theorem drawPlanes_irqEn : (drawPlanes s).irqEn = s.irqEn := rfl
@[simp] theorem drawPlanes_status : (drawPlanes s).status = s.status := rfl
@[simp] theorem drawPlanes_latch : (drawPlanes s).latch = s.latch := rfl
@[simp] theorem drawPlanes_arg0 : (drawPlanes s).arg0 = s.arg0 := rfl
@[simp] theorem drawPlanes_arg1 : (drawPlanes s).arg1 = s.arg1 := rfl
@[simp] theorem drawPlanes_result0 : (drawPlanes s).result0 = s.result0 := rfl
@[simp] theorem drawPlanes_result1 : (drawPlanes s).result1 = s.result1 := rfl
@[simp] theorem drawPlanes_errpos : (drawPlanes s).errpos = s.errpos := rfl
@[simp] theorem drawPlanes_variant : (drawPlanes s).variant = s.variant := rfl
@[simp] theorem drawPlanes_width : (drawPlanes s).width = s.width := rfl
@[simp] theorem drawPlanes_height : (drawPlanes s).height = s.height := rfl
@[simp] theorem drawPlanes_padW : (drawPlanes s).padW = s.padW := rfl
@[simp] theorem drawPlanes_padH : (drawPlanes s).padH = s.padH := rfl
@[simp] theorem drawPlanes_srcBase : (drawPlanes s).srcBase = s.srcBase := rfl
@[simp] theorem drawPlanes_srcLen : (drawPlanes s).srcLen = s.srcLen := rfl
@[simp] theorem drawPlanes_dstBase : (drawPlanes s).dstBase = s.dstBase := rfl
@[simp] theorem drawPlanes_dstCap : (drawPlanes s).dstCap = s.dstCap := rfl
@[simp] theorem drawPlanes_chCfg : (drawPlanes s).chCfg = s.chCfg := rfl
@[simp] theorem drawPlanes_dcpred : (drawPlanes s).dcpred = s.dcpred := rfl
@[simp] theorem drawPlanes_bs : (drawPlanes s).bs = s.bs := rfl
@[simp] theorem drawPlanes_ht : (drawPlanes s).ht = s.ht := rfl
@[simp] theorem drawPlanes_blk : (drawPlanes s).blk = s.blk := rfl
@[simp] theorem drawPlanes_qbase : (drawPlanes s).qbase = s.qbase := rfl
@[simp] theorem drawPlanes_qt : (drawPlanes s).qt = s.qt := rfl
@[simp] theorem drawPlanes_hsrc : (drawPlanes s).hsrc = s.hsrc := rfl
@[simp] theorem drawPlanes_iterPos : (drawPlanes s).iterPos = s.iterPos := rfl
@[simp] theorem drawPlanes_mem : (drawPlanes s).mem = s.mem := rfl
@[simp] theorem drawPlanes_draws : (drawPlanes s).draws = s.draws + 8 * (s.padW.toNat * s.padH.toNat) := rfl
@[simp] theorem drawPlanes_busData : (drawPlanes s).busData = s.busData := rfl
@[simp] theorem drawPlanes_events : (drawPlanes s).events = s.events := rfl

/-! ### STATUS -/

@[simp] theorem statusCompleted_done (c : ErrCode) (u : Bool) (st : Status) : (statusCompleted c u st).done = true := rfl
@[simp] theorem statusCompleted_err (c : ErrCode) (u : Bool) (st : Status) :
    (statusCompleted c u st).err = errFatal c := rfl
@[simp] theorem statusCompleted_errcode (c : ErrCode) (u : Bool) (st : Status) :
    (statusCompleted c u st).errcode = c := rfl
@[simp] theorem statusCompleted_trunc (c : ErrCode) (u : Bool) (st : Status) :
    (statusCompleted c u st).trunc = (st.trunc || u) := rfl
@[simp] theorem statusCompleted_overrun (c : ErrCode) (u : Bool) (st : Status) :
    (statusCompleted c u st).overrun = st.overrun := rfl
@[simp] theorem statusNewContext_trunc (st : Status) : (statusNewContext st).trunc = false := rfl
@[simp] theorem statusNewContext_overrun (st : Status) : (statusNewContext st).overrun = st.overrun := rfl

/-- A completion is what R117 says. -/
theorem completed_complete (c : ErrCode) (u : Bool) : Completed c u s (complete c u s) :=
  ⟨rfl, rfl, rfl, rfl, rfl, rfl⟩

/-- A failing check leaves the state of R116 item 2. -/
theorem fail_eq (c : ErrCode) (h : errFatal c = true) : fail c s = failedWith c s := by
  simp [fail, complete, failedWith, statusCompleted, h]

end Sys2Proof.Machine
end

