-- ==== Sys2Proof/Laws/Commands.lean ====
section
/-! SUPPORT. What every command leaves alone, and with which code it completes: one lemma, `exec_completes`, that says it
of all 30, and the small lemmas it rests on. -/

namespace Sys2Proof.Machine

/-! ### The registers only the host writes, after each named update -/

theorem HostSideSame.refl (s : State) : HostSideSame s s := by constructor <;> rfl

theorem HostSideSame.trans {s t u : State} (h : HostSideSame s t) (g : HostSideSame t u) : HostSideSame s u := by
  obtain ⟨⟩ := h
  obtain ⟨⟩ := g
  constructor <;> simp only [*]

theorem hostSideSame_complete (code : ErrCode) (u : Bool) (s : State) : HostSideSame s (complete code u s) := by
  constructor <;> simp

theorem hostSideSame_setResults (r0 r1 : Word) (s : State) : HostSideSame s (setResults r0 r1 s) := by
  constructor <;> simp

theorem hostSideSame_ctxSetup (s : State) : HostSideSame s (ctxSetup s) := by constructor <;> simp

theorem hostSideSame_drawRange (base len : Nat) (s : State) : HostSideSame s (drawRange base len s) := by
  constructor <;> simp

theorem hostSideSame_drawBlk (s : State) : HostSideSame s (drawBlk s) := by constructor <;> simp

theorem hostSideSame_drawDcpred (s : State) : HostSideSame s (drawDcpred s) := by constructor <;> simp

theorem hostSideSame_drawBs (s : State) : HostSideSame s (drawBs s) := by constructor <;> simp

theorem hostSideSame_drawPlanes (s : State) : HostSideSame s (drawPlanes s) := by constructor <;> simp

theorem hostSideSame_leaveScratch (s : State) : HostSideSame s (leaveScratch s) :=
  (hostSideSame_drawBlk s).trans (hostSideSame_drawPlanes _)

/-! ### What an image command leaves beside its results -/

/-- The state `imageFault` completes. -/
def faultScratch (completed pos base len : Nat) (s : State) : State :=
  leaveScratch (drawBs (drawDcpred (drawRange base len { s with errpos := u32 completed, iterPos := u32 pos })))

theorem imageFault_eq (code : ErrCode) (u : Bool) (n pos base len : Nat) (s : State) :
    imageFault code u n pos base len s = complete code u (faultScratch n pos base len s) := by
  simp only [imageFault, faultScratch]

theorem hostSideSame_faultScratch (n pos base len : Nat) (s : State) :
    HostSideSame s (faultScratch n pos base len s) := by
  have h : HostSideSame s { s with errpos := u32 n, iterPos := u32 pos } := by constructor <;> rfl
  exact h.trans ((hostSideSame_drawRange _ _ _).trans ((hostSideSame_drawDcpred _).trans
    ((hostSideSame_drawBs _).trans (hostSideSame_leaveScratch _))))

@[simp] theorem leaveScratch_status (s : State) : (leaveScratch s).status = s.status := by simp [leaveScratch]
@[simp] theorem leaveScratch_latch (s : State) : (leaveScratch s).latch = s.latch := by simp [leaveScratch]
@[simp] theorem leaveScratch_result0 (s : State) : (leaveScratch s).result0 = s.result0 := by simp [leaveScratch]
@[simp] theorem leaveScratch_result1 (s : State) : (leaveScratch s).result1 = s.result1 := by simp [leaveScratch]
@[simp] theorem leaveScratch_errpos (s : State) : (leaveScratch s).errpos = s.errpos := by simp [leaveScratch]
@[simp] theorem leaveScratch_padW (s : State) : (leaveScratch s).padW = s.padW := by simp [leaveScratch]
@[simp] theorem leaveScratch_padH (s : State) : (leaveScratch s).padH = s.padH := by simp [leaveScratch]
@[simp] theorem leaveScratch_dcpred (s : State) : (leaveScratch s).dcpred = s.dcpred := by simp [leaveScratch]
@[simp] theorem leaveScratch_bs (s : State) : (leaveScratch s).bs = s.bs := by simp [leaveScratch]
@[simp] theorem leaveScratch_ht (s : State) : (leaveScratch s).ht = s.ht := by simp [leaveScratch]
@[simp] theorem leaveScratch_qt (s : State) : (leaveScratch s).qt = s.qt := by simp [leaveScratch]
@[simp] theorem leaveScratch_mem (s : State) : (leaveScratch s).mem = s.mem := by simp [leaveScratch]
@[simp] theorem leaveScratch_iterPos (s : State) : (leaveScratch s).iterPos = s.iterPos := by simp [leaveScratch]

@[simp] theorem faultScratch_status (n i b l : Nat) (s : State) : (faultScratch n i b l s).status = s.status := by
  simp [faultScratch]
@[simp] theorem faultScratch_result0 (n i b l : Nat) (s : State) : (faultScratch n i b l s).result0 = s.result0 := by
  simp [faultScratch]
@[simp] theorem faultScratch_result1 (n i b l : Nat) (s : State) : (faultScratch n i b l s).result1 = s.result1 := by
  simp [faultScratch]
@[simp] theorem faultScratch_errpos (n i b l : Nat) (s : State) : (faultScratch n i b l s).errpos = u32 n := by
  simp [faultScratch]
@[simp] theorem faultScratch_padW (n i b l : Nat) (s : State) : (faultScratch n i b l s).padW = s.padW := by
  simp [faultScratch]
@[simp] theorem faultScratch_padH (n i b l : Nat) (s : State) : (faultScratch n i b l s).padH = s.padH := by
  simp [faultScratch]
@[simp] theorem faultScratch_ht (n i b l : Nat) (s : State) : (faultScratch n i b l s).ht = s.ht := by
  simp [faultScratch]
@[simp] theorem faultScratch_qt (n i b l : Nat) (s : State) : (faultScratch n i b l s).qt = s.qt := by
  simp [faultScratch]
@[simp] theorem faultScratch_mem (n i b l : Nat) (s : State) :
    (faultScratch n i b l s).mem = memWrite b (freeBytes s.draws l) s.mem := by
  simp [faultScratch]
@[simp] theorem faultScratch_bs (n i b l : Nat) (s : State) :
    (faultScratch n i b l s).bs = bsOfDraws (s.draws + l + 4) := by
  simp [faultScratch]

/-! ### The codes of the encoder -/

theorem blkEncodeItems_fault {dc ac : Ht} {pred : Word} {b : Block} {bs : Bs} {code : ErrCode}
    (h : blkEncodeItems dc ac pred b bs = .fault code) : code = .huffmanEncodingFault ∨ code = .illegalArgument := by
  rw [blkEncodeItems] at h
  split at h
  · cases h
    exact .inl rfl
  · split at h
    · cases h
    · cases h
      exact .inr rfl

/-- What one block of the encode pass can do. -/
theorem encodeOne_cases (s : State) (pos : BlockPos) (z : Block) (p : EncPass) :
    (∃ code, encodeOne s pos z p = .fault code p.n ∧ (code = .huffmanEncodingFault ∨ code = .illegalArgument)) ∨
    ∃ q, encodeOne s pos z p = .done q ∧ q.n = p.n + 1 := by
  rw [encodeOne]
  dsimp only
  split
  · rename_i code hc
    exact .inl ⟨code, rfl, blkEncodeItems_fault hc⟩
  · exact .inr ⟨_, rfl, rfl⟩

theorem encodePass_fault {s : State} {l : List (BlockPos × Block)} {p : EncPass} {code : ErrCode} {n : Nat}
    (h : encodePass s l p = .fault code n) :
    (code = .huffmanEncodingFault ∨ code = .illegalArgument) ∧ p.n ≤ n ∧ n < p.n + l.length := by
  induction l generalizing p with
  | nil => simp [encodePass] at h
  | cons e rest ih =>
    obtain ⟨pos, z⟩ := e
    rw [encodePass] at h
    rcases encodeOne_cases s pos z p with ⟨c, hc, hcode⟩ | ⟨q, hq, hn⟩
    · rw [hc] at h
      simp only [EncEnd.fault.injEq] at h
      obtain ⟨rfl, rfl⟩ := h
      exact ⟨hcode, le_refl _, by simp⟩
    · rw [hq] at h
      obtain ⟨h1, h2, h3⟩ := ih h
      simp only [List.length_cons]
      exact ⟨h1, by omega, by omega⟩

theorem encodePass_done {s : State} {l : List (BlockPos × Block)} {p q : EncPass} (h : encodePass s l p = .done q) :
    q.n = p.n + l.length := by
  induction l generalizing p with
  | nil =>
    simp only [encodePass, EncEnd.done.injEq] at h
    subst h
    rfl
  | cons e rest ih =>
    obtain ⟨pos, z⟩ := e
    rw [encodePass] at h
    rcases encodeOne_cases s pos z p with ⟨c, hc, -⟩ | ⟨r, hr, hn⟩
    · rw [hc] at h
      cases h
    · rw [hr] at h
      have := ih h
      simp only [List.length_cons]
      omega

/-- What one block of the decode pass can do. -/
theorem decodeOne_cases (s : State) (pos : BlockPos) (p : DecPass) :
    decodeOne s pos p = .fault p.n p.firstBad ∨
    ∃ q, decodeOne s pos p = .done q ∧ q.n = p.n + 1 ∧
      (q.firstBad = p.firstBad ∨ p.firstBad = none ∧ q.firstBad = some p.n) := by
  rw [decodeOne]
  split
  · exact .inl rfl
  all_goals
    refine .inr ⟨_, rfl, rfl, ?_⟩
    dsimp only
    split
    · rename_i hc
      exact .inr ⟨hc.2, rfl⟩
    · exact .inl rfl

/-- A fault of the decode pass names a block of the list, and the first underrun block, if any, is one before it. -/
theorem decodePass_fault {s : State} {l : List BlockPos} {p : DecPass} {n : Nat} {bad : Option Nat}
    (h : decodePass s l p = .fault n bad) : p.n ≤ n ∧ n < p.n + l.length ∧
      (bad = p.firstBad ∨ p.firstBad = none ∧ ∃ m, bad = some m ∧ p.n ≤ m ∧ m < n) := by
  induction l generalizing p with
  | nil => simp [decodePass] at h
  | cons pos rest ih =>
    rw [decodePass] at h
    rcases decodeOne_cases s pos p with hc | ⟨q, hq, hn, hf⟩
    · rw [hc] at h
      simp only [DecEnd.fault.injEq] at h
      obtain ⟨rfl, rfl⟩ := h
      exact ⟨le_refl _, by simp, .inl rfl⟩
    · rw [hq] at h
      obtain ⟨h1, h2, h3⟩ := ih h
      simp only [List.length_cons]
      refine ⟨by omega, by omega, ?_⟩
      rcases hf with hf | ⟨hp, hf⟩
      · rw [hf] at h3
        rcases h3 with h3 | ⟨h3, m, h4, h5, h6⟩
        · exact .inl h3
        · exact .inr ⟨h3, m, h4, by omega, h6⟩
      · rcases h3 with h3 | ⟨h3, -⟩
        · exact .inr ⟨hp, p.n, h3.trans hf, le_refl _, by omega⟩
        · rw [hf] at h3
          cases h3

/-- After the decode pass: every block done, and the first underrun block, if any, one of them. -/
theorem decodePass_done {s : State} {l : List BlockPos} {p q : DecPass} (h : decodePass s l p = .done q) :
    q.n = p.n + l.length ∧
      (q.firstBad = p.firstBad ∨ p.firstBad = none ∧ ∃ n, q.firstBad = some n ∧ p.n ≤ n ∧ n < q.n) := by
  induction l generalizing p with
  | nil =>
    simp only [decodePass, DecEnd.done.injEq] at h
    subst h
    exact ⟨rfl, .inl rfl⟩
  | cons pos rest ih =>
    rw [decodePass] at h
    rcases decodeOne_cases s pos p with hc | ⟨r, hr, hn, hf⟩
    · rw [hc] at h
      cases h
    · rw [hr] at h
      obtain ⟨h1, h2⟩ := ih h
      simp only [List.length_cons]
      refine ⟨by omega, ?_⟩
      rcases hf with hf | ⟨hp, hf⟩
      · rw [hf] at h2
        rcases h2 with h2 | ⟨h2, n, h3, h4, h5⟩
        · exact .inl h2
        · exact .inr ⟨h2, n, h3, by omega, h5⟩
      · rcases h2 with h2 | ⟨h2, -⟩
        · exact .inr ⟨hp, p.n, h2.trans hf, le_refl _, by omega⟩
        · rw [hf] at h2
          cases h2

/-! ### Every command -/

/-- Which commands start a Context (R16). -/
def startsContext : Instr → Bool
  | .ctxInit | .decodeImage | .encodeImage => true
  | _ => false

/-- Everything the completion of a command says: from every state it is the completion, with a code its row lists, of a
state in which the registers only the host writes are as before, and STATUS too but for TRUNC at the start of a Context.
-/
theorem exec_completes (i : Instr) (s : State) : ∃ code u r, exec i s = .next (complete code u r) ∧
    HostSideSame s r ∧ (r.status = s.status ∨ startsContext i = true ∧ r.status = statusNewContext s.status) ∧
    code ∈ reportable i ∧ (code = .streamUnderrun → u = true) := by
  cases i
  case decodeImage =>
    rw [exec, execDecodeImage]
    dsimp only
    split
    · have hc := hostSideSame_ctxSetup s
      split
      · rw [imageFault_eq]
        exact ⟨_, _, _, rfl, hc.trans (hostSideSame_faultScratch _ _ _ _ _), .inr ⟨rfl, by simp⟩, by decide, by simp⟩
      · have hm : ∀ t : State, HostSideSame s t → HostSideSame s (leaveScratch t) :=
          fun t h => h.trans (hostSideSame_leaveScratch t)
        split
        · exact ⟨_, _, _, rfl, hm _ (by obtain ⟨⟩ := hc; constructor <;> simp), .inr ⟨rfl, by simp⟩, by decide, by simp⟩
        · rw [succeed]
          exact ⟨_, _, _, rfl, hm _ (by obtain ⟨⟩ := hc; constructor <;> simp), .inr ⟨rfl, by simp⟩, by decide, by simp⟩
    · exact ⟨_, _, s, rfl, .refl s, .inl rfl, by decide, by simp⟩
  case encodeImage =>
    rw [exec, execEncodeImage]
    dsimp only
    split
    · have hc := hostSideSame_ctxSetup s
      split
      · rename_i code n he
        rw [imageFault_eq]
        refine ⟨_, _, _, rfl, hc.trans (hostSideSame_faultScratch _ _ _ _ _), .inr ⟨rfl, by simp⟩, ?_, ?_⟩ <;>
          rcases (encodePass_fault he).1 with h | h <;> subst h <;> simp [reportable]
      · split
        · rw [imageFault_eq]
          exact ⟨_, _, _, rfl, hc.trans (hostSideSame_faultScratch _ _ _ _ _), .inr ⟨rfl, by simp⟩, by decide, by simp⟩
        · rw [succeed]
          refine ⟨_, _, _, rfl, HostSideSame.trans ?_ (hostSideSame_leaveScratch _), .inr ⟨rfl, by simp⟩, by decide,
            by simp⟩
          constructor <;> simp
    · exact ⟨_, _, s, rfl, .refl s, .inl rfl, by decide, by simp⟩
  case blkEncode c k =>
    rw [exec, execBlkEncode]
    dsimp only
    split
    · split
      · rename_i code he
        refine ⟨_, _, s, rfl, .refl s, .inl rfl, ?_, ?_⟩ <;>
          rcases blkEncodeItems_fault he with h | h <;> subst h <;> simp [reportable]
      · rw [succeed]
        exact ⟨_, _, _, rfl, by constructor <;> simp, .inl (by simp), by simp [reportable], by simp⟩
    · exact ⟨_, _, s, rfl, .refl s, .inl rfl, by simp [reportable], by simp⟩
  case ctxInit =>
    rw [exec, execCtxInit]
    split
    · exact ⟨_, _, _, rfl, (hostSideSame_ctxSetup s).trans (hostSideSame_setResults _ _ _), .inr ⟨rfl, by simp⟩, by decide,
        by simp⟩
    · exact ⟨_, _, s, rfl, .refl s, .inl rfl, by decide, by simp⟩
  all_goals
    simp only [exec, execNop, execBsOpenRead, execBsOpenWrite, execBsCanSupply, execBsSupply, execBsConsume,
      execBsFlush, execHtBuild, execHtDecode, execHtEncode, execHtLimits, execHtRead, execFdct, execIdct, execZigzag,
      execUnzigzag, execShiftClamp, execUnshift, execQAdjust, execQuant, execDequant, execUpsample, execDownsample,
      execCompose, execDecompose, execBlkDecode]
    repeat' split
    all_goals
      refine ⟨_, _, _, rfl, ?_, .inl ?_, ?_, ?_⟩
      · constructor <;> simp
      · simp
      · simp [reportable]
      · simp

end Sys2Proof.Machine
end

