-- ==== Sys2Proof/Laws/Host.lean ====
section
/-! SUPPORT. A step by its event: what each host access comes to (Machine/Hosting.lean, Machine/Engine.lean). -/

namespace Sys2Proof.Machine

theorem step_idle {s : State} (h : s.events = []) : step s = runLatched s := by
  simp only [step, stepEvent, h]

theorem step_event {s : State} {e : Event} {rest : List Event} (h : s.events = e :: rest) :
    step s = handle e { s with events := rest } := by
  simp only [step, stepEvent, h]

theorem runLatched_idle {s : State} (h : s.latch = none) : runLatched s = .next s := by
  simp only [runLatched, h]

theorem runLatched_ok {s : State} {w : Word} {i : Instr} (h : s.latch = some w) (hd : decode w = .ok i) :
    runLatched s = exec i s := by
  simp only [runLatched, h, hd]

theorem runLatched_error {s : State} {w : Word} {e : DecodeRefusal} (h : s.latch = some w) (hd : decode w = .error e) :
    runLatched s = .next (illegalCommand s) := by
  simp only [runLatched, h, hd]

/-- Everything the engine can do: nothing, a command, or IllegalCommand. -/
theorem runLatched_cases {s t : State} (h : runLatched s = .next t) :
    (s.latch = none ∧ t = s) ∨ (∃ i, runningInstr s = some i ∧ exec i s = .next t) ∨ t = illegalCommand s := by
  rw [runLatched] at h
  split at h
  · rename_i hl
    exact .inl ⟨hl, by simpa using h.symm⟩
  · rename_i w hl
    split at h
    · rename_i i hd
      exact .inr (.inl ⟨i, by simp [runningInstr, hl, hd], h⟩)
    · exact .inr (.inr (by simpa using h.symm))

/-- An access of the right form inside the window is not refused. -/
theorem accessRefusal_none (s : State) {off : Nat} (h : off < 0x3000) (h4 : off % 4 = 0) :
    accessRefusal s (s.cfg.regBase + off) 4 = none := by
  have w : windowSize = 0x3000 := rfl
  rw [accessRefusal, if_neg (by omega), if_neg (by omega)]

/-- An access of another form inside the window is refused for its form. -/
theorem accessRefusal_form (s : State) {off n : Nat} (h : off < 0x3000) (h4 : n ≠ 4 ∨ off % 4 ≠ 0) :
    accessRefusal s (s.cfg.regBase + off) n = some .registerAccessForm := by
  have w : windowSize = 0x3000 := rfl
  rw [accessRefusal, if_neg (by omega), if_pos (by omega)]

theorem hostRegWrite_named (s : State) {r : Reg} {off : Nat} (v : Word) (h : off < 0x3000) (h4 : off % 4 = 0)
    (hr : regAt off = some r) : hostRegWrite (s.cfg.regBase + off) 4 v s = .next (writeReg r v s) := by
  simp only [hostRegWrite, accessRefusal_none s h h4, Nat.add_sub_cancel_left, hr]

theorem hostRegWrite_unnamed (s : State) {off : Nat} (v : Word) (h : off < 0x3000) (h4 : off % 4 = 0)
    (hr : regAt off = none) : hostRegWrite (s.cfg.regBase + off) 4 v s = .next s := by
  simp only [hostRegWrite, accessRefusal_none s h h4, Nat.add_sub_cancel_left, hr]

theorem hostRegWrite_form (s : State) {off n : Nat} (v : Word) (h : off < 0x3000) (h4 : n ≠ 4 ∨ off % 4 ≠ 0) :
    hostRegWrite (s.cfg.regBase + off) n v s = .refused .registerAccessForm := by
  simp only [hostRegWrite, accessRefusal_form s h h4]

theorem hostRegRead_ok (s : State) {off : Nat} (h : off < 0x3000) (h4 : off % 4 = 0) :
    hostRegRead (s.cfg.regBase + off) 4 s = .next (hostReadReg off s) := by
  simp only [hostRegRead, accessRefusal_none s h h4, Nat.add_sub_cancel_left]

theorem hostRegRead_form (s : State) {off n : Nat} (h : off < 0x3000) (h4 : n ≠ 4 ∨ off % 4 ≠ 0) :
    hostRegRead (s.cfg.regBase + off) n s = .refused .registerAccessForm := by
  simp only [hostRegRead, accessRefusal_form s h h4]

/-- Everything a register write can do, when it goes on. -/
theorem hostRegWrite_cases {s t : State} {addr n : Nat} {v : Word} (h : hostRegWrite addr n v s = .next t) :
    t = s ∨ ∃ off r, off < 0x3000 ∧ off % 4 = 0 ∧ n = 4 ∧ addr = s.cfg.regBase + off ∧ regAt off = some r ∧
      t = writeReg r v s := by
  rw [hostRegWrite] at h
  split at h
  · cases h
  rename_i hn
  have w : windowSize = 0x3000 := rfl
  rw [accessRefusal] at hn
  split at hn
  · cases hn
  split at hn
  · cases hn
  split at h
  · exact .inl (by simpa using h.symm)
  · rename_i r hr
    exact .inr ⟨addr - s.cfg.regBase, r, by omega, by omega, by omega, by omega, hr, by simpa using h.symm⟩

/-- Everything a register read can do, when it goes on: busData and the draw counter change, nothing else. -/
theorem hostRegRead_cases {s t : State} {addr n : Nat} (h : hostRegRead addr n s = .next t) :
    ∃ d k, t = { s with busData := d, draws := k } := by
  rw [hostRegRead] at h
  split at h
  · cases h
  cases h
  rw [hostReadReg]
  split
  · exact ⟨0, s.draws, rfl⟩
  · split
    · exact ⟨_, _, rfl⟩
    · exact ⟨_, s.draws, rfl⟩

/-- Everything a DMEM read can do, when it goes on. -/
theorem hostMemRead_cases {s t : State} {a : Nat} (h : hostMemRead a s = .next t) :
    a < s.cfg.dmemSize ∧ (runningWrites s).has a = false ∧
      t = { s with busData := (memRead s.mem a).setWidth 32 } := by
  rw [hostMemRead] at h
  split at h
  · cases h
  split at h
  · cases h
  · rename_i h1 h2
    exact ⟨by omega, by simpa using h2, by simpa using h.symm⟩

/-- Everything a DMEM write can do, when it goes on. -/
theorem hostMemWrite_cases {s t : State} {a : Nat} {b : Byte} (h : hostMemWrite a b s = .next t) :
    a < s.cfg.dmemSize ∧ (runningWrites s).has a = false ∧ (runningReads s).has a = false ∧
      t = { s with mem := memWrite a [b] s.mem } := by
  rw [hostMemWrite] at h
  split at h
  · cases h
  split at h
  · cases h
  · rename_i h1 h2
    simp only [Bool.or_eq_true, not_or, Bool.not_eq_true] at h2
    exact ⟨by omega, h2.1, h2.2, by simpa using h.symm⟩

/-! ### The window row by row -/

/-- The window row by row is the register map with what `readReg` answers (R14). -/
theorem windowHolds_iff (s : State) (off : Nat) (w : Word) (free : Bool) :
    WindowHolds s off w free ↔ ∃ r : Reg, regOffset r = off ∧ readReg r s = w ∧ drawnWhileBusy r = free := by
  have hb : s.bs.buf.extractLsb' 32 32 ++ s.bs.buf.extractLsb' 0 32 = s.bs.buf := by
    apply BitVec.eq_of_getLsbD_eq
    intro i _
    simp only [BitVec.getLsbD_append, BitVec.getLsbD_extractLsb']
    by_cases h : i < 32
    · simp [h]
    · simp [h, show i - 32 < 32 by omega, show 32 + (i - 32) = i by omega]
  have lo_of : ∀ a b : Word, (a ++ b).extractLsb' 0 32 = b := by
    intro a b
    apply BitVec.eq_of_getLsbD_eq
    intro i h
    simp only [BitVec.getLsbD_extractLsb', BitVec.getLsbD_append]
    simp [h]
  have hi_of : ∀ a b : Word, (a ++ b).extractLsb' 32 32 = a := by
    intro a b
    apply BitVec.eq_of_getLsbD_eq
    intro i h
    simp only [BitVec.getLsbD_extractLsb', BitVec.getLsbD_append]
    simp [h]
  have zx : ∀ {n : Nat} (v : BitVec n), v.setWidth 32 = BitVec.ofNat 32 v.toNat := fun v =>
    BitVec.eq_of_toNat_eq (by simp)
  constructor
  · intro h
    cases h
    case bsIdle h => exact ⟨.bsMode, rfl, by simp [readReg, h, bsModeNumber, u32], rfl⟩
    case bsReading h => exact ⟨.bsMode, rfl, by simp [readReg, h, bsModeNumber, u32], rfl⟩
    case bsWriting h => exact ⟨.bsMode, rfl, by simp [readReg, h, bsModeNumber, u32], rfl⟩
    case bsBufLo h => exact ⟨.bsBufLo, rfl, by rw [readReg, ← h, lo_of], rfl⟩
    case bsBufHi h => exact ⟨.bsBufHi, rfl, by rw [readReg, ← h, hi_of], rfl⟩
    case ctrl => exact ⟨.ctrl, rfl, by cases h : s.irqEn <;> simp [readReg, h, u32], rfl⟩
    case id => exact ⟨.id, rfl, rfl, rfl⟩
    case status => exact ⟨.status, rfl, rfl, rfl⟩
    case cmd => exact ⟨.cmd, rfl, rfl, rfl⟩
    case arg0 => exact ⟨.arg0, rfl, rfl, rfl⟩
    case arg1 => exact ⟨.arg1, rfl, rfl, rfl⟩
    case result0 => exact ⟨.result0, rfl, rfl, rfl⟩
    case result1 => exact ⟨.result1, rfl, rfl, rfl⟩
    case errpos => exact ⟨.errpos, rfl, rfl, rfl⟩
    case variant => exact ⟨.variant, rfl, zx _, rfl⟩
    case width => exact ⟨.width, rfl, zx _, rfl⟩
    case height => exact ⟨.height, rfl, zx _, rfl⟩
    case padW => exact ⟨.padW, rfl, zx _, rfl⟩
    case padH => exact ⟨.padH, rfl, zx _, rfl⟩
    case srcBase => exact ⟨.srcBase, rfl, rfl, rfl⟩
    case srcLen => exact ⟨.srcLen, rfl, rfl, rfl⟩
    case dstBase => exact ⟨.dstBase, rfl, rfl, rfl⟩
    case dstCap => exact ⟨.dstCap, rfl, rfl, rfl⟩
    case chCfg c => exact ⟨.chCfg c, rfl, rfl, rfl⟩
    case dcpred c => exact ⟨.dcpred c, rfl, rfl, rfl⟩
    case bsCount => exact ⟨.bsCount, rfl, zx _, rfl⟩
    case bsCursor => exact ⟨.bsCursor, rfl, rfl, rfl⟩
    case bsBase => exact ⟨.bsBase, rfl, rfl, rfl⟩
    case bsLimit => exact ⟨.bsLimit, rfl, rfl, rfl⟩
    case htInfo k => exact ⟨.htInfo k, rfl, rfl, rfl⟩
    case blk i => exact ⟨.blk i, rfl, rfl, rfl⟩
    case qbase k i => exact ⟨.qbase k i, rfl, zx _, rfl⟩
    case qt c i => exact ⟨.qt c i, rfl, zx _, rfl⟩
    case hsrcBits k i => exact ⟨.hsrcBits k i, rfl, zx _, rfl⟩
    case hsrcVal k j => exact ⟨.hsrcVal k j, rfl, zx _, rfl⟩
  · rintro ⟨r, rfl, rfl, rfl⟩
    cases r
    case bsMode =>
      cases h : s.bs.mode <;> simp only [readReg, h]
      · exact .bsIdle h
      · exact .bsReading h
      · exact .bsWriting h
    case bsBufLo => exact .bsBufLo hb
    case bsBufHi => exact .bsBufHi hb
    case ctrl =>
      have : readReg .ctrl s = if s.irqEn then 1 else 0 := by cases h : s.irqEn <;> simp [readReg, h, u32]
      rw [this]
      exact .ctrl
    all_goals
      simp only [readReg, zx]
      constructor

end Sys2Proof.Machine
end

