-- ==== Sys2Proof/Laws/Image.lean ====
section
/-! SUPPORT. The two passes of the image commands over a list of coded blocks (47_image.md R107 to R110). -/

namespace Sys2Proof.Machine

/-! ### Lengths of what is written -/

/-- However the stream stands, `bs_put` of a list of items emits the whole bytes of the held and the new bits. -/
theorem bsPutAll_length (items : List (Nat × Nat)) (b : Bs) :
    (bsPutAll items b).2.length = (b.count.toNat + itemBits items) / 8 ∨
      items = [] ∧ (bsPutAll items b).2 = [] := by
  induction items generalizing b with
  | nil => exact .inr ⟨rfl, rfl⟩
  | cons e items ih =>
    obtain ⟨v, n⟩ := e
    left
    obtain ⟨hlen, hcount, -, -⟩ := bsPut_spec v n b
    simp only [bsPutAll, List.length_append, itemBits_cons]
    rcases ih (bsPut v n b).1 with h | ⟨rfl, h⟩
    · rw [h, hlen, hcount]
      omega
    · rw [h, hlen]
      simp [itemBits]

theorem length_planeBytes (l : List Int) : (planeBytes l).length = 2 * l.length := by
  simp only [planeBytes]
  induction l with
  | nil => rfl
  | cons v l ih =>
    rw [List.flatMap_cons, List.length_append, ih, List.length_cons]
    simp only [bytes16, List.length_cons, List.length_nil]
    omega

theorem length_flatMap_range {α : Type} (n k : Nat) (f : Nat → List α) (h : ∀ i, (f i).length = k) :
    ((List.range n).flatMap f).length = n * k := by
  simp [List.length_flatMap, h]

theorem length_planeOf (w h : Nat) (f : Nat → Nat → Int) : (planeOf w h f).length = h * w :=
  length_flatMap_range _ _ _ fun _ => by simp

theorem length_outputBytes (s : State) (planes : List (BlockPos × Block)) :
    (outputBytes s planes).length = argbLen s := by
  rw [outputBytes, length_flatMap_range _ (s.width.toNat * 4) _ fun y =>
    length_flatMap_range _ _ _ fun x => by simp [argbBytes], argbLen]
  ring

/-! ### The encode pass -/

/-- What the encode pass has emitted: the sink it was opened on, whole bytes in `out`, fewer than 8 bits held, and the
bits of `items` in the two. -/
structure EncOk (base lim : Word) (items : List (Nat × Nat)) (p : EncPass) : Prop where
  mode   : p.bs.mode = .writing
  base   : p.bs.base = base
  limit  : p.bs.limit = lim
  bufOk  : BufOk p.bs
  count  : p.bs.count.toNat < 8
  cursor : p.bs.cursor.toNat = p.out.length
  room   : p.out.length ≤ lim.toNat
  length : 8 * p.out.length + p.bs.count.toNat = itemBits items
  bits   : itemsBits items = byteBits p.out ++ heldBits p.bs

/-- One block: with a code and room it is appended, and otherwise the pass ends. -/
theorem encodeOne_spec {s : State} {base limit : Word} {items : List (Nat × Nat)} {p : EncPass} (pos : BlockPos)
    (z : Block) (ok : EncOk base limit items p) :
    (∃ code, encodeOne s pos z p = .fault code p.n) ∨
    ∃ l q, encodeOne s pos z p = .done q ∧
      blkSymbols s.ht[dcTable (variantKind s.variant pos.c)] s.ht[acTable (variantKind s.variant pos.c)]
        p.pred[pos.c] z = some l ∧
      EncOk base limit (items ++ l) q ∧ q.pred = p.pred.set pos.c z[0] ∧ q.n = p.n + 1 := by
  rw [encodeOne, blkEncodeItems]
  split
  · exact .inl ⟨_, rfl⟩
  rename_i l hl
  split at hl
  · cases hl
  rename_i items' hs
  split at hl
  · rename_i hroom
    cases hl
    simp only [bsRoom, decide_eq_true_eq, ok.limit, ok.cursor] at hroom
    have hlim := limit.isLt
    obtain ⟨h1, h2, h3, h4, h5, h6, h7, h8⟩ := bsPutAll_spec l p.bs (by rw [ok.cursor]; omega) ok.bufOk
    have h7 := h7 (.inr ok.count)
    have hc := ok.count
    have hl := ok.length
    refine .inr ⟨l, _, rfl, hs, ?_, rfl, rfl⟩
    refine ⟨h1.trans ok.mode, h2.trans ok.base, h3.trans ok.limit, h4, h7, ?_, ?_, ?_, ?_⟩
    · simp only [List.length_append, h6, ok.cursor]
    · simp only [List.length_append]
      omega
    · simp only [List.length_append, itemBits_append]
      omega
    · rw [itemsBits_append, ok.bits, List.append_assoc, h8, byteBits_append, List.append_assoc]
  · cases hl

/-- The encode pass from a good state ends in one, or in a fault; a pass that ends well coded every block. -/
theorem encodePass_spec {s : State} {base limit : Word} (l : List (BlockPos × Block)) (items : List (Nat × Nat))
    (p : EncPass) (ok : EncOk base limit items p) :
    (∃ code n, encodePass s l p = .fault code n) ∨
    ∃ more q, encodePass s l p = .done q ∧ codedItems s p.pred l = some more ∧
      EncOk base limit (items ++ more) q ∧ q.pred = lastDc p.pred l ∧ q.n = p.n + l.length := by
  induction l generalizing items p with
  | nil => exact .inr ⟨[], p, rfl, rfl, by simpa using ok, rfl, rfl⟩
  | cons e rest ih =>
    obtain ⟨pos, z⟩ := e
    rw [encodePass]
    rcases encodeOne_spec (s := s) pos z ok with ⟨code, h⟩ | ⟨l, q, h, hs, ok', hp, hn⟩
    · rw [h]
      exact .inl ⟨_, _, rfl⟩
    · rw [h]
      rcases ih (items ++ l) q ok' with ⟨code, n, h'⟩ | ⟨more, r, h', hc, ok'', hp', hn'⟩
      · exact .inl ⟨code, n, h'⟩
      · refine .inr ⟨l ++ more, r, h', ?_, by simpa using ok'', ?_, ?_⟩
        · rw [codedItems]
          rw [hs, ← hp, hc]
        · rw [hp', hp, lastDc]
        · rw [hn', hn, List.length_cons]
          omega

/-- With a code for every block and room for all their bits the encode pass does not fault. -/
theorem encodePass_coded {s : State} {base limit : Word} (l : List (BlockPos × Block)) (items more : List (Nat × Nat))
    (p : EncPass) (ok : EncOk base limit items p) (hc : codedItems s p.pred l = some more)
    (hr : itemBits (items ++ more) / 8 ≤ limit.toNat) : ∃ q, encodePass s l p = .done q := by
  induction l generalizing items more p with
  | nil => exact ⟨p, rfl⟩
  | cons e rest ih =>
    obtain ⟨pos, z⟩ := e
    rw [codedItems] at hc
    split at hc
    · rename_i l more' hl hm
      cases hc
      have hroom : bsRoom (itemBits l) p.bs = true := by
        simp only [bsRoom, decide_eq_true_eq, ok.limit, ok.cursor]
        have := ok.length
        simp only [itemBits_append] at hr
        omega
      have h : ∃ q, encodeOne s pos z p = .done q := by
        rw [encodeOne, blkEncodeItems, hl]
        simp [hroom]
      obtain ⟨q, h⟩ := h
      rcases encodeOne_spec (s := s) pos z ok with ⟨code, h'⟩ | ⟨l', q', h', hs, ok', hp, hn⟩
      · rw [h] at h'
        cases h'
      · rw [hl] at hs
        cases hs
        rw [encodePass, h']
        exact ih (items ++ l) more' q' ok' (by rw [hp]; exact hm) (by simpa using hr)
    · cases hc

theorem byteBits_ones (n : Nat) : byteBits (List.replicate n outputPad) = List.replicate (8 * n) true := by
  induction n with
  | zero => rfl
  | succ n ih =>
    rw [List.replicate_succ, byteBits_cons, ih, show msbBits outputPad.toNat 8 = List.replicate 8 true by decide,
      List.replicate_append_replicate]
    congr 1
    omega

theorem bsFlush_eq {base lim : Word} {items : List (Nat × Nat)} {p : EncPass} (ok : EncOk base lim items p)
    (h : p.bs.cursor.toNat + (p.bs.count.toNat + 7) / 8 < 2 ^ 32) :
    (bsFlush p.bs).1 =
        { mode := .writing, count := 0, buf := 0, cursor := (bsFlush p.bs).1.cursor, base := base, limit := lim } ∧
      (bsFlush p.bs).1.cursor.toNat = p.bs.cursor.toNat + (p.bs.count.toNat + 7) / 8 := by
  obtain ⟨hm, hb, hl, hok, hc, -, -, -, -⟩ := ok
  by_cases h0 : p.bs.count.toNat = 0
  · have hc0 : p.bs.count = 0 := BitVec.eq_of_toNat_eq (by simpa using h0)
    have hb0 : p.bs.buf = 0 := BitVec.eq_of_toNat_eq (by rw [BufOk, h0] at hok; simpa using hok)
    simp only [bsFlush, h0, if_true]
    refine ⟨?_, by simp⟩
    rw [← hm, ← hb, ← hl, ← hc0, ← hb0]
  · simp only [bsFlush, h0, if_false, hm, hb, hl, true_and]
    rw [BitVec.toNat_add, show (1 : Word).toNat = 1 by rfl, Nat.mod_eq_of_lt (by omega)]
    omega

/-- The flush and the padding: whole bytes, a multiple of 16 of them, or a full sink. -/
theorem finishEncode_spec {base lim : Word} {items : List (Nat × Nat)} {p : EncPass} (ok : EncOk base lim items p)
    (body total : Nat) (hb : body = (itemBits items + 7) / 8) (ht : total = (body + 15) / 16 * 16) :
    (lim.toNat < total ∧ finishEncode p = none) ∨
    (total ≤ lim.toNat ∧ ∃ q, finishEncode p = some (q, body) ∧ q.n = p.n ∧ q.pred = p.pred ∧
      q.out.length = total ∧
      q.bs = { mode := .writing, count := 0, buf := 0, cursor := u32 total, base := base, limit := lim } ∧
      byteBits q.out = itemsBits items ++ List.replicate (8 * total - itemBits items) true) := by
  have hlim := lim.isLt
  have hlen := ok.length
  have hcnt := ok.count
  have hcur := ok.cursor
  have hbody : body = p.bs.cursor.toNat + (p.bs.count.toNat + 7) / 8 := by omega
  obtain ⟨f1, f2, -, -, -, -, -⟩ := bsFlush_spec p.bs (by omega)
  have hal : outputAlign = 16 := rfl
  have hpad : body + paddingLen body = total := by
    simp only [paddingLen, hal]
    omega
  by_cases hroom : total ≤ lim.toNat
  · refine .inr ⟨hroom, ?_⟩
    obtain ⟨g1, g2⟩ := bsFlush_eq ok (by omega)
    rw [← hbody] at g2
    have hok : bsFlushOk p.bs = true := by
      simp only [bsFlushOk, Bool.or_eq_true, beq_iff_eq, decide_eq_true_eq, ok.limit]
      omega
    rw [finishEncode]
    simp only [hok, if_true, g2, hpad, ok.limit, hroom]
    refine ⟨_, rfl, rfl, rfl, ?_, ?_, ?_⟩
    · simp only [List.length_append, List.length_replicate, f2]
      omega
    · rw [g1]
    · simp only [byteBits_append, byteBits_ones, f1, ok.bits, List.append_assoc, List.append_cancel_left_eq]
      rw [List.replicate_append_replicate]
      congr 1
      omega
  · refine .inl ⟨by omega, ?_⟩
    rw [finishEncode]
    split
    · rename_i hok
      simp only [bsFlushOk, Bool.or_eq_true, beq_iff_eq, decide_eq_true_eq, ok.limit] at hok
      obtain ⟨-, g2⟩ := bsFlush_eq ok (by omega)
      rw [← hbody] at g2
      simp only [g2, hpad, ok.limit, hroom, if_false]
    · rfl

/-! ### The decode pass -/

/-- Every built table is a good one. -/
theorem tableOk_of_legal {s : State} (h : TablesLegal s) (t : TableId) : TableOk s.ht[t] := by
  obtain ⟨src, hs⟩ := h t
  exact (htBuild_spec hs).1

/-- The block a decoded zigzag block leaves in its plane (R108). -/
def placed (s : State) (e : BlockPos × Block) : BlockPos × Block :=
  (e.1, reconstruct (variantKind s.variant e.1.c) s.qt[e.1.c] e.2)

theorem itemsLineByLine : ItemsLineByLine :=
  ⟨by decide, fun _ _ pred z h r => blkCodes_iff (tableOk_of_legal h _) (tableOk_of_legal h _) pred z r⟩

/-- Over a source that goes on with the bits of coded blocks the decode pass gives those blocks, takes those bits, and
nothing underruns. -/
theorem decodePass_coded {s : State} (ok : ∀ t : TableId, TableOk s.ht[t]) (l : List (BlockPos × Block))
    (p : DecPass) (hb : BufOk p.bs) {items : List (Nat × Nat)} (hc : codedItems s p.pred l = some items)
    {rest : List Bool} (hS : streamBits s.mem p.bs = itemsBits items ++ rest) :
    ∃ q, decodePass s (l.map Prod.fst) p = .done q ∧ Reads s.mem (itemBits items) p.bs q.bs ∧
      q.bs.count.toNat ≤ max p.bs.count.toNat 7 ∧ q.pred = lastDc p.pred l ∧ q.n = p.n + l.length ∧
      q.firstBad = p.firstBad ∧ q.planes = (l.map (placed s)).reverse ++ p.planes := by
  induction l generalizing p items with
  | nil =>
    cases hc
    exact ⟨p, rfl, .refl hb, by omega, rfl, rfl, rfl, rfl⟩
  | cons e l ih =>
    obtain ⟨pos, z⟩ := e
    rw [codedItems] at hc
    split at hc
    · rename_i its more hits hmore
      cases hc
      rw [itemsBits_append, List.append_assoc] at hS
      obtain ⟨k, b', hd, hr, -, -, -, -⟩ := blkDecode_blkSymbols (ok _) (ok _) hb hits hS
      have hcount := (blkDecode_spec _ _ s.mem p.pred[pos.c] p.bs hb _ hd.symm).2.2.1 (by simp)
      obtain ⟨q, h1, h2, h3, h4, h5, h6, h7⟩ := ih
        { bs := b', pred := p.pred.set pos.c z[0], n := p.n + 1, firstBad := p.firstBad
          planes := placed s (pos, z) :: p.planes } hr.bufOk hmore (by
            rw [hr.bits, hS, ← length_itemsBits, List.drop_left])
      refine ⟨q, ?_, ?_, ?_, ?_, ?_, h6, ?_⟩
      · have one : decodeOne s pos p = .done
            { bs := b', pred := p.pred.set pos.c z[0], n := p.n + 1, firstBad := p.firstBad
              planes := placed s (pos, z) :: p.planes } := by
          rw [decodeOne, hd]
          simp [placed]
        rw [List.map_cons, decodePass, one]
        exact h1
      · rw [itemBits_append]
        exact hr.trans h2
      · simp only at h3 hcount
        omega
      · rw [h4, lastDc]
      · rw [h5, List.length_cons]
        simp only
        omega
      · rw [h7]
        simp
    · cases hc

/-! ### The iteration: each block once, and one for each place of the image -/

theorem mem_allChannels : ∀ c : Channel, c ∈ ([0, 1, 2, 3] : List Channel) := by decide

/-- The keys of two blocks, compared at the first entry in which they differ. -/
theorem streamKey_lt {s : State} {a b : BlockPos} {f g : Nat} (hf : blocksAcross s a.c = f) (hg : blocksAcross s b.c = g)
    (h : a.by_ / f < b.by_ / g ∨ a.by_ / f = b.by_ / g ∧ (a.bx / f < b.bx / g ∨ a.bx / f = b.bx / g ∧
      (a.c.val < b.c.val ∨ a.c.val = b.c.val ∧ (a.by_ < b.by_ ∨ a.by_ = b.by_ ∧ a.bx < b.bx)))) :
    streamKey s a < streamKey s b := by
  simp only [streamKey, hf, hg]
  rcases h with h | ⟨e₁, h | ⟨e₂, h | ⟨e₃, h | ⟨e₄, h⟩⟩⟩⟩
  · exact List.Lex.rel h
  · rw [e₁]; exact List.Lex.cons (List.Lex.rel h)
  · rw [e₁, e₂]; exact List.Lex.cons (List.Lex.cons (List.Lex.rel h))
  · rw [e₁, e₂, e₃]; exact List.Lex.cons (List.Lex.cons (List.Lex.cons (List.Lex.rel h)))
  · rw [e₁, e₂, e₃, e₄]; exact List.Lex.cons (List.Lex.cons (List.Lex.cons (List.Lex.cons (List.Lex.rel h))))

theorem blocksAcross_eq (s : State) (c : Channel) :
    blocksAcross s c = if variantUnit s.variant = 8 ∨ variantSub s.variant c = true then 1 else 2 := by
  have hc : ∀ c : Channel, (c = 0 ∨ c = 3) ↔ ¬(c = 1 ∨ c = 2) := by decide
  simp only [blocksAcross, variantUnit, variantSub, hc]
  by_cases hv : s.variant = 0 <;> by_cases h : c = 1 ∨ c = 2 <;> simp [hv, h]

/-- Where the blocks of a channel stand in a macroblock. -/
theorem mem_channelBlocks_iff {s : State} {mx my : Nat} {c : Channel} {pos : BlockPos} :
    pos ∈ channelBlocks s mx my c ↔ pos.c = c ∧ s.chCfg[c].defen = false ∧ pos.bx / blocksAcross s c = mx ∧
      pos.by_ / blocksAcross s c = my := by
  obtain ⟨pc, bx, by_⟩ := pos
  rw [channelBlocks, blocksAcross_eq]
  by_cases hd : s.chCfg[c].defen = true
  · rw [if_pos hd]
    constructor
    · intro h; cases h
    · rintro ⟨-, h, -⟩; rw [hd] at h; cases h
  have hd' : s.chCfg[c].defen = false := Bool.eq_false_iff.mpr hd
  rw [if_neg hd]
  split
  · simp only [List.mem_singleton, BlockPos.mk.injEq, Nat.div_one, hd', true_and]
  · simp only [List.mem_cons, BlockPos.mk.injEq, List.not_mem_nil, or_false, hd', true_and]
    constructor
    · rintro (⟨rfl, rfl, rfl⟩ | ⟨rfl, rfl, rfl⟩ | ⟨rfl, rfl, rfl⟩ | ⟨rfl, rfl, rfl⟩) <;>
        exact ⟨rfl, by omega, by omega⟩
    · rintro ⟨rfl, rfl, rfl⟩
      simp only [true_and]
      omega

theorem channelBlocks_pairwise (s : State) (mx my : Nat) (c : Channel) :
    (channelBlocks s mx my c).Pairwise fun a b => streamKey s a < streamKey s b := by
  rw [channelBlocks]
  split
  · exact .nil
  have hf := blocksAcross_eq s c
  split
  · exact List.pairwise_singleton _ _
  · rename_i h
    rw [if_neg h] at hf
    simp only [List.pairwise_cons, List.mem_cons, List.not_mem_nil, or_false, forall_eq_or_imp, forall_eq,
      List.Pairwise.nil, and_true, false_imp_iff, implies_true]
    refine ⟨⟨?_, ?_, ?_⟩, ⟨?_, ?_⟩, ?_⟩ <;> refine streamKey_lt hf hf ?_ <;> simp only [true_and, Nat.lt_irrefl] <;> omega

/-- The macroblocks in a row that begin left of the image's edge are those there are. -/
theorem lt_padCount_iff (unit w i : Nat) (h : 0 < unit) : i < padTo unit w / unit ↔ i * unit < w := by
  rw [padTo, Nat.mul_div_cancel _ h, Nat.lt_iff_add_one_le, Nat.le_div_iff_mul_le h, Nat.succ_mul]
  omega

/-- The iteration is R107's order. -/
theorem blocks_inStreamOrder (s : State) : InStreamOrder s (blocks s) := by
  have hpos : 0 < variantUnit s.variant := by rw [variantUnit]; split <;> decide
  have mem : ∀ {mx my : Nat} {pos : BlockPos}, pos ∈ macroblock s mx my ↔ s.chCfg[pos.c].defen = false ∧
      pos.bx / blocksAcross s pos.c = mx ∧ pos.by_ / blocksAcross s pos.c = my := by
    intro mx my pos
    rw [macroblock, List.mem_flatMap]
    constructor
    · rintro ⟨c, -, h⟩
      obtain ⟨rfl, h⟩ := mem_channelBlocks_iff.mp h
      exact h
    · exact fun h => ⟨pos.c, mem_allChannels _, mem_channelBlocks_iff.mpr ⟨rfl, h⟩⟩
  constructor
  · intro unit hunit pos
    have hu : variantUnit s.variant = unit := by rw [variantUnit, hunit]
    rw [blocks, List.mem_flatMap]
    simp only [List.mem_flatMap, List.mem_range, mem, mbRows, mbCols, padWidth, padHeight, hu] at *
    constructor
    · rintro ⟨my, h₁, mx, h₂, h₃, rfl, rfl⟩
      exact ⟨h₃, (lt_padCount_iff _ _ _ hpos).mp h₂, (lt_padCount_iff _ _ _ hpos).mp h₁⟩
    · rintro ⟨h₁, h₂, h₃⟩
      exact ⟨_, (lt_padCount_iff _ _ _ hpos).mpr h₃, _, (lt_padCount_iff _ _ _ hpos).mpr h₂, h₁, rfl, rfl⟩
  · rw [blocks, List.pairwise_flatMap]
    refine ⟨fun my _ => ?_, List.pairwise_lt_range.imp fun {my my'} hlt a ha b hb => ?_⟩
    · rw [List.pairwise_flatMap]
      refine ⟨fun mx _ => ?_, List.pairwise_lt_range.imp fun {mx mx'} hlt a ha b hb => ?_⟩
      · rw [macroblock, List.pairwise_flatMap]
        refine ⟨fun c _ => channelBlocks_pairwise s mx my c, ?_⟩
        have : ([0, 1, 2, 3] : List Channel).Pairwise fun a b => a.val < b.val := by decide
        refine this.imp fun {c d} hlt a ha b hb => ?_
        obtain ⟨rfl, -, h₁, h₂⟩ := mem_channelBlocks_iff.mp ha
        obtain ⟨rfl, -, h₃, h₄⟩ := mem_channelBlocks_iff.mp hb
        exact streamKey_lt rfl rfl (.inr ⟨by omega, .inr ⟨by omega, .inl hlt⟩⟩)
      · obtain ⟨-, h₁, h₂⟩ := mem.mp ha
        obtain ⟨-, h₃, h₄⟩ := mem.mp hb
        exact streamKey_lt rfl rfl (.inr ⟨by omega, .inl (by omega)⟩)
    · simp only [List.mem_flatMap, mem] at ha hb
      obtain ⟨-, -, -, -, h₁⟩ := ha
      obtain ⟨-, -, -, -, h₂⟩ := hb
      exact streamKey_lt rfl rfl (.inl (by omega))

/-- No block is coded twice (R107). -/
theorem nodup_blocks (s : State) : (blocks s).Nodup := by
  rw [List.nodup_iff_pairwise_ne]
  exact (blocks_inStreamOrder s).order.imp fun {a b} h (e : a = b) => List.lt_irrefl (streamKey s b) (by rw [e] at h; exact h)

/-- Every place of the image a coded channel has is some block's (R107, R108): column and row of the block that covers
the pixel, in a plane of half the width and height for a subsampled channel. -/
theorem mem_blocks (s : State) (c : Channel) (x y : Nat) (hx : x < s.width.toNat) (hy : y < s.height.toNat)
    (hd : s.chCfg[c].defen = false) :
    (if variantSub s.variant c then (⟨c, x / 2 / 8, y / 2 / 8⟩ : BlockPos) else ⟨c, x / 8, y / 8⟩) ∈ blocks s := by
  have h := fun pos => ((blocks_inStreamOrder s).places _ rfl pos).mpr
  have ha := blocksAcross_eq s c
  by_cases hs : variantSub s.variant c = true
  · have hv : s.variant = 0 := by
      simp only [variantSub, Bool.and_eq_true, beq_iff_eq] at hs
      exact hs.1
    rw [if_pos (.inr hs)] at ha
    rw [if_pos hs]
    exact h _ ⟨hd, by simp only [ha, hv, if_true]; omega, by simp only [ha, hv, if_true]; omega⟩
  · rw [if_neg hs]
    by_cases hv : s.variant = 0
    · rw [if_neg (not_or.mpr ⟨by rw [variantUnit, if_pos hv]; decide, hs⟩)] at ha
      exact h _ ⟨hd, by simp only [ha, hv, if_true]; omega, by simp only [ha, hv, if_true]; omega⟩
    · rw [if_pos (.inl (by rw [variantUnit, if_neg hv]))] at ha
      exact h _ ⟨hd, by simp only [ha, hv, if_false]; omega, by simp only [ha, hv, if_false]; omega⟩

/-! ### The planes -/

/-- In a list without repeated places the block found at a place is the one that stands there. -/
theorem find_block {l : List (BlockPos × Block)} (h : (l.map Prod.fst).Nodup) {pos : BlockPos} {b : Block}
    (hm : (pos, b) ∈ l) : l.find? (fun e => e.1 == pos) = some (pos, b) := by
  induction l with
  | nil => simp at hm
  | cons e l ih =>
    simp only [List.map_cons, List.nodup_cons] at h
    rcases List.mem_cons.mp hm with rfl | hm
    · simp
    · rw [List.find?_cons]
      have : (e.1 == pos) = false := by
        simp only [beq_eq_false_iff_ne, ne_eq]
        rintro rfl
        exact h.1 (List.mem_map.mpr ⟨_, hm, rfl⟩)
      rw [this]
      exact ih h.2 hm

theorem map_fst_placed (s : State) (zs : List (BlockPos × Block)) :
    (zs.map (placed s)).map Prod.fst = zs.map Prod.fst := by
  induction zs with
  | nil => simp only [List.map_nil]
  | cons e zs ih => simp only [List.map_cons, ih, placed]

theorem planeSample_found {planes : List (BlockPos × Block)} {c : Channel} {x y : Nat} {pos : BlockPos} {b : Block}
    (h : planes.find? (fun e => e.1 == ⟨c, x / 8, y / 8⟩) = some (pos, b)) :
    planeSample planes c x y = blkAt b (y % 8) (x % 8) := by
  simp only [planeSample, h]

/-- The sample a plane gives at (x, y), when the pass over the image has left a block at that place. -/
theorem planeSample_placed {s : State} {zs : List (BlockPos × Block)} (hz : zs.map Prod.fst = blocks s) (c : Channel)
    (x y : Nat) (hp : (⟨c, x / 8, y / 8⟩ : BlockPos) ∈ blocks s) :
    ∃ z : Block, (⟨c, x / 8, y / 8⟩, z) ∈ zs ∧ planeSample (zs.map (placed s)).reverse c x y =
      blkAt (reconstruct (variantKind s.variant c) s.qt[c] z) (y % 8) (x % 8) := by
  rw [← hz, List.mem_map] at hp
  obtain ⟨⟨pos', z⟩, hm, hpos⟩ := hp
  simp only at hpos
  subst hpos
  refine ⟨z, hm, planeSample_found (find_block ?_ (pos := ⟨c, x / 8, y / 8⟩) ?_)⟩
  · rw [List.map_reverse, map_fst_placed, hz]
    exact List.nodup_reverse.mpr (nodup_blocks s)
  · rw [List.mem_reverse, List.mem_map]
    refine ⟨_, hm, ?_⟩
    simp only [placed]

/-- After the decode pass over coded blocks, one for each place of the iteration, every sample of the full-resolution
planes is the sample `SampleIs` names. -/
theorem fullSample_placed {s : State} {zs : List (BlockPos × Block)} (hz : zs.map Prod.fst = blocks s) (c : Channel)
    (x y : Nat) (hx : x < s.width.toNat) (hy : y < s.height.toNat) :
    SampleIs s s.qt zs c x y (fullSample s (zs.map (placed s)).reverse c x y) := by
  rw [SampleIs, fullSample]
  by_cases hd : s.chCfg[c].defen = true
  · rw [if_pos hd, if_pos hd]
  have hd' : s.chCfg[c].defen = false := Bool.eq_false_iff.mpr hd
  have hb := mem_blocks s c x y hx hy hd'
  rw [if_neg hd, if_neg hd]
  by_cases hs : variantSub s.variant c = true
  · rw [if_pos hs] at hb
    simp only [if_pos hs]
    exact planeSample_placed hz c _ _ hb
  · rw [if_neg hs] at hb
    simp only [if_neg hs]
    exact planeSample_placed hz c _ _ hb

/-- The entry of a run of rows of one length. -/
theorem getElem?_flatMap_range {α : Type} (n k : Nat) (f : Nat → List α) (h : ∀ i, (f i).length = k) (i j : Nat)
    (hi : i < n) (hj : j < k) : ((List.range n).flatMap f)[i * k + j]? = (f i)[j]? := by
  induction n with
  | zero => omega
  | succ n ih =>
    have hl := length_flatMap_range n k f h
    rw [List.range_succ, List.flatMap_append, List.flatMap_singleton]
    by_cases hin : i < n
    · have : (i + 1) * k ≤ n * k := Nat.mul_le_mul_right k hin
      rw [Nat.succ_mul] at this
      rw [List.getElem?_append_left (by omega), ih hin]
    · obtain rfl : i = n := by omega
      rw [List.getElem?_append_right (by omega), hl, Nat.add_sub_cancel_left]

/-- The four bytes of pixel (x, y) of the output. -/
theorem outputBytes_pixel (s : State) (planes : List (BlockPos × Block)) (x y : Nat) (hx : x < s.width.toNat)
    (hy : y < s.height.toNat) (k : Nat) (hk : k < 4) :
    (outputBytes s planes)[4 * (y * s.width.toNat + x) + k]? = (argbBytes (outputPixel s planes x y))[k]? := by
  have row : ∀ y, ((List.range s.width.toNat).flatMap fun x => argbBytes (outputPixel s planes x y)).length =
      s.width.toNat * 4 := fun y => length_flatMap_range _ _ _ fun x => by simp only [argbBytes, List.length_cons, List.length_nil]
  have e : 4 * (y * s.width.toNat + x) + k = y * (s.width.toNat * 4) + (x * 4 + k) := by ring
  rw [outputBytes, e, getElem?_flatMap_range _ (s.width.toNat * 4) _ row _ _ hy (by omega),
    getElem?_flatMap_range _ 4 _ (fun x => by simp only [argbBytes, List.length_cons, List.length_nil]) _ _ hx hk]

end Sys2Proof.Machine
end

