-- ==== Sys2Proof/Laws/PerInstr.lean ====
section
/-! SUPPORT. A statement made per instruction: the word of a well-formed instruction has its reserved bits 31:18 at 0
and an opcode of the opcode map in bits 7:0 (30_encoding.md R45, R47, R48). -/

namespace Sys2Proof.Laws.ReservedZero

/-- The word of a well-formed instruction has reserved bits 0 and a listed opcode. -/
def Statement (i : Instr) : Prop :=
  i.wf = true → bits (encode i) 18 14 = 0 ∧ (opcodeRow (fieldsOf (encode i)) (bits (encode i) 0 8)).isSome = true

theorem nop : Statement .nop := by
  intro _; decide

theorem ctxInit : Statement .ctxInit := by
  intro _; decide

theorem bsOpenRead : Statement .bsOpenRead := by
  intro _; decide

theorem bsOpenWrite : Statement .bsOpenWrite := by
  intro _; decide

theorem bsCanSupply (n : Nat) : Statement (.bsCanSupply n) := by
  intro h
  have hn : n < 64 := by simpa [Instr.wf, nFits] using h
  clear h
  revert n
  decide

theorem bsSupply (n : Nat) : Statement (.bsSupply n) := by
  intro h
  have hn : n < 64 := by simpa [Instr.wf, nFits] using h
  clear h
  revert n
  decide

theorem bsConsume (n : Nat) : Statement (.bsConsume n) := by
  intro h
  have hn : n < 64 := by simpa [Instr.wf, nFits] using h
  clear h
  revert n
  decide

theorem bsFlush : Statement .bsFlush := by
  intro _; decide

theorem htBuild (t : TableId) : Statement (.htBuild t) := by
  intro _; revert t; decide

theorem htDecode (t : TableId) (n : Nat) : Statement (.htDecode t n) := by
  intro h
  have hn : n < 64 := by simpa [Instr.wf, nFits] using h
  clear h
  revert t n
  decide

theorem htEncode (t : TableId) : Statement (.htEncode t) := by
  intro _; revert t; decide

theorem htLimits (t : TableId) : Statement (.htLimits t) := by
  intro _; revert t; decide

theorem htRead (t : TableId) : Statement (.htRead t) := by
  intro _; revert t; decide

theorem fdct : Statement .fdct := by
  intro _; decide

theorem idct : Statement .idct := by
  intro _; decide

theorem zigzag : Statement .zigzag := by
  intro _; decide

theorem unzigzag : Statement .unzigzag := by
  intro _; decide

theorem shiftClamp (k : Kind) : Statement (.shiftClamp k) := by
  intro _; cases k <;> decide

theorem unshift (k : Kind) : Statement (.unshift k) := by
  intro _; cases k <;> decide

theorem qAdjust (c : Channel) (k : Kind) : Statement (.qAdjust c k) := by
  intro _; cases k <;> (revert c; decide)

theorem quant (c : Channel) : Statement (.quant c) := by
  intro _; revert c; decide

theorem dequant (c : Channel) : Statement (.dequant c) := by
  intro _; revert c; decide

theorem upsample : Statement .upsample := by
  intro _; decide

theorem downsample : Statement .downsample := by
  intro _; decide

theorem compose (m : Mode) : Statement (.compose m) := by
  intro _; cases m <;> decide

theorem decompose (m : Mode) : Statement (.decompose m) := by
  intro _; cases m <;> decide

theorem blkDecode (c : Channel) (k : Kind) : Statement (.blkDecode c k) := by
  intro _; cases k <;> (revert c; decide)

theorem blkEncode (c : Channel) (k : Kind) : Statement (.blkEncode c k) := by
  intro _; cases k <;> (revert c; decide)

theorem decodeImage : Statement .decodeImage := by
  intro _; decide

theorem encodeImage : Statement .encodeImage := by
  intro _; decide

end Sys2Proof.Laws.ReservedZero
end

