-- ==== Sys2Proof/Laws/Pipelines.lean ====
section
/-! SUPPORT. The image commands held against the block commands (47_image.md R108, R110): the blocks coded are what
the commands make of the pixels, the pixels written what they make of the blocks, and the two passes end, and fault,
as their blocks do one by one. -/

namespace Sys2Proof.Machine

/-! ### The block commands, one after another -/

/-- `reconstruct` is the four commands, one after another (R108). -/
theorem reconstruct_runs : ReconstructRuns := by
  intro s c k z
  refine ⟨_, ⟨_, rfl, _, rfl, _, rfl, _, rfl, rfl⟩, ?_⟩
  simp [reconstruct, succeed]

theorem prepare_runs (s : State) (qt : Vector (Vector (BitVec 15) 64) 4) (c : Channel) (k : Kind) (b : Block) :
    ∃ t, Runs [.unshift k, .fdct, .quant c, .zigzag] { s with qt := qt, blk := b } t ∧ t.blk = prepare k qt[c] b := by
  refine ⟨_, ⟨_, rfl, _, rfl, _, rfl, _, rfl, rfl⟩, ?_⟩
  simp [prepare, succeed]

/-! ### Pixels and samples -/

theorem argbOfWord_argbWord (p : Argb) : argbOfWord (argbWord p) = p := by
  obtain ⟨a, r, g, b⟩ := p
  simp only [argbOfWord, argbWord, Argb.mk.injEq]
  have low : ∀ {n : Nat} (x : BitVec n) (y : Byte) (k : Nat), k < 8 → (x ++ y).getLsbD k = y.getLsbD k := by
    intro n x y k hk
    rw [BitVec.getLsbD_append]
    simp [hk]
  have high : ∀ {n : Nat} (x : BitVec n) (y : Byte) (k : Nat), (x ++ y).getLsbD (k + 8) = x.getLsbD k := by
    intro n x y k
    rw [BitVec.getLsbD_append]
    simp
  refine ⟨?_, ?_, ?_, ?_⟩ <;> apply BitVec.eq_of_getLsbD_eq <;> intro i hi <;>
    simp only [BitVec.getLsbD_extractLsb', hi, decide_true, Bool.true_and]
  · rw [show 24 + i = i + 8 + 8 + 8 by omega, high, high, high]
  · rw [show 16 + i = i + 8 + 8 by omega, high, high, low _ _ _ hi]
  · rw [show 8 + i = i + 8 by omega, high, low _ _ _ hi]
  · rw [Nat.zero_add, low _ _ _ hi]

/-- A value of 16 bits or fewer is its own 32-bit word. -/
theorem toInt_s32_small {v : Int} (h₁ : -65536 ≤ v) (h₂ : v ≤ 65536) : (s32 v).toInt = v := by
  rw [toInt_s32, Int.bmod_eq_of_le] <;> omega

theorem decomposePixel_small (m : Mode) (p : Argb) (c : Channel) :
    -1024 ≤ (decomposePixel m p).channel c ∧ (decomposePixel m p).channel c ≤ 1024 := by
  obtain ⟨a, r, g, b⟩ := p
  have := a.isLt; have := r.isLt; have := g.isLt; have := b.isLt
  cases m <;> simp only [decomposePixel, directDecompose, cdDecompose, Samples.channel, asr] <;>
    split_ifs <;> omega

/-- The four samples in BLK. -/
theorem withSamples_channel (p : Samples) (b : Block) (c : Channel)
    (h : (s32 (p.channel c)).toInt = p.channel c) :
    (withSamples p b)[Fin.castLE (m := 64) (by decide) c].toInt = p.channel c := by
  have hc : ∀ c : Channel, c = 0 ∨ c = 1 ∨ c = 2 ∨ c = 3 := by decide
  rcases hc c with rfl | rfl | rfl | rfl <;> simpa [withSamples, Samples.channel] using h

theorem inputSampleIs_inputSample (s : State) (c : Channel) (x y : Nat) : InputSampleIs s c x y (inputSample s c x y) := by
  have hw := argbOfWord_argbWord (inputPixel s x y)
  refine ⟨argbWord (inputPixel s x y), _, ?_, ?_, rfl, ?_⟩
  · intro h
    simp only [argbOfWord] at hw
    rw [inputPixel, if_pos h] at hw ⊢
    simp only [Argb.mk.injEq] at hw
    obtain ⟨h₁, h₂, h₃, h₄⟩ := hw
    rw [h₁, h₂, h₃, h₄]
    simp [memBytes, List.range_succ]
  · intro h
    rw [inputPixel, if_neg h]
    rfl
  · have hs := decomposePixel_small (variantMode s.variant) (inputPixel s x y) c
    simp only [succeed, complete_blk, hw]
    rw [withSamples_channel _ _ _ (toInt_s32_small (by omega) (by omega)), inputSample]

theorem inputSample_small (s : State) (c : Channel) (x y : Nat) :
    -1024 ≤ inputSample s c x y ∧ inputSample s c x y ≤ 1024 := decomposePixel_small _ _ c

theorem tdiv_four (n : Int) : 4 * |tdiv n 4| ≤ |n| ∧ |n| < 4 * |tdiv n 4| + 4 ∧ 0 ≤ tdiv n 4 * n := by
  rcases Int.le_total 0 n with hn | hn
  · have h₁ : tdiv n 4 = n / 4 := Int.tdiv_eq_ediv_of_nonneg hn
    have h₂ : 0 ≤ n / 4 := by omega
    rw [h₁, abs_of_nonneg hn, abs_of_nonneg h₂]
    exact ⟨by omega, by omega, mul_nonneg h₂ hn⟩
  · obtain ⟨k, rfl⟩ : ∃ k, n = -k := ⟨-n, by omega⟩
    have h₁ : tdiv (-k) 4 = -(k / 4) := by rw [tdiv, Int.neg_tdiv, Int.tdiv_eq_ediv_of_nonneg (by omega)]
    have h₂ : 0 ≤ k / 4 := by omega
    have hk : 0 ≤ k := by omega
    rw [h₁, abs_neg, abs_neg, abs_of_nonneg hk, abs_of_nonneg h₂]
    exact ⟨by omega, by omega, by rw [neg_mul_neg]; exact mul_nonneg h₂ hk⟩

theorem planeSampleIs_codedSample (s : State) (c : Channel) (x y : Nat) : PlaneSampleIs s c x y (codedSample s c x y) := by
  rw [PlaneSampleIs, codedSample]
  split
  · obtain ⟨h₁, h₂, h₃⟩ := tdiv_four (inputSample s c (2 * x) (2 * y) + inputSample s c (2 * x + 1) (2 * y)
      + inputSample s c (2 * x) (2 * y + 1) + inputSample s c (2 * x + 1) (2 * y + 1))
    exact ⟨_, _, _, _, _, inputSampleIs_inputSample .., inputSampleIs_inputSample .., inputSampleIs_inputSample ..,
      inputSampleIs_inputSample .., rfl, h₁, h₂, h₃⟩
  · exact inputSampleIs_inputSample ..

theorem codedSample_small (s : State) (c : Channel) (x y : Nat) :
    -1024 ≤ codedSample s c x y ∧ codedSample s c x y ≤ 1024 := by
  rw [codedSample]
  split
  · have h₁ := inputSample_small s c (2 * x) (2 * y)
    have h₂ := inputSample_small s c (2 * x + 1) (2 * y)
    have h₃ := inputSample_small s c (2 * x) (2 * y + 1)
    have h₄ := inputSample_small s c (2 * x + 1) (2 * y + 1)
    obtain ⟨h₅, -, -⟩ := tdiv_four (inputSample s c (2 * x) (2 * y) + inputSample s c (2 * x + 1) (2 * y)
      + inputSample s c (2 * x) (2 * y + 1) + inputSample s c (2 * x + 1) (2 * y + 1))
    generalize tdiv _ _ = q at *
    rw [← abs_le]
    have : |inputSample s c (2 * x) (2 * y) + inputSample s c (2 * x + 1) (2 * y)
      + inputSample s c (2 * x) (2 * y + 1) + inputSample s c (2 * x + 1) (2 * y + 1)| ≤ 4096 := by
      rw [abs_le]; omega
    omega
  · exact inputSample_small ..

theorem blkAt_blkOf (f : Nat → Nat → Int) (y x : Fin 8) (h : -65536 ≤ f y x ∧ f y x ≤ 65536) :
    blkAt (blkOf f) y x = f y x := by
  have hv : (Fin.ofNat 64 (8 * y.val + x.val)).val = 8 * y.val + x.val := Nat.mod_eq_of_lt (by omega)
  simp only [blkAt, blkOf, Fin.getElem_fin, Vector.getElem_ofFn, hv]
  rw [show (8 * y.val + x.val) / 8 = y.val by omega, show (8 * y.val + x.val) % 8 = x.val by omega]
  exact toInt_s32_small h.1 h.2

/-- The blocks ENCODE_IMAGE codes are the commands' (R110). -/
theorem preparedBlocks_runs : PreparedRuns := by
  intro s qt
  constructor
  · simp only [preparedBlocks, List.map_map]
    exact List.map_id' _
  · intro e he
    rw [preparedBlocks, List.mem_map] at he
    obtain ⟨pos, -, rfl⟩ := he
    obtain ⟨t, h₁, h₂⟩ := prepare_runs s qt pos.c (variantKind s.variant pos.c) (sampleBlock s pos)
    refine ⟨sampleBlock s pos, t, fun y x => ?_, h₁, h₂.symm⟩
    have hs := codedSample_small s pos.c (8 * pos.bx + x) (8 * pos.by_ + y)
    rw [sampleBlock, blkAt_blkOf _ y x ⟨by omega, by omega⟩]
    exact planeSampleIs_codedSample ..

/-- A pixel composed of four samples that fit 32 bits is COMPOSE's (R95). -/
theorem compose_runs (s : State) (m : Mode) (p : Samples) (h : ∀ c : Channel, (s32 (p.channel c)).toInt = p.channel c) :
    ∃ (b : Block) (u : State), (∀ c : Channel, b[Fin.castLE (m := 64) (by decide) c].toInt = p.channel c) ∧
      exec (.compose m) { s with blk := b } = .next u ∧
      argbBytes (composePixel m p) =
        [u.result0.extractLsb' 24 8, u.result0.extractLsb' 16 8, u.result0.extractLsb' 8 8,
          u.result0.extractLsb' 0 8] := by
  have hb := fun c => withSamples_channel p s.blk c (h c)
  refine ⟨withSamples p s.blk, _, hb, rfl, ?_⟩
  have hp : blkSamples (withSamples p s.blk) = p := by
    have h₀ := hb 0
    have h₁ := hb 1
    have h₂ := hb 2
    have h₃ := hb 3
    simp only [Samples.channel] at h₀ h₁ h₂ h₃
    obtain ⟨p1, p2, p3, p4⟩ := p
    simp only [blkSamples, blkInt, Samples.mk.injEq]
    exact ⟨h₀, h₁, h₂, h₃⟩
  have hw := argbOfWord_argbWord (composePixel m p)
  simp only [argbOfWord] at hw
  simp only [succeed, complete_result0, setResults_result0, hp]
  exact congrArg argbBytes hw.symm

/-! ### The pixels DECODE_IMAGE writes -/

theorem fullSample_fits (s : State) (planes : List (BlockPos × Block)) (c : Channel) (x y : Nat) :
    (s32 (fullSample s planes c x y)).toInt = fullSample s planes c x y := by
  have plane : ∀ x y, (s32 (planeSample planes c x y)).toInt = planeSample planes c x y := by
    intro x y
    rw [planeSample]
    split
    · rw [blkAt, s32_toInt]
    · rfl
  rw [fullSample]
  split
  · have := s.chCfg[c].defval.isLt
    exact toInt_s32_small (by omega) (by omega)
  · split
    · exact plane _ _
    · exact plane _ _

/-- The written range reads back, entry by entry. -/
theorem memBytes_memWrite_part (m : Memory) (b : Nat) (bytes : List Byte) (k : Nat) (l : List Byte)
    (hl : k + l.length ≤ bytes.length) (h : ∀ i, i < l.length → bytes[k + i]? = l[i]?) :
    memBytes (memWrite b bytes m) (b + k) l.length = l := by
  apply List.ext_getElem (by simp)
  intro i h₁ h₂
  have hi := h i h₂
  rw [List.getElem?_eq_getElem (by omega), List.getElem?_eq_getElem h₂, Option.some.injEq] at hi
  rw [getElem_memBytes, memRead_memWrite_inside _ _ _ _ (by omega) (by omega), ← hi]
  congr 1
  omega

/-- After the decode pass over blocks, one for each place of the iteration, the output range holds the pixels of those
blocks. -/
theorem writesPixels_placed {s : State} {zs : List (BlockPos × Block)} (hz : zs.map Prod.fst = blocks s) (m : Memory) :
    WritesPixels s s.qt zs (memWrite s.dstBase.toNat (outputBytes s (zs.map (placed s)).reverse) m) := by
  intro x y hx hy
  have hch : ∀ c : Channel, Samples.channel
      { p1 := fullSample s (zs.map (placed s)).reverse 0 x y, p2 := fullSample s (zs.map (placed s)).reverse 1 x y
        p3 := fullSample s (zs.map (placed s)).reverse 2 x y, p4 := fullSample s (zs.map (placed s)).reverse 3 x y } c =
      fullSample s (zs.map (placed s)).reverse c x y := by
    intro c
    have hc : ∀ c : Channel, c = 0 ∨ c = 1 ∨ c = 2 ∨ c = 3 := by decide
    rcases hc c with rfl | rfl | rfl | rfl <;> simp [Samples.channel]
  obtain ⟨b, u, h₁, h₂, h₃⟩ := compose_runs s (variantMode s.variant) _
    (fun c => by rw [hch c]; exact fullSample_fits ..)
  refine ⟨b, u, fun c => ?_, h₂, ?_⟩
  · rw [h₁ c, hch c]
    exact fullSample_placed hz c x y hx hy
  · rw [← h₃]
    have hlen := length_outputBytes s (zs.map (placed s)).reverse
    have hin : y * s.width.toNat + x + 1 ≤ s.width.toNat * s.height.toNat := by
      have : (y + 1) * s.width.toNat ≤ s.height.toNat * s.width.toNat := Nat.mul_le_mul_right _ hy
      rw [Nat.succ_mul, Nat.mul_comm s.height.toNat] at this
      omega
    rw [argbLen, Nat.mul_assoc] at hlen
    exact memBytes_memWrite_part m _ _ _ (argbBytes _) (by rw [hlen]; simp only [argbBytes, List.length_cons, List.length_nil]; omega)
      fun i hi => outputBytes_pixel s _ x y hx hy i hi

/-! ### The decode pass, block by block -/

/-- The state of a decode pass seen from outside: what BLK_DECODE reads and writes. -/
structure Follows (s : State) (p : DecPass) (u : State) : Prop where
  ht     : u.ht = s.ht
  mem    : u.mem = s.mem
  opened : streamOpen .reading u = true
  bs     : u.bs = p.bs
  dcpred : u.dcpred = p.pred
  bufOk  : BufOk p.bs

/-- One block: BLK_DECODE in the state outside ends as the pass does. -/
theorem decodeOne_follows {s u : State} {p : DecPass} (h : Follows s p u) (pos : BlockPos) : ∃ t,
    exec (.blkDecode pos.c (variantKind s.variant pos.c)) u = .next t ∧
    ((t.status.errcode = .huffmanDecodingFault ∧ decodeOne s pos p = .fault p.n p.firstBad) ∨
      ∃ q, decodeOne s pos p = .done q ∧ Follows s q t ∧ q.n = p.n + 1 ∧
        q.planes = placed s (pos, t.blk) :: p.planes ∧
        ((t.status.errcode = .none ∧ q.firstBad = p.firstBad) ∨
          (t.status.errcode = .streamUnderrun ∧ q.firstBad = some (p.firstBad.getD p.n)))) := by
  obtain ⟨hht, hmem, hop, hbs, hdc, hbuf⟩ := h
  obtain ⟨⟨n, hr⟩, -, -, -⟩ := blkDecode_spec s.ht[dcTable (variantKind s.variant pos.c)]
    s.ht[acTable (variantKind s.variant pos.c)] s.mem p.pred[pos.c] p.bs hbuf _ rfl
  have hopen : ∀ t : State, t.cfg = u.cfg → t.bs = (blkDecode s.ht[dcTable (variantKind s.variant pos.c)]
      s.ht[acTable (variantKind s.variant pos.c)] s.mem p.pred[pos.c] p.bs).bs → streamOpen .reading t = true := by
    intro t h₁ h₂
    rw [← hop]
    simp only [streamOpen, rangeOk, h₁, h₂, hbs, hr.mode, hr.base, hr.limit]
  simp only [exec, execBlkDecode, hop, if_true, hht, hmem, hbs, hdc, decodeOne]
  generalize blkDecode s.ht[dcTable (variantKind s.variant pos.c)] s.ht[acTable (variantKind s.variant pos.c)] s.mem
    p.pred[pos.c] p.bs = r at *
  obtain ⟨bs, pr, z, k, stop⟩ := r
  cases stop
  · refine ⟨_, rfl, .inr ⟨_, rfl, ⟨?_, ?_, hopen _ ?_ ?_, ?_, ?_, hr.bufOk⟩, rfl, ?_, .inl ⟨?_, ?_⟩⟩⟩ <;>
      simp [succeed, placed, *]
  · refine ⟨_, rfl, .inr ⟨_, rfl, ⟨?_, ?_, hopen _ ?_ ?_, ?_, ?_, hr.bufOk⟩, rfl, ?_, .inr ⟨?_, ?_⟩⟩⟩ <;>
      simp [placed, *]
    cases p.firstBad <;> simp
  · exact ⟨_, rfl, .inl ⟨by simp [fail], rfl⟩⟩

/-- `bad` is the first block from lo up to hi that underran, where no earlier one (`prev`) did; none faulted before. -/
def BadIs (f : Nat → State) (prev : Option Nat) (lo hi : Nat) (bad : Option Nat) : Prop :=
  (∀ m, prev = some m → bad = some m) ∧
  (prev = none → (bad = none ∧ ∀ n, lo ≤ n → n < hi → (f (n + 1)).status.errcode = .none) ∨
    ∃ m, bad = some m ∧ lo ≤ m ∧ m < hi ∧ (f (m + 1)).status.errcode = .streamUnderrun ∧
      ∀ n, lo ≤ n → n < m → (f (n + 1)).status.errcode = .none)

/-- The whole pass ends as its blocks do when they are decoded one by one. -/
theorem decodePass_follows {s : State} (f : Nat → State) (l : List BlockPos) (p : DecPass) (h : Follows s p (f p.n))
    (hf : ∀ i pos, l[i]? = some pos →
      exec (.blkDecode pos.c (variantKind s.variant pos.c)) (f (p.n + i)) = .next (f (p.n + i + 1))) :
    (∃ n bad, decodePass s l p = .fault n bad ∧ p.n ≤ n ∧ n < p.n + l.length ∧
      (f (n + 1)).status.errcode = .huffmanDecodingFault ∧ BadIs f p.firstBad p.n n bad) ∨
    ∃ (q : DecPass) (zs : List (BlockPos × Block)), decodePass s l p = .done q ∧ Follows s q (f (p.n + l.length)) ∧ q.n = p.n + l.length ∧
      (∀ n, p.n ≤ n → n < p.n + l.length → (f (n + 1)).status.errcode ≠ .huffmanDecodingFault) ∧
      BadIs f p.firstBad p.n (p.n + l.length) q.firstBad ∧ zs.map Prod.fst = l ∧
      (∀ i e, zs[i]? = some e → e.2 = (f (p.n + i + 1)).blk) ∧
      q.planes = (zs.map (placed s)).reverse ++ p.planes := by
  induction l generalizing p with
  | nil =>
    exact .inr ⟨p, [], rfl, h, rfl, fun n h₁ h₂ => absurd h₂ (by simpa using h₁),
      ⟨fun m hm => hm, fun hm => .inl ⟨hm, fun n h₁ h₂ => absurd h₂ (by simpa using h₁)⟩⟩, rfl,
      fun i e he => by simp at he, rfl⟩
  | cons pos rest ih =>
    obtain ⟨t, ht, hcase⟩ := decodeOne_follows h pos
    have hft := hf 0 pos rfl
    rw [Nat.add_zero] at hft
    rw [hft] at ht
    simp only [Host.Outcome.next.injEq] at ht
    subst ht
    rw [decodePass]
    rcases hcase with ⟨he, hd⟩ | ⟨q, hd, hfol, hn, hpl, hbad⟩
    · rw [hd]
      exact .inl ⟨_, _, rfl, le_rfl, by simp, he, ⟨fun m hm => hm, fun hm => .inl ⟨hm, fun n h₁ h₂ => by omega⟩⟩⟩
    rw [hd]
    rw [← hn] at hfol
    have lift : ∀ hi bad, p.n < hi → BadIs f q.firstBad q.n hi bad → BadIs f p.firstBad p.n hi bad := by
      rintro hi bad hlt ⟨b₁, b₂⟩
      rcases hbad with ⟨he, hq⟩ | ⟨he, hq⟩
      · rw [hq, hn] at b₂
        rw [hq] at b₁
        refine ⟨b₁, fun hp => ?_⟩
        rcases b₂ hp with ⟨c₁, c₂⟩ | ⟨m, c₁, c₂, c₃, c₄, c₅⟩
        · refine .inl ⟨c₁, fun n h₁ h₂ => ?_⟩
          rcases Nat.eq_or_lt_of_le h₁ with rfl | h₁
          · exact he
          · exact c₂ n h₁ h₂
        · refine .inr ⟨m, c₁, by omega, c₃, c₄, fun n h₁ h₂ => ?_⟩
          rcases Nat.eq_or_lt_of_le h₁ with rfl | h₁
          · exact he
          · exact c₅ n h₁ h₂
      · have hb := b₁ _ hq
        refine ⟨fun m hm => by rw [hb, hm]; rfl, fun hp => .inr ⟨p.n, by rw [hb, hp]; rfl, le_rfl, hlt, he, ?_⟩⟩
        intro n h₁ h₂
        omega
    have hnf : (f (p.n + 1)).status.errcode ≠ .huffmanDecodingFault := by
      rcases hbad with ⟨he, -⟩ | ⟨he, -⟩ <;> rw [he] <;> decide
    rcases ih q hfol (fun i pos' hi => by
        have := hf (i + 1) pos' (by simpa using hi)
        rwa [show p.n + (i + 1) = q.n + i by omega] at this) with
      ⟨n, bad, g₁, g₂, g₃, g₄, g₅⟩ | ⟨r, zs, g₁, g₂, g₃, g₄, g₅, g₆, g₇, g₈⟩
    · exact .inl ⟨n, bad, g₁, by omega, by rw [List.length_cons]; omega, g₄, lift _ _ (by omega) g₅⟩
    · have hlen : q.n + rest.length = p.n + (pos :: rest).length := by rw [List.length_cons]; omega
      rw [hlen] at g₂ g₃ g₄ g₅
      refine .inr ⟨r, (pos, (f (p.n + 1)).blk) :: zs, g₁, g₂, g₃, fun n h₁ h₂ => ?_,
        lift _ _ (by rw [List.length_cons]; omega) g₅, by rw [List.map_cons, g₆], fun i e he => ?_, ?_⟩
      · rcases Nat.eq_or_lt_of_le h₁ with rfl | h₁
        · exact hnf
        · exact g₄ n (by omega) h₂
      · cases i with
        | zero =>
          rw [List.getElem?_cons_zero, Option.some.injEq] at he
          rw [← he]
        | succ i =>
          rw [List.getElem?_cons_succ] at he
          rw [g₇ i e he, hn, show p.n + 1 + i + 1 = p.n + (i + 1) + 1 by omega]
      · rw [g₈, hpl, List.map_cons, List.reverse_cons, List.append_assoc]
        rfl

/-- Every image that passes its checks can be decoded block by block. -/
theorem exists_blockByBlock {s : State} (h : decodeImageOk s = true) : ∃ f, BlockByBlock s f ∧
    Follows (ctxSetup s) ⟨bsOpen .reading s.srcBase s.srcLen, (ctxSetup s).dcpred, 0, none, []⟩ (f 0) ∧ (f 0).qt = (ctxSetup s).qt := by
  simp only [decodeImageOk, Bool.and_eq_true] at h
  obtain ⟨⟨⟨⟨hc, -⟩, hr⟩, -⟩, -⟩ := h
  let advance (n : Nat) (u : State) : State :=
    match (blocks s)[n]? with
    | none => u
    | some pos => match exec (.blkDecode pos.c (variantKind s.variant pos.c)) u with
      | .next t => t
      | _ => u
  obtain ⟨c, hctx⟩ : ∃ c, c = succeed (setResults (u32 (blocks s).length) (u32 (mbCols s * mbRows s)) (ctxSetup s)) :=
    ⟨_, rfl⟩
  obtain ⟨o, ho⟩ : ∃ o, o = succeed { c with bs := bsOpen .reading s.srcBase s.srcLen } := ⟨_, rfl⟩
  have h₁ : exec .ctxInit s = .next c := by rw [exec, execCtxInit, if_pos hc, hctx]
  have hcfg : c.cfg = s.cfg := by rw [hctx]; simp [succeed]
  have hb : c.srcBase = s.srcBase := by rw [hctx]; simp [succeed]
  have hl : c.srcLen = s.srcLen := by rw [hctx]; simp [succeed]
  have hr' : openReadOk c = true := by
    rw [openReadOk, rangeOk, hcfg, hb, hl]
    exact hr
  have h₂ : exec .bsOpenRead c = .next o := by
    simp only [exec, execBsOpenRead]
    rw [if_pos hr', ho, hb, hl]
  refine ⟨fun n => Nat.rec (motive := fun _ => State) o advance n, ⟨⟨c, h₁, o, h₂, rfl⟩, fun n pos hp => ?_⟩, ?_, ?_⟩
  · obtain ⟨code, u, r, he, -⟩ := exec_completes (.blkDecode pos.c (variantKind s.variant pos.c)) (Nat.rec (motive := fun _ => State) o advance n)
    show exec _ (Nat.rec (motive := fun _ => State) o advance n) = .next (advance n (Nat.rec (motive := fun _ => State) o advance n))
    simp only [advance, hp]
    rw [he]
  · show Follows _ _ o
    have hcfg' : o.cfg = s.cfg := by rw [ho, succeed, complete_cfg, hcfg]
    have hbs : o.bs = bsOpen .reading s.srcBase s.srcLen := by rw [ho, succeed, complete_bs]
    refine ⟨?_, ?_, ?_, hbs, ?_, by simp [BufOk, bsOpen]⟩
    · rw [ho, hctx]; simp [succeed]
    · rw [ho, hctx]; simp [succeed]
    · rw [streamOpen, rangeOk, hcfg', hbs]
      exact hr
    · rw [ho, hctx]; simp [succeed]
  · show o.qt = _
    rw [ho, hctx]
    simp [succeed]

/-! ### The encode pass at a fault -/

/-- A block with no code, or with no room for it, and every other block ends the pass. -/
theorem encodeOne_fault {s : State} {base limit : Word} {items : List (Nat × Nat)} {p : EncPass} {pos : BlockPos}
    {z : Block} (ok : EncOk base limit items p) {code : ErrCode} {n : Nat} (h : encodeOne s pos z p = .fault code n) :
    n = p.n ∧
    ((code = .huffmanEncodingFault ∧ blkSymbols s.ht[dcTable (variantKind s.variant pos.c)]
        s.ht[acTable (variantKind s.variant pos.c)] p.pred[pos.c] z = none) ∨
      (code = .illegalArgument ∧ ∃ l, blkSymbols s.ht[dcTable (variantKind s.variant pos.c)]
        s.ht[acTable (variantKind s.variant pos.c)] p.pred[pos.c] z = some l ∧
        limit.toNat < itemBits (items ++ l) / 8)) := by
  rw [encodeOne, blkEncodeItems] at h
  dsimp only at h
  split at h
  · rename_i code' hc
    simp only [EncEnd.fault.injEq] at h
    obtain ⟨rfl, rfl⟩ := h
    refine ⟨rfl, ?_⟩
    split at hc
    · rename_i hs
      cases hc
      exact .inl ⟨rfl, hs⟩
    · rename_i l hs
      split at hc
      · cases hc
      · rename_i hroom
        cases hc
        simp only [bsRoom, decide_eq_true_eq, ok.limit, ok.cursor] at hroom
        have := ok.length
        exact .inr ⟨rfl, l, hs, by rw [itemBits_append]; omega⟩
  · cases h

/-- A fault of the encode pass: every block before has a code and fits, and this one has none or does not fit. -/
theorem encodePass_faultAt {s : State} {base limit : Word} (l : List (BlockPos × Block)) (items : List (Nat × Nat))
    (p : EncPass) (ok : EncOk base limit items p) {code : ErrCode} {n : Nat}
    (h : encodePass s l p = .fault code n) : ∃ j more, n = p.n + j ∧ j < l.length ∧
      codedItems s p.pred (l.take j) = some more ∧ itemBits (items ++ more) / 8 ≤ limit.toNat ∧
      ((code = .huffmanEncodingFault ∧ codedItems s p.pred (l.take (j + 1)) = none) ∨
        (code = .illegalArgument ∧ ∃ more', codedItems s p.pred (l.take (j + 1)) = some more' ∧
          limit.toNat < itemBits (items ++ more') / 8)) := by
  induction l generalizing items p with
  | nil => cases h
  | cons e rest ih =>
    obtain ⟨pos, z⟩ := e
    rw [encodePass] at h
    rcases encodeOne_spec (s := s) pos z ok with ⟨c, hd⟩ | ⟨l, q, hd, hs, ok', hp, hn⟩
    · rw [hd] at h
      obtain ⟨-, hc⟩ := encodeOne_fault ok hd
      simp only [EncEnd.fault.injEq] at h
      obtain ⟨rfl, rfl⟩ := h
      have hroom := ok.room
      have hlen := ok.length
      have hcnt := ok.count
      refine ⟨0, [], rfl, by simp, rfl, by rw [List.append_nil]; omega, ?_⟩
      simp only [Nat.zero_add, List.take_succ_cons, List.take_zero, codedItems]
      rcases hc with ⟨hc, hs⟩ | ⟨hc, l, hs, hlim⟩
      · exact .inl ⟨hc, by rw [hs]⟩
      · exact .inr ⟨hc, l, by rw [hs]; simp, hlim⟩
    · rw [hd] at h
      obtain ⟨j, more, g₁, g₂, g₃, g₄, g₅⟩ := ih (items ++ l) q ok' h
      rw [hp] at g₃ g₅
      refine ⟨j + 1, l ++ more, by omega, by rw [List.length_cons]; omega, ?_, by rw [← List.append_assoc]; exact g₄, ?_⟩
      · rw [List.take_succ_cons, codedItems, hs, g₃]
      · rw [List.take_succ_cons, codedItems, hs]
        rcases g₅ with ⟨hc, g₅⟩ | ⟨hc, more', g₅, g₆⟩
        · exact .inl ⟨hc, by rw [g₅]⟩
        · exact .inr ⟨hc, l ++ more', by rw [g₅], by rw [← List.append_assoc]; exact g₆⟩

/-! ### The set-up changes none of the terms -/

theorem codedItems_ctxSetup (s : State) (pred : Vector Word 4) (l : List (BlockPos × Block)) :
    codedItems (ctxSetup s) pred l = codedItems s pred l := by
  induction l generalizing pred with
  | nil => rfl
  | cons e rest ih =>
    obtain ⟨pos, z⟩ := e
    simp only [codedItems, ctxSetup_ht, ctxSetup_variant, ih]

theorem writesPixels_ctxSetup {s : State} {qt : Vector (Vector (BitVec 15) 64) 4} {zs : List (BlockPos × Block)}
    {m : Memory} (h : WritesPixels (ctxSetup s) qt zs m) : WritesPixels s qt zs m := by
  intro x y hx hy
  obtain ⟨b, u, h₁, h₂, h₃⟩ := h x y hx hy
  refine ⟨b, _, h₁, rfl, h₃.trans ?_⟩
  simp only [exec, execCompose, Host.Outcome.next.injEq, ctxSetup_variant] at h₂
  rw [← h₂]
  simp only [succeed, complete_result0, setResults_result0]

theorem toNat_scaleTable (base : Vector Byte 64) (q : Nat) (i : Fin 64) :
    ((scaleTable base q)[i].toNat : Int) = max 100 (min 25500 (base[i].toNat * (200 - 2 * (q : Int)))) := by
  simp only [scaleTable, Fin.getElem_fin, Vector.getElem_map, BitVec.toNat_ofInt, s100, clamp, s100Min, s100Max]
  generalize ((base[i.val].toNat : Int) * (200 - 2 * (q : Int))) = v
  split_ifs <;> omega

/-- The scale tables `ContextScales` spells out are those the set-up leaves (R82, R105). -/
theorem contextScales_iff (s : State) (qt : Vector (Vector (BitVec 15) 64) 4) :
    ContextScales s qt ↔ qt = (ctxSetup s).qt := by
  have entry : ∀ c : Channel, (ctxSetup s).qt[c] = ctxTable s c := by intro c; simp [ctxSetup]
  have kind : ∀ c : Channel, (if s.variant ≠ 2 ∧ (c = 1 ∨ c = 2) then 1 else 0 : Fin 2) =
      kindIndex (variantKind s.variant c) := by
    intro c
    rw [variantKind]
    by_cases hv : s.variant = 2
    · rw [if_pos hv, if_neg (fun h => h.1 hv), kindIndex]
    · rw [if_neg hv]
      by_cases hc : c = 1 ∨ c = 2
      · rw [if_pos ⟨hv, hc⟩, if_pos hc, kindIndex]
      · rw [if_neg (fun h => hc h.2), if_neg hc, kindIndex]
  have ext : (∀ (c : Channel) (i : Fin 64), qt[c][i] = (ctxTable s c)[i]) ↔ qt = (ctxSetup s).qt := by
    constructor
    · intro h
      apply Vector.ext
      intro c hc
      have e := entry ⟨c, hc⟩
      simp only [Fin.getElem_fin] at e
      rw [e]
      apply Vector.ext
      intro i hi
      exact h ⟨c, hc⟩ ⟨i, hi⟩
    · rintro rfl c i
      rw [entry]
  rw [← ext]
  refine forall_congr' fun c => forall_congr' fun i => ?_
  rw [ctxTable]
  by_cases hd : s.chCfg[c].defen = true
  · rw [if_pos hd]
    exact ⟨fun h => h.1 hd, fun h => ⟨fun _ => h, fun h' => by rw [hd] at h'; cases h'⟩⟩
  · rw [if_neg hd]
    have hd' : s.chCfg[c].defen = false := Bool.eq_false_iff.mpr hd
    have hs := toNat_scaleTable s.qbase[kindIndex (variantKind s.variant c)] s.chCfg[c].quality.toNat i
    constructor
    · intro h
      have := h.2 hd' _ (kind c).symm
      exact BitVec.eq_of_toNat_eq (Int.ofNat.inj (this.trans hs.symm))
    · intro h
      refine ⟨fun h' => absurd h' hd, fun _ k hk => ?_⟩
      rw [h, hk, kind]
      exact hs

end Sys2Proof.Machine
end

