-- ==== Sys2Proof/Tests/Slice0.lean ====
section
/-! SUPPORT. Tests of the model: ill-formed instructions refused, decoding of words written out from 30_encoding.md R45
and R48, one step on small states with the results of 95_test_vectors.md, and for every statement with hypotheses a
state and operands that meet them. -/

namespace Sys2Proof.Tests

open Sys2Proof Sys2Proof.Machine

-- One theorem after another: many kernel evaluations at once need more threads than a small machine has.
set_option Elab.async false

/-! ### Well-formedness: a bit count that does not fit its 6-bit field is refused (R45) -/

theorem test_wf_canSupply_64 : Instr.wf (.bsCanSupply 64) = false := by decide
theorem test_wf_supply_64 : Instr.wf (.bsSupply 64) = false := by decide
theorem test_wf_consume_64 : Instr.wf (.bsConsume 64) = false := by decide
theorem test_wf_htDecode_64 : Instr.wf (.htDecode 0 64) = false := by decide
theorem test_wf_supply_63 : Instr.wf (.bsSupply 63) = true := by decide

/-! ### Decoding: OPC 7:0, N 13:8, C 15:14, T/K/M 17:16, written out in binary as 14 reserved bits, T, C, N, OPC -/

theorem test_decode_control :
    decode 0b00000000000000_00_00_000000_00000000 = .ok .nop ∧
    decode 0b00000000000000_00_00_000000_00000001 = .ok .ctxInit := by decide

theorem test_decode_bitstream :
    decode 0b00000000000000_00_00_000000_00010000 = .ok .bsOpenRead ∧
    decode 0b00000000000000_00_00_000000_00010001 = .ok .bsOpenWrite ∧
    decode 0b00000000000000_00_00_100000_00010010 = .ok (.bsCanSupply 32) ∧
    decode 0b00000000000000_00_00_000101_00010011 = .ok (.bsSupply 5) ∧
    decode 0b00000000000000_00_00_111111_00010100 = .ok (.bsConsume 63) ∧
    decode 0b00000000000000_00_00_000000_00010101 = .ok .bsFlush := by decide

theorem test_decode_huffman :
    decode 0b00000000000000_10_00_000000_00100000 = .ok (.htBuild 2) ∧
    decode 0b00000000000000_11_00_001000_00100001 = .ok (.htDecode 3 8) ∧
    decode 0b00000000000000_01_00_000000_00100010 = .ok (.htEncode 1) ∧
    decode 0b00000000000000_11_00_000000_00100011 = .ok (.htLimits 3) ∧
    decode 0b00000000000000_01_00_000000_00100100 = .ok (.htRead 1) := by decide

theorem test_decode_transform :
    decode 0b00000000000000_00_00_000000_00110000 = .ok .fdct ∧
    decode 0b00000000000000_00_00_000000_00110001 = .ok .idct ∧
    decode 0b00000000000000_00_00_000000_00110010 = .ok .zigzag ∧
    decode 0b00000000000000_00_00_000000_00110011 = .ok .unzigzag ∧
    decode 0b00000000000000_01_00_000000_00110100 = .ok (.shiftClamp .chrominance) ∧
    decode 0b00000000000000_00_00_000000_00110101 = .ok (.unshift .luminance) := by decide

theorem test_decode_quantizer :
    decode 0b00000000000000_01_10_000000_01000000 = .ok (.qAdjust 2 .chrominance) ∧
    decode 0b00000000000000_00_11_000000_01000001 = .ok (.quant 3) ∧
    decode 0b00000000000000_00_01_000000_01000010 = .ok (.dequant 1) := by decide

theorem test_decode_sampler_compose :
    decode 0b00000000000000_00_00_000000_01010000 = .ok .upsample ∧
    decode 0b00000000000000_00_00_000000_01010001 = .ok .downsample ∧
    decode 0b00000000000000_01_00_000000_01100000 = .ok (.compose .colourDifference) ∧
    decode 0b00000000000000_00_00_000000_01100001 = .ok (.decompose .direct) := by decide

theorem test_decode_block_image :
    decode 0b00000000000000_00_11_000000_01110000 = .ok (.blkDecode 3 .luminance) ∧
    decode 0b00000000000000_01_01_000000_01110001 = .ok (.blkEncode 1 .chrominance) ∧
    decode 0b00000000000000_00_00_000000_10000000 = .ok .decodeImage ∧
    decode 0b00000000000000_00_00_000000_10000001 = .ok .encodeImage := by decide

/-- Reserved words (R47, R50): a reserved bit, an unlisted opcode, an unused field, bit 17 of a one-bit field. -/
theorem test_decode_refuses :
    decode 0x00040000 = .error .reservedBits ∧ decode 0x80000000 = .error .reservedBits ∧
    decode 0x00000002 = .error .reservedOpcode ∧ decode 0x000000FF = .error .reservedOpcode ∧
    decode 0x00000100 = .error .unusedField ∧ decode 0x00020034 = .error .unusedField ∧
    decode 0x00004030 = .error .unusedField ∧ decode 0x00004013 = .error .unusedField := by decide

/-- The examples of R49 the other way. -/
theorem test_encode_examples :
    encode (.bsSupply 5) = 0x00000513 ∧ encode (.htDecode 3 8) = 0x00030821 ∧
    encode (.qAdjust 2 .chrominance) = 0x00018040 := by decide

/-! ### One step on a small state -/

/-- A property of the state an answer goes on with; false where it does not go on. -/
def ran (o : Answer) (p : State → Bool) : Bool :=
  match o with
  | .next t => p t
  | .fault _ | .refused _ => false

/-- The STATUS word, as the host reads it. -/
def statusOf (s : State) : Nat := (readReg .status s).toNat

/-- RESULT0 and RESULT1. -/
def results (s : State) : Nat × Nat := (s.result0.toNat, s.result1.toNat)

/-- A table source whose codes are listed by hand. -/
def sourceOf (counts symbols : List Nat) : Hsrc := hsrcOf counts symbols

/-- The reset sources cut after length 6 (luminance AC) and 5 (chrominance AC): by R64 their codes are the reset tables'
codes of those lengths, and they build fast. -/
def smallSources : Vector Hsrc 4 :=
  #v[sourceOf bitsDcLuminance valDc,
     sourceOf [0, 2, 1, 3, 3, 2] [0x01, 0x02, 0x03, 0x00, 0x04, 0x11, 0x05, 0x12, 0x21, 0x31, 0x41],
     sourceOf bitsDcChrominance valDc,
     sourceOf [0, 2, 1, 2, 4] [0x00, 0x01, 0x02, 0x03, 0x11, 0x04, 0x05, 0x21, 0x31]]

/-- The reset state with those tables. -/
def base : State :=
  { State.reset with hsrc := smallSources, ht := smallSources.map fun h => (htBuild h).getD Ht.empty }

/-- Such a state with bytes stored in DMEM. -/
def withBytes (a : Nat) (bytes : List Nat) : State :=
  { base with mem := memWrite a (bytes.map (BitVec.ofNat 8)) [] }

/-- A stream open for reading, nothing pulled yet, over bytes at 0x100. -/
def reading (bytes : List Nat) : State :=
  { withBytes 0x100 bytes with bs := bsOpen .reading 0x100 (BitVec.ofNat 32 bytes.length) }

/-- A stream open for writing at 0x200 with `cap` bytes of room and `count` bits held. -/
def writing (cap : Nat) (count buf : Nat) : State :=
  { base with
    bs := { bsOpen .writing 0x200 (BitVec.ofNat 32 cap) with count := BitVec.ofNat 7 count, buf := BitVec.ofNat 64 buf } }

/-- A block from its first entries. -/
def blockOf (l : List Int) : Block := Vector.ofFn fun i => BitVec.ofInt 32 (l.getD i.val 0)

/-- The reset state with a block in BLK. -/
def withBlock (l : List Int) : State := { State.reset with blk := blockOf l }

/-- The first entries of BLK. -/
def entries (n : Nat) (s : State) : List Int := (s.blk.toList.take n).map BitVec.toInt

/-- n bytes of DMEM from a on. -/
def bytesAt (a n : Nat) (s : State) : List Nat := (memBytes s.mem a n).map BitVec.toNat

/-- `step` runs a fetched word as the first command after reset: a NOP completes (V-X2). -/
theorem test_step_nop :
    ran (step (State.reset.withFetchWord 32 0x00000000)) (fun t => statusOf t = 0x002) = true := by decide

/-- A word that spells no command completes with IllegalCommand (V-X3). -/
theorem test_step_illegal :
    ran (step (State.reset.withFetchWord 32 0x00000100)) (fun t => statusOf t = 0x506) = true := by decide

theorem test_ctxInit_V_I1 :
    ran (exec .ctxInit { State.reset with width := 20, height := 13 }) (fun t =>
      t.padW.toNat == 32 && t.padH.toNat == 16 && results t == (20, 2)) = true := by decide +kernel

theorem test_ctxInit_variant3 :
    ran (exec .ctxInit { State.reset with variant := 3 }) (fun t => statusOf t == 0x406) = true := by decide

theorem test_bsOpenRead_V_S13 :
    ran (exec .bsOpenRead { State.reset with srcBase := 0xFFFFFFFF, srcLen := 2 }) (fun t =>
      statusOf t == 0x406) = true := by decide

theorem test_bsOpenWrite :
    ran (exec .bsOpenWrite { State.reset with dstBase := 0x40, dstCap := 4 }) (fun t =>
      t.bs == bsOpen .writing 0x40 4) = true := by decide

theorem test_bsCanSupply_V_S3 :
    ran (exec (.bsCanSupply 12) (reading [0xA5])) (fun t =>
      results t == (0, 8) && t.bs.cursor == 1 && statusOf t == 0x002) = true := by decide

theorem test_bsSupply_V_S2 :
    ran (exec (.bsSupply 4) { reading [0xA5, 0x0F] with
      bs := { bsOpen .reading 0x100 2 with count := 16, buf := 0xA50F, cursor := 2 } }) (fun t =>
      results t == (0xA, 12)) = true := by decide

theorem test_bsConsume_V_S8 :
    ran (exec (.bsConsume 32) { writing 8 0 0 with arg0 := 0xDEADBEEF }) (fun t =>
      results t == (4, 0) && bytesAt 0x200 4 t == [0xDE, 0xAD, 0xBE, 0xEF]) = true := by decide

theorem test_bsConsume_V_S10 :
    ran (exec (.bsConsume 3) { writing 4 0 0 with arg0 := 0xFFFFFFFD }) (fun t =>
      results t == (0, 3) && t.bs.buf == 5) = true := by decide

theorem test_bsFlush_V_S6 :
    ran (exec .bsFlush (writing 16 2 2)) (fun t =>
      results t == (1, 0) && bytesAt 0x200 1 t == [0xBF]) = true := by decide

theorem test_bsFlush_V_S9 :
    ran (exec .bsFlush (writing 0 7 0x7F)) (fun t => statusOf t == 0x406) = true := by decide

theorem test_htBuild_V_H5 :
    ran (exec (.htBuild 0) { State.reset with hsrc := State.reset.hsrc.set 0 (sourceOf [1, 1, 1] [5, 6, 7]) })
      (fun t => results t == (3, 0x301) && (readReg (.htInfo 0) t) == 0x00030301) = true := by decide +kernel

theorem test_htBuild_oversubscribed :
    ran (exec (.htBuild 0) { State.reset with hsrc := State.reset.hsrc.set 0 (sourceOf [3] [1, 2, 3]) })
      (fun t => statusOf t == 0x406 && (readReg (.htInfo 0) t) == 0x000C0902) = true := by decide +kernel

theorem test_htDecode_V_H4 :
    ran (exec (.htDecode 1 4) { base with arg0 := 10 }) (fun t => results t == (0, 1)) = true := by
  decide +kernel

theorem test_htDecode_miss :
    ran (exec (.htDecode 1 3) { base with arg0 := 5 }) (fun t => results t == (0xFFFFFFFF, 0)) = true := by
  decide +kernel

theorem test_htEncode_V_H3 :
    ran (exec (.htEncode 1) { base with arg0 := 0x31 }) (fun t => results t == (0x3A, 6)) = true := by
  decide +kernel

theorem test_htEncode_V_H4 :
    ran (exec (.htEncode 1) { base with arg0 := 0x100 }) (fun t => results t == (0xFFFFFFFF, 0)) = true := by
  decide +kernel

theorem test_htLimits_V_H1 :
    ran (exec (.htLimits 2) base) (fun t => results t == (2, 11)) = true := by decide +kernel

theorem test_htRead_V_H6 :
    ran (exec (.htRead 0) (reading [0x6F])) (fun t =>
      results t == (2, 3) && t.bs.count == 5 && t.bs.cursor == 1) = true := by decide +kernel

theorem test_htRead_underrun :
    ran (exec (.htRead 0) (reading [0xFF])) (fun t =>
      results t == (0xFFFFFFFF, 0) && statusOf t == 0x10A && t.bs.count == 0) = true := by decide +kernel

theorem test_fdct_V_T3 :
    ran (exec .fdct (withBlock ((List.range 64).map fun i => ((i % 8 : Nat) : Int)))) (fun t =>
      entries 64 t == [28, -18, 0, -2, 0, -1, 0, 0] ++ List.replicate 56 0) = true := by decide +kernel

theorem test_idct_V_T8 :
    ran (exec .idct (withBlock [0, 100])) (fun t => entries 8 t == [17, 15, 10, 3, -3, -10, -15, -17]) = true := by
  decide +kernel

theorem test_zigzag_V_T6 :
    ran (exec .zigzag (withBlock ((List.range 64).map Int.ofNat))) (fun t =>
      entries 12 t == [0, 1, 8, 16, 9, 2, 3, 10, 17, 24, 32, 25]) = true := by decide +kernel

theorem test_unzigzag_V_T7 :
    ran (exec .unzigzag (withBlock ((List.range 64).map Int.ofNat))) (fun t =>
      entries 12 t == [0, 1, 5, 6, 14, 15, 27, 28, 2, 4, 7, 13]) = true := by decide +kernel

theorem test_shiftClamp_V_T9 :
    ran (exec (.shiftClamp .luminance) (withBlock [-128, 200, 2147483548])) (fun t =>
      entries 3 t == [0, 255, 0]) = true := by decide +kernel

theorem test_shiftClamp_V_T10 :
    ran (exec (.shiftClamp .chrominance) (withBlock [-300, 300, -255, 17])) (fun t =>
      entries 4 t == [-255, 255, -255, 17]) = true := by decide +kernel

theorem test_unshift_V_T11 :
    ran (exec (.unshift .luminance) (withBlock [200, 0, -2147483648])) (fun t =>
      entries 3 t == [72, -128, 2147483520]) = true := by decide +kernel

/-- CH_CFG[c] with a quality factor and no default value. -/
def quality (q : Nat) : ChCfg := { defval := 0, defen := false, quality := BitVec.ofNat 7 q }

theorem test_qAdjust_V_Q1 :
    ran (exec (.qAdjust 0 .luminance) { State.reset with chCfg := State.reset.chCfg.set 0 (quality 99) }) (fun t =>
      (t.qt[0].toList.take 8).map BitVec.toNat == [100, 100, 100, 100, 100, 100, 102, 122] &&
      results t == (100, 100)) = true := by decide +kernel

theorem test_qAdjust_quality101 :
    ran (exec (.qAdjust 0 .luminance) { State.reset with chCfg := State.reset.chCfg.set 0 (quality 101) }) (fun t =>
      statusOf t == 0x406) = true := by decide

/-- Every entry of every scale table at one value. -/
def withScale (v : Nat) (s : State) : State :=
  { s with qt := Vector.replicate 4 (Vector.replicate 64 (BitVec.ofNat 15 v)) }

theorem test_quant_V_Q2 :
    ran (exec (.quant 0) (withScale 1600 (withBlock [8, -8, 24, -24, 7, -7, 9, -9, 800]))) (fun t =>
      entries 9 t == [1, 0, 2, -1, 0, 0, 1, -1, 50]) = true := by decide +kernel

theorem test_dequant_V_Q3 :
    ran (exec (.dequant 3) (withScale 25500 (withBlock [2147483647, -2147483648]))) (fun t =>
      entries 2 t == [2147483393, -2147483648]) = true := by decide +kernel

/-- The plane of program P5: 1, -2, 3, 4. -/
def p5 (arg0 arg1 : Word) : State :=
  { withBytes 0 [1, 0, 0xFE, 0xFF, 3, 0, 4, 0] with width := 4, height := 4, arg0 := arg0, arg1 := arg1 }

theorem test_upsample_P5 :
    ran (exec .upsample (p5 0 0)) (fun t =>
      results t == (16, 0) &&
      bytesAt 0 20 t == [1, 0, 1, 0, 0xFE, 0xFF, 0xFE, 0xFF, 1, 0, 1, 0, 0xFE, 0xFF, 0xFE, 0xFF, 3, 0, 3, 0]) =
      true := by decide +kernel

theorem test_upsample_P5_overlap :
    ran (exec .upsample (p5 0 4)) (fun t => statusOf t == 0x406) = true := by decide

theorem test_downsample_V_P4 :
    ran (exec .downsample { withBytes 0 [0xFF, 0xFF, 0xFE, 0xFF, 0xFD, 0xFF, 0xFC, 0xFF] with
      width := 2, height := 2, arg0 := 0, arg1 := 0x40 }) (fun t =>
      results t == (1, 0) && bytesAt 0x40 2 t == [0xFE, 0xFF]) = true := by decide +kernel

theorem test_downsample_toward_zero :
    ran (exec .downsample { withBytes 0 [0xFF, 0xFF, 0, 0, 0, 0, 0, 0] with
      width := 2, height := 2, arg0 := 0, arg1 := 0x40 }) (fun t => bytesAt 0x40 2 t == [0, 0]) = true := by
  decide +kernel

theorem test_compose_colourDifference :
    ran (exec (.compose .colourDifference) (withBlock [255, 255, -255, 0])) (fun t =>
      results t == (0x00FF80FF, 0)) = true := by decide +kernel

theorem test_compose_direct :
    ran (exec (.compose .direct) (withBlock [300, -5, 128, 77])) (fun t => results t == (0xFF00804D, 0)) = true := by
  decide +kernel

theorem test_decompose_colourDifference :
    ran (exec (.decompose .colourDifference) { State.reset with arg0 := 0xFFC86432 }) (fun t =>
      entries 4 t == [112, 150, -25, 255]) = true := by decide +kernel

theorem test_decompose_direct :
    ran (exec (.decompose .direct) { State.reset with arg0 := 0x12345678 }) (fun t =>
      entries 4 t == [18, 52, 86, 120]) = true := by decide +kernel

theorem test_blkDecode_V_B17 :
    ran (exec (.blkDecode 0 .luminance) (reading [0x95, 0x3A, 0xD7])) (fun t =>
      entries 8 t == [5, -3, 0, 0, 0, 1, 0, 0] && results t == (6, 21) && t.dcpred[0] == 5) = true := by
  decide +kernel

theorem test_blkDecode_V_B22 :
    ran (exec (.blkDecode 0 .luminance) { reading [0xFF, 0xFF] with result0 := 9 }) (fun t =>
      statusOf t == 0x206 && results t == (9, 0) && t.bs.count == 7) = true := by decide +kernel

theorem test_blkEncode_V_B1 :
    ran (exec (.blkEncode 0 .luminance) { writing 64 0 0 with blk := blockOf [5, -3, 0, 0, 0, 1] }) (fun t =>
      results t == (21, 2) && bytesAt 0x200 2 t == [0x95, 0x3A] && t.bs.count == 5 && t.dcpred[0] == 5) = true := by
  decide +kernel

theorem test_blkEncode_V_B13 :
    ran (exec (.blkEncode 0 .luminance) { writing 64 0 0 with blk := blockOf [2048] }) (fun t =>
      statusOf t == 0x306) = true := by decide +kernel

/-- The configuration of V-I3: VARIANT 2, 8 × 8, QUALITY 80, channels 2 and 3 with default values 0 and 255. -/
def imageConfig (s : State) : State :=
  { s with
    variant := 2, width := 8, height := 8
    chCfg := #v[quality 80, quality 80, { quality 0 with defen := true },
      { quality 0 with defen := true, defval := 255 }] }

/-- The first n bytes of the encoded image of V-I3 at 0, to be decoded to 0x100. -/
def coded (n : Nat) : State :=
  { imageConfig (withBytes 0 [0xF5, 0xAA, 0xF9, 0xB2, 0xBF]) with
    srcBase := 0, srcLen := BitVec.ofNat 32 n, dstBase := 0x100, dstCap := 256 }

theorem test_decodeImage_V_I3 :
    ran (exec .decodeImage (coded 5)) (fun t =>
      results t == (256, 5) && t.errpos == 2 && bytesAt 0x100 4 t == [0xC8, 0x0A, 0x00, 0xFF]) = true := by
  decide +kernel

/-- Channel 1 reads its DC size and underruns in the magnitude, as in V-I4. -/
theorem test_decodeImage_truncated :
    ran (exec .decodeImage (coded 3)) (fun t =>
      results t == (256, 3) && t.errpos == 1 && statusOf t == 0x10A &&
      bytesAt 0x100 4 t == [0xC8, 0x80, 0x00, 0xFF]) = true := by decide +kernel

/-- Four coded channels and a source whose block 0 is complete (00 1010), whose block 1 has a DC size of 11 (111111110)
and then 9 ones, too few for the magnitude, and whose block 2 finds in those no DC code of up to 9 bits. -/
def underrunThenFault : State :=
  { imageConfig (withBytes 0 [0x2B, 0xFD, 0xFF]) with
    chCfg := Vector.replicate 4 (quality 80), srcBase := 0, srcLen := 3, dstBase := 0x100, dstCap := 256 }

/-- V-X6 (STATUS 0x20E), and ERRPOS by R19: one block before the first that underran. -/
theorem test_decodeImage_V_X6 :
    ran (exec .decodeImage underrunThenFault) (fun t => t.errpos == 1 && statusOf t == 0x20E) = true := by decide +kernel

/-- The pixels of V-I3 at 0, to be encoded to 0x100. -/
def pixels (cap : Nat) : State :=
  { imageConfig (withBytes 0 (List.replicate 64 [0xC8, 0x0A, 0x80, 0xFF]).flatten) with
    srcBase := 0, srcLen := 256, dstBase := 0x100, dstCap := BitVec.ofNat 32 cap }

theorem test_encodeImage_V_I3 :
    ran (exec .encodeImage (pixels 64)) (fun t =>
      results t == (16, 5) && t.errpos == 2 && bytesAt 0x100 7 t == [0xF5, 0xAA, 0xF9, 0xB2, 0xBF, 0xFF, 0xFF]) =
      true := by decide +kernel

/-- SRC_LEN too small (V-I9). -/
theorem test_encodeImage_V_I9 :
    ran (exec .encodeImage { pixels 64 with srcLen := 255 }) (fun t => statusOf t == 0x406) = true := by decide

/-! ### The host's side -/

/-- IRQ_EN and CLR_STATUS while idle (V-X10). -/
theorem test_ctrl_V_X10 :
    ran (step { State.reset with
      status := { State.reset.status with done := true, trunc := true }, events := [.regWrite 0x004 4 5] }) (fun t =>
      statusOf t == 0 && readReg .ctrl t == 1 && !t.irq) = true := by decide

/-- A CMD write while BUSY sets OVERRUN (V-X9). -/
theorem test_cmd_while_busy :
    ran (step { State.reset with latch := some 0, events := [.regWrite 0x00C 4 1] }) (fun t =>
      statusOf t == 0x011 && t.latch == some 0) = true := by decide

/-- Reset values a host reads (V-X13). -/
theorem test_reset_registers :
    [Reg.id, .status, .qt 2 63, .qbase 0 1, .qbase 1 2, .hsrcBits 1 15, .hsrcVal 1 3, .htInfo 0, .htInfo 2].map
      (fun r => (readReg r State.reset).toNat) =
    [0x4E564A01, 0, 100, 11, 24, 125, 0, 0x000C0902, 0x000C0B02] := by decide +kernel

/-- The luminance AC table after reset: its HT_INFO word, and ZRL's code (V-H1, V-H3). -/
theorem test_reset_table1 :
    (fun h => (htInfoWord h, h.encodeMap 0xF0)) htAtReset[1] = (0x00A21002, some (0x7F9, 11)) := by decide +kernel

/-! ### Witnesses: states and operands that meet the hypotheses of the statements, each clause at a boundary value -/

/-- Ranges one after the other share no byte. -/
theorem disjoint_of_le {b1 l1 b2 l2 : Nat} (h : b1 + l1 ≤ b2) : Disjoint b1 l1 b2 l2 := by
  intro a ⟨⟨_, h1⟩, h2, _⟩
  omega

/-- A step or a command goes on. -/
def goesOn (o : Answer) : Bool := ran o fun _ => true

theorem ofGoesOn {o : Answer} {p : State → Bool} (h : ran o p = true) : ∃ t, o = .next t ∧ p t = true := by
  match o, h with
  | .next t, h => exact ⟨t, rfl, h⟩

/-- The reset state with one host event pending. -/
def withEvent (e : Event) (s : State) : State := { s with events := [e] }

theorem test_tables_base : TablesLegal base := fun t => ⟨smallSources[t], by revert t; decide +kernel⟩

theorem test_scales_base : ScalesLegal base := by unfold ScalesLegal; decide +kernel

/-- The reset state with the small tables is legal, and so is any state that differs in no checked field. -/
theorem test_legal_base : Legal base :=
  { params := by decide
    memory := by unfold MemoryLegal; decide
    scales := test_scales_base
    tables := test_tables_base
    stream := by unfold StreamLegal bsLegal; decide
    status := by unfold StatusLegal; decide
    padding := by unfold PaddingLegal; decide }

/-- DecodeAndEncodeAgree, FetchedWordRunsNext: the greatest bit count and table number. -/
theorem test_hyp_encode :
    (Instr.htDecode 3 63).wf = true ∧ decode 0x00033F21 = .ok (.htDecode 3 63) := by decide

/-- StepRunsTheLatchedCommand: a latched command, alone and before a completion event; and no command. -/
theorem test_hyp_step :
    decode 0x00000001 = .ok .ctxInit ∧ (∃ s : State, s.latch = some 0x00000001 ∧ s.events = []) ∧
    (∃ s : State, s.latch = some 0x00000001 ∧ s.events = .complete :: [.platformReset]) ∧
    (∃ s : State, s.latch = none ∧ s.events = []) ∧ ∃ s : State, s.latch = none ∧ s.events = .complete :: [] :=
  ⟨by decide, ⟨{ base with latch := some 1 }, rfl, rfl⟩,
    ⟨{ base with latch := some 1, events := [.complete, .platformReset] }, rfl, rfl⟩, ⟨base, rfl, rfl⟩,
    ⟨withEvent .complete base, rfl, rfl⟩⟩

/-- CmdWriteIsAccepted: a CMD write while idle of the last command, and a CMD read. -/
theorem test_hyp_cmdWrite :
    (∃ s : State, s.events = .regWrite (s.cfg.regBase + 0x00C) 4 0x00000081 :: [] ∧ s.busy = false) ∧
    decode 0x00000081 = .ok .encodeImage ∧ ∃ s : State, s.events = .regRead (s.cfg.regBase + 0x00C) 4 :: [] :=
  ⟨⟨withEvent (.regWrite 0x00C 4 0x81) base, rfl, rfl⟩, by decide, withEvent (.regRead 0x00C 4) base, rfl⟩

/-- IllegalWordCompletesAtOnce: a word beside a listed one; written while idle, and in the latch. -/
theorem test_hyp_illegalWord :
    (∀ i, decode 0x00000002 ≠ .ok i) ∧
    (∃ s : State, s.events = .regWrite (s.cfg.regBase + 0x00C) 4 0x00000002 :: [] ∧ s.busy = false) ∧
    ∃ s : State, s.events = [] ∧ s.latch = some 0x00000002 :=
  ⟨fun i h => (by rw [show decode 0x00000002 = .error .reservedOpcode by decide] at h; cases h),
    ⟨withEvent (.regWrite 0x00C 4 2) base, rfl, rfl⟩, { base with latch := some 2 }, rfl, rfl⟩

/-- OverrunMarksALostCommand: a CMD write while BUSY; a step with OVERRUN set through a CTRL write of IRQ_EN alone. -/
theorem test_hyp_overrun :
    (∃ s : State, s.events = .regWrite (s.cfg.regBase + 0x00C) 4 0x00000000 :: [] ∧ s.busy = true) ∧
    ∃ s t : State, s.status.overrun = true ∧ step s = .next t ∧ (∀ rest, s.events ≠ .platformReset :: rest) ∧
      s.events = .regWrite (s.cfg.regBase + 0x004) 4 0xFFFFFFF9 :: [] ∧
      ∀ n v rest, s.events = .regWrite (s.cfg.regBase + 0x004) n v :: rest →
        v.getLsbD 1 = false ∧ v.getLsbD 2 = false := by
  refine ⟨⟨withEvent (.regWrite 0x00C 4 0) { base with latch := some 1 }, rfl, rfl⟩,
    withEvent (.regWrite 0x004 4 0xFFFFFFF9) { base with status := { base.status with overrun := true } }, _, rfl, rfl,
    fun _ h => (by cases h), rfl, fun n v rest h => ?_⟩
  cases h
  decide

/-- TruncIsSticky: a NOP with TRUNC set. -/
theorem test_hyp_trunc :
    ∃ s t : State, s.status.trunc = true ∧ step s = .next t ∧ (∀ rest, s.events ≠ .platformReset :: rest) ∧
      (∀ n v rest, s.events = .regWrite (s.cfg.regBase + 0x004) n v :: rest →
        v.getLsbD 1 = false ∧ v.getLsbD 2 = false) ∧
      runningInstr s ∉ [some .ctxInit, some .decodeImage, some .encodeImage] :=
  ⟨{ base with latch := some 0, status := { base.status with trunc := true } }, _, rfl, rfl, fun _ h => (by cases h),
    fun _ _ _ h => (by cases h), by decide⟩

/-- CtrlWriteActs: each clause, with CLR_STATUS while idle and while BUSY, and SOFT_RESET with CLR_STATUS (V-X12). -/
theorem test_hyp_ctrl :
    (∃ s : State, s.events = .regWrite (s.cfg.regBase + 0x004) 4 0x00000001 :: [] ∧
      (0x00000001 : Word).getLsbD 1 = false ∧ (0x00000001 : Word).getLsbD 2 = false) ∧
    (∃ s : State, s.events = .regWrite (s.cfg.regBase + 0x004) 4 0x00000005 :: [] ∧
      (0x00000005 : Word).getLsbD 1 = false ∧ (0x00000005 : Word).getLsbD 2 = true ∧ s.busy = false) ∧
    (∃ s : State, s.events = .regWrite (s.cfg.regBase + 0x004) 4 0x00000004 :: [] ∧
      (0x00000004 : Word).getLsbD 1 = false ∧ s.busy = true) ∧
    (∃ s : State, s.events = .regWrite (s.cfg.regBase + 0x004) 4 0x00000006 :: [] ∧
      (0x00000006 : Word).getLsbD 1 = true) ∧
    ∃ s : State, s.events = .regRead (s.cfg.regBase + 0x004) 4 :: [] :=
  ⟨⟨withEvent (.regWrite 0x004 4 1) base, rfl, rfl, rfl⟩, ⟨withEvent (.regWrite 0x004 4 5) base, rfl, rfl, rfl, rfl⟩,
    ⟨withEvent (.regWrite 0x004 4 4) { base with latch := some 0 }, rfl, rfl, rfl⟩,
    ⟨withEvent (.regWrite 0x004 4 6) base, rfl, rfl⟩, withEvent (.regRead 0x004 4) base, rfl⟩

/-- ResetFromEveryState: both resets, the first while an ENCODE_IMAGE runs. -/
theorem test_hyp_reset :
    (∃ s : State, s.events = .platformReset :: [] ∧ runningWrites s = ⟨0x100, 64⟩) ∧
    ∃ s : State, (0x00000002 : Word).getLsbD 1 = true ∧
      s.events = .regWrite (s.cfg.regBase + 0x004) 4 0x00000002 :: [] :=
  ⟨⟨withEvent .platformReset { pixels 64 with latch := some 0x81 }, rfl, by decide⟩,
    withEvent (.regWrite 0x004 4 2) base, rfl, rfl⟩

/-- RegisterMapIsOneToOne: the first and the last named offset, and its first unnamed neighbour. -/
theorem test_hyp_map :
    regAt 0x000 = some .id ∧ regAt 0x2C3C = some (.hsrcVal 3 255) ∧ regAt 0x2C40 = none ∧
    regAt 0x103C = some (.hsrcBits 0 15) ∧ regAt 0x1040 = some (.hsrcVal 0 0) ∧ regAt 0x048 = none := by decide

/-- HostReadsOfTheWindow: a plain register while BUSY, a result register while BUSY, an unnamed offset, and the two
wrong forms. -/
theorem test_hyp_hostRead :
    (∃ s : State, s.events = .regRead (s.cfg.regBase + regOffset .arg0) 4 :: [] ∧ s.busy = true ∧
      drawnWhileBusy .arg0 = false) ∧
    (∃ s : State, s.events = .regRead (s.cfg.regBase + regOffset (.blk 63)) 4 :: [] ∧ s.busy = true ∧
      drawnWhileBusy (.blk 63) = true) ∧
    (∃ s : State, s.events = .regRead (s.cfg.regBase + regOffset (.blk 63)) 4 :: [] ∧ s.busy = false) ∧
    (∃ s : State, s.events = .regRead (s.cfg.regBase + 0x2FFC) 4 :: []) ∧ regAt 0x2FFC = none ∧
    (∃ s : State, s.events = .regRead (s.cfg.regBase + 0x2FFF) 4 :: []) ∧ 0x2FFF % 4 ≠ 0 ∧
    (∃ s : State, s.events = .regRead (s.cfg.regBase + 0x010) 2 :: []) ∧
    WindowHolds { base with result1 := 7 } 0x01C 7 true :=
  ⟨⟨withEvent (.regRead 0x010 4) { base with latch := some 0 }, rfl, rfl, rfl⟩,
    ⟨withEvent (.regRead 0x1FC 4) { base with latch := some 0 }, rfl, rfl, rfl⟩,
    ⟨withEvent (.regRead 0x1FC 4) base, rfl, rfl⟩, ⟨withEvent (.regRead 0x2FFC 4) base, rfl⟩, by decide,
    ⟨withEvent (.regRead 0x2FFF 4) base, rfl⟩, by decide, ⟨withEvent (.regRead 0x010 2) base, rfl⟩, .result1⟩

/-- HostWritesToTheWindow: a stored register while idle and while BUSY, a read-only one, an unnamed offset, and the two
wrong forms. -/
theorem test_hyp_hostWrite :
    (∃ s : State, s.events = .regWrite (s.cfg.regBase + regOffset (.chCfg 3)) 4 0xFFFFFFFF :: [] ∧ s.busy = false ∧
      storedBits (.chCfg 3) = some 0x007F01FF) ∧
    (∃ s : State, s.events = .regWrite (s.cfg.regBase + regOffset (.chCfg 3)) 4 0xFFFFFFFF :: [] ∧ s.busy = true) ∧
    (∃ s : State, s.events = .regWrite (s.cfg.regBase + regOffset (.qt 3 63)) 4 1 :: [] ∧ s.busy = false ∧
      storedBits (.qt 3 63) = none) ∧
    (∃ s : State, s.events = .regWrite (s.cfg.regBase + 0x2FFC) 4 1 :: []) ∧ regAt 0x2FFC = none ∧
    (∃ s : State, s.events = .regWrite (s.cfg.regBase + 0x2FFD) 4 1 :: []) ∧ 0x2FFD % 4 ≠ 0 ∧
    ∃ s : State, s.events = .regWrite (s.cfg.regBase + 0x00C) 1 1 :: [] :=
  ⟨⟨withEvent (.regWrite 0x05C 4 0xFFFFFFFF) base, rfl, rfl, rfl⟩,
    ⟨withEvent (.regWrite 0x05C 4 0xFFFFFFFF) { base with latch := some 0 }, rfl, rfl⟩,
    ⟨withEvent (.regWrite 0x7FC 4 1) base, rfl, rfl, rfl⟩, ⟨withEvent (.regWrite 0x2FFC 4 1) base, rfl⟩, by decide,
    ⟨withEvent (.regWrite 0x2FFD 4 1) base, rfl⟩, by decide, withEvent (.regWrite 0x00C 1 1) base, rfl⟩

/-- DmemHazardsAreRefused: the last byte an ENCODE_IMAGE writes, the first it reads, and the byte after its output. -/
theorem test_hyp_hazards :
    ∃ s : State, (runningWrites s).has 0x13F = true ∧ (runningReads s).has 0 = true ∧
      (runningWrites s).has 0x140 = false ∧ (runningReads s).has 0x140 = false ∧ (runningWrites s).has 0xFF = false ∧
      (0x13F : Word).toNat < s.cfg.dmemSize ∧
      (∃ t : State, t.events = .memWrite 0x13F 1 :: [] ∧ t.latch = s.latch) ∧
      ∃ t : State, t.events = .memRead 0x13F :: [] ∧ t.latch = s.latch :=
  ⟨{ pixels 64 with latch := some 0x81 }, by decide, by decide, by decide, by decide, by decide, by decide,
    ⟨withEvent (.memWrite 0x13F 1) { pixels 64 with latch := some 0x81 }, rfl, rfl⟩,
    withEvent (.memRead 0x13F) { pixels 64 with latch := some 0x81 }, rfl, rfl⟩

/-- FailedCheckChangesOnlyStatus: a check that fails by one. -/
theorem test_hyp_failedCheck : ¬Passes (.htDecode 0 33) base ∧ ¬Passes (.qAdjust 0 .luminance)
    { base with chCfg := base.chCfg.set 0 (quality 101) } :=
  ⟨by unfold Passes; decide, by unfold Passes; decide⟩

/-- CommandsWriteOnlyTheirRange: a command that writes. -/
theorem test_hyp_writes :
    ∃ t, exec .bsFlush (writing 16 2 2) = .next t ∧ (writeSpan .bsFlush (writing 16 2 2)).has 0x200 = true :=
  ⟨_, rfl, by decide⟩

/-- CommandsReadOnlyTheirRange: DMEM changed just outside the range an UPSAMPLE reads. -/
theorem test_hyp_reads :
    ∀ a : Nat, (readSpan .upsample (p5 0 0x10)).has a = true →
      memRead (memWrite 8 [9] (p5 0 0x10).mem) a = memRead (p5 0 0x10).mem a := by
  intro a h
  have h : a < 8 := by
    rw [show readSpan .upsample (p5 0 0x10) = ⟨0, 8⟩ by decide] at h
    simpa [Span.has, inRange] using h
  have : ∀ b < 8, memLookup (memWrite 8 [9] (p5 0 0x10).mem) b = memLookup (p5 0 0x10).mem b := by decide
  simp only [memRead, this a h]

/-- StepKeepsMemoryLegal and the other invariants: a step from a legal state that runs a CTX_INIT. -/
theorem test_hyp_invariants :
    ∃ s t : State, Legal s ∧ step s = .next t ∧ t.status.done = true ∧ ScalesLegal s ∧ PaddingLegal s ∧
      MemoryLegal s ∧ TablesLegal s ∧ StreamLegal s ∧ StatusLegal s := by
  have L : Legal { base with latch := some 1 } :=
    { params := test_legal_base.params, memory := test_legal_base.memory, scales := test_legal_base.scales
      tables := test_legal_base.tables, stream := test_legal_base.stream
      status := by unfold StatusLegal; decide
      padding := test_legal_base.padding }
  obtain ⟨t, ht, hd⟩ := ofGoesOn (o := step { base with latch := some 1 }) (p := fun t => t.status.done)
    (by decide +kernel)
  exact ⟨_, t, L, ht, hd, L.scales, L.padding, L.memory, L.tables, L.stream, L.status⟩

/-- CtxInitSetsUpTheContext: a configuration at QUALITY 100 that passes, one with QUALITY 101 and a default value, and
one that fails. -/
theorem test_hyp_ctxInit :
    ContextPasses { base with variant := 2, width := 17, height := 8, chCfg := Vector.replicate 4 (quality 100) } ∧
    ContextPasses { base with chCfg := Vector.replicate 4 { quality 101 with defen := true } } ∧
    ¬ContextPasses { base with chCfg := Vector.replicate 4 (quality 101) } :=
  ⟨by unfold ContextPasses; decide, by unfold ContextPasses; decide, by unfold ContextPasses; decide⟩

/-- StreamOpens: ranges that end at the last byte, one that ends beyond, and an empty one anywhere. -/
theorem test_hyp_open :
    RangePasses base 0xFFFFFFFF 1 ∧ ¬RangePasses base 0xFFFFFFFF 2 ∧ RangePasses base 0xFFFFFFFF 0 :=
  ⟨by unfold RangePasses; decide, by unfold RangePasses; decide, by unfold RangePasses; decide⟩

/-- A reading stream within the limits. -/
theorem test_hyp_reading :
    StreamLegal (reading [0xA5]) ∧ StreamOpenIn .reading (reading [0xA5]) ∧ TablesLegal (reading [0xA5]) :=
  ⟨by unfold StreamLegal bsLegal; decide, ⟨rfl, by unfold RangePasses; decide⟩, test_tables_base⟩

/-- A reading stream at its greatest count, from which 32 bits are supplied, and one bit too few. -/
theorem test_hyp_supply :
    ∃ s : State, StreamLegal s ∧ s.bs.mode = .reading ∧ 32 ≤ s.bs.count.toNat ∧ s.bs.count.toNat = 39 :=
  ⟨{ base with bs := { bsOpen .reading 0 5 with count := 39, cursor := 5 } }, by unfold StreamLegal bsLegal; decide, rfl,
    by decide, rfl⟩

/-- A writing stream with its room filled exactly by N = 32, and a held partial byte with room for the flush. -/
theorem test_hyp_writing :
    StreamOpenIn .writing (writing 4 7 0x7F) ∧ StreamLegal (writing 4 7 0x7F) ∧
    (writing 4 7 0x7F).bs.cursor.toNat + ((writing 4 7 0x7F).bs.count.toNat + 32) / 8 ≤
      (writing 4 7 0x7F).bs.limit.toNat ∧
    (writing 1 7 0x7F).bs.cursor.toNat + 1 ≤ (writing 1 7 0x7F).bs.limit.toNat :=
  ⟨⟨rfl, by unfold RangePasses; decide⟩, by unfold StreamLegal bsLegal; decide, by decide, by decide⟩

/-- CanonicalBuildInClosedForm, HtBuildReplacesOneTable: sources that build, with one code of length 1, and one that is
over-subscribed by one code. -/
theorem test_hyp_build :
    (∃ t, htBuild (sourceOf [1] [16]) = some t) ∧ htBuild (sourceOf [2, 1] [1, 2, 3]) = none ∧
    (∃ h, htBuild base.hsrc[(3 : TableId)] = some h) ∧
    ∃ t, htBuild (sourceOf [2] [1, 2]) = some t ∧ t.decodeMap 1 1 = some 2 := by
  have built {o : Option Ht} {p : Ht → Bool} (h : o.any p = true) : ∃ t, o = some t ∧ p t = true := by
    simpa [Option.any_eq_true] using h
  have weaken {o : Option Ht} {p : Ht → Bool} : (∃ t, o = some t ∧ p t = true) → ∃ t, o = some t := fun ⟨t, h, _⟩ => ⟨t, h⟩
  have last := built (o := htBuild (sourceOf [2] [1, 2])) (p := fun t => decide (t.decodeMap 1 1 = some 2))
    (by decide +kernel)
  exact ⟨weaken (built (p := fun _ => true) (by decide +kernel)), by decide +kernel,
    weaken (built (p := fun _ => true) (by decide +kernel)), by simpa using last⟩

/-- HtLookupsFollowTheCodes: a code that ARG0's low bits spell, a symbol ARG0, and misses of both. -/
theorem test_hyp_lookups :
    (∃ e ∈ base.ht[(1 : TableId)].codes, 4 = e.len.toNat ∧ 0xFFFFFFFA % 2 ^ 4 = e.code.toNat) ∧
    (∀ e ∈ base.ht[(1 : TableId)].codes, 3 = e.len.toNat → 0xFFFFFFFD % 2 ^ 3 ≠ e.code.toNat) ∧
    (∃ e ∈ base.ht[(1 : TableId)].codes, 0x41 = e.sym.toNat) ∧
    ∀ e ∈ base.ht[(1 : TableId)].codes, 0x100 ≠ e.sym.toNat := by decide +kernel

/-- HuffmanRoundTrip: a symbol that hits and a code that hits. -/
theorem test_hyp_huffmanRoundTrip :
    (∃ t, exec (.htEncode 1) { base with arg0 := 0x31 } = .next t ∧ t.result1 ≠ 0) ∧
    ∃ t, exec (.htDecode 1 6) { base with arg0 := 0x3A } = .next t ∧ t.result1 = 1 ∧ 0x3A < 2 ^ 6 :=
  ⟨⟨_, rfl, by decide +kernel⟩, _, rfl, by decide +kernel, by decide⟩

/-- HtReadFollowsTheStream: a code that starts the stream; none with too few bits; none with MAXLEN bits. -/
theorem test_hyp_htRead :
    (∃ e ∈ base.ht[(0 : TableId)].codes,
      msbBits e.code.toNat e.len.toNat <+: streamBits (reading [0x6F]).mem (reading [0x6F]).bs) ∧
    ((∀ e ∈ base.ht[(0 : TableId)].codes,
        ¬msbBits e.code.toNat e.len.toNat <+: streamBits (reading [0xFF]).mem (reading [0xFF]).bs) ∧
      (streamBits (reading [0xFF]).mem (reading [0xFF]).bs).length < base.ht[(0 : TableId)].maxLen.toNat) ∧
    (∀ e ∈ base.ht[(0 : TableId)].codes,
      ¬msbBits e.code.toNat e.len.toNat <+: streamBits (reading [0xFF, 0xFF]).mem (reading [0xFF, 0xFF]).bs) ∧
    base.ht[(0 : TableId)].maxLen.toNat ≤
      (streamBits (reading [0xFF, 0xFF]).mem (reading [0xFF, 0xFF]).bs).length := by decide +kernel

/-- ConstantBlockHasOnlyDc: the least and the greatest constant. -/
theorem test_hyp_constantBlock :
    (∀ i : Fin 64, (withBlock (List.replicate 64 (-128))).blk[i].toInt = -128) ∧
    ∀ i : Fin 64, (withBlock (List.replicate 64 127)).blk[i].toInt = 127 := by decide +kernel

/-- QuantAndDequantRoundHalfUp, QuantisingLosesHalfAStep: legal scales, and an entry at the bound. -/
theorem test_hyp_quant :
    ScalesLegal base ∧ ∃ s : State, ScalesLegal s ∧ s.blk[(0 : Fin 64)].toInt = 2 ^ 30 ∧
      s.blk[(1 : Fin 64)].toInt = -2 ^ 30 :=
  ⟨test_scales_base, { base with blk := blockOf [1073741824, -1073741824] }, test_scales_base, by decide +kernel,
    by decide +kernel⟩

/-- QAdjustBuildsOneScaleTable: the greatest legal quality factor and the next. -/
theorem test_hyp_qAdjust : (quality 100).quality.toNat ≤ 100 ∧ 100 < (quality 101).quality.toNat := by decide

/-- UpsampleReplicates, DownsampleAverages, DownsampleUndoesUpsample: a plane and its in-place up- and downsampling; an
overlap that fails. -/
theorem test_hyp_sampler :
    Passes .upsample (p5 0 0) ∧ Passes .downsample (p5 0 0) ∧ ¬Passes .upsample (p5 0 4) ∧
    ∃ t, exec .upsample (p5 0 0) = .next t ∧ Passes .downsample { t with arg0 := 0, arg1 := 0x40 } :=
  ⟨⟨by decide, by decide, .inr (by decide), .inr (by decide), .inl rfl⟩,
    ⟨by decide, by decide, .inr (by decide), .inr (by decide), .inl rfl⟩,
    fun h => h.2.2.2.2.elim (by decide) fun d => d 4 (by decide),
    _, rfl, by decide, by decide, .inr (by decide), .inr (by decide), .inr (disjoint_of_le (by decide))⟩

/-- The items of V-B1's block, from R100: DC size 3, (0, 2), (3, 1), EOB with their magnitudes. -/
def itemsB1 : List (Nat × Nat) := [(4, 3), (5, 3), (1, 2), (0, 2), (0x3A, 6), (1, 1), (0xA, 4)]

/-- BlkDecodeOfAnEncodedBlock: V-B1's block and a stream that starts with its bits. -/
theorem test_hyp_blkDecode :
    blkSymbols base.ht[dcTable .luminance] base.ht[acTable .luminance] 0 (blockOf [5, -3, 0, 0, 0, 1]) = some itemsB1 ∧
    streamBits (reading [0x95, 0x3A, 0xD7]).mem (reading [0x95, 0x3A, 0xD7]).bs =
      itemsBits itemsB1 ++ [true, true, true] ∧
    StreamLegal (reading [0x95, 0x3A, 0xD7]) ∧ StreamOpenIn .reading (reading [0x95, 0x3A, 0xD7]) :=
  ⟨by decide +kernel, by decide +kernel, by unfold StreamLegal bsLegal; decide, rfl, by unfold RangePasses; decide⟩

/-- BlkEncodeAppendsTheItems: a sink filled exactly, one byte too few, and a block with no code (V-B13). -/
theorem test_hyp_blkEncode :
    itemBits itemsB1 = 21 ∧ (0 + (0 + itemBits itemsB1) / 8 ≤ (writing 2 0 0).bs.limit.toNat) ∧
    (writing 1 0 0).bs.limit.toNat < 0 + (0 + itemBits itemsB1) / 8 ∧
    blkSymbols base.ht[dcTable .luminance] base.ht[acTable .luminance] 0 (blockOf [2048]) = none ∧
    StreamLegal (writing 2 0 0) ∧ StreamOpenIn .writing (writing 2 0 0) ∧
    TablesLegal base ∧ BlkCodes base.ht[dcTable .luminance] base.ht[acTable .luminance] 0 (blockOf [2048]) none ∧
    BlkCodes base.ht[dcTable .luminance] base.ht[acTable .luminance] 0 (blockOf [5, -3, 0, 0, 0, 1]) (some itemsB1) :=
  ⟨by decide, by decide, by decide, by decide +kernel, by unfold StreamLegal bsLegal; decide,
    ⟨rfl, by unfold RangePasses; decide⟩, test_tables_base,
    .noCode (s := 12) (by unfold SizeIs; decide) (by decide) (by unfold Absent; decide +kernel),
    (blkCodes_iff (tableOk_of_legal test_tables_base _) (tableOk_of_legal test_tables_base _) _ _ _).mpr
      test_hyp_blkDecode.1⟩

/-- DcOnlyBlockIsOneEob: V-B3's block, DC 3 with predictor 0: 011 (size 2), 11, 1010. -/
theorem test_hyp_dcOnly :
    (⟨3, 3, 2⟩ : CodeEntry) ∈ base.ht[dcTable .luminance].codes ∧
    (⟨0xA, 4, 0⟩ : CodeEntry) ∈ base.ht[acTable .luminance].codes ∧
    (∀ i : Fin 64, i ≠ 0 → (blockOf [3])[i] = 0) ∧ bitlen ((blockOf [3])[(0 : Fin 64)] - 0).toInt = 2 ∧
    (0 + (0 + (3 + 2 + 4)) / 8 ≤ (writing 1 0 0).bs.limit.toNat) := by decide +kernel

/-- The two blocks of V-I3 and their items. -/
def zsI3 : List (BlockPos × Block) := [(⟨0, 0, 0⟩, blockOf [90]), (⟨1, 0, 0⟩, blockOf [-147])]

/-- 11110 1011010 1010 and 111110 01101100 1010. -/
def itemsI3 : List (Nat × Nat) := [(30, 5), (90, 7), (0xA, 4), (62, 6), (108, 8), (0xA, 4)]

theorem test_passes_coded : Passes .decodeImage (coded 5) :=
  ⟨by unfold ContextPasses; decide, by decide, .inr (by decide), .inr (by decide), disjoint_of_le (by decide)⟩

/-- DecodeImageOfCodedBlocks: the encoded image of V-I3. -/
theorem test_hyp_decodeImage :
    TablesLegal (coded 5) ∧ Passes .decodeImage (coded 5) ∧ ContextScales (coded 5) (ctxSetup (coded 5)).qt ∧
    zsI3.map Prod.fst = blocks (coded 5) ∧ codedItems (coded 5) (Vector.replicate 4 0) zsI3 = some itemsI3 ∧
    byteBits (memBytes (coded 5).mem (coded 5).srcBase.toNat (coded 5).srcLen.toNat) =
      itemsBits itemsI3 ++ List.replicate 6 true :=
  ⟨test_tables_base, test_passes_coded, (contextScales_iff _ _).mpr rfl, by decide +kernel, by decide +kernel,
    by decide +kernel⟩

/-- EmptySourceGivesMidGrey: a source of no bytes. -/
theorem test_hyp_emptySource :
    TablesLegal (coded 0) ∧ Passes .decodeImage (coded 0) ∧ (coded 0).srcLen = 0 ∧ blocks (coded 0) ≠ [] :=
  ⟨test_tables_base,
    ⟨by unfold ContextPasses; decide, by decide, .inl (by decide), .inr (by decide), disjoint_of_le (by decide)⟩,
    by decide, by decide +kernel⟩

theorem test_passes_pixels : Passes .encodeImage (pixels 64) :=
  ⟨by unfold ContextPasses; decide, by decide, .inr (by decide), .inr (by decide), disjoint_of_le (by decide)⟩

/-- EncodeImageWritesTheCodedBlocks: the pixels of V-I3, 34 bits, 5 bytes, 16 with the padding. -/
theorem test_hyp_encodeImage :
    Passes .encodeImage (pixels 64) ∧ ContextScales (pixels 64) (ctxSetup (pixels 64)).qt ∧
      codedItems (pixels 64) (Vector.replicate 4 0) (preparedBlocks (pixels 64) (ctxSetup (pixels 64)).qt) =
        some itemsI3 ∧
      (itemBits itemsI3 + 7) / 8 = 5 ∧ (5 + 15) / 16 * 16 ≤ (pixels 64).dstCap.toNat :=
  ⟨test_passes_pixels, (contextScales_iff _ _).mpr rfl, by decide +kernel, by decide, by decide⟩

/-- ImageFaultLeavesTheRest: a full sink (V-I8), and a source without a DC code. -/
theorem test_hyp_imageFault :
    (Passes .encodeImage (pixels 4) ∧ (∃ ctx, exec .ctxInit (pixels 4) = .next ctx) ∧
      ∃ t, exec .encodeImage (pixels 4) = .next t ∧ t.status.err = true) ∧
    ∃ s : State, Passes .decodeImage s ∧ ∃ t, exec .decodeImage s = .next t ∧ t.status.err = true :=
  ⟨⟨⟨by unfold ContextPasses; decide, by decide, .inr (by decide), .inr (by decide), disjoint_of_le (by decide)⟩,
      ⟨_, rfl⟩, _, rfl, by decide +kernel⟩,
    { coded 5 with mem := (withBytes 0 [0xFF, 0xFF, 0xFF, 0xFF, 0xFF]).mem }, test_passes_coded, _, rfl,
    by decide +kernel⟩

/-- DecodeImageReadsWhatEncodeImageWrote: the encoded pixels of V-I3, decoded to 0x200. -/
theorem test_hyp_imageRoundTrip :
    TablesLegal (pixels 64) ∧ Passes .encodeImage (pixels 64) ∧
    ∃ t, exec .encodeImage (pixels 64) = .next t ∧ t.status.err = false ∧
      Passes .decodeImage { t with srcBase := (pixels 64).dstBase, srcLen := t.result0, dstBase := 0x200, dstCap := 256 } := by
  obtain ⟨t, ht, hp⟩ := ofGoesOn (o := exec .encodeImage (pixels 64)) (p := fun t =>
    t.result0 == 16 && !t.status.err && t.cfg == base.cfg && t.variant == 2 && t.width == 8 && t.height == 8 &&
      t.chCfg == (pixels 64).chCfg) (by decide +kernel)
  simp only [Bool.and_eq_true, beq_iff_eq, Bool.not_eq_true'] at hp
  obtain ⟨⟨⟨⟨⟨⟨h0, h1⟩, h2⟩, h3⟩, h4⟩, h5⟩, h6⟩ := hp
  refine ⟨test_tables_base, test_passes_pixels, t, ht, h1, ?_⟩
  have q : ∀ c : Channel, (pixels 64).chCfg[c].defen = true ∨ (pixels 64).chCfg[c].quality.toNat ≤ 100 := by decide
  unfold Passes ContextPasses RangePasses padWidth padHeight
  simp only [h0, h2, h3, h4, h5, h6]
  exact ⟨⟨by decide, by decide, q⟩, by decide, by decide, by decide, disjoint_of_le (by decide)⟩

end Sys2Proof.Tests
end

section
/-! PROOFS. What a step can do, said once, and the properties a step keeps because commands and resets keep them
(10_state.md R13 to R33, 60_exceptions.md R113 to R119). -/

namespace Sys2Proof.Machine

/-! ### Everything a step can do -/

/-- What a step from s goes on to: a command, IllegalCommand, a reset, a register write, or nothing but new bus data,
new draws and a new DMEM. -/
inductive StepDoes (s : State) : State → Prop where
  | command {t : State} (rest : List Event) (i : Instr) : runningInstr s = some i →
      exec i { s with events := rest } = .next t → StepDoes s t
  | illegal (rest : List Event) : StepDoes s (illegalCommand { s with events := rest })
  | reset (rest : List Event) : s.events = .platformReset :: rest → StepDoes s (resetCore { s with events := rest })
  | write (rest : List Event) (off : Nat) (v : Word) (r : Reg) :
      s.events = .regWrite (s.cfg.regBase + off) 4 v :: rest → regAt off = some r →
      StepDoes s (writeReg r v { s with events := rest })
  | quiet (rest : List Event) (d : Word) (k : Nat) (m : Memory) :
      StepDoes s { s with busData := d, draws := k, mem := m, events := rest }

/-- The engine's completion of the latched command, with the event list already shortened. -/
theorem stepDoes_runLatched {s t : State} {rest : List Event} (h : runLatched { s with events := rest } = .next t) :
    StepDoes s t := by
  rcases runLatched_cases h with ⟨-, rfl⟩ | ⟨i, hi, he⟩ | rfl
  · exact .quiet rest s.busData s.draws s.mem
  · exact .command rest i hi he
  · exact .illegal rest

theorem step_does {s t : State} (h : step s = .next t) : StepDoes s t := by
  rcases he : s.events with _ | ⟨e, rest⟩
  · rw [step_idle he] at h
    exact stepDoes_runLatched (rest := s.events) h
  rw [step_event he] at h
  cases e with
  | regRead addr n =>
    obtain ⟨d, k, rfl⟩ := hostRegRead_cases h
    exact .quiet rest d k s.mem
  | regWrite addr n v =>
    rcases hostRegWrite_cases h with rfl | ⟨off, r, -, -, rfl, rfl, hr, rfl⟩
    · exact .quiet rest s.busData s.draws s.mem
    · exact .write rest off v r he hr
  | memRead a =>
    obtain ⟨-, -, rfl⟩ := hostMemRead_cases h
    exact .quiet rest _ s.draws s.mem
  | memWrite a b =>
    obtain ⟨-, -, -, rfl⟩ := hostMemWrite_cases h
    exact .quiet rest s.busData s.draws _
  | platformReset =>
    simp only [handle, Host.Outcome.next.injEq] at h
    exact h ▸ .reset rest he
  | complete => exact stepDoes_runLatched h

/-! ### Register writes -/

/-- The registers and tables a host write never reaches: only commands and resets change them. -/
structure EngineSame (s t : State) : Prop where
  padW : t.padW = s.padW
  padH : t.padH = s.padH
  bs   : t.bs = s.bs
  ht   : t.ht = s.ht
  qt   : t.qt = s.qt

/-- A write to a plain register touches none of the engine's registers, nor the latch, STATUS, DMEM and the events. -/
theorem writePlain_frame (r : Reg) (v : Word) (s : State) : EngineSame s (writePlain r v s) ∧
    (writePlain r v s).latch = s.latch ∧ (writePlain r v s).status = s.status ∧ (writePlain r v s).mem = s.mem ∧
    (writePlain r v s).events = s.events := by
  cases r <;> exact ⟨⟨rfl, rfl, rfl, rfl, rfl⟩, rfl, rfl, rfl, rfl⟩

theorem acknowledge_busy {s : State} (h : s.busy = true) : acknowledge s = s := if_pos h

theorem acknowledge_idle {s : State} (h : s.busy = false) :
    acknowledge s = { s with status := statusCleared s.status } := by
  rw [acknowledge, h]
  rfl

/-- Everything a CTRL write can do. -/
theorem writeCtrl_cases (v : Word) (s : State) :
    (v.getLsbD 1 = true ∧ writeCtrl v s = resetCore s) ∨
    (v.getLsbD 1 = false ∧ v.getLsbD 2 = true ∧ s.busy = false ∧
      writeCtrl v s = { s with irqEn := v.getLsbD 0, status := statusCleared s.status }) ∨
    (v.getLsbD 1 = false ∧ (v.getLsbD 2 = false ∨ s.busy = true) ∧
      writeCtrl v s = { s with irqEn := v.getLsbD 0 }) := by
  cases h1 : v.getLsbD 1
  case true => exact .inl ⟨rfl, if_pos h1⟩
  have off : writeCtrl v s = if v.getLsbD 2 then acknowledge { s with irqEn := v.getLsbD 0 } else
      { s with irqEn := v.getLsbD 0 } := if_neg (by rw [h1]; decide)
  rw [off]
  cases v.getLsbD 2
  case false => exact .inr (.inr ⟨rfl, .inl rfl, rfl⟩)
  cases hb : s.busy
  case false => exact .inr (.inl ⟨rfl, rfl, rfl, acknowledge_idle hb⟩)
  case true => exact .inr (.inr ⟨rfl, .inr rfl, acknowledge_busy hb⟩)

/-- Everything a CMD write can do: the command is lost, latched, or completes at once with IllegalCommand. -/
theorem writeCmd_cases (w : Word) (s : State) :
    (s.busy = true ∧ writeCmd w s = { s with status := statusOverrun s.status }) ∨
    (s.busy = false ∧ (∃ i, decode w = .ok i) ∧ writeCmd w s = latchCommand w s) ∨
    (s.busy = false ∧ writeCmd w s = illegalCommand (latchCommand w s)) := by
  rw [writeCmd]
  cases hb : s.busy with
  | true => exact .inl ⟨rfl, rfl⟩
  | false =>
    cases hd : decode w with
    | ok i => exact .inr (.inl ⟨rfl, ⟨i, rfl⟩, by simp [acceptCommand, hd]⟩)
    | error e => exact .inr (.inr ⟨rfl, by simp [acceptCommand, hd]⟩)

/-- A write to any register but CTRL and CMD: ignored while BUSY. -/
theorem writeReg_other {r : Reg} (hctrl : r ≠ .ctrl) (hcmd : r ≠ .cmd) (v : Word) (s : State) :
    writeReg r v s = if s.busy then s else writePlain r v s := by
  cases r
  case ctrl => exact absurd rfl hctrl
  case cmd => exact absurd rfl hcmd
  all_goals rfl

/-- A register write leaves the engine's registers, unless it is a CTRL write that resets. -/
theorem writeReg_engine (r : Reg) (v : Word) (s : State) :
    writeReg r v s = resetCore s ∨ EngineSame s (writeReg r v s) := by
  by_cases hctrl : r = .ctrl
  · subst hctrl
    rcases writeCtrl_cases v s with ⟨-, h⟩ | ⟨-, -, -, h⟩ | ⟨-, -, h⟩
    · exact .inl h
    all_goals exact .inr (by rw [writeReg, h]; exact ⟨rfl, rfl, rfl, rfl, rfl⟩)
  by_cases hcmd : r = .cmd
  · subst hcmd
    rcases writeCmd_cases v s with ⟨-, h⟩ | ⟨-, -, h⟩ | ⟨-, h⟩
    all_goals exact .inr (by rw [writeReg, h]; exact ⟨rfl, rfl, rfl, rfl, rfl⟩)
  · rw [writeReg_other hctrl hcmd]
    split
    · exact .inr ⟨rfl, rfl, rfl, rfl, rfl⟩
    · exact .inr (writePlain_frame r v s).1

/-- A property of the engine's registers is kept by every step if every command keeps it and a reset gives it. -/
theorem step_keeps_engine {P : State → Prop} (same : ∀ {s t : State}, EngineSame s t → P s → P t)
    (command : ∀ {i : Instr} {s t : State}, exec i s = .next t → P s → P t) (reset : ∀ s : State, P (resetCore s))
    {s t : State} (h : step s = .next t) (hs : P s) : P t := by
  have events : ∀ rest : List Event, EngineSame s { s with events := rest } := fun _ => ⟨rfl, rfl, rfl, rfl, rfl⟩
  cases step_does h with
  | command rest i _ he => exact command he (same (events rest) hs)
  | illegal rest => exact same (s := s) ⟨rfl, rfl, rfl, rfl, rfl⟩ hs
  | reset rest _ => exact reset _
  | write rest off v r _ _ =>
    rcases writeReg_engine r v { s with events := rest } with h | h
    · exact h ▸ reset _
    · exact same h (same (events rest) hs)
  | quiet rest d k m => exact same (s := s) ⟨rfl, rfl, rfl, rfl, rfl⟩ hs

end Sys2Proof.Machine
end

section
/-! PROOFS. The scale tables, the padded dimensions and the built tables: what commands and resets do to them
(10_state.md R30, R32; 41_huffman.md R64, R65; 43_quantizer.md R82; 47_image.md R105, R106). -/

namespace Sys2Proof.Machine

/-! ### What a command does to the tables and the padded dimensions -/

/-- The scale tables, the padded dimensions and the built tables of t after a command from s: untouched, set up for a
Context, one scale table rescaled, or one Huffman table built. -/
inductive TablesAfter (s t : State) : Prop where
  | same : t.qt = s.qt → t.padW = s.padW → t.padH = s.padH → t.ht = s.ht → TablesAfter s t
  | context : t.qt = (ctxSetup s).qt → t.padW = (ctxSetup s).padW → t.padH = (ctxSetup s).padH → t.ht = s.ht →
      TablesAfter s t
  | scaled (c : Channel) (base : Vector Byte 64) (q : Nat) : t.qt = s.qt.set c (scaleTable base q) →
      t.padW = s.padW → t.padH = s.padH → t.ht = s.ht → TablesAfter s t
  | built (k : TableId) (src : Hsrc) (new : Ht) : htBuild src = some new → t.qt = s.qt → t.padW = s.padW →
      t.padH = s.padH → t.ht = s.ht.set k new → TablesAfter s t

theorem exec_tablesAfter {i : Instr} {s t : State} (h : exec i s = .next t) : TablesAfter s t := by
  cases i
  case ctxInit =>
    cases h
    split
    · exact .context rfl rfl rfl rfl
    · exact .same rfl rfl rfl rfl
  case htBuild k =>
    cases h
    split
    · rename_i new hb
      exact .built k _ new hb rfl rfl rfl rfl
    · exact .same rfl rfl rfl rfl
  case qAdjust c k =>
    cases h
    split
    · exact .scaled c _ _ rfl rfl rfl rfl
    · exact .same rfl rfl rfl rfl
  case blkDecode c k =>
    cases h
    dsimp only
    repeat' split
    all_goals exact .same rfl rfl rfl rfl
  case decodeImage =>
    cases h
    dsimp only
    split
    case isFalse => exact .same rfl rfl rfl rfl
    split
    · rw [imageFault_eq]
      apply TablesAfter.context <;> simp
    · split <;> apply TablesAfter.context <;> simp [succeed]
  case encodeImage =>
    cases h
    dsimp only
    split
    case isFalse => exact .same rfl rfl rfl rfl
    split
    · rw [imageFault_eq]
      apply TablesAfter.context <;> simp
    split
    · rw [imageFault_eq]
      apply TablesAfter.context <;> simp
    · apply TablesAfter.context <;> simp [succeed]
  all_goals
    cases h
    repeat' split
    all_goals exact .same rfl rfl rfl rfl

/-! ### The scale tables -/

/-- A scale table's entry is in [100, 25500], whatever the base table and the quality (R82). -/
theorem scaleTable_range (base : Vector Byte 64) (q : Nat) (i : Fin 64) :
    100 ≤ (scaleTable base q)[i].toNat ∧ (scaleTable base q)[i].toNat ≤ 25500 := by
  have h := toNat_scaleTable base q i
  omega

theorem ctxTable_legal {s : State} (h : ScalesLegal s) (c : Channel) (i : Fin 64) :
    100 ≤ (ctxTable s c)[i].toNat ∧ (ctxTable s c)[i].toNat ≤ 25500 := by
  rw [ctxTable]
  split
  · exact h c i
  · exact scaleTable_range _ _ i

/-- The entry of a vector after one entry is set. -/
theorem getElem_set_fin {α : Type} {n : Nat} (v : Vector α n) (k c : Fin n) (x : α) :
    (v.set k x)[c] = if c = k then x else v[c] := by
  simp only [Fin.getElem_fin, Vector.getElem_set, Fin.ext_iff, eq_comm]

theorem exec_scalesLegal {i : Instr} {s t : State} (h : exec i s = .next t) (hs : ScalesLegal s) : ScalesLegal t := by
  intro c j
  cases exec_tablesAfter h with
  | same hq | built _ _ _ _ hq => rw [hq]; exact hs c j
  | context hq =>
    rw [hq, show (ctxSetup s).qt[c] = ctxTable s c by simp]
    exact ctxTable_legal hs c j
  | scaled k base q hq =>
    rw [hq, getElem_set_fin]
    split
    · exact scaleTable_range base q j
    · exact hs c j

/-! ### The padded dimensions -/

/-- A dimension padded to 8 or 16 stays a multiple of 8 in its 17-bit register (R106). -/
theorem padTo_mod (v : BitVec 2) (w : Nat) : (BitVec.ofNat 17 (padTo (variantUnit v) w)).toNat % 8 = 0 := by
  have h8 : 8 ∣ variantUnit v := by
    rw [variantUnit]
    split <;> decide
  rw [BitVec.toNat_ofNat, Nat.mod_mod_of_dvd _ (by decide), ← Nat.dvd_iff_mod_eq_zero, padTo]
  exact h8.mul_left _

theorem exec_paddingLegal {i : Instr} {s t : State} (h : exec i s = .next t) (hs : PaddingLegal s) :
    PaddingLegal t := by
  rw [PaddingLegal]
  cases exec_tablesAfter h with
  | same _ hw hh | built _ _ _ _ _ hw hh | scaled _ _ _ _ hw hh => rw [hw, hh]; exact hs
  | context _ hw hh => rw [hw, hh]; exact ⟨padTo_mod _ _, padTo_mod _ _⟩

/-! ### The built tables -/

theorem exec_tablesLegal {i : Instr} {s t : State} (h : exec i s = .next t) (hs : TablesLegal s) : TablesLegal t := by
  intro c
  cases exec_tablesAfter h with
  | same _ _ _ ht | context _ _ _ ht | scaled _ _ _ _ _ _ ht => rw [ht]; exact hs c
  | built k src new hb _ _ _ ht =>
    rw [ht, getElem_set_fin]
    split
    · exact ⟨src, hb⟩
    · exact hs c

/-- Every table source of R63 builds. -/
theorem isSome_htBuild_hsrcAtReset : ∀ k : TableId, (htBuild hsrcAtReset[k]).isSome = true := by decide +kernel

theorem htBuild_hsrcAtReset (k : TableId) : htBuild hsrcAtReset[k] = some htAtReset[k] := by
  obtain ⟨t, ht⟩ := Option.isSome_iff_exists.mp (isSome_htBuild_hsrcAtReset k)
  rw [ht]
  simp only [Fin.getElem_fin] at ht
  simp only [htAtReset, Fin.getElem_fin, Vector.getElem_map, ht, Option.getD_some]

/-! ### The reset state -/

theorem resetCore_scalesLegal (s : State) : ScalesLegal (resetCore s) := by
  intro c i
  simp [resetCore, State.atReset]

theorem resetCore_paddingLegal (s : State) : PaddingLegal (resetCore s) := ⟨rfl, rfl⟩

theorem resetCore_tablesLegal (s : State) : TablesLegal (resetCore s) := fun k => ⟨_, htBuild_hsrcAtReset k⟩

/-- Settles O22: only Q_ADJUST and a Context's set-up write scale tables, both by R82, and only the set-up pads. -/
theorem stepKeepsScalesAndPadding : Obligations.StepKeepsScalesAndPadding := by
  intro s t h
  refine ⟨fun hs => ?_, fun hs => ?_⟩
  · exact step_keeps_engine (P := ScalesLegal) (fun e hs c i => by rw [e.qt]; exact hs c i) exec_scalesLegal
      resetCore_scalesLegal h hs
  · exact step_keeps_engine (P := PaddingLegal) (fun e hs => by rw [PaddingLegal, e.padW, e.padH]; exact hs)
      exec_paddingLegal resetCore_paddingLegal h hs

/-- Settles O23: a table changes only in HT_BUILD, which keeps it where the build fails, and in a reset. -/
theorem stepKeepsTablesBuilt : Obligations.StepKeepsTablesBuilt := by
  intro s t hs h
  exact step_keeps_engine (P := TablesLegal) (fun e hs k => by rw [e.ht]; exact hs k) exec_tablesLegal
    resetCore_tablesLegal h hs

end Sys2Proof.Machine
end

section
/-! PROOFS. The bitstream unit within its limits: what each internal function and each command leaves in the BS_
registers (10_state.md R26, 40_bitstream.md R55). -/

namespace Sys2Proof.Machine

/-! ### The internal functions -/

theorem bsLegal_bsOpen (mode : BsMode) (base limit : Word) : bsLegal (bsOpen mode base limit) := by
  simp [bsLegal, bsOpen]

/-- A reader that started within its limits and holds at most the 39 bits of R26 is within them. -/
theorem Reads.bsLegal {m : Memory} {n : Nat} {b b' : Bs} (h : Reads m n b b') (hm : b.mode = .reading)
    (hb : bsLegal b) (hc : b'.count.toNat ≤ max b.count.toNat 39) : bsLegal b' := by
  obtain ⟨hmax, -⟩ := hb
  rw [hm, bsCountMax] at hmax
  refine ⟨?_, h.bufOk⟩
  rw [h.mode, hm, bsCountMax]
  omega

theorem bsLegal_bsCan {m : Memory} {n : Nat} {b : Bs} (hn : n ≤ 32) (hm : b.mode = .reading) (hb : bsLegal b) :
    bsLegal (bsCan m n b).1 := by
  have hc := bsCan_count_le m n (by omega) b hb.2
  exact (bsCan_spec m n (by omega) b hb.2).1.bsLegal hm hb (by omega)

theorem bsLegal_bsTake {n : Nat} {b : Bs} (hn : n ≤ b.count.toNat) (hb : bsLegal b) : bsLegal (bsTake n b).1 := by
  refine ⟨?_, (bsTake_held n b hn).2⟩
  rw [bsTake_count]
  exact (Nat.sub_le _ _).trans hb.1

theorem bsLegal_htRead {h : Ht} {m : Memory} {b : Bs} (hm : b.mode = .reading) (hb : bsLegal b) :
    bsLegal (htRead h m b).1 := by
  obtain ⟨n, -, hr⟩ := htRead_spec h m b hb.2
  exact hr.bsLegal hm hb (htRead_count h m b hb.2).1

theorem bsLegal_blkDecode {dc ac : Ht} {m : Memory} {pred : Word} {b : Bs} (hm : b.mode = .reading) (hb : bsLegal b) :
    bsLegal (blkDecode dc ac m pred b).bs := by
  obtain ⟨⟨n, hr⟩, hc, -⟩ := blkDecode_spec dc ac m pred b hb.2 _ rfl
  exact hr.bsLegal hm hb hc

/-- Every mode allows 7 bits. -/
theorem bsLegal_of_count_le {b : Bs} (hc : b.count.toNat ≤ 7) (hb : BufOk b) : bsLegal b :=
  ⟨hc.trans (by cases b.mode <;> decide), hb⟩

theorem bsLegal_bsPut (v n : Nat) (b : Bs) : bsLegal (bsPut v n b).1 := by
  obtain ⟨-, hc, hb, -⟩ := bsPut_spec v n b
  exact bsLegal_of_count_le (by omega) hb

/-- `bs_put` of a list of items, from a writer within its limits with room for them all. -/
theorem bsLegal_bsPutAll {items : List (Nat × Nat)} {b : Bs} (hm : b.mode = .writing) (hb : bsLegal b)
    (hroom : bsRoom (itemBits items) b = true) : bsLegal (bsPutAll items b).1 := by
  obtain ⟨hmax, hbuf⟩ := hb
  rw [hm, bsCountMax] at hmax
  simp only [bsRoom, decide_eq_true_eq] at hroom
  have hlim := b.limit.isLt
  obtain ⟨-, -, -, hok, -, -, hc, -⟩ := bsPutAll_spec items b (by omega) hbuf
  exact bsLegal_of_count_le (by have := hc (.inr (by omega)); omega) hok

theorem bsLegal_bsFlush {b : Bs} (hm : b.mode = .writing) (hb : bsLegal b) : bsLegal (bsFlush b).1 := by
  obtain ⟨hmax, hbuf⟩ := hb
  rw [hm, bsCountMax] at hmax
  obtain ⟨-, -, hc, -, -, -, hok⟩ := bsFlush_spec b hmax
  exact bsLegal_of_count_le (by omega) (hok hbuf)

/-- The unspecified BS_ state keeps R26's limits (log 7). -/
theorem bsLegal_bsOfDraws (k : Nat) : bsLegal (bsOfDraws k) := by
  have hmax : bsCountMax (bsModeOfDraw (Config.freeWord k)) ≤ 64 := by
    cases bsModeOfDraw (Config.freeWord k) <;> decide
  have hlt : (Config.freeWord (k + 1)).toNat % (bsCountMax (bsModeOfDraw (Config.freeWord k)) + 1) <
      bsCountMax (bsModeOfDraw (Config.freeWord k)) + 1 := Nat.mod_lt _ (Nat.succ_pos _)
  have hcount : (bsOfDraws k).count.toNat =
      (Config.freeWord (k + 1)).toNat % (bsCountMax (bsModeOfDraw (Config.freeWord k)) + 1) :=
    Nat.mod_eq_of_lt (by omega)
  rw [bsLegal, hcount]
  refine ⟨Nat.le_of_lt_succ hlt, ?_⟩
  exact (Nat.mod_le _ _).trans_lt (Nat.mod_lt _ (Nat.two_pow_pos _))

/-! ### The passes of the image commands -/

/-- The decode pass reads its stream and holds at most the 39 bits of R26. -/
theorem decodePass_reads {s : State} {l : List BlockPos} {p q : DecPass} (hb : BufOk p.bs)
    (h : decodePass s l p = .done q) :
    (∃ n, Reads s.mem n p.bs q.bs) ∧ q.bs.count.toNat ≤ max p.bs.count.toNat 39 := by
  induction l generalizing p with
  | nil =>
    cases h
    exact ⟨⟨0, .refl hb⟩, Nat.le_max_left ..⟩
  | cons pos rest ih =>
    obtain ⟨⟨n, hr⟩, hc, -⟩ := blkDecode_spec s.ht[dcTable (variantKind s.variant pos.c)]
      s.ht[acTable (variantKind s.variant pos.c)] s.mem p.pred[pos.c] p.bs hb _ rfl
    rw [decodePass] at h
    split at h
    · cases h
    rename_i r hone
    have hbs : r.bs = (blkDecode s.ht[dcTable (variantKind s.variant pos.c)]
        s.ht[acTable (variantKind s.variant pos.c)] s.mem p.pred[pos.c] p.bs).bs := by
      rw [decodeOne] at hone
      split at hone
      · cases hone
      all_goals cases hone; rfl
    rw [← hbs] at hr hc
    obtain ⟨⟨k, hr'⟩, hc'⟩ := ih hr.bufOk h
    exact ⟨⟨n + k, hr.trans hr'⟩, by omega⟩

/-- The encode pass begins with an empty sink. -/
theorem encOk_start (base limit : Word) (pred : Vector Word 4) :
    EncOk base limit [] { bs := bsOpen .writing base limit, pred := pred, n := 0, out := [] } := by
  constructor <;> simp [bsOpen, BufOk, heldBits]

/-- The flush and the padding leave an empty writer. -/
theorem bsLegal_finishEncode {base limit : Word} {items : List (Nat × Nat)} {p q : EncPass} {body : Nat}
    (ok : EncOk base limit items p) (h : finishEncode p = some (q, body)) : bsLegal q.bs := by
  rcases finishEncode_spec ok _ _ rfl rfl with ⟨-, hnone⟩ | ⟨-, q', hsome, -, -, -, hbs, -⟩
  · rw [hnone] at h
    cases h
  · rw [hsome] at h
    cases h
    rw [hbs]
    simp [bsLegal]

/-! ### Every command -/

theorem mode_of_streamOpen {mode : BsMode} {s : State} (h : streamOpen mode s = true) : s.bs.mode = mode := by
  simp only [streamOpen, Bool.and_eq_true, beq_iff_eq] at h
  exact h.1

theorem exec_streamLegal {i : Instr} {s t : State} (h : exec i s = .next t) (hs : StreamLegal s) : StreamLegal t := by
  rw [StreamLegal] at *
  cases i
  case bsOpenRead | bsOpenWrite =>
    cases h
    split
    · exact bsLegal_bsOpen _ _ _
    · exact hs
  case bsCanSupply n =>
    cases h
    split
    case isFalse => exact hs
    rename_i hok
    simp only [canSupplyOk, countOk, maxBits, Bool.and_eq_true] at hok
    exact bsLegal_bsCan (of_decide_eq_true hok.2) (mode_of_streamOpen hok.1) hs
  case bsSupply n =>
    cases h
    split
    case isFalse => exact hs
    rename_i hok
    simp only [supplyOk, Bool.and_eq_true, decide_eq_true_eq] at hok
    exact bsLegal_bsTake hok.2 hs
  case bsConsume n =>
    cases h
    split
    · exact bsLegal_bsPut _ _ _
    · exact hs
  case bsFlush =>
    cases h
    split
    case isFalse => exact hs
    rename_i hok
    simp only [flushOk, Bool.and_eq_true] at hok
    exact bsLegal_bsFlush (mode_of_streamOpen hok.1) hs
  case htRead k =>
    cases h
    split
    case isFalse => exact hs
    rename_i hopen
    have hread := bsLegal_htRead (h := s.ht[k]) (m := s.mem) (mode_of_streamOpen hopen) hs
    split <;> rename_i heq <;> rw [heq] at hread <;> exact hread
  case blkDecode c k =>
    cases h
    dsimp only
    split
    case isFalse => exact hs
    rename_i hopen
    have hread := bsLegal_blkDecode (dc := s.ht[dcTable k]) (ac := s.ht[acTable k]) (m := s.mem) (pred := s.dcpred[c])
      (mode_of_streamOpen hopen) hs
    split <;> exact hread
  case blkEncode c k =>
    cases h
    split
    case isFalse => exact hs
    rename_i hopen
    split
    · exact hs
    rename_i items hitems
    rw [blkEncodeItems] at hitems
    split at hitems
    · cases hitems
    split at hitems
    · rename_i hroom
      cases hitems
      exact bsLegal_bsPutAll (mode_of_streamOpen hopen) hs hroom
    · cases hitems
  case decodeImage =>
    cases h
    dsimp only
    split
    case isFalse => exact hs
    split
    · rw [imageFault_eq, complete_bs, faultScratch_bs]
      exact bsLegal_bsOfDraws _
    · rename_i p hp
      obtain ⟨⟨n, hr⟩, hc⟩ := decodePass_reads (by simp [BufOk, bsOpen]) hp
      have hread := hr.bsLegal rfl (bsLegal_bsOpen _ _ _) hc
      split
      · rw [complete_bs, leaveScratch_bs]
        exact hread
      · rw [succeed, complete_bs, leaveScratch_bs]
        exact hread
  case encodeImage =>
    cases h
    dsimp only
    split
    case isFalse => exact hs
    split
    · rw [imageFault_eq, complete_bs, faultScratch_bs]
      exact bsLegal_bsOfDraws _
    rename_i p hp
    split
    · rw [imageFault_eq, complete_bs, faultScratch_bs]
      exact bsLegal_bsOfDraws _
    · rename_i q body hq
      rw [succeed, complete_bs, leaveScratch_bs]
      rcases encodePass_spec _ [] _ (encOk_start s.dstBase s.dstCap _) with ⟨code, n, hf⟩ | ⟨more, r, hd, -, ok, -, -⟩
      · rw [hf] at hp
        cases hp
      · rw [hd] at hp
        cases hp
        exact bsLegal_finishEncode ok hq
  all_goals
    cases h
    repeat' split
    all_goals exact hs

theorem resetCore_streamLegal (s : State) : StreamLegal (resetCore s) := bsLegal_bsOpen .idle 0 0

/-- Settles O24: each command leaves the BS_ registers to an internal function that keeps R26's limits. -/
theorem stepKeepsStreamWithinLimits : Obligations.StepKeepsStreamWithinLimits := by
  intro s t hs h
  exact step_keeps_engine (P := StreamLegal) (fun e hs => by rw [StreamLegal, e.bs]; exact hs) exec_streamLegal
    resetCore_streamLegal h hs

end Sys2Proof.Machine
end

section
/-! PROOFS. The register window: the map both ways, the words' fields, and what host reads and writes of a register do
(10_state.md R14 to R33). -/

namespace Sys2Proof.Machine

/-! ### The register map (R14) -/

theorem fin_ofNat_val {n : Nat} [NeZero n] (i : Fin n) {k : Nat} (h : k = i.val) : Fin.ofNat n k = i := by
  rw [h, Fin.ofNat_val_eq_self]

theorem regAt_four_mul (w : Nat) : regAt (4 * w) = regOfWord w := by
  rw [regAt, if_pos (by omega), Nat.mul_div_cancel_left _ (by decide)]

theorem regOfWord_chCfg (c : Channel) : regOfWord (20 + c.val) = some (.chCfg c) := by
  rw [regOfWord, if_pos (by omega), fin_ofNat_val c (by omega)]

theorem regOfWord_dcpred (c : Channel) : regOfWord (24 + c.val) = some (.dcpred c) := by
  rw [regOfWord, if_neg (by omega), if_pos (by omega), fin_ofNat_val c (by omega)]

theorem regOfWord_htInfo (t : TableId) : regOfWord (48 + t.val) = some (.htInfo t) := by
  rw [regOfWord, if_neg (by omega), if_neg (by omega), if_pos (by omega), fin_ofNat_val t (by omega)]

theorem regOfWord_blk (i : Fin 64) : regOfWord (64 + i.val) = some (.blk i) := by
  rw [regOfWord, if_neg (by omega), if_neg (by omega), if_neg (by omega), if_pos (by omega), fin_ofNat_val i (by omega)]

theorem regOfWord_qbase (k : Fin 2) (i : Fin 64) : regOfWord (128 + 64 * k.val + i.val) = some (.qbase k i) := by
  rw [regOfWord, if_neg (by omega), if_neg (by omega), if_neg (by omega), if_neg (by omega), if_pos (by omega)]
  have hi : Fin.ofNat 64 ((128 + 64 * k.val + i.val) % 64) = i := fin_ofNat_val i (by omega)
  rw [hi, fin_ofNat_val k (by omega)]

theorem regOfWord_qt (c : Channel) (i : Fin 64) : regOfWord (256 + 64 * c.val + i.val) = some (.qt c i) := by
  rw [regOfWord, if_neg (by omega), if_neg (by omega), if_neg (by omega), if_neg (by omega), if_neg (by omega),
    if_pos (by omega)]
  have hi : Fin.ofNat 64 ((256 + 64 * c.val + i.val) % 64) = i := fin_ofNat_val i (by omega)
  rw [hi, fin_ofNat_val c (by omega)]

/-- The words from 1024 on are the HSRC part's. -/
theorem regOfWord_hsrc {w : Nat} (h : w < 2048) : regOfWord (1024 + w) = hsrcReg w := by
  rw [regOfWord, if_neg (by omega), if_neg (by omega), if_neg (by omega), if_neg (by omega), if_neg (by omega),
    if_neg (by omega), if_pos (by omega), Nat.add_sub_cancel_left]

theorem regOfWord_hsrcBits (t : TableId) (i : Fin 16) :
    regOfWord (1024 + (512 * t.val + i.val)) = some (.hsrcBits t i) := by
  rw [regOfWord_hsrc (by omega), hsrcReg]
  rw [if_pos (by omega)]
  have ht : Fin.ofNat 4 ((512 * t.val + i.val) / 0x200) = t := fin_ofNat_val t (by omega)
  rw [ht, fin_ofNat_val i (by omega)]

theorem regOfWord_hsrcVal (t : TableId) (j : Fin 256) :
    regOfWord (1024 + (512 * t.val + 16 + j.val)) = some (.hsrcVal t j) := by
  rw [regOfWord_hsrc (by omega), hsrcReg]
  rw [if_neg (by omega), if_pos (by omega)]
  have ht : Fin.ofNat 4 ((512 * t.val + 16 + j.val) / 0x200) = t := fin_ofNat_val t (by omega)
  rw [ht, fin_ofNat_val j (by omega)]

/-- Every register has a word number at which the map finds it. -/
theorem exists_word (r : Reg) : ∃ w, regOffset r = 4 * w ∧ w < 0xC00 ∧ regOfWord w = some r := by
  cases r
  case chCfg c => exact ⟨_, by simp only [regOffset]; omega, by omega, regOfWord_chCfg c⟩
  case dcpred c => exact ⟨_, by simp only [regOffset]; omega, by omega, regOfWord_dcpred c⟩
  case htInfo t => exact ⟨_, by simp only [regOffset]; omega, by omega, regOfWord_htInfo t⟩
  case blk i => exact ⟨_, by simp only [regOffset]; omega, by omega, regOfWord_blk i⟩
  case qbase k i => exact ⟨_, by simp only [regOffset]; omega, by omega, regOfWord_qbase k i⟩
  case qt c i => exact ⟨_, by simp only [regOffset]; omega, by omega, regOfWord_qt c i⟩
  case hsrcBits t i => exact ⟨_, by simp only [regOffset]; omega, by omega, regOfWord_hsrcBits t i⟩
  case hsrcVal t j => exact ⟨_, by simp only [regOffset]; omega, by omega, regOfWord_hsrcVal t j⟩
  all_goals exact ⟨_, (Nat.mul_div_cancel' (by decide)).symm, by decide, rfl⟩

theorem regOffset_mod (r : Reg) : regOffset r % 4 = 0 := by
  obtain ⟨w, hw, -, -⟩ := exists_word r
  omega

theorem regOffset_lt (r : Reg) : regOffset r < 0x3000 := by
  obtain ⟨w, hw, hlt, -⟩ := exists_word r
  omega

theorem regAt_regOffset (r : Reg) : regAt (regOffset r) = some r := by
  obtain ⟨w, hw, -, hr⟩ := exists_word r
  rw [hw, regAt_four_mul, hr]

theorem regOffset_of_lowReg {w : Nat} {r : Reg} (h : lowReg w = some r) : regOffset r = 4 * w := by
  unfold lowReg at h
  split at h <;> cases h <;> rfl

theorem regOffset_of_hsrcReg {w : Nat} {r : Reg} (hw : w < 2048) (h : hsrcReg w = some r) :
    regOffset r = 0x1000 + 4 * w := by
  unfold hsrcReg at h
  dsimp only at h
  split_ifs at h <;> cases h <;> simp only [regOffset, Fin.val_ofNat] <;> omega

theorem regOffset_of_regOfWord {w : Nat} {r : Reg} (h : regOfWord w = some r) : regOffset r = 4 * w := by
  unfold regOfWord at h
  split_ifs at h
  on_goal 7 =>
    have := regOffset_of_hsrcReg (by omega) h
    omega
  on_goal 7 => exact regOffset_of_lowReg h
  all_goals
    cases h
    simp only [regOffset, Fin.val_ofNat]
    omega

/-- A register found at an offset has that offset. -/
theorem regOffset_of_regAt {off : Nat} {r : Reg} (h : regAt off = some r) : regOffset r = off := by
  rw [regAt] at h
  split at h
  · have := regOffset_of_regOfWord h
    omega
  · cases h

theorem regAt_none {off : Nat} (h : ∀ r, regOffset r ≠ off) : regAt off = none :=
  Option.eq_none_iff_forall_ne_some.mpr fun r hr => h r (regOffset_of_regAt hr)

/-- Settles O12: each row of R14 is found at its word number, and each branch of the decoder gives its offset. -/
theorem registerMapIsOneToOne : Obligations.RegisterMapIsOneToOne :=
  ⟨fun r => ⟨regOffset_mod r, regOffset_lt r, regAt_regOffset r⟩, fun _ _ => regOffset_of_regAt⟩

/-! ### The fields of a register word -/

theorem toNat_field (v a n : Nat) (h : a + n ≤ 32) : ((u32 v).extractLsb' a n).toNat = v / 2 ^ a % 2 ^ n := by
  have hp : 2 ^ (a + n) ∣ 2 ^ 32 := Nat.pow_dvd_pow 2 h
  rw [BitVec.extractLsb'_toNat, u32, BitVec.toNat_ofNat, Nat.shiftRight_eq_div_pow, ← Nat.mod_mul_right_div_self,
    ← Nat.mod_mul_right_div_self, ← Nat.pow_add, Nat.mod_mod_of_dvd _ hp]

/-- A field of a word, by the number it holds. -/
theorem field_eq {v a n : Nat} {x : BitVec n} (h : a + n ≤ 32) (hx : v / 2 ^ a % 2 ^ n = x.toNat) :
    (u32 v).extractLsb' a n = x := BitVec.eq_of_toNat_eq (by rw [toNat_field v a n h, hx])

theorem field_zero {v a n : Nat} (h : a + n ≤ 32) (hx : v / 2 ^ a % 2 ^ n = 0) : (u32 v).extractLsb' a n = 0 :=
  field_eq h (by rw [hx]; rfl)

/-- A bit of a word, by the number it holds. -/
theorem bit_eq {v i : Nat} {b : Bool} (h : i < 32) (hb : v / 2 ^ i % 2 = b.toNat) : (u32 v).getLsbD i = b := by
  rw [u32, BitVec.getLsbD_ofNat, decide_eq_true h, Bool.true_and, Nat.testBit_eq_decide_div_mod_eq, hb]
  cases b <;> rfl

theorem errNumber_lt (e : ErrCode) : errNumber e < 16 := by cases e <;> decide

/-- The fields of the STATUS word (R16). -/
theorem statusWord_layout (busy : Bool) (st : Status) :
    (statusWord busy st).getLsbD 0 = busy ∧ (statusWord busy st).getLsbD 1 = st.done ∧
    (statusWord busy st).getLsbD 2 = st.err ∧ (statusWord busy st).getLsbD 3 = st.trunc ∧
    (statusWord busy st).getLsbD 4 = st.overrun ∧ (statusWord busy st).extractLsb' 5 3 = 0 ∧
    ((statusWord busy st).extractLsb' 8 4).toNat = errNumber st.errcode ∧
    (statusWord busy st).extractLsb' 12 20 = 0 := by
  have h0 := busy.toNat_lt
  have h1 := st.done.toNat_lt
  have h2 := st.err.toNat_lt
  have h3 := st.trunc.toNat_lt
  have h4 := st.overrun.toNat_lt
  have h5 := errNumber_lt st.errcode
  rw [statusWord, toNat_field _ _ _ (by decide)]
  refine ⟨bit_eq (by decide) ?_, bit_eq (by decide) ?_, bit_eq (by decide) ?_, bit_eq (by decide) ?_,
    bit_eq (by decide) ?_, field_zero (by decide) ?_, ?_, field_zero (by decide) ?_⟩ <;> omega

/-- The fields of a CH_CFG word (R24). -/
theorem chCfgWord_layout (c : ChCfg) : (chCfgWord c).extractLsb' 0 8 = c.defval ∧ (chCfgWord c).getLsbD 8 = c.defen ∧
    (chCfgWord c).extractLsb' 9 7 = 0 ∧ (chCfgWord c).extractLsb' 16 7 = c.quality ∧
    (chCfgWord c).extractLsb' 23 9 = 0 := by
  have h0 := c.defval.isLt
  have h1 := c.defen.toNat_lt
  have h2 := c.quality.isLt
  rw [chCfgWord]
  refine ⟨field_eq (by decide) ?_, bit_eq (by decide) ?_, field_zero (by decide) ?_, field_eq (by decide) ?_,
    field_zero (by decide) ?_⟩ <;> omega

/-- The fields of an HT_INFO word (R27). -/
theorem htInfoWord_layout (h : Ht) : (htInfoWord h).extractLsb' 0 5 = h.minLen ∧ (htInfoWord h).extractLsb' 5 3 = 0 ∧
    (htInfoWord h).extractLsb' 8 5 = h.maxLen ∧ (htInfoWord h).extractLsb' 13 3 = 0 ∧
    (htInfoWord h).extractLsb' 16 9 = h.nCodes ∧ (htInfoWord h).extractLsb' 25 7 = 0 := by
  have h0 := h.minLen.isLt
  have h1 := h.maxLen.isLt
  have h2 := h.nCodes.isLt
  rw [htInfoWord]
  refine ⟨field_eq (by decide) ?_, field_zero (by decide) ?_, field_eq (by decide) ?_, field_zero (by decide) ?_,
    field_eq (by decide) ?_, field_zero (by decide) ?_⟩ <;> omega

/-- Settles O13: each word is a sum of fields that do not overlap. -/
theorem registerWordLayout : Obligations.RegisterWordLayout := fun s =>
  ⟨statusWord_layout s.busy s.status, fun c => chCfgWord_layout s.chCfg[c], fun t => htInfoWord_layout s.ht[t]⟩

/-! ### Host accesses of a named register -/

theorem step_regRead {s : State} {off : Nat} {rest : List Event} (h : off < 0x3000) (h4 : off % 4 = 0)
    (he : s.events = .regRead (s.cfg.regBase + off) 4 :: rest) :
    step s = .next (hostReadReg off { s with events := rest }) := by
  rw [step_event he]
  exact hostRegRead_ok { s with events := rest } h h4

theorem step_regWrite {s : State} {off : Nat} {v : Word} {rest : List Event} {r : Reg} (hr : regAt off = some r)
    (he : s.events = .regWrite (s.cfg.regBase + off) 4 v :: rest) :
    step s = .next (writeReg r v { s with events := rest }) := by
  have hoff := regOffset_of_regAt hr
  rw [step_event he]
  exact hostRegWrite_named { s with events := rest } v (hoff ▸ regOffset_lt r) (hoff ▸ regOffset_mod r) hr

theorem hostReadReg_contents {off : Nat} {r : Reg} {s : State} (hr : regAt off = some r)
    (h : s.busy = false ∨ drawnWhileBusy r = false) : hostReadReg off s = { s with busData := readReg r s } := by
  rw [hostReadReg, hr]
  exact if_neg (by rcases h with h | h <;> simp [h])

theorem hostReadReg_drawn {off : Nat} {r : Reg} {s : State} (hr : regAt off = some r) (hb : s.busy = true)
    (hd : drawnWhileBusy r = true) :
    hostReadReg off s = { s with busData := Config.freeWord s.draws, draws := s.draws + 1 } := by
  rw [hostReadReg, hr]
  exact if_pos (by simp [hb, hd])

theorem hostReadReg_unnamed {off : Nat} (s : State) (hr : regAt off = none) :
    hostReadReg off s = { s with busData := 0 } := by
  rw [hostReadReg, hr]

/-- What a register holds does not depend on the pending events. -/
theorem readReg_events (r : Reg) (s : State) (rest : List Event) :
    readReg r { s with events := rest } = readReg r s := by
  cases r <;> rfl

/-- Settles O14: the window row by row is `windowHolds_iff`; a read answers by the named register and BUSY. -/
theorem hostReadsOfTheWindow : Obligations.HostReadsOfTheWindow := by
  refine ⟨windowHolds_iff, fun s rest => ⟨fun r he => ?_, fun off hlt h4 hno he => ?_, fun off n hlt hform he => ?_⟩⟩
  · have hstep := step_regRead (regOffset_lt r) (regOffset_mod r) he
    constructor
    · intro h
      rw [hstep, hostReadReg_contents (s := { s with events := rest }) (regAt_regOffset r) h, readReg_events]
    · intro hb hd
      rw [hstep, hostReadReg_drawn (s := { s with events := rest }) (regAt_regOffset r) hb hd]
  · rw [step_regRead hlt h4 he, hostReadReg_unnamed _ (regAt_none hno)]
  · rw [step_event he]
    exact hostRegRead_form { s with events := rest } hlt hform

end Sys2Proof.Machine
end

section
/-! PROOFS. What a host write stores, and the writes that act: CTRL, CMD and reset (10_state.md R15, R17, R33;
70_reset_and_hazards.md R126, R127). -/

namespace Sys2Proof.Machine

/-! ### What a plain write stores -/

/-- The low bits of a word, as a mask keeps them. -/
theorem setWidth_extractLsb' (v : Word) (n : Nat) :
    (v.extractLsb' 0 n).setWidth 32 = v &&& BitVec.ofNat 32 (2 ^ n - 1) := by
  apply BitVec.eq_of_getLsbD_eq
  intro i hi
  simp only [BitVec.getLsbD_setWidth, BitVec.getLsbD_extractLsb', BitVec.getLsbD_and, BitVec.getLsbD_ofNat,
    Nat.testBit_two_pow_sub_one, hi, decide_true, Bool.true_and, Nat.zero_add, Bool.and_comm]

/-- A bit of a word is the bit of any field that holds it. -/
theorem getLsbD_field (w : Word) {a n i : Nat} (ha : a ≤ i) (hn : i < a + n) :
    w.getLsbD i = (w.extractLsb' a n).getLsbD (i - a) := by
  rw [BitVec.getLsbD_extractLsb', decide_eq_true (by omega), Bool.true_and, Nat.add_sub_cancel' ha]

/-- CH_CFG stores bits 7:0, 8 and 22:16 (R24). -/
theorem chCfgWord_chCfgOfWord (v : Word) : chCfgWord (chCfgOfWord v) = v &&& 0x007F01FF := by
  obtain ⟨h0, h8, h9, h16, h23⟩ := chCfgWord_layout (chCfgOfWord v)
  have mask : ∀ i < 32, (0x007F01FF : Word).getLsbD i = (decide (i < 9) || decide (16 ≤ i) && decide (i < 23)) := by
    decide
  apply BitVec.eq_of_getLsbD_eq
  intro i hi
  rw [BitVec.getLsbD_and, mask i hi]
  rcases (by omega : i < 8 ∨ i = 8 ∨ 9 ≤ i ∧ i < 16 ∨ 16 ≤ i ∧ i < 23 ∨ 23 ≤ i) with h | rfl | h | h | h
  · rw [getLsbD_field _ (Nat.zero_le i) (n := 8) (by omega), h0]
    simp [chCfgOfWord, h, show i < 9 by omega]
  · rw [h8]
    simp [chCfgOfWord]
  · rw [getLsbD_field _ h.1 (n := 7) (by omega), h9]
    simp [show ¬i < 9 by omega, show ¬16 ≤ i by omega]
  · rw [getLsbD_field _ h.1 (n := 7) (by omega), h16]
    simp [chCfgOfWord, h.1, h.2, show i - 16 < 7 by omega]
  · rw [getLsbD_field _ h (n := 9) (by omega), h23]
    simp [show ¬i < 9 by omega, show ¬i < 23 by omega]

/-- A register the host can write then reads the written value in the bits it stores. -/
theorem readReg_writePlain_same {r : Reg} {mask : Word} (h : storedBits r = some mask) (v : Word) (s : State) :
    readReg r (writePlain r v s) = v &&& mask := by
  have full : v &&& 0xFFFFFFFF = v := BitVec.and_allOnes
  cases r <;> cases h
  case variant => exact setWidth_extractLsb' v 2
  case width | height => exact setWidth_extractLsb' v 16
  case chCfg c =>
    simp only [writePlain, readReg, getElem_set_fin, if_true]
    exact chCfgWord_chCfgOfWord v
  case blk i => simp only [writePlain, readReg, getElem_set_fin, if_true, full]
  case qbase | hsrcBits | hsrcVal =>
    simp only [writePlain, readReg, getElem_set_fin, if_true]
    exact setWidth_extractLsb' v 8
  all_goals exact full.symm

/-- A register the host cannot write ignores it. -/
theorem writePlain_readOnly {r : Reg} (h : storedBits r = none) (v : Word) (s : State) : writePlain r v s = s := by
  cases r <;> simp only [storedBits, reduceCtorEq] at h <;> rfl

/-- What is read of an entry stays when another is set, or one that reads the same. -/
theorem apply_getElem_set {α β : Type} {n : Nat} (f : α → β) (v : Vector α n) {k c : Fin n} {x : α}
    (h : c = k → f x = f v[c]) : f (v.set k x)[c] = f v[c] := by
  rw [getElem_set_fin]
  split
  · rename_i e
    exact h e
  · rfl

/-- A write to one register leaves what every other one reads. -/
theorem readReg_writePlain_other {r r' : Reg} (h : r' ≠ r) (v : Word) (s : State) :
    readReg r' (writePlain r v s) = readReg r' s := by
  cases r
  case chCfg c =>
    cases r' with
    | chCfg c' => exact apply_getElem_set chCfgWord s.chCfg fun e => absurd (congrArg Reg.chCfg e) h
    | _ => rfl
  case blk i =>
    cases r' with
    | blk i' => exact apply_getElem_set id s.blk fun e => absurd (congrArg Reg.blk e) h
    | _ => rfl
  case qbase k i =>
    cases r' with
    | qbase k' i' =>
      refine apply_getElem_set (fun q => (q[i'].setWidth 32 : Word)) s.qbase fun e => ?_
      subst e
      exact apply_getElem_set (BitVec.setWidth 32) s.qbase[k'] fun e => absurd (congrArg (Reg.qbase k') e) h
    | _ => rfl
  case hsrcBits t i =>
    cases r' with
    | hsrcBits t' i' =>
      refine apply_getElem_set (fun src => (src.bits[i'].setWidth 32 : Word)) s.hsrc fun e => ?_
      subst e
      exact apply_getElem_set (BitVec.setWidth 32) s.hsrc[t'].bits fun e => absurd (congrArg (Reg.hsrcBits t') e) h
    | hsrcVal t' j =>
      refine apply_getElem_set (fun src => (src.vals[j].setWidth 32 : Word)) s.hsrc fun e => ?_
      subst e
      rfl
    | _ => rfl
  case hsrcVal t j =>
    cases r' with
    | hsrcVal t' j' =>
      refine apply_getElem_set (fun src => (src.vals[j'].setWidth 32 : Word)) s.hsrc fun e => ?_
      subst e
      exact apply_getElem_set (BitVec.setWidth 32) s.hsrc[t'].vals fun e => absurd (congrArg (Reg.hsrcVal t') e) h
    | hsrcBits t' i =>
      refine apply_getElem_set (fun src => (src.bits[i].setWidth 32 : Word)) s.hsrc fun e => ?_
      subst e
      rfl
    | _ => rfl
  case arg0 => cases r' with | arg0 => exact absurd rfl h | _ => rfl
  case arg1 => cases r' with | arg1 => exact absurd rfl h | _ => rfl
  case variant => cases r' with | variant => exact absurd rfl h | _ => rfl
  case width => cases r' with | width => exact absurd rfl h | _ => rfl
  case height => cases r' with | height => exact absurd rfl h | _ => rfl
  case srcBase => cases r' with | srcBase => exact absurd rfl h | _ => rfl
  case srcLen => cases r' with | srcLen => exact absurd rfl h | _ => rfl
  case dstBase => cases r' with | dstBase => exact absurd rfl h | _ => rfl
  case dstCap => cases r' with | dstCap => exact absurd rfl h | _ => rfl
  all_goals rfl

/-- Settles O15: `writePlain` stores the bits `storedBits` names, while idle. -/
theorem hostWritesToTheWindow : Obligations.HostWritesToTheWindow := by
  refine fun s v rest => ⟨fun r hctrl hcmd he => ?_, fun off hlt h4 hno he => ?_, fun off n hlt hform he => ?_⟩
  · refine ⟨_, step_regWrite (regAt_regOffset r) he, ?_⟩
    rw [writeReg_other hctrl hcmd]
    obtain ⟨-, hlatch, hstatus, hmem, hevents⟩ := writePlain_frame r v { s with events := rest }
    have hht := (writePlain_frame r v { s with events := rest }).1.ht
    cases hb : s.busy with
    | true =>
      rw [if_pos (show State.busy { s with events := rest } = true from hb)]
      exact ⟨fun _ => rfl, nofun, nofun, fun r' _ => readReg_events r' s rest, rfl, rfl, rfl, rfl, rfl⟩
    | false =>
      rw [if_neg (show ¬State.busy { s with events := rest } = true from ne_true_of_eq_false hb)]
      refine ⟨nofun, fun _ mask hmask => readReg_writePlain_same hmask v _, fun _ hro => writePlain_readOnly hro v _,
        fun r' hne => ?_, hlatch, hstatus, hht, hmem, hevents⟩
      rw [readReg_writePlain_other hne, readReg_events]
  · rw [step_event he]
    exact hostRegWrite_unnamed { s with events := rest } v hlt h4 (regAt_none hno)
  · rw [step_event he]
    exact hostRegWrite_form { s with events := rest } v hlt hform

/-! ### CMD -/

/-- Settles O6: an idle CMD write is `latchCommand`, whose STATUS is R17's. -/
theorem cmdWriteIsAccepted : Obligations.CmdWriteIsAccepted := by
  refine fun s rest => ⟨fun w i he hb hd => ?_, fun he => ?_⟩
  · have hstep := step_regWrite (regAt_regOffset .cmd) he
    have hidle : State.busy { s with events := rest } = false := hb
    have hw : writeReg .cmd w { s with events := rest } = latchCommand w { s with events := rest } := by
      rw [writeReg, writeCmd, hidle, acceptCommand, hd]
      rfl
    refine ⟨_, hstep.trans (congrArg _ hw), rfl, ?_, rfl, rfl, rfl, rfl, rfl, rfl⟩
    rw [State.irq, latchCommand_status, statusAccepted, Bool.and_false]
  · rw [step_regRead (regOffset_lt .cmd) (regOffset_mod .cmd) he,
      hostReadReg_contents (regAt_regOffset .cmd) (.inr rfl)]
    rfl

/-! ### CTRL and reset -/

theorem htInfo_htAtReset : htInfoWord htAtReset[0] = 0x000C0902 ∧ htInfoWord htAtReset[1] = 0x00A21002 ∧
    htInfoWord htAtReset[2] = 0x000C0B02 ∧ htInfoWord htAtReset[3] = 0x00A21002 := by decide +kernel

/-- The entries of a byte table are those of its list, where they fit a byte. -/
theorem byteTable_getD (n : Nat) (l : List Nat) (hl : ∀ x ∈ l, x < 256) (i : Fin n) :
    (byteTable n l)[i].toNat = l.getD i.val 0 := by
  have h : l.getD i.val 0 < 256 := by
    rw [List.getD_eq_getElem?_getD]
    rcases hi : l[i.val]? with _ | x
    · decide
    · exact hl x (List.mem_of_getElem? hi)
  simp only [byteTable, Fin.getElem_fin, Vector.getElem_ofFn, BitVec.toNat_ofNat]
  exact Nat.mod_eq_of_lt h

/-- A reset gives the state of R127, from every state. -/
theorem resetState_resetCore (s : State) : ResetState (resetCore s) where
  idle := rfl
  irqEn := rfl
  irq := rfl
  flags := ⟨rfl, rfl, rfl, rfl⟩
  errcode := rfl
  args := ⟨rfl, rfl⟩
  results := ⟨rfl, rfl, rfl⟩
  image := ⟨rfl, rfl, rfl, rfl, rfl⟩
  ranges := ⟨rfl, rfl, rfl, rfl⟩
  chCfg c := by simp only [resetCore, State.atReset, readReg, Fin.getElem_fin, Vector.getElem_replicate]; decide
  dcpred c := by simp only [resetCore, State.atReset, Fin.getElem_fin, Vector.getElem_replicate]
  stream := ⟨rfl, rfl, rfl, rfl, rfl, rfl⟩
  blk i := by simp only [resetCore, State.atReset, Fin.getElem_fin, Vector.getElem_replicate]
  scales c i := by simp only [resetCore, State.atReset, Fin.getElem_fin, Vector.getElem_replicate]
  qbase i := ⟨byteTable_getD 64 qbaseLuminance (by decide) i, byteTable_getD 64 qbaseChrominance (by decide) i⟩
  bits i := ⟨byteTable_getD 16 bitsDcLuminance (by decide) i, byteTable_getD 16 bitsAcLuminance (by decide) i,
    byteTable_getD 16 bitsDcChrominance (by decide) i, byteTable_getD 16 bitsAcChrominance (by decide) i⟩
  vals j := ⟨byteTable_getD 256 valDc (by decide) j, byteTable_getD 256 valAcLuminance (by decide +kernel) j,
    byteTable_getD 256 valDc (by decide) j, byteTable_getD 256 valAcChrominance (by decide +kernel) j⟩
  tables := htBuild_hsrcAtReset
  htInfo := htInfo_htAtReset

/-- Settles O10: the three cases of a CTRL write, and the read of IRQ_EN. -/
theorem ctrlWriteActs : Obligations.CtrlWriteActs := by
  refine fun s rest => ⟨fun v he => ?_, fun he => ?_⟩
  · have hstep := step_regWrite (regAt_regOffset .ctrl) he
    rw [hstep, writeReg]
    rcases writeCtrl_cases v { s with events := rest } with ⟨h1, h⟩ | ⟨h1, h2, hb, h⟩ | ⟨h1, h2, h⟩
    · refine ⟨fun h1' => ?_, fun h1' => ?_, fun _ => ⟨_, rfl, h ▸ resetState_resetCore _⟩⟩ <;>
        exact absurd (h1.symm.trans h1') (by decide)
    · refine ⟨fun _ h2' => ?_, fun _ _ _ => by rw [h]; rfl, fun h1' => absurd (h1.symm.trans h1') (by decide)⟩
      rcases h2' with h2' | hb'
      · exact absurd (h2.symm.trans h2') (by decide)
      · exact absurd (hb.symm.trans hb') (by decide)
    · refine ⟨fun _ _ => by rw [h], fun _ h2' hb' => ?_, fun h1' => absurd (h1.symm.trans h1') (by decide)⟩
      rcases h2 with h2 | hb
      · exact absurd (h2.symm.trans h2') (by decide)
      · exact absurd (hb.symm.trans hb') (by decide)
  · rw [step_regRead (regOffset_lt .ctrl) (regOffset_mod .ctrl) he,
      hostReadReg_contents (regAt_regOffset .ctrl) (.inr rfl), readReg_events]
    cases h : s.irqEn <;> simp [readReg, h, u32]

end Sys2Proof.Machine
end

section
/-! PROOFS. STATUS in every step (10_state.md R16, R17; 60_exceptions.md R113 to R119), and the command a step runs
(10_state.md R13, R17; 30_encoding.md R45 to R49). -/

namespace Sys2Proof.Machine

/-! ### STATUS stays consistent -/

/-- A completion whose underrun code comes with an underrun is consistent, whatever STATUS was. -/
theorem statusLegal_complete {code : ErrCode} {u : Bool} (s : State) (hu : code = .streamUnderrun → u = true) :
    StatusLegal (complete code u s) := by
  refine ⟨rfl, nofun, nofun, fun h => ?_⟩
  rw [complete_status, statusCompleted_trunc, hu h, Bool.or_true]

theorem exec_statusLegal {i : Instr} {s t : State} (h : exec i s = .next t) : StatusLegal t := by
  obtain ⟨code, u, r, he, -, -, -, hu⟩ := exec_completes i s
  rw [he] at h
  cases h
  exact statusLegal_complete r hu

theorem statusLegal_illegalCommand (s : State) : StatusLegal (illegalCommand s) := statusLegal_complete s nofun

theorem statusLegal_latchCommand (w : Word) (s : State) : StatusLegal (latchCommand w s) :=
  ⟨rfl, fun _ => rfl, fun _ => rfl, nofun⟩

theorem statusLegal_resetCore (s : State) : StatusLegal (resetCore s) := ⟨rfl, nofun, fun _ => rfl, nofun⟩

/-- Consistency is a property of STATUS and the latch. -/
theorem StatusLegal.congr {s t : State} (h : StatusLegal s) (hst : t.status = s.status) (hl : t.latch = s.latch) :
    StatusLegal t := by
  rw [StatusLegal, State.busy, hst, hl]
  exact h

theorem writeReg_statusLegal {s : State} (r : Reg) (v : Word) (h : StatusLegal s) : StatusLegal (writeReg r v s) := by
  by_cases hctrl : r = .ctrl
  · subst hctrl
    rw [writeReg]
    rcases writeCtrl_cases v s with ⟨-, hw⟩ | ⟨-, -, -, hw⟩ | ⟨-, -, hw⟩ <;> rw [hw]
    · exact statusLegal_resetCore s
    · exact ⟨rfl, fun _ => rfl, fun _ => rfl, nofun⟩
    · exact h.congr rfl rfl
  by_cases hcmd : r = .cmd
  · subst hcmd
    rw [writeReg]
    rcases writeCmd_cases v s with ⟨-, hw⟩ | ⟨-, -, hw⟩ | ⟨-, hw⟩ <;> rw [hw]
    · exact h
    · exact statusLegal_latchCommand v s
    · exact statusLegal_illegalCommand _
  · rw [writeReg_other hctrl hcmd]
    split
    · exact h
    · obtain ⟨-, hlatch, hstatus, -⟩ := writePlain_frame r v s
      exact h.congr hstatus hlatch

/-- Settles O25: every change of STATUS is a completion, an acceptance, an acknowledgement, a lost command or a
reset. -/
theorem stepKeepsStatusConsistent : Obligations.StepKeepsStatusConsistent := by
  intro s t hs h
  cases step_does h with
  | command rest i _ he => exact exec_statusLegal he
  | illegal rest => exact statusLegal_illegalCommand _
  | reset rest _ => exact statusLegal_resetCore _
  | write rest off v r _ _ => exact writeReg_statusLegal r v (hs.congr rfl rfl)
  | quiet rest d k m => exact hs.congr rfl rfl

/-! ### TRUNC is sticky -/

/-- A command that starts no Context never clears TRUNC. -/
theorem exec_trunc {i : Instr} {s t : State} (hi : startsContext i = false) (h : exec i s = .next t)
    (hs : s.status.trunc = true) : t.status.trunc = true := by
  obtain ⟨code, u, r, he, -, hst, -, -⟩ := exec_completes i s
  rw [he] at h
  cases h
  rcases hst with hst | ⟨hst, -⟩
  · rw [complete_status, statusCompleted_trunc, hst, hs, Bool.true_or]
  · rw [hi] at hst
    cases hst

theorem startsContext_false {i : Instr} (h : some i ∉ [some Instr.ctxInit, some .decodeImage, some .encodeImage]) :
    startsContext i = false := by
  cases i
  case ctxInit | decodeImage | encodeImage => simp at h
  all_goals rfl

/-- A register write keeps TRUNC, but for a CTRL write of CLR_STATUS or SOFT_RESET. -/
theorem writeReg_trunc {s : State} {r : Reg} {v : Word} (hv : r = .ctrl → v.getLsbD 1 = false ∧ v.getLsbD 2 = false) :
    (writeReg r v s).status.trunc = s.status.trunc := by
  by_cases hctrl : r = .ctrl
  · obtain ⟨h1, h2⟩ := hv hctrl
    subst hctrl
    rw [writeReg, writeCtrl, h1, h2]
    rfl
  by_cases hcmd : r = .cmd
  · subst hcmd
    rw [writeReg]
    rcases writeCmd_cases v s with ⟨-, hw⟩ | ⟨-, -, hw⟩ | ⟨-, hw⟩ <;> rw [hw]
    · rfl
    · rfl
    · rw [illegalCommand, fail, complete_status, statusCompleted_trunc, Bool.or_false]
      rfl
  · rw [writeReg_other hctrl hcmd]
    split
    · rfl
    · obtain ⟨-, -, hstatus, -⟩ := writePlain_frame r v s
      rw [hstatus]

/-- Settles O9: a step clears TRUNC only in a reset, by CLR_STATUS or at the start of a Context. -/
theorem truncIsSticky : Obligations.TruncIsSticky := by
  intro s t hs h hreset hctrl hrun
  cases step_does h with
  | command rest i hi he => exact exec_trunc (startsContext_false (hi ▸ hrun)) he hs
  | illegal rest => rw [illegalCommand, fail, complete_status, statusCompleted_trunc, hs, Bool.true_or]
  | reset rest he => exact absurd he (hreset rest)
  | write rest off v r he hr =>
    rw [writeReg_trunc]
    · exact hs
    · intro hrc
      have hoff : off = 0x004 := by rw [← regOffset_of_regAt hr, hrc]; rfl
      exact hctrl 4 v rest (hoff ▸ he)
  | quiet rest d k m => exact hs

/-! ### The command a step runs -/

/-- Settles O4: `runLatched` is `exec` of the decoded latch, or nothing. -/
theorem stepRunsTheLatchedCommand : Obligations.StepRunsTheLatchedCommand := by
  refine fun s => ⟨fun w i hl hd => ⟨fun he => ?_, fun rest he => ?_⟩, fun hl => ⟨fun he => ?_, fun rest he => ?_⟩⟩
  · rw [step_idle he, runLatched_ok hl hd]
  · rw [step_event he]
    exact runLatched_ok (s := { s with events := rest }) hl hd
  · rw [step_idle he, runLatched_idle hl]
  · rw [step_event he]
    exact runLatched_idle (s := { s with events := rest }) hl

theorem fieldsOf_pack {opc n c t : Nat} (ho : opc < 256) (hn : n < 64) (hc : c < 4) (ht : t < 4) :
    bits (pack opc n c t) 18 14 = 0 ∧ bits (pack opc n c t) 0 8 = opc ∧ fieldsOf (pack opc n c t) = ⟨n, c, t⟩ := by
  have hp : (pack opc n c t).toNat = opc + n * 2 ^ 8 + c * 2 ^ 14 + t * 2 ^ 16 := by
    rw [pack, BitVec.toNat_ofNat]
    exact Nat.mod_eq_of_lt (by omega)
  simp only [fieldsOf, bits, hp, Fields.mk.injEq]
  omega

/-- A packed word decodes to its row of the opcode map, where the row admits its fields. -/
theorem decode_pack {opc n c t : Nat} {shape : Shape} {i j : Instr} (ho : opc < 256) (hn : n < 64) (hc : c < 4)
    (ht : t < 4) (hrow : opcodeRow ⟨n, c, t⟩ opc = some (shape, j)) (hj : j = i)
    (ha : shape.admits ⟨n, c, t⟩ = true) : decode (pack opc n c t) = .ok i := by
  obtain ⟨hres, hopc, hf⟩ := fieldsOf_pack ho hn hc ht
  rw [decode, hres, hopc, hf, hrow, hj]
  simp only [ha, if_true, ne_eq, not_true_eq_false, if_false]

theorem idOfBits_val (c : Fin 4) : idOfBits c.val = c := fin_ofNat_val c rfl

theorem kindOfBit_bit (k : Kind) : kindOfBit k.bit = k := by cases k <;> rfl

theorem modeOfBit_bit (m : Mode) : modeOfBit m.bit = m := by cases m <;> rfl

theorem kindBit_lt (k : Kind) : k.bit < 2 := by cases k <;> decide

theorem modeBit_lt (m : Mode) : m.bit < 2 := by cases m <;> decide

/-- The word of a well-formed instruction decodes to it. -/
theorem decode_encode {i : Instr} (h : i.wf = true) : decode (encode i) = .ok i := by
  cases i
  case bsCanSupply n | bsSupply n | bsConsume n =>
    exact decode_pack (by decide) (of_decide_eq_true h) (by decide) (by decide) rfl rfl rfl
  case htDecode t n =>
    exact decode_pack (by decide) (of_decide_eq_true h) (by decide) t.isLt rfl (by rw [idOfBits_val]) rfl
  case htBuild t | htEncode t | htLimits t | htRead t =>
    exact decode_pack (by decide) (by decide) (by decide) t.isLt rfl (by rw [idOfBits_val]) rfl
  case shiftClamp k | unshift k =>
    have hk := kindBit_lt k
    exact decode_pack (by decide) (by decide) (by decide) (by omega) rfl (by rw [kindOfBit_bit])
      (by simp [Shape.admits, hk])
  case compose m | decompose m =>
    have hm := modeBit_lt m
    exact decode_pack (by decide) (by decide) (by decide) (by omega) rfl (by rw [modeOfBit_bit])
      (by simp [Shape.admits, hm])
  case quant c | dequant c =>
    exact decode_pack (by decide) (by decide) c.isLt (by decide) rfl (by rw [idOfBits_val]) rfl
  case qAdjust c k | blkDecode c k | blkEncode c k =>
    have hk := kindBit_lt k
    exact decode_pack (by decide) (by decide) c.isLt (by omega) rfl (by rw [idOfBits_val, kindOfBit_bit])
      (by simp [Shape.admits, hk])
  all_goals exact decode_pack (by decide) (by decide) (by decide) (by decide) rfl rfl rfl

/-- Settles O5: the placed word decodes to its instruction, and no event comes before it. -/
theorem fetchedWordRunsNext : Obligations.FetchedWordRunsNext := by
  intro s i h
  have hw : tableWord 32 (encode i).toNat = encode i := by
    rw [tableWord, Nat.mod_eq_of_lt (encode i).isLt, BitVec.ofNat_toNat, BitVec.setWidth_eq]
  rw [State.withFetchWord, hw, step_idle rfl, runLatched_ok rfl (decode_encode h)]
  rfl

end Sys2Proof.Machine
end

section
/-! PROOFS. How the image commands end: DECODE_IMAGE as its blocks do one by one, and both at a fatal fault
(10_state.md R19; 47_image.md R108 to R110; 60_exceptions.md R115). -/

namespace Sys2Proof.Machine

/-! ### The checks of the image commands -/

theorem rangeOk_iff {s : State} {base len : Nat} : rangeOk s base len = true ↔ RangePasses s base len := by
  simp only [rangeOk, RangePasses, Bool.or_eq_true, beq_iff_eq, decide_eq_true_eq]

/-- Ranges that do not overlap share no byte. -/
theorem not_rangesOverlap_iff {b1 l1 b2 l2 : Nat} :
    (!rangesOverlap b1 l1 b2 l2) = true ↔ Disjoint b1 l1 b2 l2 := by
  simp only [rangesOverlap, Bool.not_eq_true', Bool.and_eq_false_iff, decide_eq_false_iff_not, Disjoint]
  constructor
  · intro h a ha
    omega
  · intro h
    have := h (max b1 b2)
    omega

theorem ctxCheck_iff {s : State} : ctxCheck s = true ↔ ContextPasses s := by
  have channels : ∀ p : Channel → Prop, (∀ c, p c) ↔ p 0 ∧ p 1 ∧ p 2 ∧ p 3 := fun p => by simp [Fin.forall_fin_succ]
  simp only [ctxCheck, ContextPasses, channelOk, qualityOk, channels, Bool.and_eq_true, Bool.or_eq_true,
    bne_iff_ne, ne_eq, decide_eq_true_eq, and_assoc]
  rfl

theorem decodeImageOk_iff {s : State} : decodeImageOk s = true ↔ Passes .decodeImage s := by
  simp only [decodeImageOk, Bool.and_eq_true, decide_eq_true_eq, ctxCheck_iff, rangeOk_iff,
    not_rangesOverlap_iff, and_assoc]
  rfl

theorem encodeImageOk_iff {s : State} : encodeImageOk s = true ↔ Passes .encodeImage s := by
  simp only [encodeImageOk, Bool.and_eq_true, decide_eq_true_eq, ctxCheck_iff, rangeOk_iff,
    not_rangesOverlap_iff, and_assoc]
  rfl

/-! ### A fatal fault inside an image command -/

/-- What a fatal fault inside an image command leaves, after the set-up from s, with output range [base, base + len)
and n blocks completed (R109). -/
structure ImageFaulted (code : ErrCode) (trunc : Bool) (n base len : Nat) (s t : State) : Prop where
  errcode : t.status.errcode = code
  trunc   : t.status.trunc = trunc
  result0 : t.result0 = s.result0
  result1 : t.result1 = s.result1
  padW    : t.padW = (ctxSetup s).padW
  padH    : t.padH = (ctxSetup s).padH
  qt      : t.qt = (ctxSetup s).qt
  ht      : t.ht = s.ht
  host    : HostSideSame s t
  errpos  : t.errpos = BitVec.ofNat 32 n
  mem     : MemSameOutside base len s t

theorem imageFaulted_imageFault (code : ErrCode) (u : Bool) (n pos base len : Nat) (s : State) :
    ImageFaulted code u n base len s (imageFault code u n pos base len (ctxSetup s)) := by
  rw [imageFault_eq]
  constructor
  case host =>
    have hctx := hostSideSame_ctxSetup s
    exact (hctx.trans (hostSideSame_faultScratch _ _ _ _ _)).trans (hostSideSame_complete _ _ _)
  case mem =>
    intro a ha
    rw [complete_mem, faultScratch_mem]
    exact memRead_memWrite_outside _ _ _ _ (by rw [length_freeBytes]; exact ha)
  all_goals simp [u32]

/-- The Context a passing image command sets up is CTX_INIT's. -/
theorem exec_ctxInit_ok {s ctx : State} (hc : ctxCheck s = true) (h : exec .ctxInit s = .next ctx) :
    ctx.padW = (ctxSetup s).padW ∧ ctx.padH = (ctxSetup s).padH ∧ ctx.qt = (ctxSetup s).qt := by
  rw [exec, execCtxInit, if_pos hc] at h
  cases h
  exact ⟨rfl, rfl, rfl⟩

/-! ### DECODE_IMAGE block by block -/

/-- The record the decode pass of DECODE_IMAGE begins with. -/
def decStart (s : State) : DecPass :=
  { bs := bsOpen .reading s.srcBase s.srcLen, pred := (ctxSetup s).dcpred, n := 0, firstBad := none, planes := [] }

/-- The state a DECODE_IMAGE that decoded every block completes. -/
def decodedState (s : State) (p : DecPass) : State :=
  leaveScratch
    { ctxSetup s with
      bs := p.bs
      dcpred := p.pred
      mem := memWrite s.dstBase.toNat (outputBytes (ctxSetup s) p.planes) s.mem
      result0 := u32 (argbLen s)
      result1 := p.bs.cursor
      errpos := u32 (p.firstBad.getD p.n)
      iterPos := u32 p.n }

theorem exec_decodeImage_fault {s : State} {n : Nat} {bad : Option Nat} (hok : decodeImageOk s = true)
    (h : decodePass (ctxSetup s) (blocks s) (decStart s) = .fault n bad) :
    exec .decodeImage s = .next (imageFault .huffmanDecodingFault bad.isSome (bad.getD n) n s.dstBase.toNat
      (argbLen s) (ctxSetup s)) := by
  rw [decStart] at h
  rw [exec, execDecodeImage, if_pos hok]
  dsimp only
  rw [h]

theorem exec_decodeImage_done {s : State} {p : DecPass} (hok : decodeImageOk s = true)
    (h : decodePass (ctxSetup s) (blocks s) (decStart s) = .done p) :
    exec .decodeImage s = .next (complete (if p.firstBad.isSome then .streamUnderrun else .none) p.firstBad.isSome
      (decodedState s p)) := by
  rw [decStart] at h
  rw [exec, execDecodeImage, if_pos hok]
  dsimp only
  rw [h, decodedState]
  dsimp only
  cases p.firstBad <;> rfl

@[simp] theorem decodedState_trunc (s : State) (p : DecPass) : (decodedState s p).status.trunc = false := by
  simp [decodedState]
@[simp] theorem decodedState_result0 (s : State) (p : DecPass) : (decodedState s p).result0 = u32 (argbLen s) := by
  simp [decodedState]
@[simp] theorem decodedState_result1 (s : State) (p : DecPass) : (decodedState s p).result1 = p.bs.cursor := by
  simp [decodedState]
@[simp] theorem decodedState_errpos (s : State) (p : DecPass) :
    (decodedState s p).errpos = u32 (p.firstBad.getD p.n) := by simp [decodedState]
@[simp] theorem decodedState_dcpred (s : State) (p : DecPass) : (decodedState s p).dcpred = p.pred := by
  simp [decodedState]
@[simp] theorem decodedState_bs (s : State) (p : DecPass) : (decodedState s p).bs = p.bs := by simp [decodedState]
@[simp] theorem decodedState_qt (s : State) (p : DecPass) : (decodedState s p).qt = (ctxSetup s).qt := by
  simp [decodedState]
@[simp] theorem decodedState_mem (s : State) (p : DecPass) : (decodedState s p).mem =
    memWrite s.dstBase.toNat (outputBytes (ctxSetup s) p.planes) s.mem := by simp [decodedState]

theorem memSameOutside_decodedState (s : State) (p : DecPass) :
    MemSameOutside s.dstBase.toNat (4 * s.width.toNat * s.height.toNat) s (decodedState s p) := by
  intro a ha
  rw [decodedState_mem]
  exact memRead_memWrite_outside _ _ _ _ (by rw [length_outputBytes]; exact ha)

/-- DECODE_IMAGE ends as its blocks do when they are decoded one by one. -/
theorem decodeImage_cases {s : State} (hok : decodeImageOk s = true) : ∃ f, BlockByBlock s f ∧
    (f 0).qt = (ctxSetup s).qt ∧
    ((∃ n bad, exec .decodeImage s = .next (imageFault .huffmanDecodingFault bad.isSome (bad.getD n) n
        s.dstBase.toNat (argbLen s) (ctxSetup s)) ∧
      n < (blocks s).length ∧ (f (n + 1)).status.errcode = .huffmanDecodingFault ∧ BadIs f none 0 n bad) ∨
    ∃ (q : DecPass) (zs : List (BlockPos × Block)),
      exec .decodeImage s = .next (complete (if q.firstBad.isSome then .streamUnderrun else .none) q.firstBad.isSome
        (decodedState s q)) ∧
      Follows (ctxSetup s) q (f (blocks s).length) ∧ q.n = (blocks s).length ∧
      (∀ n, n < (blocks s).length → (f (n + 1)).status.errcode ≠ .huffmanDecodingFault) ∧
      BadIs f none 0 (blocks s).length q.firstBad ∧ zs.map Prod.fst = blocks s ∧
      (∀ i e, zs[i]? = some e → e.2 = (f (i + 1)).blk) ∧ q.planes = (zs.map (placed (ctxSetup s))).reverse) := by
  obtain ⟨f, hf, hfol, hqt⟩ := exists_blockByBlock hok
  refine ⟨f, hf, hqt, ?_⟩
  rcases decodePass_follows f (blocks s) (decStart s) hfol (fun i pos hi => by
      simpa only [decStart, Nat.zero_add, ctxSetup_variant] using hf.block i pos hi) with
    ⟨n, bad, hpass, -, hn, herr, hbad⟩ | ⟨q, zs, hpass, hq, hn, hno, hbad, hz, hblk, hpl⟩
  · exact .inl ⟨n, bad, exec_decodeImage_fault hok hpass, by simpa only [decStart, Nat.zero_add] using hn, herr, hbad⟩
  · simp only [decStart, Nat.zero_add, List.append_nil] at hq hn hno hbad hblk hpl
    exact .inr ⟨q, zs, exec_decodeImage_done hok hpass, hq, hn, fun n hlt => hno n (Nat.zero_le n) hlt, hbad, hz, hblk,
      hpl⟩

/-- With no earlier underrun, `BadIs` names none and every block is whole, or the first block that underran. -/
theorem BadIs.first {f : Nat → State} {hi : Nat} {bad : Option Nat} (h : BadIs f none 0 hi bad) :
    (bad = none ∧ ∀ n < hi, (f (n + 1)).status.errcode = .none) ∨
    ∃ m, bad = some m ∧ m < hi ∧ (f (m + 1)).status.errcode = .streamUnderrun ∧
      ∀ n < m, (f (n + 1)).status.errcode = .none := by
  rcases h.2 rfl with ⟨hb, hall⟩ | ⟨m, hb, -, hlt, herr, hall⟩
  · exact .inl ⟨hb, fun n hn => hall n (Nat.zero_le n) hn⟩
  · exact .inr ⟨m, hb, hlt, herr, fun n hn => hall n (Nat.zero_le n) hn⟩

/-- Settles O56: the decode pass ends as the blocks do one by one (`decodePass_follows`), and its pixels are those of
the blocks (`writesPixels_placed`). -/
theorem truncatedImageIsFullSize : Obligations.TruncatedImageIsFullSize := by
  intro s hp
  obtain ⟨f, hf, hqt, hcase⟩ := decodeImage_cases (decodeImageOk_iff.mpr hp)
  rcases hcase with ⟨n, bad, he, hn, herr, -⟩ | ⟨q, zs, he, hq, hn, hno, hbad, hz, hblk, hpl⟩
  · have ht := imageFaulted_imageFault .huffmanDecodingFault bad.isSome (bad.getD n) n s.dstBase.toNat (argbLen s) s
    refine ⟨f, _, hf, he, ?_, ⟨fun _ => ⟨n, hn, herr⟩, fun _ => ht.errcode⟩, fun h => absurd ht.errcode h, ht.mem⟩
    rw [ht.errcode]
    decide
  · have pixels : WritesPixels s (ctxSetup s).qt zs (decodedState s q).mem := by
      rw [decodedState_mem, hpl]
      exact writesPixels_ctxSetup (writesPixels_placed (s := ctxSetup s) hz s.mem)
    refine ⟨f, _, hf, he, ?_⟩
    rcases hbad.first with ⟨hb, hall⟩ | ⟨m, hb, hm, herr, hall⟩ <;>
      simp only [hb, Option.isSome_none, Option.isSome_some, Bool.false_eq_true, if_true, if_false, complete_status,
        statusCompleted_errcode, statusCompleted_trunc, decodedState_trunc, Bool.or_false, Bool.or_true]
    · refine ⟨by decide, ⟨nofun, fun ⟨n, hlt, h⟩ => absurd h (hno n hlt)⟩, fun _ => ⟨decodedState_result0 s q, ?_,
        by simp, fun _ => ⟨?_, hall⟩, nofun, ?_, ?_, ?_, zs, hz, hblk, pixels⟩, memSameOutside_decodedState s q⟩
      all_goals simp [hb, hn, hq.dcpred, hq.bs, hqt, u32]
    · have hfirst : FirstBad s f m := ⟨hm, by rw [herr]; decide, hall⟩
      refine ⟨by decide, ⟨nofun, fun ⟨n, hlt, h⟩ => absurd h (hno n hlt)⟩, fun _ => ⟨decodedState_result0 s q, ?_,
        by simp, nofun, fun _ => ⟨m, hfirst, herr, ?_⟩, ?_, ?_, ?_, zs, hz, hblk, pixels⟩,
        memSameOutside_decodedState s q⟩
      all_goals simp [hb, hq.dcpred, hq.bs, hqt, u32]

/-! ### Both commands at a fatal fault -/

/-- A DECODE_IMAGE that ends with a fatal code faulted in a block (R109); ERRPOS and TRUNC name the first block that
faulted or underran (log 11). -/
theorem decodeImage_faulted {s t : State} (hok : decodeImageOk s = true) (h : exec .decodeImage s = .next t)
    (herr : t.status.err = true) : ∃ f n bad, BlockByBlock s f ∧ FirstBad s f n ∧
      (bad = true ↔ (f (n + 1)).status.errcode = .streamUnderrun) ∧
      ImageFaulted .huffmanDecodingFault bad n s.dstBase.toNat (argbLen s) s t := by
  obtain ⟨f, hf, -, hcase⟩ := decodeImage_cases hok
  rcases hcase with ⟨n, bad, he, hn, hfault, hbad⟩ | ⟨q, zs, he, -⟩
  · rw [he] at h
    cases h
    have ht := imageFaulted_imageFault .huffmanDecodingFault bad.isSome (bad.getD n) n s.dstBase.toNat (argbLen s) s
    refine ⟨f, bad.getD n, bad.isSome, hf, ?_, ?_, ht⟩ <;>
      rcases hbad.first with ⟨rfl, hall⟩ | ⟨m, rfl, hm, hunder, hall⟩
    · exact ⟨hn, by rw [Option.getD_none, hfault]; decide, hall⟩
    · exact ⟨hm.trans hn, by rw [Option.getD_some, hunder]; decide, hall⟩
    · simp [hfault]
    · simp [hunder]
  · rw [he] at h
    cases h
    rw [complete_status, statusCompleted_err] at herr
    split at herr <;> cases herr

/-- An ENCODE_IMAGE that ends with a fatal code: in a block without a code or without room, or after all of them where
the flush or the padding has no room (R109, R110). -/
theorem encodeImage_faulted {s t : State} {zs : List (BlockPos × Block)} (hz : zs = preparedBlocks s (ctxSetup s).qt)
    (hok : encodeImageOk s = true) (h : exec .encodeImage s = .next t) (herr : t.status.err = true) :
    ∃ code n items,
      ImageFaulted code false n s.dstBase.toNat s.dstCap.toNat s t ∧
      n ≤ zs.length ∧
      codedItems s (Vector.replicate 4 0) (zs.take n) = some items ∧
      itemBits items / 8 ≤ s.dstCap.toNat ∧
      (n < zs.length →
        (code = .huffmanEncodingFault ∧
          codedItems s (Vector.replicate 4 0) (zs.take (n + 1)) = none) ∨
        (code = .illegalArgument ∧ ∃ more,
          codedItems s (Vector.replicate 4 0) (zs.take (n + 1)) = some more ∧
          s.dstCap.toNat < itemBits more / 8)) ∧
      (n = zs.length → code = .illegalArgument ∧
        s.dstCap.toNat < ((itemBits items + 7) / 8 + 15) / 16 * 16) := by
  subst hz
  have ok := encOk_start s.dstBase s.dstCap (ctxSetup s).dcpred
  rw [exec, execEncodeImage, if_pos hok] at h
  dsimp only at h
  simp only [Host.Outcome.next.injEq] at h
  split at h
  · rename_i code n hpass
    subst h
    obtain ⟨j, more, hj, hlt, hitems, hroom, hcase⟩ := encodePass_faultAt _ _ _ ok hpass
    simp only [codedItems_ctxSetup, ctxSetup_dcpred, List.nil_append, Nat.zero_add] at hj hitems hroom hcase
    subst hj
    exact ⟨code, n, more, imageFaulted_imageFault .., hlt.le, hitems, hroom, fun _ => hcase, fun he => absurd he hlt.ne⟩
  rename_i p hpass
  rcases encodePass_spec _ _ _ ok with ⟨code, n, hfault⟩ | ⟨items, q, hdone, hitems, okq, -, hn⟩
  · rw [hfault] at hpass
    cases hpass
  rw [hdone] at hpass
  cases hpass
  simp only [codedItems_ctxSetup, ctxSetup_dcpred, List.nil_append, Nat.zero_add] at hitems okq hn
  rcases finishEncode_spec okq _ _ rfl rfl with ⟨hfull, hfin⟩ | ⟨-, q', hfin, -⟩
  · rw [hfin] at h
    subst h
    have hroom := okq.room
    have hlen := okq.length
    have hcnt := okq.count
    refine ⟨.illegalArgument, _, items, imageFaulted_imageFault .., hn.le, ?_, by omega, fun hlt => absurd hn hlt.ne,
      fun _ => ⟨rfl, hfull⟩⟩
    rw [hn, List.take_length]
    exact hitems
  · rw [hfin] at h
    subst h
    cases herr

/-- Settles O59: `decodeImage_faulted` and `encodeImage_faulted`. -/
theorem imageFaultLeavesTheRest : Obligations.ImageFaultLeavesTheRest := by
  refine ⟨itemsLineByLine, fun s ctx t i hi hp hctx ht herr => ?_⟩
  rcases hi with rfl | rfl
  · have hok := decodeImageOk_iff.mpr hp
    obtain ⟨hpw, hph, hqt⟩ := exec_ctxInit_ok (ctxCheck_iff.mpr hp.1) hctx
    obtain ⟨f, n, bad, hf, hfirst, hbad, hfaulted⟩ := decodeImage_faulted hok ht herr
    obtain ⟨hcode, htrunc, hr0, hr1, hw, hh, hq, hht, hhost, hpos, hmem⟩ := hfaulted
    refine ⟨by rw [hcode]; decide, hr0, hr1, hw.trans hpw.symm, hh.trans hph.symm, hq.trans hqt.symm, hht, hhost,
      fun _ => ⟨hmem, hcode, f, n, hf, hfirst, hpos, htrunc ▸ hbad⟩, nofun⟩
  · have hok := encodeImageOk_iff.mpr hp
    obtain ⟨hpw, hph, hqt⟩ := exec_ctxInit_ok (ctxCheck_iff.mpr hp.1) hctx
    obtain ⟨code, n, items, hfaulted, hn, hitems, hroom, hblock, hend⟩ := encodeImage_faulted rfl hok ht herr
    obtain ⟨hcode, htrunc, hr0, hr1, hw, hh, hq, hht, hhost, hpos, hmem⟩ := hfaulted
    rw [← hqt] at hn hitems hblock hend
    subst hcode
    refine ⟨?_, hr0, hr1, hw.trans hpw.symm, hh.trans hph.symm, hq.trans hqt.symm, hht, hhost, nofun,
      fun _ => ⟨hmem, htrunc, _, n, items, rfl, hn, hpos, hitems, hroom, hblock, hend⟩⟩
    rcases Nat.lt_or_eq_of_le hn with hlt | heq
    · rcases hblock hlt with ⟨hc, -⟩ | ⟨hc, -⟩ <;> simp [hc]
    · simp [(hend heq).1]

end Sys2Proof.Machine
end

section
/-! PROOFS. What the readers of DMEM depend on: each internal function that takes DMEM answers the same over two
memories that agree on the range it reads (20_memory.md R34, R40). -/

namespace Sys2Proof.Machine

/-! ### Memories that agree on a range -/

/-- The two memories hold the same bytes in the range. -/
def AgreeOn (r : Span) (m m' : Memory) : Prop := ∀ a : Nat, r.has a = true → memRead m' a = memRead m a

theorem Span.has_iff {r : Span} {a : Nat} : r.has a = true ↔ r.base ≤ a ∧ a < r.base + r.len := by
  simp [Span.has, inRange]

theorem AgreeOn.refl (r : Span) (m : Memory) : AgreeOn r m m := fun _ _ => rfl

theorem AgreeOn.congr {r r' : Span} {m m' : Memory} (h : AgreeOn r m m') (e : r' = r) : AgreeOn r' m m' := e ▸ h

theorem AgreeOn.byte {base len a : Nat} {m m' : Memory} (h : AgreeOn ⟨base, len⟩ m m') (h₁ : base ≤ a)
    (h₂ : a < base + len) : memRead m' a = memRead m a := h a (Span.has_iff.mpr ⟨h₁, h₂⟩)

/-! ### The stream readers -/

/-- The range of a stream (R34): `streamSpan` for a stream that need not be the state's. A reader is local to it: it
answers the same over memories that agree there, and leaves the stream on the same range. -/
def sourceSpan (b : Bs) : Span := { base := b.base.toNat, len := b.limit.toNat }

theorem streamSpan_eq (s : State) : streamSpan s = sourceSpan s.bs := rfl

theorem bsPull_congr {m m' : Memory} {b : Bs} (h : AgreeOn (sourceSpan b) m m')
    (hc : b.cursor.toNat < b.limit.toNat) : bsPull m' b = bsPull m b := by
  rw [bsPull, bsPull, h.byte (Nat.le_add_right ..) (Nat.add_lt_add_left hc _)]

theorem bsFill_local {m m' : Memory} {n fuel : Nat} {b : Bs} (h : AgreeOn (sourceSpan b) m m') :
    bsFill m' n fuel b = bsFill m n fuel b ∧ sourceSpan (bsFill m n fuel b) = sourceSpan b := by
  induction fuel generalizing b with
  | zero => exact ⟨rfl, rfl⟩
  | succ fuel ih =>
    rw [bsFill, bsFill]
    split
    · rename_i hc
      rw [bsPull_congr h hc.2]
      exact ih h
    · exact ⟨rfl, rfl⟩

theorem bsCan_local {m m' : Memory} {n : Nat} {b : Bs} (h : AgreeOn (sourceSpan b) m m') :
    bsCan m' n b = bsCan m n b ∧ sourceSpan (bsCan m n b).1 = sourceSpan b := by
  rw [bsCan, bsCan, (bsFill_local h).1]
  exact ⟨rfl, (bsFill_local h).2⟩

theorem htExtend_local {t : Ht} {m m' : Memory} {more len w : Nat} {b : Bs} (h : AgreeOn (sourceSpan b) m m') :
    htExtend t m' more len w b = htExtend t m more len w b ∧
      sourceSpan (htExtend t m more len w b).1 = sourceSpan b := by
  induction more generalizing len w b with
  | zero =>
    rw [htExtend, htExtend]
    cases t.decodeMap w len <;> exact ⟨rfl, rfl⟩
  | succ more ih =>
    simp only [htExtend]
    cases t.decodeMap w len with
    | some sym => exact ⟨rfl, rfl⟩
    | none =>
      obtain ⟨heq, hsame⟩ := bsCan_local (n := 1) h
      rw [heq]
      rcases hcan : bsCan m 1 b with ⟨b₁, _ | _⟩ <;> rw [hcan] at hsame
      · exact ⟨rfl, hsame⟩
      · obtain ⟨h₁, h₂⟩ := ih (len := len + 1) (w := 2 * w + (bsTake 1 b₁).2) (b := (bsTake 1 b₁).1) (h.congr hsame)
        exact ⟨h₁, h₂.trans hsame⟩

theorem htRead_local {t : Ht} {m m' : Memory} {b : Bs} (h : AgreeOn (sourceSpan b) m m') :
    htRead t m' b = htRead t m b ∧ sourceSpan (htRead t m b).1 = sourceSpan b := by
  obtain ⟨heq, hsame⟩ := bsCan_local (n := t.minLen.toNat) h
  rw [htRead, htRead, heq]
  rcases hcan : bsCan m t.minLen.toNat b with ⟨b₁, _ | _⟩ <;> rw [hcan] at hsame
  · exact ⟨rfl, hsame⟩
  · obtain ⟨h₁, h₂⟩ := htExtend_local (t := t) (more := t.maxLen.toNat - t.minLen.toNat) (len := t.minLen.toNat)
      (w := (bsTake t.minLen.toNat b₁).2) (b := (bsTake t.minLen.toNat b₁).1) (h.congr hsame)
    exact ⟨h₁, h₂.trans hsame⟩

theorem acLoop_local {ac : Ht} {m m' : Memory} {pred : Word} {fuel k : Nat} {z : Block} {b : Bs}
    (h : AgreeOn (sourceSpan b) m m') : acLoop ac m' pred fuel k z b = acLoop ac m pred fuel k z b ∧
      sourceSpan (acLoop ac m pred fuel k z b).bs = sourceSpan b := by
  induction fuel generalizing k z b with
  | zero => exact ⟨rfl, rfl⟩
  | succ fuel ih =>
    obtain ⟨heq, hsame⟩ := htRead_local (t := ac) h
    simp only [acLoop, heq]
    split
    · exact ⟨rfl, rfl⟩
    rcases hread : htRead ac m b with ⟨b₁, e⟩
    rw [hread] at hsame
    cases e with
    | underrun => exact ⟨rfl, hsame⟩
    | noMatch => exact ⟨rfl, hsame⟩
    | symbol rs len =>
      dsimp only
      split
      · exact ⟨rfl, hsame⟩
      split
      · exact ⟨rfl, hsame⟩
      obtain ⟨heq₁, hsame₁⟩ := bsCan_local (n := rs.toNat % 16) (h.congr hsame)
      rw [heq₁]
      rcases hcan : bsCan m (rs.toNat % 16) b₁ with ⟨b₂, _ | _⟩ <;> rw [hcan] at hsame₁
      · exact ⟨rfl, hsame₁.trans hsame⟩
      · have hsame₂ := hsame₁.trans hsame
        obtain ⟨h₁, h₂⟩ := ih (b := (bsTake (rs.toNat % 16) b₂).1) (h.congr hsame₂)
        exact ⟨h₁, h₂.trans hsame₂⟩

theorem blkDecode_local {dc ac : Ht} {m m' : Memory} {pred : Word} {b : Bs} (h : AgreeOn (sourceSpan b) m m') :
    blkDecode dc ac m' pred b = blkDecode dc ac m pred b ∧
      sourceSpan (blkDecode dc ac m pred b).bs = sourceSpan b := by
  obtain ⟨heq, hsame⟩ := htRead_local (t := dc) h
  simp only [blkDecode, heq]
  rcases hread : htRead dc m b with ⟨b₁, e⟩
  rw [hread] at hsame
  cases e with
  | underrun => exact ⟨rfl, hsame⟩
  | noMatch => exact ⟨rfl, hsame⟩
  | symbol sym len =>
    dsimp only
    split
    · exact ⟨rfl, hsame⟩
    obtain ⟨heq₁, hsame₁⟩ := bsCan_local (n := sym.toNat) (h.congr hsame)
    rw [heq₁]
    rcases hcan : bsCan m sym.toNat b₁ with ⟨b₂, _ | _⟩ <;> rw [hcan] at hsame₁
    · exact ⟨rfl, hsame₁.trans hsame⟩
    · have hsame₂ := hsame₁.trans hsame
      obtain ⟨h₁, h₂⟩ := acLoop_local (ac := ac) (b := (bsTake sym.toNat b₂).1) (h.congr hsame₂)
      exact ⟨h₁, h₂.trans hsame₂⟩

/-! ### The decode pass -/

theorem decodeOne_local {s : State} {m : Memory} {pos : BlockPos} {p : DecPass}
    (h : AgreeOn (sourceSpan p.bs) s.mem m) : decodeOne { s with mem := m } pos p = decodeOne s pos p ∧
      ∀ q, decodeOne s pos p = .done q → sourceSpan q.bs = sourceSpan p.bs := by
  obtain ⟨heq, hsame⟩ := blkDecode_local (dc := s.ht[dcTable (variantKind s.variant pos.c)])
    (ac := s.ht[acTable (variantKind s.variant pos.c)]) (pred := p.pred[pos.c]) h
  rw [decodeOne, decodeOne]
  refine ⟨by simp only [heq], fun q hq => ?_⟩
  split at hq
  · cases hq
  all_goals
    cases hq
    exact hsame

theorem decodePass_congr {s : State} {m : Memory} {l : List BlockPos} {p : DecPass}
    (h : AgreeOn (sourceSpan p.bs) s.mem m) : decodePass { s with mem := m } l p = decodePass s l p := by
  induction l generalizing p with
  | nil => rfl
  | cons pos rest ih =>
    obtain ⟨heq, hsame⟩ := decodeOne_local (pos := pos) h
    rw [decodePass, decodePass, heq]
    cases hone : decodeOne s pos p with
    | fault n bad => rfl
    | done q => exact ih (h.congr (hsame q hone))

/-! ### The samplers -/

/-- Item (x, y) of a plane of a × b items in row-major order is one of its a · b items. -/
theorem rowMajor_lt {x y a b : Nat} (hx : x < a) (hy : y < b) : y * a + x < a * b := by
  have : (y + 1) * a ≤ b * a := Nat.mul_le_mul_right a hy
  rw [Nat.succ_mul, Nat.mul_comm b] at this
  omega

theorem ld16_congr {m m' : Memory} {base len n : Nat} (h : AgreeOn ⟨base, len⟩ m m') (hn : 2 * n + 1 < len) :
    ld16 m' base n = ld16 m base n := by
  rw [ld16, ld16, memRead16, memRead16, h.byte (by omega) (by omega), h.byte (by omega) (by omega)]

theorem planeOf_congr {w h : Nat} {f g : Nat → Nat → Int} (e : ∀ x < w, ∀ y < h, f x y = g x y) :
    planeOf w h f = planeOf w h g := by
  refine List.flatMap_congr fun y hy => List.map_congr_left fun x hx => ?_
  exact e x (List.mem_range.mp hx) y (List.mem_range.mp hy)

theorem samplerOk_even {n k : Nat} {s : State} (h : samplerOk n k s = true) :
    ∃ a b, s.width.toNat = 2 * a ∧ s.height.toNat = 2 * b := by
  simp only [samplerOk, Bool.and_eq_true, beq_iff_eq] at h
  obtain ⟨⟨⟨⟨hw, hh⟩, -⟩, -⟩, -⟩ := h
  exact ⟨s.width.toNat / 2, s.height.toNat / 2, by omega, by omega⟩

theorem quarterPlaneLen_even {s : State} {a b : Nat} (hw : s.width.toNat = 2 * a) (hh : s.height.toNat = 2 * b) :
    quarterPlaneLen s = 2 * (a * b) := by
  rw [quarterPlaneLen, hw, hh, show 2 * a * (2 * b) = 2 * (2 * (a * b)) by ring]
  omega

theorem fullPlaneLen_eq (s : State) : fullPlaneLen s = 2 * (s.width.toNat * s.height.toNat) := Nat.mul_assoc ..

theorem upsampled_congr {s : State} {m : Memory} (hok : upsampleOk s = true)
    (h : AgreeOn ⟨s.arg0.toNat, quarterPlaneLen s⟩ s.mem m) {x y : Nat} (hx : x < s.width.toNat)
    (hy : y < s.height.toNat) : upsampled { s with mem := m } x y = upsampled s x y := by
  obtain ⟨a, b, hw, hh⟩ := samplerOk_even hok
  have hin := rowMajor_lt (x := x / 2) (y := y / 2) (a := a) (b := b) (by omega) (by omega)
  refine ld16_congr h ?_
  rw [quarterPlaneLen_even hw hh, hw, Nat.mul_div_cancel_left a Nat.two_pos]
  omega

theorem downsampled_congr {s : State} {m : Memory} (hok : downsampleOk s = true)
    (h : AgreeOn ⟨s.arg0.toNat, fullPlaneLen s⟩ s.mem m) {x y : Nat} (hx : x < s.width.toNat / 2)
    (hy : y < s.height.toNat / 2) : downsampled { s with mem := m } x y = downsampled s x y := by
  obtain ⟨a, b, hw, hh⟩ := samplerOk_even hok
  have sample : ∀ i j, i < s.width.toNat → j < s.height.toNat →
      ld16 m s.arg0.toNat (j * s.width.toNat + i) = ld16 s.mem s.arg0.toNat (j * s.width.toNat + i) := by
    intro i j hi hj
    have hin := rowMajor_lt hi hj
    exact ld16_congr h (by rw [fullPlaneLen_eq]; omega)
  simp only [downsampled]
  rw [sample _ _ (by omega) (by omega), sample _ _ (by omega) (by omega), sample _ _ (by omega) (by omega),
    sample _ _ (by omega) (by omega)]

/-! ### The source pixels of ENCODE_IMAGE -/

theorem inputPixel_congr {s : State} {m : Memory} (h : AgreeOn ⟨s.srcBase.toNat, argbLen s⟩ s.mem m) (x y : Nat) :
    inputPixel { s with mem := m } x y = inputPixel s x y := by
  simp only [inputPixel]
  split
  · rename_i hin
    have hlt := rowMajor_lt hin.1 hin.2
    have hlen : argbLen s = 4 * (s.width.toNat * s.height.toNat) := Nat.mul_assoc ..
    rw [h.byte (by omega) (by omega), h.byte (by omega) (by omega), h.byte (by omega) (by omega),
      h.byte (by omega) (by omega)]
  · rfl

theorem preparedBlocks_congr {s : State} {m : Memory} (h : AgreeOn ⟨s.srcBase.toNat, argbLen s⟩ s.mem m)
    (qt : Vector (Vector (BitVec 15) 64) 4) : preparedBlocks { s with mem := m } qt = preparedBlocks s qt := by
  have samples : ∀ c x y, inputSample { s with mem := m } c x y = inputSample s c x y := fun c x y => by
    rw [inputSample, inputSample, inputPixel_congr h]
  have coded : ∀ c x y, codedSample { s with mem := m } c x y = codedSample s c x y := fun c x y => by
    simp only [codedSample, samples]
  refine List.map_congr_left fun pos _ => ?_
  simp only [sampleBlock, coded]

theorem encodePass_withMem (s : State) (m : Memory) (l : List (BlockPos × Block)) (p : EncPass) :
    encodePass { s with mem := m } l p = encodePass s l p := by
  induction l generalizing p with
  | nil => rfl
  | cons e rest ih =>
    simp only [encodePass, ih]
    rfl

end Sys2Proof.Machine
end

section
/-! PROOFS. What a command does to DMEM, said once for all 30 (`exec_effect`): over memories that agree on the range it
reads it makes one and the same write, inside the range it may write (20_memory.md R34, R35, R40). -/

namespace Sys2Proof.Machine

/-! ### One write of DMEM -/

/-- The memory after a write, given by its address and its bytes; `none` writes nothing. -/
def applyWrite : Option (Nat × List Byte) → Memory → Memory
  | none, m => m
  | some (a, out), m => memWrite a out m

/-- The write changes bytes of the range only. -/
def WriteWithin (r : Span) : Option (Nat × List Byte) → Prop
  | none => True
  | some (a, out) => out = [] ∨ r.base ≤ a ∧ a + out.length ≤ r.base + r.len

theorem memRead_applyWrite_outside {r : Span} {w : Option (Nat × List Byte)} (h : WriteWithin r w) (m : Memory)
    {x : Nat} (hx : ¬(r.base ≤ x ∧ x < r.base + r.len)) : memRead (applyWrite w m) x = memRead m x := by
  rcases w with _ | ⟨a, out⟩
  · rfl
  · rcases h with rfl | h
    · exact memRead_memWrite_nil m a x
    · exact memRead_memWrite_outside m a out x (by omega)

/-- One write in two memories: a byte is written in both, or left alone in both. -/
theorem memRead_applyWrite_both (w : Option (Nat × List Byte)) (m m' : Memory) (x : Nat) :
    memRead (applyWrite w m') x = memRead (applyWrite w m) x ∨
      (memRead (applyWrite w m) x = memRead m x ∧ memRead (applyWrite w m') x = memRead m' x) := by
  rcases w with _ | ⟨a, out⟩
  · exact .inr ⟨rfl, rfl⟩
  · simp only [applyWrite, memRead_memWrite]
    split
    · exact .inl rfl
    · exact .inr ⟨rfl, rfl⟩

/-! ### The effect of a command -/

/-- The answer with another DMEM. -/
def withMem (m : Memory) : Answer → Answer
  | .next t => .next { t with mem := m }
  | .fault r => .fault r
  | .refused r => .refused r

/-- The command makes the write w, inside its output range, and answers the same over every DMEM that agrees with the
state's on its input range. -/
structure Effect (i : Instr) (s : State) (w : Option (Nat × List Byte)) : Prop where
  within : WriteWithin (writeSpan i s) w
  same   : ∀ m : Memory, AgreeOn (readSpan i s) s.mem m →
    exec i { s with mem := m } = withMem (applyWrite w m) (exec i s)

theorem Effect.mem_eq {i : Instr} {s t : State} {w : Option (Nat × List Byte)} (h : Effect i s w)
    (ht : exec i s = .next t) : t.mem = applyWrite w s.mem := by
  have hs : exec i s = withMem (applyWrite w s.mem) (exec i s) := h.same s.mem (.refl _ _)
  rw [ht, withMem, Host.Outcome.next.injEq] at hs
  exact congrArg State.mem hs

/-! ### No check reads DMEM -/

section Checks

variable (s : State) (m : Memory)

@[simp] theorem consumeOk_mem (n : Nat) : consumeOk n { s with mem := m } = consumeOk n s := rfl
@[simp] theorem flushOk_mem : flushOk { s with mem := m } = flushOk s := rfl
@[simp] theorem streamOpen_mem (mode : BsMode) : streamOpen mode { s with mem := m } = streamOpen mode s := rfl
@[simp] theorem upsampleOk_mem : upsampleOk { s with mem := m } = upsampleOk s := rfl
@[simp] theorem downsampleOk_mem : downsampleOk { s with mem := m } = downsampleOk s := rfl
@[simp] theorem decodeImageOk_mem : decodeImageOk { s with mem := m } = decodeImageOk s := rfl
@[simp] theorem encodeImageOk_mem : encodeImageOk { s with mem := m } = encodeImageOk s := rfl

end Checks

/-- An answer that one check decides goes on alike where both its branches do. -/
theorem withMem_ite {b : Bool} {m : Memory} {x y x' y' : State}
    (holds : b = true → (.next x' : Answer) = withMem m (.next x))
    (fails : b = false → (.next y' : Answer) = withMem m (.next y)) :
    (.next (if b then x' else y') : Answer) = withMem m (.next (if b then x else y)) := by
  cases b
  · exact fails rfl
  · exact holds rfl

/-! ### The writers of a stream -/

theorem writeWithin_streamSpan {s : State} {out : List Byte}
    (h : s.bs.cursor.toNat + out.length ≤ s.bs.limit.toNat) :
    WriteWithin (streamSpan s) (some (s.bs.base.toNat + s.bs.cursor.toNat, out)) :=
  .inr ⟨Nat.le_add_right .., by rw [Nat.add_assoc]; exact Nat.add_le_add_left h _⟩

theorem effect_bsConsume (n : Nat) (s : State) : ∃ w, Effect (.bsConsume n) s w := by
  cases hok : consumeOk n s with
  | false =>
    refine ⟨none, trivial, fun m _ => ?_⟩
    simp only [exec, execBsConsume, consumeOk_mem, hok]
    rfl
  | true =>
    refine ⟨some (s.bs.base.toNat + s.bs.cursor.toNat, (bsPut s.arg0.toNat n s.bs).2), ?_, fun m _ => ?_⟩
    · rw [writeSpan, if_pos hok]
      simp only [consumeOk, bsRoom, Bool.and_eq_true, decide_eq_true_eq] at hok
      exact writeWithin_streamSpan (by rw [(bsPut_spec _ _ _).1]; exact hok.2)
    · simp only [exec, execBsConsume, consumeOk_mem, hok]
      rfl

theorem bsFlush_bytes (b : Bs) : (bsFlush b).2 = [] ∨ b.count.toNat ≠ 0 ∧ (bsFlush b).2.length = 1 := by
  by_cases h : b.count.toNat = 0
  · exact .inl (by rw [bsFlush, if_pos h])
  · exact .inr ⟨h, by rw [bsFlush, if_neg h]; rfl⟩

theorem effect_bsFlush (s : State) : ∃ w, Effect .bsFlush s w := by
  cases hok : flushOk s with
  | false =>
    refine ⟨none, trivial, fun m _ => ?_⟩
    simp only [exec, execBsFlush, flushOk_mem, hok]
    rfl
  | true =>
    refine ⟨some (s.bs.base.toNat + s.bs.cursor.toNat, (bsFlush s.bs).2), ?_, fun m _ => ?_⟩
    · rcases bsFlush_bytes s.bs with hnil | ⟨hheld, hone⟩
      · exact .inl hnil
      · rw [writeSpan, if_pos hok]
        simp only [flushOk, bsFlushOk, Bool.and_eq_true, Bool.or_eq_true, beq_iff_eq, decide_eq_true_eq] at hok
        exact writeWithin_streamSpan (by rw [hone]; exact hok.2.resolve_left hheld)
    · simp only [exec, execBsFlush, flushOk_mem, hok]
      rfl

theorem blkEncodeItems_room {dc ac : Ht} {pred : Word} {z : Block} {b : Bs} {l : List (Nat × Nat)}
    (h : blkEncodeItems dc ac pred z b = .items l) : bsRoom (itemBits l) b = true := by
  rw [blkEncodeItems] at h
  split at h
  · cases h
  split at h
  · rename_i hroom
    cases h
    exact hroom
  · cases h

theorem effect_blkEncode (c : Channel) (k : Kind) (s : State) : ∃ w, Effect (.blkEncode c k) s w := by
  cases hopen : streamOpen .writing s with
  | false =>
    refine ⟨none, trivial, fun m _ => ?_⟩
    simp only [exec, execBlkEncode, streamOpen_mem, hopen]
    rfl
  | true =>
    cases hitems : blkEncodeItems s.ht[dcTable k] s.ht[acTable k] s.dcpred[c] s.blk s.bs with
    | fault code =>
      refine ⟨none, trivial, fun m _ => ?_⟩
      simp only [exec, execBlkEncode, streamOpen_mem, hopen, hitems]
      rfl
    | items l =>
      refine ⟨some (s.bs.base.toNat + s.bs.cursor.toNat, (bsPutAll l s.bs).2), ?_, fun m _ => ?_⟩
      · rcases bsPutAll_length l s.bs with hlen | ⟨-, hnil⟩
        · have hok : blkEncodeOk c k s = true := by simp only [blkEncodeOk, hopen, hitems, Bool.true_and]
          rw [writeSpan, if_pos hok]
          exact writeWithin_streamSpan (by rw [hlen]; exact of_decide_eq_true (blkEncodeItems_room hitems))
        · exact .inl hnil
      · simp only [exec, execBlkEncode, streamOpen_mem, hopen, hitems]
        rfl

/-! ### The readers of a stream -/

theorem effect_bsCanSupply (n : Nat) (s : State) : ∃ w, Effect (.bsCanSupply n) s w := by
  refine ⟨none, trivial, fun m hm => withMem_ite (b := canSupplyOk n s) (fun hok => ?_) fun _ => rfl⟩
  rw [readSpan, if_pos hok, streamSpan_eq] at hm
  rw [(bsCan_local hm).1]
  rfl

theorem effect_htRead (t : TableId) (s : State) : ∃ w, Effect (.htRead t) s w := by
  refine ⟨none, trivial, fun m hm => withMem_ite (b := streamOpen .reading s) (fun hok => ?_) fun _ => rfl⟩
  rw [readSpan, if_pos hok, streamSpan_eq] at hm
  rw [(htRead_local hm).1]
  rcases htRead s.ht[t] s.mem s.bs with ⟨b, e⟩
  cases e <;> rfl

theorem effect_blkDecode (c : Channel) (k : Kind) (s : State) : ∃ w, Effect (.blkDecode c k) s w := by
  refine ⟨none, trivial, fun m hm => withMem_ite (b := streamOpen .reading s) (fun hok => ?_) fun _ => rfl⟩
  rw [readSpan, if_pos hok, streamSpan_eq] at hm
  rw [(blkDecode_local hm).1]
  dsimp only
  cases (blkDecode s.ht[dcTable k] s.ht[acTable k] s.mem s.dcpred[c] s.bs).stop <;> rfl

/-! ### The samplers -/

theorem effect_upsample (s : State) : ∃ w, Effect .upsample s w := by
  cases hok : upsampleOk s with
  | false =>
    refine ⟨none, trivial, fun m _ => ?_⟩
    simp only [exec, execUpsample, upsampleOk_mem, hok]
    rfl
  | true =>
    refine ⟨some (s.arg1.toNat, planeBytes (planeOf s.width.toNat s.height.toNat (upsampled s))), .inr ?_,
      fun m hm => ?_⟩
    · rw [length_planeBytes, length_planeOf, writeSpan, if_pos hok, fullPlaneLen_eq, Nat.mul_comm s.height.toNat]
      exact ⟨le_rfl, le_rfl⟩
    · rw [readSpan, if_pos hok] at hm
      simp only [exec, execUpsample, upsampleOk_mem, hok]
      rw [planeOf_congr fun x hx y hy => upsampled_congr hok hm hx hy]
      rfl

theorem effect_downsample (s : State) : ∃ w, Effect .downsample s w := by
  cases hok : downsampleOk s with
  | false =>
    refine ⟨none, trivial, fun m _ => ?_⟩
    simp only [exec, execDownsample, downsampleOk_mem, hok]
    rfl
  | true =>
    refine ⟨some (s.arg1.toNat, planeBytes (planeOf (s.width.toNat / 2) (s.height.toNat / 2) (downsampled s))), .inr ?_,
      fun m hm => ?_⟩
    · obtain ⟨a, b, hw, hh⟩ := samplerOk_even hok
      rw [length_planeBytes, length_planeOf, writeSpan, if_pos hok, quarterPlaneLen_even hw hh, hw, hh,
        Nat.mul_div_cancel_left a Nat.two_pos, Nat.mul_div_cancel_left b Nat.two_pos, Nat.mul_comm b]
      exact ⟨le_rfl, le_rfl⟩
    · rw [readSpan, if_pos hok] at hm
      simp only [exec, execDownsample, downsampleOk_mem, hok]
      rw [planeOf_congr fun x hx y hy => downsampled_congr hok hm hx hy]
      rfl

/-! ### The image commands -/

theorem effect_decodeImage (s : State) : ∃ w, Effect .decodeImage s w := by
  by_cases hok : decodeImageOk s = true
  case neg =>
    refine ⟨none, trivial, fun m _ => ?_⟩
    simp only [exec, execDecodeImage, decodeImageOk_mem, hok]
    rfl
  have pass : ∀ m, AgreeOn (readSpan .decodeImage s) s.mem m → decodePass (ctxSetup { s with mem := m }) (blocks s)
      (decStart s) = decodePass (ctxSetup s) (blocks s) (decStart s) := by
    intro m hm
    rw [readSpan, if_pos hok] at hm
    exact decodePass_congr (s := ctxSetup s) hm
  cases hpass : decodePass (ctxSetup s) (blocks s) (decStart s) with
  | fault n bad =>
    refine ⟨some (s.dstBase.toNat, freeBytes s.draws (argbLen s)), .inr ?_, fun m hm => ?_⟩
    · rw [length_freeBytes, writeSpan, if_pos hok]
      exact ⟨le_rfl, le_rfl⟩
    · rw [exec_decodeImage_fault hok hpass,
        exec_decodeImage_fault (s := { s with mem := m }) hok ((pass m hm).trans hpass)]
      rfl
  | done p =>
    refine ⟨some (s.dstBase.toNat, outputBytes (ctxSetup s) p.planes), .inr ?_, fun m hm => ?_⟩
    · rw [length_outputBytes, writeSpan, if_pos hok]
      exact ⟨le_rfl, le_rfl⟩
    · rw [exec_decodeImage_done hok hpass,
        exec_decodeImage_done (s := { s with mem := m }) hok ((pass m hm).trans hpass)]
      rfl

/-- The record the encode pass of ENCODE_IMAGE begins with. -/
def encStart (s : State) : EncPass :=
  { bs := bsOpen .writing s.dstBase s.dstCap, pred := (ctxSetup s).dcpred, n := 0, out := [] }

/-- The encode pass of ENCODE_IMAGE. -/
def imagePass (s : State) : EncEnd := encodePass (ctxSetup s) (preparedBlocks s (ctxSetup s).qt) (encStart s)

/-- The state an ENCODE_IMAGE completes that coded every block and had room for the flush and the padding. -/
def encodedState (s : State) (q : EncPass) (body : Nat) : State :=
  leaveScratch
    { ctxSetup s with
      bs := q.bs
      dcpred := q.pred
      mem := memWrite s.dstBase.toNat q.out s.mem
      result0 := q.bs.cursor
      result1 := u32 body
      errpos := u32 q.n
      iterPos := u32 q.n }

theorem exec_encodeImage_fault {s : State} {code : ErrCode} {n : Nat} (hok : encodeImageOk s = true)
    (h : imagePass s = .fault code n) :
    exec .encodeImage s = .next (imageFault code false n n s.dstBase.toNat s.dstCap.toNat (ctxSetup s)) := by
  rw [imagePass, encStart] at h
  rw [exec, execEncodeImage, if_pos hok]
  dsimp only
  rw [h]

theorem exec_encodeImage_full {s : State} {p : EncPass} (hok : encodeImageOk s = true) (h : imagePass s = .done p)
    (hfin : finishEncode p = none) : exec .encodeImage s =
      .next (imageFault .illegalArgument false p.n p.n s.dstBase.toNat s.dstCap.toNat (ctxSetup s)) := by
  rw [imagePass, encStart] at h
  rw [exec, execEncodeImage, if_pos hok]
  dsimp only
  rw [h]
  dsimp only
  rw [hfin]

theorem exec_encodeImage_done {s : State} {p q : EncPass} {body : Nat} (hok : encodeImageOk s = true)
    (h : imagePass s = .done p) (hfin : finishEncode p = some (q, body)) :
    exec .encodeImage s = .next (succeed (encodedState s q body)) := by
  rw [imagePass, encStart] at h
  rw [exec, execEncodeImage, if_pos hok]
  dsimp only
  rw [h]
  dsimp only
  rw [hfin]
  rfl

/-- The finished output fits the sink. -/
theorem length_out_le {s : State} {p q : EncPass} {body : Nat} (h : imagePass s = .done p)
    (hfin : finishEncode p = some (q, body)) : q.out.length ≤ s.dstCap.toNat := by
  rcases encodePass_spec _ _ _ (encOk_start s.dstBase s.dstCap (ctxSetup s).dcpred) with
    ⟨code, n, hfault⟩ | ⟨items, r, hdone, -, ok, -⟩
  · exact absurd (hfault.symm.trans h) nofun
  cases hdone.symm.trans h
  rcases finishEncode_spec ok _ _ rfl rfl with ⟨-, hnone⟩ | ⟨hroom, q', hsome, -, -, hlen, -⟩
  · rw [hnone] at hfin
    cases hfin
  · rw [hsome] at hfin
    cases hfin
    rw [hlen]
    exact hroom

theorem effect_encodeImage (s : State) : ∃ w, Effect .encodeImage s w := by
  by_cases hok : encodeImageOk s = true
  case neg =>
    refine ⟨none, trivial, fun m _ => ?_⟩
    simp only [exec, execEncodeImage, encodeImageOk_mem, hok]
    rfl
  have pass : ∀ m, AgreeOn (readSpan .encodeImage s) s.mem m → imagePass { s with mem := m } = imagePass s := by
    intro m hm
    rw [readSpan, if_pos hok] at hm
    rw [imagePass, preparedBlocks_congr hm]
    exact encodePass_withMem (ctxSetup s) m _ _
  have drawn : WriteWithin (writeSpan .encodeImage s)
      (some (s.dstBase.toNat, freeBytes s.draws s.dstCap.toNat)) := by
    rw [writeSpan, if_pos hok]
    exact .inr ⟨le_rfl, by rw [length_freeBytes]⟩
  cases hpass : imagePass s with
  | fault code n =>
    refine ⟨_, drawn, fun m hm => ?_⟩
    rw [exec_encodeImage_fault hok hpass,
      exec_encodeImage_fault (s := { s with mem := m }) hok ((pass m hm).trans hpass)]
    rfl
  | done p =>
    rcases hfin : finishEncode p with _ | ⟨q, body⟩
    · refine ⟨_, drawn, fun m hm => ?_⟩
      rw [exec_encodeImage_full hok hpass hfin,
        exec_encodeImage_full (s := { s with mem := m }) hok ((pass m hm).trans hpass) hfin]
      rfl
    · refine ⟨some (s.dstBase.toNat, q.out), .inr ?_, fun m hm => ?_⟩
      · rw [writeSpan, if_pos hok]
        exact ⟨le_rfl, Nat.add_le_add_left (length_out_le hpass hfin) _⟩
      · rw [exec_encodeImage_done hok hpass hfin,
          exec_encodeImage_done (s := { s with mem := m }) hok ((pass m hm).trans hpass) hfin]
        rfl

/-! ### Every command -/

/-- Every command makes one write inside its output range, and its answer depends on DMEM by its input range only. -/
theorem exec_effect (i : Instr) (s : State) : ∃ w, Effect i s w := by
  cases i
  case bsConsume n => exact effect_bsConsume n s
  case bsFlush => exact effect_bsFlush s
  case blkEncode c k => exact effect_blkEncode c k s
  case bsCanSupply n => exact effect_bsCanSupply n s
  case htRead t => exact effect_htRead t s
  case blkDecode c k => exact effect_blkDecode c k s
  case upsample => exact effect_upsample s
  case downsample => exact effect_downsample s
  case decodeImage => exact effect_decodeImage s
  case encodeImage => exact effect_encodeImage s
  case ctxInit => exact ⟨none, trivial, fun m _ => withMem_ite (b := ctxCheck s) (fun _ => rfl) fun _ => rfl⟩
  case bsOpenRead => exact ⟨none, trivial, fun m _ => withMem_ite (b := openReadOk s) (fun _ => rfl) fun _ => rfl⟩
  case bsOpenWrite => exact ⟨none, trivial, fun m _ => withMem_ite (b := openWriteOk s) (fun _ => rfl) fun _ => rfl⟩
  case bsSupply n => exact ⟨none, trivial, fun m _ => withMem_ite (b := supplyOk n s) (fun _ => rfl) fun _ => rfl⟩
  case qAdjust c k =>
    exact ⟨none, trivial, fun m _ => withMem_ite (b := qualityOk s.chCfg[c]) (fun _ => rfl) fun _ => rfl⟩
  case htBuild t =>
    refine ⟨none, trivial, fun m _ => ?_⟩
    simp only [exec, execHtBuild]
    cases htBuild s.hsrc[t] <;> rfl
  case htDecode t n =>
    refine ⟨none, trivial, fun m _ => withMem_ite (b := countOk n) (fun _ => ?_) fun _ => rfl⟩
    cases htDecodeLookup s.ht[t] n s.arg0 <;> rfl
  case htEncode t =>
    refine ⟨none, trivial, fun m _ => ?_⟩
    simp only [exec, execHtEncode]
    cases htEncodeLookup s.ht[t] s.arg0 <;> rfl
  all_goals exact ⟨none, trivial, fun m _ => rfl⟩

/-! ### The output range lies in DMEM -/

/-- The range behind a check that includes the check of R35, or no byte. -/
theorem rangeOk_ite {s : State} {b : Bool} {r : Span} (h : b = true → rangeOk s r.base r.len = true) :
    rangeOk s (if b then r else .empty).base (if b then r else .empty).len = true := by
  cases b
  · rfl
  · exact h rfl

theorem rangeOk_streamSpan {s : State} (h : streamOpen .writing s = true) :
    rangeOk s (streamSpan s).base (streamSpan s).len = true := by
  simp only [streamOpen, Bool.and_eq_true] at h
  exact h.2

theorem rangeOk_samplerOk {s : State} {n k : Nat} (h : samplerOk n k s = true) : rangeOk s s.arg1.toNat k = true := by
  simp only [samplerOk, Bool.and_eq_true] at h
  obtain ⟨⟨-, hdst⟩, -⟩ := h
  exact hdst

/-- The checks of a command include its output range (R35). -/
theorem rangeOk_writeSpan (i : Instr) (s : State) : rangeOk s (writeSpan i s).base (writeSpan i s).len = true := by
  cases i
  case bsConsume n =>
    refine rangeOk_ite fun h => rangeOk_streamSpan ?_
    simp only [consumeOk, Bool.and_eq_true] at h
    obtain ⟨⟨hopen, -⟩, -⟩ := h
    exact hopen
  case bsFlush =>
    refine rangeOk_ite fun h => rangeOk_streamSpan ?_
    simp only [flushOk, Bool.and_eq_true] at h
    exact h.1
  case blkEncode c k =>
    refine rangeOk_ite fun h => rangeOk_streamSpan ?_
    simp only [blkEncodeOk, Bool.and_eq_true] at h
    exact h.1
  case upsample | downsample => exact rangeOk_ite rangeOk_samplerOk
  case decodeImage =>
    refine rangeOk_ite fun h => ?_
    obtain ⟨-, -, -, hdst, -⟩ := decodeImageOk_iff.mp h
    exact rangeOk_iff.mpr hdst
  case encodeImage =>
    refine rangeOk_ite fun h => ?_
    obtain ⟨-, -, -, hdst, -⟩ := encodeImageOk_iff.mp h
    exact rangeOk_iff.mpr hdst
  all_goals rfl

end Sys2Proof.Machine
end

section
/-! PROOFS. DMEM over a step: the host's accesses and their hazards, what a command may write and read, and the
canonical form (20_memory.md R34, R35, R40; 70_reset_and_hazards.md R128, R134). -/

namespace Sys2Proof.Machine

/-! ### Commands -/

/-- Settles O19: the one write of a command lies in its output range (`exec_effect`). -/
theorem commandsWriteOnlyTheirRange : Obligations.CommandsWriteOnlyTheirRange := by
  intro i s t ht a ha
  obtain ⟨w, heff⟩ := exec_effect i s
  rw [heff.mem_eq ht]
  exact memRead_applyWrite_outside heff.within s.mem ha

/-- Settles O20: over the other memory the command makes the same write and answers the same otherwise
(`exec_effect`). -/
theorem commandsReadOnlyTheirRange : Obligations.CommandsReadOnlyTheirRange := by
  intro i s m hm
  obtain ⟨w, heff⟩ := exec_effect i s
  obtain ⟨code, u, r, ht, -⟩ := exec_completes i s
  refine ⟨_, { complete code u r with mem := applyWrite w m }, ht, ?_, rfl, fun a => ?_⟩
  · rw [heff.same m hm, ht]
    rfl
  · rw [heff.mem_eq ht]
    exact memRead_applyWrite_both w s.mem m a

/-! ### The canonical form -/

theorem MemoryLegal.congr {s t : State} (h : MemoryLegal s) (hcfg : t.cfg = s.cfg) (hmem : t.mem = s.mem) :
    MemoryLegal t := by
  rw [MemoryLegal, hcfg, hmem]
  exact h

/-- A write whose bytes all exist keeps DMEM legal. -/
theorem MemoryLegal.write {s t : State} (h : MemoryLegal s) {a : Nat} {out : List Byte}
    (hin : out = [] ∨ a + out.length ≤ s.cfg.dmemSize) (hcfg : t.cfg = s.cfg) (hmem : t.mem = memWrite a out s.mem) :
    MemoryLegal t := by
  rw [MemoryLegal, hcfg, hmem]
  exact ⟨memWf_memWrite _ _ _ h.1, memInside_memWrite _ _ _ _ h.2 hin⟩

theorem exec_memoryLegal {i : Instr} {s t : State} (ht : exec i s = .next t) (hs : MemoryLegal s) : MemoryLegal t := by
  obtain ⟨w, heff⟩ := exec_effect i s
  obtain ⟨code, u, r, hr, hside, -⟩ := exec_completes i s
  have hcfg : t.cfg = s.cfg := by
    rw [hr] at ht
    cases ht
    exact hside.cfg
  have hmem := heff.mem_eq ht
  rcases w with _ | ⟨a, out⟩
  · exact hs.congr hcfg hmem
  · refine hs.write ?_ hcfg hmem
    rcases heff.within with hnil | ⟨hlo, hhi⟩
    · exact .inl hnil
    · rcases rangeOk_iff.mp (rangeOk_writeSpan i s) with hlen | hend
      · exact .inl (List.eq_nil_of_length_eq_zero (by omega))
      · exact .inr (hhi.trans hend)

theorem runLatched_memoryLegal {s t : State} (h : runLatched s = .next t) (hs : MemoryLegal s) : MemoryLegal t := by
  rcases runLatched_cases h with ⟨-, rfl⟩ | ⟨i, -, he⟩ | rfl
  · exact hs
  · exact exec_memoryLegal he hs
  · exact hs.congr rfl rfl

theorem rangeOk_runningWrites (s : State) : rangeOk s (runningWrites s).base (runningWrites s).len = true := by
  rw [runningWrites]
  split
  · exact rangeOk_writeSpan _ s
  · rfl

/-- A reset gives the output range of a running command free values and leaves DMEM otherwise (R128). -/
theorem resetCore_memoryLegal {s : State} (hs : MemoryLegal s) : MemoryLegal (resetCore s) := by
  cases hb : s.busy with
  | false => exact hs.congr rfl (by simp [resetCore, State.atReset, hb])
  | true =>
    refine hs.write (a := (runningWrites s).base) (out := freeBytes s.draws (runningWrites s).len) ?_ rfl
      (by simp [resetCore, State.atReset, hb])
    rw [length_freeBytes]
    exact (rangeOk_iff.mp (rangeOk_runningWrites s)).imp_left fun h => by rw [h]; rfl

/-- A register write reaches neither DMEM nor the parameters, unless it is a CTRL write that resets. -/
theorem writeReg_mem (r : Reg) (v : Word) (s : State) :
    writeReg r v s = resetCore s ∨ (writeReg r v s).cfg = s.cfg ∧ (writeReg r v s).mem = s.mem := by
  by_cases hctrl : r = .ctrl
  · subst hctrl
    rcases writeCtrl_cases v s with ⟨-, h⟩ | ⟨-, -, -, h⟩ | ⟨-, -, h⟩
    · exact .inl h
    all_goals exact .inr (by rw [writeReg, h]; exact ⟨rfl, rfl⟩)
  by_cases hcmd : r = .cmd
  · subst hcmd
    rcases writeCmd_cases v s with ⟨-, h⟩ | ⟨-, -, h⟩ | ⟨-, h⟩
    all_goals exact .inr (by rw [writeReg, h]; exact ⟨rfl, rfl⟩)
  · rw [writeReg_other hctrl hcmd]
    split
    · exact .inr ⟨rfl, rfl⟩
    · obtain ⟨-, -, -, hmem, -⟩ := writePlain_frame r v s
      exact .inr ⟨by cases r <;> rfl, hmem⟩

theorem writeReg_memoryLegal {s : State} (r : Reg) (v : Word) (hs : MemoryLegal s) : MemoryLegal (writeReg r v s) := by
  rcases writeReg_mem r v s with h | ⟨hcfg, hmem⟩
  · rw [h]
    exact resetCore_memoryLegal hs
  · exact hs.congr hcfg hmem

/-- Settles O21: every write, of a command, a reset or the host, is of bytes that exist. -/
theorem stepKeepsMemoryLegal : Obligations.StepKeepsMemoryLegal := by
  intro s t hs h
  rcases hev : s.events with _ | ⟨e, rest⟩
  · rw [step_idle hev] at h
    exact runLatched_memoryLegal h hs
  rw [step_event hev] at h
  have hrest : MemoryLegal { s with events := rest } := hs.congr rfl rfl
  cases e with
  | regRead addr n =>
    obtain ⟨d, k, rfl⟩ := hostRegRead_cases h
    exact hrest.congr rfl rfl
  | regWrite addr n v =>
    rcases hostRegWrite_cases h with rfl | ⟨off, r, -, -, -, -, -, rfl⟩
    · exact hrest
    · exact writeReg_memoryLegal r v hrest
  | memRead a =>
    obtain ⟨-, -, rfl⟩ := hostMemRead_cases h
    exact hrest.congr rfl rfl
  | memWrite a b =>
    obtain ⟨hlt, -, -, rfl⟩ := hostMemWrite_cases h
    exact hrest.write (a := a.toNat) (out := [b]) (.inr hlt) rfl rfl
  | platformReset =>
    cases h
    exact resetCore_memoryLegal hrest
  | complete => exact runLatched_memoryLegal h hrest

/-! ### The host's accesses -/

theorem memRead_memWrite_byte (m : Memory) (a : Nat) (b : Byte) : memRead (memWrite a [b] m) a = b := by
  rw [memRead_memWrite_inside m a [b] a le_rfl (Nat.lt_succ_self a)]
  simp

theorem hostMemWrite_hazard {a : Nat} {b : Byte} {s : State} (ha : a < s.cfg.dmemSize)
    (h : (runningReads s).has a = true ∨ (runningWrites s).has a = true) :
    hostMemWrite a b s = .refused .hostWriteHazard := by
  rw [hostMemWrite, if_neg (Nat.not_le.mpr ha), if_pos]
  rw [Bool.or_eq_true]
  exact h.symm

theorem hostMemWrite_ok {a : Nat} {b : Byte} {s : State} (ha : a < s.cfg.dmemSize)
    (hr : (runningReads s).has a = false) (hw : (runningWrites s).has a = false) :
    hostMemWrite a b s = .next { s with mem := memWrite a [b] s.mem } := by
  rw [hostMemWrite, if_neg (Nat.not_le.mpr ha), hr, hw]
  rfl

theorem hostMemRead_hazard {a : Nat} {s : State} (ha : a < s.cfg.dmemSize) (h : (runningWrites s).has a = true) :
    hostMemRead a s = .refused .hostReadHazard := by
  rw [hostMemRead, if_neg (Nat.not_le.mpr ha), if_pos h]

theorem hostMemRead_ok {a : Nat} {s : State} (ha : a < s.cfg.dmemSize) (h : (runningWrites s).has a = false) :
    hostMemRead a s = .next { s with busData := (memRead s.mem a).setWidth 32 } := by
  rw [hostMemRead, if_neg (Nat.not_le.mpr ha), h]
  rfl

/-- Settles O16: the four ends of a host access to an existing byte. -/
theorem dmemHazardsAreRefused : Obligations.DmemHazardsAreRefused := by
  intro s a rest ha
  refine ⟨fun b hev => ?_, fun hev => ?_⟩ <;> rw [step_event hev, handle]
  · refine ⟨hostMemWrite_hazard (s := { s with events := rest }) ha, fun hr hw => ?_⟩
    refine ⟨_, hostMemWrite_ok (s := { s with events := rest }) ha hr hw, ?_, fun x hx => ?_, rfl⟩
    · exact memRead_memWrite_byte s.mem a.toNat b
    · exact memRead_memWrite_outside s.mem a.toNat [b] x hx
  · exact ⟨hostMemRead_hazard (s := { s with events := rest }) ha, hostMemRead_ok (s := { s with events := rest }) ha⟩

end Sys2Proof.Machine
end

section
/-! PROOFS. The opcode map by its operand shapes: the words of a row, both ways, and the mask that picks them
(30_encoding.md R45 to R51); and what a word outside the map does (60_exceptions.md R116). -/

namespace Sys2Proof.Machine

/-! ### A word as its fields -/

/-- The decoder answers an instruction by the one row of the opcode map that the word meets. -/
theorem decode_ok_iff {w : Word} {i : Instr} :
    decode w = .ok i ↔ bits w 18 14 = 0 ∧
      ∃ shape, opcodeRow (fieldsOf w) (bits w 0 8) = some (shape, i) ∧ shape.admits (fieldsOf w) = true := by
  rw [decode]
  by_cases hres : bits w 18 14 = 0
  · rw [if_neg (not_not_intro hres)]
    rcases hrow : opcodeRow (fieldsOf w) (bits w 0 8) with _ | ⟨shape, j⟩
    · simp
    · cases ha : shape.admits (fieldsOf w) <;> simp [hres, ha]
  · simp [hres]

/-- The fields of a word have the widths of R45. -/
theorem fieldsOf_lt (w : Word) : bits w 0 8 < 256 ∧ (fieldsOf w).n < 64 ∧ (fieldsOf w).c < 4 ∧ (fieldsOf w).t < 4 :=
  ⟨Nat.mod_lt _ (by decide), Nat.mod_lt _ (by decide), Nat.mod_lt _ (by decide), Nat.mod_lt _ (by decide)⟩

/-- A word whose reserved bits are 0 is its fields, packed (R49). -/
theorem pack_fieldsOf {w : Word} (h : bits w 18 14 = 0) :
    pack (bits w 0 8) (fieldsOf w).n (fieldsOf w).c (fieldsOf w).t = w := by
  apply BitVec.eq_of_toNat_eq
  have hlt : w.toNat < 2 ^ 32 := w.isLt
  rw [pack, BitVec.toNat_ofNat]
  simp only [fieldsOf, bits] at h ⊢
  omega

/-- A word that holds an opcode and nothing else. -/
theorem eq_pack_iff {w : Word} {opc : Nat} (ho : opc < 256) :
    w = pack opc 0 0 0 ↔ bits w 18 14 = 0 ∧ bits w 0 8 = opc ∧ fieldsOf w = ⟨0, 0, 0⟩ := by
  constructor
  · rintro rfl
    exact fieldsOf_pack ho (by decide) (by decide) (by decide)
  · rintro ⟨hres, hopc, hf⟩
    rw [← pack_fieldsOf hres, hopc, hf]

/-! ### The rows of each shape -/

/-- The opcodes whose commands use the fields of a shape (R48). -/
def shapeOpcodes : Shape → List Nat
  | .none => [0x00, 0x01, 0x10, 0x11, 0x15, 0x30, 0x31, 0x32, 0x33, 0x50, 0x51, 0x80, 0x81]
  | .n => [0x12, 0x13, 0x14]
  | .t => [0x20, 0x22, 0x23, 0x24]
  | .tn => [0x21]
  | .bit => [0x34, 0x35, 0x60, 0x61]
  | .c => [0x41, 0x42]
  | .cBit => [0x40, 0x70, 0x71]

theorem shapeOpcodes_lt {shape : Shape} {opc : Nat} (h : opc ∈ shapeOpcodes shape) : opc < 256 := by
  revert opc
  cases shape <;> decide

/-- An opcode of the map stands in its shape's list. -/
theorem mem_shapeOpcodes {f : Fields} {opc : Nat} {shape : Shape} {i : Instr} (h : opcodeRow f opc = some (shape, i)) :
    opc ∈ shapeOpcodes shape := by
  unfold opcodeRow at h
  split at h <;> cases h <;> decide

/-- Each opcode of a shape's list has a row of the map. -/
theorem exists_opcodeRow (f : Fields) {opc : Nat} {shape : Shape} (h : opc ∈ shapeOpcodes shape) :
    ∃ i, opcodeRow f opc = some (shape, i) := by
  cases shape <;> fin_cases h <;> exact ⟨_, rfl⟩

/-! ### Every word that decodes is an encoding -/

theorem val_idOfBits {v : Nat} (h : v < 4) : (idOfBits v).val = v := Nat.mod_eq_of_lt h

theorem bit_kindOfBit {v : Nat} (h : v < 2) : (kindOfBit v).bit = v := by
  interval_cases v <;> rfl

theorem bit_modeOfBit {v : Nat} (h : v < 2) : (modeOfBit v).bit = v := by
  interval_cases v <;> rfl

/-- The command of a row whose fields are admitted is well-formed, and its word is those fields, packed. -/
theorem encode_opcodeRow {f : Fields} {opc : Nat} {shape : Shape} {i : Instr} (hrow : opcodeRow f opc = some (shape, i))
    (ha : shape.admits f = true) (hn : f.n < 64) (hc : f.c < 4) (ht : f.t < 4) :
    i.wf = true ∧ encode i = pack opc f.n f.c f.t := by
  obtain ⟨n, c, t⟩ := f
  have hopc := mem_shapeOpcodes hrow
  cases shape <;> simp only [Shape.admits, Bool.and_eq_true, beq_iff_eq, decide_eq_true_eq] at ha
  case none =>
    obtain ⟨⟨rfl, rfl⟩, rfl⟩ := ha
    fin_cases hopc <;> cases hrow <;> exact ⟨rfl, rfl⟩
  case n =>
    obtain ⟨rfl, rfl⟩ := ha
    fin_cases hopc <;> cases hrow <;> exact ⟨decide_eq_true hn, rfl⟩
  case c =>
    obtain ⟨rfl, rfl⟩ := ha
    fin_cases hopc <;> cases hrow <;> exact ⟨rfl, by rw [encode, val_idOfBits hc]⟩
  case t =>
    obtain ⟨rfl, rfl⟩ := ha
    fin_cases hopc <;> cases hrow <;> exact ⟨rfl, by rw [encode, val_idOfBits ht]⟩
  case bit =>
    obtain ⟨⟨rfl, rfl⟩, h2⟩ := ha
    fin_cases hopc <;> cases hrow <;> exact ⟨rfl, by simp only [encode, bit_kindOfBit h2, bit_modeOfBit h2]⟩
  case tn =>
    subst ha
    fin_cases hopc
    cases hrow
    exact ⟨decide_eq_true hn, by rw [encode, val_idOfBits ht]⟩
  case cBit =>
    obtain ⟨rfl, h2⟩ := ha
    fin_cases hopc <;> cases hrow <;> exact ⟨rfl, by rw [encode, val_idOfBits hc, bit_kindOfBit h2]⟩

/-- Settles O1: `decode_encode` one way; the other way `encode_opcodeRow`, and the word is its fields. -/
theorem decodeAndEncodeAgree : Obligations.DecodeAndEncodeAgree := by
  refine ⟨fun i h => decode_encode h, fun w i h => ?_⟩
  obtain ⟨hres, shape, hrow, ha⟩ := decode_ok_iff.mp h
  obtain ⟨-, hn, hc, ht⟩ := fieldsOf_lt w
  obtain ⟨hwf, henc⟩ := encode_opcodeRow hrow ha hn hc ht
  exact ⟨hwf, henc.trans (pack_fieldsOf hres)⟩

/-! ### The masks of the opcode table -/

/-- The bits a command of a shape fixes: all but those of the fields it uses. -/
def shapeMask : Shape → Word
  | .none => 0xFFFFFFFF
  | .n => 0xFFFFC0FF
  | .t => 0xFFFCFFFF
  | .tn => 0xFFFCC0FF
  | .bit => 0xFFFEFFFF
  | .c => 0xFFFF3FFF
  | .cBit => 0xFFFE3FFF

theorem bits_and (v w : Word) (lo len : Nat) : bits (v &&& w) lo len = bits v lo len &&& bits w lo len := by
  simp only [bits, BitVec.toNat_and, Nat.and_div_two_pow, Nat.and_mod_two_pow]

/-- A field under an all-ones mask is kept. -/
theorem bits_and_ones (v : Word) {w : Word} {lo len : Nat} (h : bits w lo len = 2 ^ len - 1) :
    bits (v &&& w) lo len = bits v lo len := by
  rw [bits_and, h, Nat.and_two_pow_sub_one_eq_mod]
  exact Nat.mod_mod _ _

/-- Every mask keeps the reserved bits and the opcode. -/
theorem bits_and_shapeMask (w : Word) (shape : Shape) :
    bits (w &&& shapeMask shape) 18 14 = bits w 18 14 ∧ bits (w &&& shapeMask shape) 0 8 = bits w 0 8 := by
  cases shape <;> exact ⟨bits_and_ones w (by decide), bits_and_ones w (by decide)⟩

/-- The bits of each field that a shape's mask keeps. -/
def unusedFields : Shape → Fields
  | .none => ⟨63, 3, 3⟩
  | .n => ⟨0, 3, 3⟩
  | .t => ⟨63, 3, 0⟩
  | .tn => ⟨0, 3, 0⟩
  | .bit => ⟨63, 3, 2⟩
  | .c => ⟨63, 0, 3⟩
  | .cBit => ⟨63, 0, 2⟩

theorem fieldsOf_shapeMask (shape : Shape) : fieldsOf (shapeMask shape) = unusedFields shape := by
  cases shape <;> decide

theorem lt_two_iff_and_two {v : Nat} (h : v < 4) : v < 2 ↔ v &&& 2 = 0 := by
  interval_cases v <;> decide

/-- A shape admits the fields of which its mask keeps only 0 (R47). -/
theorem admits_iff_and {f : Fields} (hn : f.n < 64) (hc : f.c < 4) (ht : f.t < 4) (shape : Shape) :
    shape.admits f = true ↔
      f.n &&& (unusedFields shape).n = 0 ∧ f.c &&& (unusedFields shape).c = 0 ∧ f.t &&& (unusedFields shape).t = 0 := by
  have and63 : f.n &&& 63 = f.n := by rw [Nat.and_two_pow_sub_one_eq_mod _ 6, Nat.mod_eq_of_lt hn]
  have and3 : ∀ {v : Nat}, v < 4 → v &&& 3 = v := fun hv => by
    rw [Nat.and_two_pow_sub_one_eq_mod _ 2, Nat.mod_eq_of_lt hv]
  cases shape <;> simp [Shape.admits, unusedFields, and63, and3 hc, and3 ht, lt_two_iff_and_two ht, and_assoc]

/-- A shape admits the fields of a word if its mask leaves 0 of them. -/
theorem admits_fieldsOf_iff (w : Word) (shape : Shape) :
    shape.admits (fieldsOf w) = true ↔ fieldsOf (w &&& shapeMask shape) = ⟨0, 0, 0⟩ := by
  obtain ⟨-, hn, hc, ht⟩ := fieldsOf_lt w
  rw [admits_iff_and hn hc ht, ← fieldsOf_shapeMask shape]
  simp only [fieldsOf, bits_and, Fields.mk.injEq]

/-- The words of a shape: an opcode of its list under its mask. -/
theorem exists_decode_iff (w : Word) :
    (∃ i, decode w = .ok i) ↔ ∃ shape, w &&& shapeMask shape ∈ (shapeOpcodes shape).map (pack · 0 0 0) := by
  constructor
  · rintro ⟨i, h⟩
    obtain ⟨hres, shape, hrow, ha⟩ := decode_ok_iff.mp h
    obtain ⟨hm, hopc⟩ := bits_and_shapeMask w shape
    have hmem := mem_shapeOpcodes hrow
    refine ⟨shape, List.mem_map.mpr ⟨_, hmem, Eq.symm ?_⟩⟩
    exact (eq_pack_iff (shapeOpcodes_lt hmem)).mpr ⟨hm.trans hres, hopc, (admits_fieldsOf_iff w shape).mp ha⟩
  · rintro ⟨shape, h⟩
    obtain ⟨opc, hmem, hw⟩ := List.mem_map.mp h
    obtain ⟨hres, hopc, hf⟩ := (eq_pack_iff (shapeOpcodes_lt hmem)).mp hw.symm
    obtain ⟨hm, ho⟩ := bits_and_shapeMask w shape
    obtain ⟨i, hrow⟩ := exists_opcodeRow (fieldsOf w) hmem
    refine ⟨i, decode_ok_iff.mpr ⟨hm.symm.trans hres, shape, ?_, (admits_fieldsOf_iff w shape).mpr hf⟩⟩
    rwa [← ho, hopc]

/-- Settles O2: the seven shapes with their masks and opcodes (`exists_decode_iff`), one disjunct each. -/
theorem legalWordsAreTheTable : Obligations.LegalWordsAreTheTable := by
  intro w
  have hfull : w &&& 0xFFFFFFFF = w := BitVec.and_allOnes
  have htn : w &&& 0xFFFCC0FF = 0x21 ↔ w &&& 0xFFFCC0FF ∈ [0x21] := List.mem_singleton.symm
  rw [exists_decode_iff, htn]
  constructor
  · rintro ⟨shape, h⟩
    cases shape with
    | none => exact .inl (hfull ▸ h)
    | n => exact .inr (.inl h)
    | t => exact .inr (.inr (.inl h))
    | tn => exact .inr (.inr (.inr (.inl h)))
    | bit => exact .inr (.inr (.inr (.inr (.inl h))))
    | c => exact .inr (.inr (.inr (.inr (.inr (.inl h)))))
    | cBit => exact .inr (.inr (.inr (.inr (.inr (.inr h)))))
  · rintro (h | h | h | h | h | h | h)
    · exact ⟨.none, hfull.symm ▸ h⟩
    · exact ⟨.n, h⟩
    · exact ⟨.t, h⟩
    · exact ⟨.tn, h⟩
    · exact ⟨.bit, h⟩
    · exact ⟨.c, h⟩
    · exact ⟨.cBit, h⟩

/-! ### Words written out -/

/-- Settles O3: the decoder evaluated on each of the eleven words. -/
theorem listedWordsDecode : Obligations.ListedWordsDecode := by
  unfold Obligations.ListedWordsDecode
  decide

/-! ### Words that spell no command -/

/-- Completing at acceptance leaves what completing in place does: the flags R17 clears are set again (R117). -/
theorem illegalCommand_latchCommand (w : Word) (s : State) :
    illegalCommand (latchCommand w s) = failedWith .illegalCommand s := by
  rw [illegalCommand, fail_eq _ _ rfl]
  rfl

/-- Settles O7: while idle the CMD write itself completes (`writeCmd_cases`), from the latch the engine does. -/
theorem illegalWordCompletesAtOnce : Obligations.IllegalWordCompletesAtOnce := by
  refine fun s w hw => ⟨fun rest he hidle => ?_, fun he hl => ?_⟩
  · rw [step_regWrite (regAt_regOffset .cmd) he, writeReg]
    rcases writeCmd_cases w { s with events := rest } with ⟨hbusy, -⟩ | ⟨-, ⟨i, hd⟩, -⟩ | ⟨-, h⟩
    · exact absurd (hidle.symm.trans hbusy) (by decide)
    · exact absurd hd (hw i)
    · rw [h, illegalCommand_latchCommand]
  · cases hd : decode w with
    | ok i => exact absurd hd (hw i)
    | error e => rw [step_idle he, runLatched_error hl hd, illegalCommand, fail_eq _ _ rfl]

end Sys2Proof.Machine
end

section
/-! PROOFS. The commands of the bitstream unit: each check as its rule states it, the registers a command leaves, and
the bits it takes or stores (40_bitstream.md R54 to R61). -/

namespace Sys2Proof.Machine

/-! ### The checks -/

theorem streamOpen_iff {mode : BsMode} {s : State} : streamOpen mode s = true ↔ StreamOpenIn mode s := by
  simp only [streamOpen, StreamOpenIn, Bool.and_eq_true, beq_iff_eq, rangeOk_iff]

theorem countOk_iff {n : Nat} : countOk n = true ↔ n ≤ 32 := decide_eq_true_iff

theorem canSupplyOk_iff {n : Nat} {s : State} : canSupplyOk n s = true ↔ Passes (.bsCanSupply n) s := by
  simp only [canSupplyOk, Passes, Bool.and_eq_true, countOk_iff, streamOpen_iff]

theorem supplyOk_iff {n : Nat} {s : State} : supplyOk n s = true ↔ Passes (.bsSupply n) s := by
  simp only [supplyOk, Passes, Bool.and_eq_true, beq_iff_eq, decide_eq_true_eq, countOk_iff, and_assoc]

theorem consumeOk_iff {n : Nat} {s : State} : consumeOk n s = true ↔ Passes (.bsConsume n) s := by
  simp only [consumeOk, bsRoom, Passes, Bool.and_eq_true, decide_eq_true_eq, countOk_iff, streamOpen_iff, and_assoc]

theorem flushOk_iff {s : State} : flushOk s = true ↔ Passes .bsFlush s := by
  have hcount : s.bs.count.toNat = 0 ↔ s.bs.count = 0 := BitVec.toNat_inj (y := 0)
  simp only [flushOk, bsFlushOk, Passes, Bool.and_eq_true, Bool.or_eq_true, beq_iff_eq, decide_eq_true_eq,
    streamOpen_iff, hcount, ne_eq, or_iff_not_imp_left]

/-! ### What one check decides -/

/-- A command that one check decides goes on with its work where the check passes. -/
theorem exec_of_check {i : Instr} {s x y : State} {b : Bool} (he : exec i s = .next (if b then x else y))
    (hb : b = true) : exec i s = .next x := by
  rw [he, if_pos hb]

/-- A command that one check decides changes STATUS only where the check fails (R116 item 2). -/
theorem exec_of_failed_check {i : Instr} {s x : State} {b : Bool}
    (he : exec i s = .next (if b then x else fail .illegalArgument s)) (hb : ¬b = true) :
    exec i s = .next (failedWith .illegalArgument s) := by
  rw [he, if_neg hb, fail_eq _ _ rfl]

/-- Work that leaves STATUS to the completion succeeds as R117 says. -/
theorem completed_succeed {s r : State} (h : r.status = s.status) : Completed .none false s (succeed r) := by
  obtain ⟨hidle, hdone, herr, hcode, htrunc, hover⟩ := completed_complete (s := r) .none false
  exact ⟨hidle, hdone, herr, hcode, h ▸ htrunc, h ▸ hover⟩

/-! ### Registers and bytes -/

theorem toNat_u32 {n : Nat} (h : n < 2 ^ 32) : (u32 n).toNat = n := by
  rw [u32, BitVec.toNat_ofNat, Nat.mod_eq_of_lt h]

theorem toNat_u32_count (b : Bs) : (u32 b.count.toNat).toNat = b.count.toNat := toNat_u32 (by omega)

/-- The reader changes COUNT, BUF and CURSOR only. -/
theorem Reads.eq_update {m : Memory} {k : Nat} {b b' : Bs} (h : Reads m k b b') :
    b' = { b with count := b'.count, buf := b'.buf, cursor := b'.cursor } := by
  rw [← h.mode, ← h.base, ← h.limit]

/-- The flush empties the buffer and changes CURSOR beside it only. -/
theorem bsFlush_eq_update {b : Bs} (hb : BufOk b) :
    (bsFlush b).1 = { b with count := 0, buf := 0, cursor := (bsFlush b).1.cursor } := by
  rw [bsFlush]
  split
  · rename_i hzero
    have hcount : b.count = 0 := BitVec.toNat_inj.mp hzero
    have hbuf : b.buf = 0 := by
      rw [BufOk, hzero] at hb
      exact BitVec.toNat_inj.mp (Nat.lt_one_iff.mp hb)
    rw [← hcount, ← hbuf]
  · rfl

theorem bsFlush_cursor {b : Bs} (hc : b.count.toNat ≤ 7) (h : b.cursor.toNat + (b.count.toNat + 7) / 8 < 2 ^ 32) :
    (bsFlush b).1.cursor.toNat = b.cursor.toNat + (b.count.toNat + 7) / 8 := by
  rw [bsFlush]
  split
  · dsimp only
    omega
  · rw [BitVec.toNat_add, show (1 : Word).toNat = 1 from rfl, Nat.mod_eq_of_lt (by omega)]
    omega

/-- One write of n bytes changes no other byte. -/
theorem memSameOutside_memWrite {s t : State} {a n : Nat} {out : List Byte} (hm : t.mem = memWrite a out s.mem)
    (hn : out.length = n) : MemSameOutside a n s t := by
  intro x hx
  rw [hm]
  exact memRead_memWrite_outside _ _ _ _ (hn ▸ hx)

/-- The bytes one write stored stand where it stored them. -/
theorem memBytes_memWrite {m : Memory} {a n : Nat} {out : List Byte} (hn : out.length = n) :
    memBytes (memWrite a out m) a n = out := hn ▸ memBytes_memWrite_same m a out

/-! ### The statements -/

/-- Settles O29: a passing open leaves `bsOpen`'s registers, a failing one is `fail`. -/
theorem streamOpens : Obligations.StreamOpens := by
  refine ⟨decode_encode (i := .bsOpenRead) rfl, decode_encode (i := .bsOpenWrite) rfl, fun s =>
    ⟨fun h => ⟨_, exec_of_check (b := openReadOk s) rfl (rangeOk_iff.mpr h), completed_succeed rfl, rfl⟩, fun h => ?_,
      fun h => ⟨_, exec_of_check (b := openWriteOk s) rfl (rangeOk_iff.mpr h), completed_succeed rfl, rfl⟩,
      fun h => ?_⟩⟩
  · exact exec_of_failed_check (b := openReadOk s) rfl (mt rangeOk_iff.mp h)
  · exact exec_of_failed_check (b := openWriteOk s) rfl (mt rangeOk_iff.mp h)

/-- Settles O30: `bs_can` reads 0 bits of the stream and answers whether N are left (`bsCan_spec`). -/
theorem canSupplyPullsWhatItNeeds : Obligations.CanSupplyPullsWhatItNeeds := by
  intro s n hlegal hopen hn
  obtain ⟨hreads, hcursor, hanswer, -⟩ := bsCan_spec s.mem n (by omega) s.bs hlegal.2
  refine ⟨_, exec_of_check (b := canSupplyOk n s) rfl (canSupplyOk_iff.mpr ⟨hopen, hn⟩), completed_succeed rfl, ?_,
    toNat_u32_count _, hcursor, hreads.bits, bsLegal_bsCan hn hopen.1 hlegal,
    congrArg (fun b => succeed (setResults _ _ { s with bs := b })) hreads.eq_update⟩
  show u32 (bsCan s.mem n s.bs).2.toNat = _
  rw [hanswer]
  by_cases h : n ≤ (streamBits s.mem s.bs).length
  · rw [decide_eq_true h, if_pos h]
    rfl
  · rw [decide_eq_false h, if_neg h]
    rfl

/-- Settles O31: `bs_take` takes the N oldest held bits (`bsTake_held`). -/
theorem supplyTakesTheOldestBits : Obligations.SupplyTakesTheOldestBits := by
  refine ⟨fun n hn => decode_encode (i := .bsSupply n) (decide_eq_true hn), fun s n hlegal => ⟨fun h => ?_, fun h =>
    exec_of_failed_check (b := supplyOk n s) rfl (mt supplyOk_iff.mp h)⟩⟩
  obtain ⟨hmode, hn, hcount⟩ := h
  have hlt := bsTake_lt n s.bs
  have hpow : 2 ^ n ≤ 2 ^ 32 := Nat.pow_le_pow_right (by decide) hn
  have hresult : (u32 (bsTake n s.bs).2).toNat = (bsTake n s.bs).2 := toNat_u32 (hlt.trans_le hpow)
  refine ⟨_, exec_of_check (b := supplyOk n s) rfl (supplyOk_iff.mpr ⟨hmode, hn, hcount⟩), completed_succeed rfl,
    ?_, hresult.trans_lt hlt, bsTake_count n s.bs, toNat_u32_count _, bsLegal_bsTake hcount hlegal, rfl⟩
  exact (bsTake_held n s.bs hcount).1.trans (congrArg (fun v => msbBits v n ++ _) hresult.symm)

/-- Settles O32: `bs_put` splits the held and the new bits into the bytes stored and the bits held (`bsPut_spec`). -/
theorem consumeAppendsTheLowBits : Obligations.ConsumeAppendsTheLowBits := by
  intro s n hopen hn hroom
  have hlimit := s.bs.limit.isLt
  obtain ⟨hlength, hcount, -, hbits⟩ := bsPut_spec s.arg0.toNat n s.bs
  refine ⟨_, exec_of_check (b := consumeOk n s) rfl (consumeOk_iff.mpr ⟨hopen, hn, hroom⟩), completed_succeed rfl,
    hcount, bsPut_cursor _ _ _ (by omega), rfl, toNat_u32_count _, ?_, bsLegal_bsPut _ _ _,
    memSameOutside_memWrite rfl hlength, rfl⟩
  exact hbits.trans (congrArg (fun l => byteBits l ++ _) (memBytes_memWrite hlength).symm)

/-- Settles O33: `bs_flush` stores the held bits filled up with 1-bits (`bsFlush_spec`). -/
theorem flushPadsWithOnes : Obligations.FlushPadsWithOnes := by
  intro s hlegal hopen hroom
  obtain ⟨hmax, hbuf⟩ := hlegal
  rw [hopen.1, bsCountMax] at hmax
  have hlimit := s.bs.limit.isLt
  have hcursor : s.bs.cursor.toNat + (s.bs.count.toNat + 7) / 8 < 2 ^ 32 := by
    by_cases hzero : s.bs.count = 0
    · rw [hzero]
      exact s.bs.cursor.isLt
    · have := hroom hzero
      omega
  obtain ⟨hbits, hlength, -⟩ := bsFlush_spec s.bs hmax
  refine ⟨_, exec_of_check (b := flushOk s) rfl (flushOk_iff.mpr ⟨hopen, hroom⟩), completed_succeed rfl, ?_,
    bsFlush_cursor hmax hcursor, rfl, rfl, memSameOutside_memWrite rfl hlength,
    congrArg (fun b => succeed (setResults _ _ (emit s.bs b _ s))) (bsFlush_eq_update hbuf)⟩
  exact (congrArg byteBits (memBytes_memWrite hlength)).trans hbits

end Sys2Proof.Machine
end

section
/-! PROOFS. ENCODE_IMAGE where every block has a code and the sink holds the result (47_image.md R107, R110). -/

namespace Sys2Proof.Machine

theorem hostSideSame_encodedState (s : State) (q : EncPass) (body : Nat) : HostSideSame s (encodedState s q body) := by
  refine HostSideSame.trans ?_ (hostSideSame_leaveScratch _)
  constructor <;> simp

/-- What the whole output of an ENCODE_IMAGE is that codes `items`, `total` bytes in all: the bits of the items and
1-bits up to the end (the flush's and the 0xFF padding's), in a sink that stays open behind them (R61, R110). -/
structure EncDone (s : State) (items : List (Nat × Nat)) (total : Nat) (q : EncPass) : Prop where
  n      : q.n = (blocks s).length
  pred   : q.pred = lastDc (Vector.replicate 4 0) (preparedBlocks s (ctxSetup s).qt)
  length : q.out.length = total
  bs     : q.bs =
    { mode := .writing, count := 0, buf := 0, cursor := u32 total, base := s.dstBase, limit := s.dstCap }
  bits   : byteBits q.out = itemsBits items ++ List.replicate (8 * total - itemBits items) true

/-- With a code for every block and room for the output, the pass and the flush both end well. -/
theorem exec_encodeImage_coded {s : State} {items : List (Nat × Nat)} {body total : Nat} (hok : encodeImageOk s = true)
    (hitems : codedItems s (Vector.replicate 4 0) (preparedBlocks s (ctxSetup s).qt) = some items)
    (hbody : body = (itemBits items + 7) / 8) (htotal : total = (body + 15) / 16 * 16)
    (hfits : total ≤ s.dstCap.toNat) :
    ∃ q, exec .encodeImage s = .next (succeed (encodedState s q body)) ∧ EncDone s items total q := by
  have hstart := encOk_start s.dstBase s.dstCap (ctxSetup s).dcpred
  have hcoded : codedItems (ctxSetup s) (ctxSetup s).dcpred (preparedBlocks s (ctxSetup s).qt) = some items := by
    rw [codedItems_ctxSetup, ctxSetup_dcpred, hitems]
  obtain ⟨p, hpass⟩ := encodePass_coded _ _ _ _ hstart hcoded (by rw [List.nil_append]; omega)
  rcases encodePass_spec (preparedBlocks s (ctxSetup s).qt) _ _ hstart with
    ⟨code, n, hfault⟩ | ⟨items', p', hdone, hitems', ok, hpred, hn⟩
  · exact absurd (hfault.symm.trans hpass) nofun
  cases hdone.symm.trans hpass
  cases hitems'.symm.trans hcoded
  rcases finishEncode_spec ok body total hbody htotal with ⟨hfull, -⟩ | ⟨-, q, hfin, hqn, hqpred, hlength, hbs, hbits⟩
  · omega
  refine ⟨q, exec_encodeImage_done hok hpass hfin, ⟨?_, hqpred.trans hpred, hlength, hbs, hbits⟩⟩
  rw [hqn, hn, Nat.zero_add, preparedBlocks, List.length_map]

/-- Settles O58: the blocks are the commands' (`preparedBlocks_runs`), their items R102's (`itemsLineByLine`), and the
output holds their bits (`exec_encodeImage_coded`). -/
theorem encodeImageWritesTheCodedBlocks : Obligations.EncodeImageWritesTheCodedBlocks := by
  refine ⟨preparedBlocks_runs, itemsLineByLine, fun s qt items body total hp hqt hitems hbody htotal hfits => ?_⟩
  obtain rfl := (contextScales_iff s qt).mp hqt
  obtain ⟨q, hexec, hn, hpred, hlength, hbs, hbits⟩ :=
    exec_encodeImage_coded (encodeImageOk_iff.mpr hp) hitems hbody htotal hfits
  have hcap := s.dstCap.isLt
  have hcursor : q.bs.cursor = u32 total := congrArg Bs.cursor hbs
  refine ⟨_, _, exec_of_check (b := ctxCheck s) rfl (ctxCheck_iff.mpr hp.1), hexec, rfl, rfl, rfl, rfl, rfl, rfl, rfl,
    rfl, rfl, hpred, (congrArg BitVec.toNat hcursor).trans (toNat_u32 (by omega)), toNat_u32 (by omega),
    congrArg u32 hn, ?_, ?_, memSameOutside_memWrite rfl hlength, rfl,
    (hostSideSame_encodedState s q body).trans (hostSideSame_complete _ _ _)⟩
  · show q.bs = { mode := .writing, count := 0, buf := 0, cursor := q.bs.cursor, base := s.dstBase, limit := s.dstCap }
    rw [hcursor, hbs]
  · exact (congrArg byteBits (memBytes_memWrite hlength)).trans hbits

end Sys2Proof.Machine
end

section
/-! PROOFS. The canonical build in closed form (41_huffman.md R64): when it succeeds, and which code each symbol
gets. -/

namespace Sys2Proof.Machine

/-! ### The codes of one length -/

/-- Consecutive codes of one length, from `code` on, for the listed symbols. -/
def codesFrom (len : Nat) : Nat → List Byte → List CodeEntry
  | _, [] => []
  | code, sym :: syms =>
    { code := BitVec.ofNat 16 code, len := BitVec.ofNat 5 len, sym := sym } :: codesFrom len (code + 1) syms

theorem mem_codesFrom {len code : Nat} {syms : List Byte} {e : CodeEntry} :
    e ∈ codesFrom len code syms ↔
      ∃ j, e.code = BitVec.ofNat 16 (code + j) ∧ e.len = BitVec.ofNat 5 len ∧ syms[j]? = some e.sym := by
  induction syms generalizing code with
  | nil => simp [codesFrom]
  | cons sym syms ih =>
    rw [codesFrom, List.mem_cons, ih]
    constructor
    · rintro (rfl | ⟨j, hcode, hlen, hsym⟩)
      · exact ⟨0, rfl, rfl, rfl⟩
      · exact ⟨j + 1, by rw [hcode, Nat.add_assoc, Nat.add_comm 1], hlen, hsym⟩
    · rintro ⟨j, hcode, hlen, hsym⟩
      cases j with
      | zero =>
        cases e
        cases hsym
        exact .inl (by simpa using ⟨hcode, hlen⟩)
      | succ j => exact .inr ⟨j, by rw [hcode, Nat.add_assoc, Nat.add_comm 1], hlen, hsym⟩

/-- One length is coded exactly where its symbols are there and its codes fit it. -/
theorem assignLength_eq {len count code : Nat} {syms : List Byte} (hcode : code ≤ 2 ^ len) :
    assignLength len count code syms =
      if count ≤ syms.length ∧ code + count ≤ 2 ^ len then
        some (codesFrom len code (syms.take count), code + count, syms.drop count)
      else none := by
  induction count generalizing code syms with
  | zero => rw [assignLength, if_pos ⟨Nat.zero_le _, hcode⟩]; rfl
  | succ count ih =>
    cases syms with
    | nil => rw [assignLength, if_neg (fun h => absurd h.1 (Nat.not_succ_le_zero _))]
    | cons sym syms =>
      rw [assignLength]
      by_cases hfull : 2 ^ len ≤ code
      · rw [if_pos hfull, if_neg (by omega)]
      rw [if_neg hfull, ih (by omega)]
      by_cases hfits : count ≤ syms.length ∧ code + 1 + count ≤ 2 ^ len
      · rw [if_pos hfits, if_pos (by rw [List.length_cons]; omega), show code + (count + 1) = code + 1 + count by omega]
        rfl
      · rw [if_neg hfits, if_neg (by rw [List.length_cons]; omega)]

/-! ### The codes of every length -/

/-- The running code i lengths after `code`: what each length before it took, moved left to this length. -/
def runningCode (code : Nat) (counts : List Nat) (i : Nat) : Nat :=
  code * 2 ^ i + ((List.range i).map fun x => counts.getD x 0 * 2 ^ (i - x)).sum

theorem runningCode_zero (code : Nat) (counts : List Nat) : runningCode code counts 0 = code := by
  simp [runningCode]

/-- From a length to the next the running code moves left by 1. -/
theorem runningCode_succ (code count : Nat) (counts : List Nat) (i : Nat) :
    runningCode code (count :: counts) (i + 1) = runningCode (2 * (code + count)) counts i := by
  have htail : ((List.range i).map fun x => (count :: counts).getD (x + 1) 0 * 2 ^ (i + 1 - (x + 1))) =
      (List.range i).map fun x => counts.getD x 0 * 2 ^ (i - x) := by simp
  rw [runningCode, runningCode, List.range_succ_eq_map, List.map_cons, List.map_map, List.sum_cons, ← htail]
  simp only [List.getD_cons_zero, Nat.sub_zero, Function.comp_def]
  ring

theorem firstCode_succ (h : Hsrc) (i : Nat) : h.firstCode (i + 1) = runningCode 0 h.counts i := by
  simp [Hsrc.firstCode, runningCode]

theorem assignCodes_cons {len count code : Nat} {counts : List Nat} {syms : List Byte} (hcode : code ≤ 2 ^ len) :
    assignCodes len (count :: counts) code syms =
      if count ≤ syms.length ∧ code + count ≤ 2 ^ len then
        (assignCodes (len + 1) counts (2 * (code + count)) (syms.drop count)).map
          (codesFrom len code (syms.take count) ++ ·)
      else none := by
  rw [assignCodes, assignLength_eq hcode]
  split_ifs
  · dsimp only
    cases assignCodes (len + 1) counts (2 * (code + count)) (syms.drop count) <;> rfl
  · rfl

/-- Every length is coded exactly where the symbols suffice and no length is over-subscribed. -/
theorem assignCodes_isSome_iff {len code : Nat} {counts : List Nat} {syms : List Byte} (hcode : code ≤ 2 ^ len) :
    (assignCodes len counts code syms).isSome ↔ counts.sum ≤ syms.length ∧
      ∀ i < counts.length, runningCode code counts i + counts.getD i 0 ≤ 2 ^ (len + i) := by
  induction counts generalizing len code syms with
  | nil => simp [assignCodes]
  | cons count counts ih =>
    rw [assignCodes_cons hcode, List.sum_cons, List.length_cons, Nat.forall_lt_succ_left, runningCode_zero]
    simp only [runningCode_succ, List.getD_cons_zero, List.getD_cons_succ, Nat.add_zero]
    by_cases hfits : count ≤ syms.length ∧ code + count ≤ 2 ^ len
    · obtain ⟨hsyms, hroom⟩ := hfits
      rw [if_pos ⟨hsyms, hroom⟩, Option.isSome_map, ih (by rw [Nat.pow_succ']; omega), List.length_drop]
      simp only [hroom, true_and, Nat.add_assoc, Nat.add_comm 1]
      exact and_congr_left fun _ => by omega
    · rw [if_neg hfits]
      exact ⟨nofun, fun ⟨hsum, hroom, _⟩ => absurd ⟨by omega, hroom⟩ hfits⟩

/-- The codes given: the j-th of the i-th length is the running code there plus j, for the next symbol in order. -/
theorem mem_assignCodes {len code : Nat} {counts : List Nat} {syms : List Byte} {codes : List CodeEntry}
    (hcode : code ≤ 2 ^ len) (h : assignCodes len counts code syms = some codes) {e : CodeEntry} :
    e ∈ codes ↔ ∃ i j, j < counts.getD i 0 ∧ e.code = BitVec.ofNat 16 (runningCode code counts i + j) ∧
      e.len = BitVec.ofNat 5 (len + i) ∧ syms[(counts.take i).sum + j]? = some e.sym := by
  induction counts generalizing len code syms codes with
  | nil =>
    cases h
    simp
  | cons count counts ih =>
    rw [assignCodes_cons hcode] at h
    split_ifs at h with hfits
    obtain ⟨more, hmore, rfl⟩ := Option.map_eq_some_iff.mp h
    rw [List.mem_append, ← Nat.or_exists_add_one, mem_codesFrom, ih (by rw [Nat.pow_succ']; omega) hmore]
    refine or_congr (exists_congr fun j => ?_) (exists_congr fun i => exists_congr fun j => ?_)
    · rw [runningCode_zero, List.getElem?_take]
      by_cases hj : j < count <;> simp [hj]
    · rw [runningCode_succ, List.getElem?_drop, List.take_succ_cons, List.sum_cons, List.getD_cons_succ,
        Nat.add_assoc len 1 i, Nat.add_comm 1 i, Nat.add_assoc count]

/-! ### The build -/

theorem length_symbols {h : Hsrc} (ht : h.total ≤ 256) : h.symbols.length = h.total := by
  simp [Hsrc.symbols, ht]

theorem htBuild_isSome_iff {h : Hsrc} : (htBuild h).isSome ↔
    (1 ≤ h.total ∧ h.total ≤ 256 ∧ h.symbols.Nodup) ∧ (assignCodes 1 h.counts 0 h.symbols).isSome := by
  have hcheck : (h.total = 0 || 256 < h.total || !noRepeats h.symbols) = true ↔
      ¬(1 ≤ h.total ∧ h.total ≤ 256 ∧ h.symbols.Nodup) := by
    simp only [Bool.or_eq_true, decide_eq_true_eq, Bool.not_eq_true', ← noRepeats_iff, Bool.eq_false_iff, ne_eq,
      not_and_or, or_assoc, Nat.not_le, Nat.lt_one_iff]
  rw [htBuild]
  split
  · rename_i hbad
    simp [hcheck.mp hbad]
  · rename_i hgood
    rw [hcheck, not_not] at hgood
    cases assignCodes 1 h.counts 0 h.symbols <;> simp [hgood]

theorem htBuild_codes {h : Hsrc} {t : Ht} (hb : htBuild h = some t) :
    assignCodes 1 h.counts 0 h.symbols = some t.codes := by
  rw [htBuild] at hb
  split at hb
  · cases hb
  · cases hcodes : assignCodes 1 h.counts 0 h.symbols <;> rw [hcodes] at hb <;> cases hb
    rfl

/-- The build succeeds exactly for a well-formed source. -/
theorem htBuild_isSome_iff_wellFormed {h : Hsrc} : (htBuild h).isSome ↔ h.WellFormed := by
  have hlengths : (∀ i < 16, runningCode 0 h.counts i + h.counts.getD i 0 ≤ 2 ^ (1 + i)) ↔
      ∀ L : Nat, 1 ≤ L → L ≤ 16 → h.firstCode L + h.counts.getD (L - 1) 0 ≤ 2 ^ L := by
    constructor
    · rintro hfits (_ | i) hpos hle
      · cases hpos
      · rw [firstCode_succ, Nat.add_sub_cancel, Nat.add_comm i 1]
        exact hfits i hle
    · intro hfits i hi
      rw [← firstCode_succ, Nat.add_comm 1 i]
      exact hfits (i + 1) (Nat.le_add_left ..) hi
  rw [htBuild_isSome_iff, assignCodes_isSome_iff (Nat.zero_le _), length_counts, hlengths, Hsrc.WellFormed]
  constructor
  · rintro ⟨⟨hpos, hle, hnodup⟩, -, hfits⟩
    exact ⟨hpos, hle, hnodup, hfits⟩
  · rintro ⟨hpos, hle, hnodup, hfits⟩
    exact ⟨⟨hpos, hle, hnodup⟩, (length_symbols hle).ge, hfits⟩

theorem wellFormed_of_htBuild {h : Hsrc} {t : Ht} (hb : htBuild h = some t) : h.WellFormed :=
  htBuild_isSome_iff_wellFormed.mp (Option.isSome_of_eq_some hb)

/-- No code of a well-formed source is too large for the 16 bits that hold it. -/
theorem firstCode_add_lt {h : Hsrc} (hw : h.WellFormed) {L j : Nat} (hpos : 1 ≤ L) (hle : L ≤ 16)
    (hj : j < h.counts.getD (L - 1) 0) : h.firstCode L + j < 2 ^ 16 := by
  obtain ⟨-, -, -, hfits⟩ := hw
  have hpow : 2 ^ L ≤ 2 ^ 16 := Nat.pow_le_pow_right (by decide) hle
  have hroom := hfits L hpos hle
  omega

theorem sum_take_add_getD_le (l : List Nat) (i : Nat) : (l.take i).sum + l.getD i 0 ≤ l.sum := by
  induction l generalizing i with
  | nil => simp
  | cons a l ih =>
    cases i with
    | zero => simp
    | succ i =>
      have := ih i
      rw [List.take_succ_cons, List.sum_cons, List.getD_cons_succ, List.sum_cons]
      omega

/-- Every code of a built table is one of the closed form. -/
theorem exists_index_of_mem_codes {h : Hsrc} {t : Ht} (hb : htBuild h = some t) {e : CodeEntry} (he : e ∈ t.codes) :
    ∃ j, 1 ≤ e.len.toNat ∧ e.len.toNat ≤ 16 ∧ j < h.counts.getD (e.len.toNat - 1) 0 ∧
      e.code.toNat = h.firstCode e.len.toNat + j := by
  obtain ⟨i, j, hj, hcode, hlen, -⟩ := (mem_assignCodes (Nat.zero_le _) (htBuild_codes hb)).mp he
  have hi : i < 16 := by
    by_contra hi
    rw [List.getD_eq_default _ _ (by rw [length_counts]; omega)] at hj
    exact absurd hj (Nat.not_lt_zero _)
  have hL : e.len.toNat = i + 1 := by
    rw [hlen, BitVec.toNat_ofNat]
    omega
  have hlt := firstCode_add_lt (wellFormed_of_htBuild hb) (L := i + 1) (by omega) (by omega) hj
  rw [hL]
  refine ⟨j, by omega, by omega, hj, ?_⟩
  rw [hcode, BitVec.toNat_ofNat, ← firstCode_succ, Nat.mod_eq_of_lt hlt]

/-- Every code of the closed form is one of the built table's. -/
theorem exists_mem_codes {h : Hsrc} {t : Ht} (hb : htBuild h = some t) {L j : Nat} (hpos : 1 ≤ L) (hle : L ≤ 16)
    (hj : j < h.counts.getD (L - 1) 0) : ∃ e ∈ t.codes, e.code.toNat = h.firstCode L + j ∧ e.len.toNat = L ∧
      h.vals.toList[h.codesBefore L + j]? = some e.sym := by
  have hw := wellFormed_of_htBuild hb
  have hsum := sum_take_add_getD_le h.counts (L - 1)
  have hlt : h.codesBefore L + j < h.total := (Nat.add_lt_add_left hj _).trans_le hsum
  obtain ⟨sym, hsym⟩ : ∃ sym, h.symbols[h.codesBefore L + j]? = some sym :=
    ⟨_, List.getElem?_eq_getElem (hlt.trans_eq (length_symbols hw.2.1).symm)⟩
  obtain ⟨i, rfl⟩ : ∃ i, L = i + 1 := ⟨L - 1, by omega⟩
  refine ⟨⟨BitVec.ofNat 16 (h.firstCode (i + 1) + j), BitVec.ofNat 5 (i + 1), sym⟩,
    (mem_assignCodes (Nat.zero_le _) (htBuild_codes hb)).mpr
      ⟨i, j, hj, by rw [firstCode_succ], by rw [Nat.add_comm 1 i], hsym⟩, ?_, ?_, ?_⟩
  · rw [BitVec.toNat_ofNat, Nat.mod_eq_of_lt (firstCode_add_lt hw hpos hle hj)]
  · rw [BitVec.toNat_ofNat]
    omega
  · rw [← hsym, Hsrc.symbols, List.getElem?_take_of_lt hlt]

/-- Settles O34: the codes are those of the closed form, both ways, and the two maps hold the table's codes. -/
theorem canonicalBuildInClosedForm : Obligations.CanonicalBuildInClosedForm := by
  intro h
  refine ⟨Option.isSome_iff_exists.symm.trans htBuild_isSome_iff_wellFormed, fun t hb => ?_⟩
  obtain ⟨ok, -, hcount⟩ := htBuild_spec hb
  have hindex : ∀ e ∈ t.codes, h.counts.getD (e.len.toNat - 1) 0 ≠ 0 := fun e he => by
    obtain ⟨j, -, -, hj, -⟩ := exists_index_of_mem_codes hb he
    omega
  obtain ⟨a, ha, hmin⟩ := ok.short
  obtain ⟨z, hz, hmax⟩ := ok.long
  refine ⟨fun L j hpos hle hj => ?_, fun w L sym => ?_, fun w L sym hdecode => ?_, ok.bounds.1, ok.bounds.2,
    hmin ▸ hindex a ha, hmax ▸ hindex z hz, fun L hpos hle hused => ?_, ok.count.trans hcount⟩
  · obtain ⟨e, he, hcode, hlen, hsym⟩ := exists_mem_codes hb hpos hle hj
    exact ⟨e.sym, hsym, (ok.encodeMap_eq ..).mpr ⟨e, he, rfl, hcode, hlen⟩,
      (ok.decodeMap_eq ..).mpr ⟨e, he, hcode, hlen, rfl⟩⟩
  · rw [ok.decodeMap_eq, ok.encodeMap_eq]
    exact exists_congr fun e => and_congr_right fun _ => and_rotate.symm
  · obtain ⟨e, he, rfl, rfl, -⟩ := (ok.decodeMap_eq ..).mp hdecode
    obtain ⟨j, hpos, hle, hj, hcode⟩ := exists_index_of_mem_codes hb he
    exact ⟨hpos, hle, j, hj, hcode⟩
  · obtain ⟨e, he, -, rfl, -⟩ := exists_mem_codes hb hpos hle (Nat.pos_of_ne_zero hused)
    exact ok.lens e he

end Sys2Proof.Machine
end

section
/-! PROOFS. The Huffman commands: HT_BUILD, the three lookups by the table's codes, and HT_READ over the stream's bits
(41_huffman.md R65 to R71). -/

namespace Sys2Proof.Machine

/-! ### HT_BUILD -/

theorem exec_htBuild_some {s : State} {k : TableId} {h : Ht} (hb : htBuild s.hsrc[k] = some h) :
    exec (.htBuild k) s = .next (succeed (setResults (u32 h.nCodes.toNat)
      (u32 (h.maxLen.toNat * 2 ^ 8 + h.minLen.toNat)) { s with ht := s.ht.set k h })) := by
  simp only [exec, execHtBuild, hb]

theorem exec_htBuild_none {s : State} {k : TableId} (hb : htBuild s.hsrc[k] = none) :
    exec (.htBuild k) s = .next (failedWith .illegalArgument s) := by
  simp only [exec, execHtBuild, hb, fail_eq s .illegalArgument rfl]

theorem toNat_htInfoWord (h : Ht) :
    (htInfoWord h).toNat = h.nCodes.toNat * 2 ^ 16 + h.maxLen.toNat * 2 ^ 8 + h.minLen.toNat := by
  have hmin := h.minLen.isLt
  have hmax := h.maxLen.isLt
  have hcount := h.nCodes.isLt
  rw [htInfoWord, toNat_u32 (by omega)]
  omega

/-- Settles O35: the built table takes HT[T]'s place, and HT_INFO[T] and the results are its sizes. -/
theorem htBuildReplacesOneTable : Obligations.HtBuildReplacesOneTable := by
  refine ⟨fun k => decode_encode (i := .htBuild k) rfl, fun s k => ⟨fun h hb => ?_, exec_htBuild_none⟩⟩
  have hmin := h.minLen.isLt
  have hmax := h.maxLen.isLt
  have hset : (s.ht.set k h)[k] = h := Vector.getElem_set_self ..
  refine ⟨_, exec_htBuild_some hb, completed_succeed rfl, hset, fun k' hk => ?_, ?_, toNat_u32 (by omega),
    toNat_u32 (by omega), rfl⟩
  · exact Vector.getElem_set_ne k.isLt k'.isLt (Fin.val_ne_of_ne hk.symm)
  · exact (congrArg (fun t => (htInfoWord t).toNat) hset).trans (toNat_htInfoWord h)

/-! ### The lookups -/

/-- Every code of a built table has from 1 to 16 bits. -/
theorem TableOk.len_bounds {t : Ht} (ok : TableOk t) {e : CodeEntry} (he : e ∈ t.codes) :
    1 ≤ e.len.toNat ∧ e.len.toNat ≤ 16 := by
  obtain ⟨hmin, hmax⟩ := ok.lens e he
  obtain ⟨hpos, hle⟩ := ok.bounds
  omega

/-- ARG0's low n bits spell this code of the table. -/
def Spells (t : Ht) (n : Nat) (w : Word) (e : CodeEntry) : Prop :=
  e ∈ t.codes ∧ n = e.len.toNat ∧ w.toNat % 2 ^ n = e.code.toNat

theorem exec_htDecode_hit {s : State} {k : TableId} (ok : TableOk s.ht[k]) {n : Nat} {e : CodeEntry}
    (he : Spells s.ht[k] n s.arg0 e) :
    exec (.htDecode k n) s = .next (succeed (setResults (u32 e.sym.toNat) 1 s)) := by
  obtain ⟨hmem, rfl, hcode⟩ := he
  obtain ⟨hpos, hle⟩ := ok.len_bounds hmem
  have hlookup : htDecodeLookup s.ht[k] e.len.toNat s.arg0 = some e.sym := by
    rw [htDecodeLookup, if_pos ⟨hpos, hle⟩]
    exact (ok.decodeMap_eq ..).mpr ⟨e, hmem, hcode.symm, rfl, rfl⟩
  simp only [exec, execHtDecode, countOk_iff.mpr (show e.len.toNat ≤ 32 by omega), hlookup, if_true]

theorem exec_htDecode_miss {s : State} {k : TableId} {n : Nat} (hn : n ≤ 32)
    (hmiss : ∀ e, ¬Spells s.ht[k] n s.arg0 e) :
    exec (.htDecode k n) s = .next (succeed (setResults sentinel 0 s)) := by
  have hlookup : htDecodeLookup s.ht[k] n s.arg0 = none := by
    rw [htDecodeLookup]
    split_ifs
    · exact (Ht.decodeMap_none ..).mpr fun e he hlen hcode => hmiss e ⟨he, hlen.symm, hcode.symm⟩
    · rfl
  simp only [exec, execHtDecode, countOk_iff.mpr hn, hlookup, if_true]

theorem exec_htEncode_hit {s : State} {k : TableId} (ok : TableOk s.ht[k]) {e : CodeEntry}
    (he : CodeFor s.ht[k] s.arg0.toNat e) :
    exec (.htEncode k) s = .next (succeed (setResults (u32 e.code.toNat) (u32 e.len.toNat) s)) := by
  have hlookup : htEncodeLookup s.ht[k] s.arg0 = some e.item := by
    rw [htEncodeLookup, if_pos (by rw [← he.2]; omega), encodeMap_codeFor ok he]
  simp only [exec, execHtEncode, hlookup, CodeEntry.item]

theorem exec_htEncode_miss {s : State} {k : TableId} (ok : TableOk s.ht[k]) (hmiss : Absent s.ht[k] s.arg0.toNat) :
    exec (.htEncode k) s = .next (succeed (setResults sentinel 0 s)) := by
  have hlookup : htEncodeLookup s.ht[k] s.arg0 = none := by
    rw [htEncodeLookup]
    split_ifs
    · exact encodeMap_absent ok (by omega) hmiss
    · rfl
  simp only [exec, execHtEncode, hlookup]

/-- A field of at most 32 bits keeps its value in a result register. -/
theorem toNat_u32_toNat {n : Nat} (v : BitVec n) (hn : n ≤ 32) : (u32 v.toNat).toNat = v.toNat :=
  toNat_u32 (v.isLt.trans_le (Nat.pow_le_pow_right (by decide) hn))

/-- Settles O36: each lookup hits or misses, and two codes that both hit are one (`code_inj`, `sym_inj`). -/
theorem htLookupsFollowTheCodes : Obligations.HtLookupsFollowTheCodes := by
  refine ⟨fun k => ⟨decode_encode (i := .htEncode k) rfl, decode_encode (i := .htLimits k) rfl,
    fun n hn => decode_encode (i := .htDecode k n) (decide_eq_true hn)⟩, fun s k htables => ?_⟩
  have ok := tableOk_of_legal htables k
  refine ⟨fun n hn => ?_, fun n hn => ?_, ?_, ?_⟩
  · by_cases hhit : ∃ e, Spells s.ht[k] n s.arg0 e
    · obtain ⟨e, he⟩ := hhit
      refine ⟨_, exec_htDecode_hit ok he, completed_succeed rfl, fun e' hmem hlen hcode => ?_, fun hmiss => ?_, rfl⟩
      · rw [ok.code_inj hmem he.1 (hcode.symm.trans he.2.2) (hlen.symm.trans he.2.1)]
        exact ⟨toNat_u32_toNat _ (by decide), rfl⟩
      · exact absurd he.2.2 (hmiss e he.1 he.2.1)
    · refine ⟨_, exec_htDecode_miss hn (not_exists.mp hhit), completed_succeed rfl, fun e hmem hlen hcode => ?_,
        fun _ => ⟨rfl, rfl⟩, rfl⟩
      exact absurd ⟨e, hmem, hlen, hcode⟩ hhit
  · exact exec_of_failed_check (b := countOk n) rfl (mt countOk_iff.mp (by omega))
  · rcases codeFor_or_absent s.ht[k] s.arg0.toNat with ⟨e, he⟩ | hmiss
    · refine ⟨_, exec_htEncode_hit ok he, completed_succeed rfl, fun e' hmem hsym => ?_, fun hmiss => ?_, rfl⟩
      · rw [ok.sym_inj hmem he.1 (BitVec.toNat_inj.mp (hsym.symm.trans he.2.symm))]
        exact ⟨toNat_u32_toNat _ (by decide), toNat_u32_toNat _ (by decide)⟩
      · exact absurd he.2.symm (hmiss e he.1)
    · refine ⟨_, exec_htEncode_miss ok hmiss, completed_succeed rfl, fun e hmem hsym => ?_, fun _ => ⟨rfl, rfl⟩, rfl⟩
      exact absurd hsym.symm (hmiss e hmem)
  · obtain ⟨a, ha, hmin⟩ := ok.short
    obtain ⟨z, hz, hmax⟩ := ok.long
    refine ⟨_, rfl, completed_succeed rfl, ⟨a, ha, (toNat_u32_toNat _ (by decide)).trans hmin.symm⟩,
      ⟨z, hz, (toNat_u32_toNat _ (by decide)).trans hmax.symm⟩, fun e he => ?_, rfl⟩
    obtain ⟨hlo, hhi⟩ := ok.lens e he
    exact ⟨(toNat_u32_toNat _ (by decide)).trans_le hlo, hhi.trans_eq (toNat_u32_toNat _ (by decide)).symm⟩

/-- Settles O37: the code HT_ENCODE gives spells itself, and the symbol HT_DECODE gives is the code's own. -/
theorem huffmanRoundTrip : Obligations.HuffmanRoundTrip := by
  intro s k htables
  have ok := tableOk_of_legal htables k
  refine ⟨fun t hencode hhit => ?_, fun n t hn hlt hdecode hhit => ?_⟩
  · rcases codeFor_or_absent s.ht[k] s.arg0.toNat with ⟨e, he⟩ | hmiss
    · cases (exec_htEncode_hit ok he).symm.trans hencode
      have hlen : (u32 e.len.toNat).toNat = e.len.toNat := toNat_u32_toNat _ (by decide)
      have hcode : (u32 e.code.toNat).toNat = e.code.toNat := toNat_u32_toNat _ (by decide)
      have hspells : Spells s.ht[k] (u32 e.len.toNat).toNat (u32 e.code.toNat) e :=
        ⟨he.1, hlen, by rw [hlen, hcode, Nat.mod_eq_of_lt (ok.fits e he.1)]⟩
      refine ⟨_, exec_htDecode_hit ?_ hspells, BitVec.eq_of_toNat_eq ?_, rfl⟩
      · exact ok
      · exact (toNat_u32_toNat _ (by decide)).trans he.2
    · cases (exec_htEncode_miss ok hmiss).symm.trans hencode
      exact absurd rfl hhit
  · by_cases hspelt : ∃ e, Spells s.ht[k] n s.arg0 e
    · obtain ⟨e, hmem, hlen, hcode⟩ := hspelt
      cases (exec_htDecode_hit ok ⟨hmem, hlen, hcode⟩).symm.trans hdecode
      rw [Nat.mod_eq_of_lt hlt] at hcode
      have hsym : CodeFor s.ht[k] (u32 e.sym.toNat).toNat e := ⟨hmem, (toNat_u32_toNat _ (by decide)).symm⟩
      refine ⟨_, exec_htEncode_hit ?_ hsym, BitVec.eq_of_toNat_eq ?_, ?_⟩
      · exact ok
      · exact (toNat_u32_toNat _ (by decide)).trans hcode.symm
      · exact (toNat_u32_toNat _ (by decide)).trans hlen.symm
    · cases (exec_htDecode_miss hn (not_exists.mp hspelt)).symm.trans hdecode
      exact absurd hhit nofun

/-! ### HT_READ -/

section Read
variable {s : State} {k : TableId} {b : Bs}

/-- With its stream open HT_READ ends as `ht_read` does. -/
theorem exec_htRead_symbol {sym : Byte} {len : Nat} (hopen : StreamOpenIn .reading s)
    (hread : htRead s.ht[k] s.mem s.bs = (b, .symbol sym len)) :
    exec (.htRead k) s = .next (succeed (setResults (u32 sym.toNat) (u32 len) { s with bs := b })) := by
  simp only [exec, execHtRead, streamOpen_iff.mpr hopen, hread, if_true]

theorem exec_htRead_underrun (hopen : StreamOpenIn .reading s)
    (hread : htRead s.ht[k] s.mem s.bs = (b, .underrun)) :
    exec (.htRead k) s = .next (complete .streamUnderrun true (setResults sentinel 0 { s with bs := b })) := by
  simp only [exec, execHtRead, streamOpen_iff.mpr hopen, hread, if_true]

theorem exec_htRead_noMatch (hopen : StreamOpenIn .reading s)
    (hread : htRead s.ht[k] s.mem s.bs = (b, .noMatch)) :
    exec (.htRead k) s = .next (fail .huffmanDecodingFault { s with bs := b }) := by
  simp only [exec, execHtRead, streamOpen_iff.mpr hopen, hread, if_true]

end Read

/-- Work that leaves STATUS to the completion ends as R117 says, whatever the code. -/
theorem completed_of_status {s r : State} (code : ErrCode) (u : Bool) (h : r.status = s.status) :
    Completed code u s (complete code u r) := by
  obtain ⟨hidle, hdone, herr, hcode, htrunc, hover⟩ := completed_complete (s := r) code u
  exact ⟨hidle, hdone, herr, hcode, h ▸ htrunc, h ▸ hover⟩

/-- Settles O38: the three ends of `ht_read` over the stream's bits (`htRead_cases`); two codes that start the same bits
are one by `htRead_code`. -/
theorem htReadFollowsTheStream : Obligations.HtReadFollowsTheStream := by
  intro s k htables hlegal hopen
  have ok := tableOk_of_legal htables k
  have hbs : bsLegal (htRead s.ht[k] s.mem s.bs).1 := bsLegal_htRead hopen.1 hlegal
  rcases htRead_cases ok s.mem s.bs hlegal.2 with
    ⟨e, he, hend, hreads⟩ | ⟨hno, hshort, hend, hreads⟩ | ⟨hno, hlong, hend, hreads⟩
  · refine ⟨_, exec_htRead_symbol hopen (Prod.ext rfl hend), hbs, fun e' hmem ⟨rest, hstart⟩ => ?_, fun hno => ?_,
      congrArg (fun b => succeed (setResults _ _ { s with bs := b })) hreads.eq_update⟩
    · obtain ⟨hsym, hlen⟩ := HtRead.symbol.inj
        (hend.symm.trans (htRead_code ok s.mem s.bs hlegal.2 e' hmem rest hstart.symm).1)
      rw [← hsym, ← hlen]
      exact ⟨completed_succeed rfl, toNat_u32_toNat _ (by decide), toNat_u32_toNat _ (by decide), hreads.bits⟩
    · exact absurd he.2 (hno e he.1)
  · refine ⟨_, exec_htRead_underrun hopen (Prod.ext rfl hend), hbs, fun e hmem hstart => absurd hstart (hno e hmem),
      fun _ => ⟨fun _ => ⟨completed_of_status _ _ rfl, rfl, rfl, hreads.bits.trans ?_⟩, fun hlong => ?_⟩,
      congrArg (fun b => complete _ _ (setResults _ _ { s with bs := b })) hreads.eq_update⟩
    · rw [takenAtUnderrun]
      split_ifs
      · rfl
      · exact List.drop_length
    · exact absurd hshort (Nat.not_lt.mpr hlong)
  · refine ⟨_, exec_htRead_noMatch hopen (Prod.ext rfl hend), hbs, fun e hmem hstart => absurd hstart (hno e hmem),
      fun _ => ⟨fun hshort => ?_, fun _ => ⟨completed_of_status _ _ rfl, rfl, rfl, hreads.bits⟩⟩,
      congrArg (fun b => fail _ { s with bs := b }) hreads.eq_update⟩
    exact absurd hshort (Nat.not_lt.mpr hlong)

end Sys2Proof.Machine
end

section
/-! PROOFS. BLK_ENCODE: the bits of a block's items are the bytes it stores and the bits it holds (46_block_codec.md
R99, R102). -/

namespace Sys2Proof.Machine

section Encode
variable {s : State} {c : Channel} {k : Kind} {items : List (Nat × Nat)}

theorem exec_blkEncode_items (hopen : StreamOpenIn .writing s)
    (hitems : blkSymbols s.ht[dcTable k] s.ht[acTable k] s.dcpred[c] s.blk = some items)
    (hroom : s.bs.cursor.toNat + (s.bs.count.toNat + itemBits items) / 8 ≤ s.bs.limit.toNat) :
    exec (.blkEncode c k) s = .next (succeed (setResults (u32 (itemBits items)) (bsPutAll items s.bs).1.cursor
      { emit s.bs (bsPutAll items s.bs).1 (bsPutAll items s.bs).2 s with dcpred := s.dcpred.set c s.blk[0] })) := by
  have hfits : bsRoom (itemBits items) s.bs = true := decide_eq_true hroom
  simp only [exec, execBlkEncode, blkEncodeItems, streamOpen_iff.mpr hopen, hitems, hfits, if_true]

theorem exec_blkEncode_full (hopen : StreamOpenIn .writing s)
    (hitems : blkSymbols s.ht[dcTable k] s.ht[acTable k] s.dcpred[c] s.blk = some items)
    (hfull : s.bs.limit.toNat < s.bs.cursor.toNat + (s.bs.count.toNat + itemBits items) / 8) :
    exec (.blkEncode c k) s = .next (failedWith .illegalArgument s) := by
  have hfits : ¬bsRoom (itemBits items) s.bs = true := by
    rw [bsRoom, decide_eq_true_iff]
    omega
  simp only [exec, execBlkEncode, blkEncodeItems, streamOpen_iff.mpr hopen, hitems, if_true, if_neg hfits,
    fail_eq s .illegalArgument rfl]

theorem exec_blkEncode_noCode (hopen : StreamOpenIn .writing s)
    (hnone : blkSymbols s.ht[dcTable k] s.ht[acTable k] s.dcpred[c] s.blk = none) :
    exec (.blkEncode c k) s = .next (failedWith .huffmanEncodingFault s) := by
  simp only [exec, execBlkEncode, blkEncodeItems, streamOpen_iff.mpr hopen, hnone, if_true,
    fail_eq s .huffmanEncodingFault rfl]

end Encode

/-- A stream whose mode and range stay changes COUNT, BUF and CURSOR only. -/
theorem Bs.eq_update {b b' : Bs} (hmode : b'.mode = b.mode) (hbase : b'.base = b.base) (hlimit : b'.limit = b.limit) :
    b' = { b with count := b'.count, buf := b'.buf, cursor := b'.cursor } := by
  rw [← hmode, ← hbase, ← hlimit]

/-- Settles O53: the items line by line are `itemsLineByLine`, and their bits are appended by `bsPutAll_spec`. -/
theorem blkEncodeAppendsTheItems : Obligations.BlkEncodeAppendsTheItems := by
  refine ⟨itemsLineByLine, fun s c k hlegal hopen =>
    ⟨fun items hitems => ⟨fun hroom => ?_, exec_blkEncode_full hopen hitems⟩, exec_blkEncode_noCode hopen⟩⟩
  obtain ⟨hmode, hrange⟩ := hopen
  have hheld : s.bs.count.toNat ≤ 7 := by
    have hmax := hlegal.1
    rwa [hmode, bsCountMax] at hmax
  have hlimit := s.bs.limit.isLt
  obtain ⟨hmode', hbase', hlimit', -, hcount, hcursor, hless, hbits⟩ := bsPutAll_spec items s.bs (by omega) hlegal.2
  have hlength : (bsPutAll items s.bs).2.length = (s.bs.count.toNat + itemBits items) / 8 := by
    have := hless (.inr (by omega))
    omega
  refine ⟨_, exec_blkEncode_items ⟨hmode, hrange⟩ hitems hroom, completed_succeed rfl, rfl, rfl,
    Vector.getElem_set_self _, fun c' hc => Vector.getElem_set_ne c.isLt c'.isLt (Fin.val_ne_of_ne hc.symm),
    hcursor.trans (by rw [hlength]), ?_, bsLegal_bsPutAll hmode hlegal (decide_eq_true hroom),
    memSameOutside_memWrite rfl hlength, ?_⟩
  · exact hbits.trans (congrArg (fun l => byteBits l ++ _) (memBytes_memWrite hlength).symm)
  · have hupdate := Bs.eq_update hmode' hbase' hlimit'
    exact congrArg (fun b => succeed (setResults _ (bsPutAll items s.bs).1.cursor
      { emit s.bs b (bsPutAll items s.bs).2 s with dcpred := s.dcpred.set c s.blk[0] })) hupdate

end Sys2Proof.Machine
end

section
/-! PROOFS. The transforms, the zigzag order and the level shifts (42_transform.md R72 to R79): each entry of the block
a command leaves. -/

namespace Sys2Proof.Machine

/-! ### The entries of a block -/

theorem getElem_blkOf (f : Nat → Nat → Int) (i : Fin 64) : (blkOf f)[i] = s32 (f (i / 8) (i % 8)) :=
  Vector.getElem_ofFn ..

theorem getElem_blkMap (f : Int → Int) (b : Block) (i : Fin 64) : (blkMap f b)[i] = s32 (f b[i].toInt) :=
  Vector.getElem_ofFn ..

theorem getElem_blkOf_rowCol (f : Nat → Nat → Int) (y x : Fin 8) :
    (blkOf f)[Fin.ofNat 64 (8 * y.val + x.val)] = s32 (f y x) := by
  have hval : (Fin.ofNat 64 (8 * y.val + x.val)).val = 8 * y.val + x.val := Nat.mod_eq_of_lt (by omega)
  have hrow : (8 * y.val + x.val) / 8 = y := by omega
  have hcol : (8 * y.val + x.val) % 8 = x := by omega
  rw [getElem_blkOf, hval, hrow, hcol]

/-! ### The transforms -/

theorem sum8_eq_sum (f : Nat → Int) : sum8 f = ∑ i : Fin 8, f i := (Fin.sum_univ_eight fun i : Fin 8 => f i).symm

/-- Two passes, one sum inside the other, are the double sum of the products. -/
theorem sum8_mul_sum8 (a c : Nat → Int) (f : Nat → Nat → Int) :
    sum8 (fun i => a i * sum8 fun j => c j * f i j) = ∑ i : Fin 8, ∑ j : Fin 8, a i * c j * f i j := by
  simp only [sum8_eq_sum, Finset.mul_sum, mul_assoc]

theorem fdctSum_eq (b : Block) (v u : Nat) :
    fdctSum b v u = ∑ y : Fin 8, ∑ x : Fin 8, kmat v y * kmat u x * blkAt b y x :=
  sum8_mul_sum8 (kmat v) (kmat u) (blkAt b)

theorem idctSum_eq (b : Block) (y x : Nat) :
    idctSum b y x = ∑ v : Fin 8, ∑ u : Fin 8, kmat v y * kmat u x * blkAt b v u :=
  sum8_mul_sum8 (kmat · y) (kmat · x) (blkAt b)

theorem dctRound_eq (v : Int) : dctRound v = (v + 2 ^ 29) / 2 ^ 30 := rfl

theorem getElem_fdctBlock (b : Block) (v u : Fin 8) : (fdctBlock b)[Fin.ofNat 64 (8 * v.val + u.val)] =
    s32 ((∑ y : Fin 8, ∑ x : Fin 8, kmat v y * kmat u x * blkAt b y x + 2 ^ 29) / 2 ^ 30) := by
  rw [fdctBlock, getElem_blkOf_rowCol, dctRound_eq, fdctSum_eq]

theorem getElem_idctBlock (b : Block) (y x : Fin 8) : (idctBlock b)[Fin.ofNat 64 (8 * y.val + x.val)] =
    s32 ((∑ v : Fin 8, ∑ u : Fin 8, kmat v y * kmat u x * blkAt b v u + 2 ^ 29) / 2 ^ 30) := by
  rw [idctBlock, getElem_blkOf_rowCol, dctRound_eq, idctSum_eq]

/-- Settles O39: the two passes are one double sum (`sum8_mul_sum8`), rounded once. -/
theorem transformsAreExactDoubleSums : Obligations.TransformsAreExactDoubleSums := by
  refine ⟨decode_encode (i := .fdct) rfl, decode_encode (i := .idct) rfl, fun s => ⟨?_, ?_⟩⟩
  · exact ⟨_, rfl, completed_succeed rfl, getElem_fdctBlock s.blk, rfl⟩
  · exact ⟨_, rfl, completed_succeed rfl, getElem_idctBlock s.blk, rfl⟩

/-! ### A constant block -/

theorem sum8_kmat_zero : sum8 (kmat 0) = 92680 := rfl

/-- Each row of KMAT but the first sums to 0 (R72). -/
theorem sum8_kmat_of_ne_zero : ∀ u < 8, u ≠ 0 → sum8 (kmat u) = 0 := by decide

/-- On a constant block the double sum is a product of two row sums of KMAT. -/
theorem fdctSum_constant {b : Block} {c : Int} (hb : ∀ i : Fin 64, b[i].toInt = c) (v u : Nat) :
    fdctSum b v u = sum8 (kmat v) * sum8 (kmat u) * c := by
  simp only [fdctSum_eq, blkAt, hb, sum8_eq_sum, ← Finset.sum_mul, ← Finset.mul_sum]

/-- 92680 squared differs from 8 times 2^30 by less than 2^29 / 128, so the rounding of a sample's DC term is exact. -/
theorem dctRound_dc {c : Int} (hlo : -128 ≤ c) (hhi : c ≤ 127) : dctRound (92680 * 92680 * c) = 8 * c := by
  rw [dctRound_eq]
  omega

theorem getElem_fdctBlock_constant {b : Block} {c : Int} (hb : ∀ i : Fin 64, b[i].toInt = c) (i : Fin 64) :
    (fdctBlock b)[i] = s32 (dctRound (sum8 (kmat (i / 8)) * sum8 (kmat (i % 8)) * c)) := by
  rw [fdctBlock, getElem_blkOf, fdctSum_constant hb]

/-- Settles O40: every entry but the first has a factor that is the sum of a later row of KMAT, which is 0. -/
theorem constantBlockHasOnlyDc : Obligations.ConstantBlockHasOnlyDc := by
  intro s c hlo hhi hconst
  have hentry := getElem_fdctBlock_constant hconst
  refine ⟨_, rfl, ?_, fun i hi => (hentry i).trans ?_⟩
  · have hdc : (fdctBlock s.blk)[(0 : Fin 64)] = s32 (8 * c) := by
      rw [hentry 0, ← dctRound_dc hlo hhi, ← sum8_kmat_zero]
      rfl
    exact (congrArg BitVec.toInt hdc).trans (toInt_s32_small (by omega) (by omega))
  · have hfactor : sum8 (kmat (i / 8)) * sum8 (kmat (i % 8)) = 0 := by
      obtain hrow | hcol : i.val / 8 ≠ 0 ∨ i.val % 8 ≠ 0 := by
        have := Fin.val_ne_of_ne hi
        omega
      · rw [sum8_kmat_of_ne_zero _ (by omega) hrow, zero_mul]
      · rw [sum8_kmat_of_ne_zero _ (by omega) hcol, mul_zero]
    rw [hfactor, zero_mul]
    rfl

/-! ### The zigzag order -/

@[simp] theorem zz_zzInv : ∀ i : Fin 64, zz (zzInv i) = i := by decide

@[simp] theorem zzInv_zz : ∀ k : Fin 64, zzInv (zz k) = k := by decide

theorem getElem_zigzagBlock (b : Block) (k : Fin 64) : (zigzagBlock b)[k] = b[zz k] := Vector.getElem_ofFn ..

theorem getElem_unzigzagBlock (z : Block) (i : Fin 64) : (unzigzagBlock z)[i] = z[zzInv i] := Vector.getElem_ofFn ..

theorem getElem_unzigzagBlock_zz (z : Block) (k : Fin 64) : (unzigzagBlock z)[zz k] = z[k] := by
  simp only [getElem_unzigzagBlock, zzInv_zz]

/-- Blocks with the same entries are the same block. -/
theorem block_ext {b b' : Block} (h : ∀ i : Fin 64, b[i] = b'[i]) : b = b' :=
  Vector.ext fun i hi => h ⟨i, hi⟩

theorem unzigzagBlock_zigzagBlock (b : Block) : unzigzagBlock (zigzagBlock b) = b :=
  block_ext fun i => by simp only [getElem_unzigzagBlock, getElem_zigzagBlock, zz_zzInv]

theorem zigzagBlock_unzigzagBlock (z : Block) : zigzagBlock (unzigzagBlock z) = z :=
  block_ext fun k => by rw [getElem_zigzagBlock, getElem_unzigzagBlock_zz]

/-- The block whose entry i is i (R76's example). -/
def indexBlock : Block := Vector.ofFn fun i => BitVec.ofNat 32 i

/-- ZZ[ZZ[2]] is 17, so ZIGZAG twice moves the entry 17 to place 2. -/
theorem zigzag_twice_indexBlock : zigzagBlock (zigzagBlock indexBlock) ≠ indexBlock := by
  intro h
  have htwo : indexBlock[zz (zz 2)] = indexBlock[(2 : Fin 64)] := by
    rw [← getElem_zigzagBlock, ← getElem_zigzagBlock, h]
  exact absurd htwo (by decide)

/-- Settles O41: ZZ and `zzInv` undo each other; `indexBlock` shows that ZIGZAG does not undo itself. -/
theorem zigzagAndItsInverse : Obligations.ZigzagAndItsInverse := by
  refine ⟨decode_encode (i := .zigzag) rfl, decode_encode (i := .unzigzag) rfl, fun s => ⟨?_, ?_⟩, ?_⟩
  · exact ⟨_, rfl, completed_succeed rfl, getElem_zigzagBlock s.blk, rfl, _, rfl, unzigzagBlock_zigzagBlock s.blk⟩
  · exact ⟨_, rfl, completed_succeed rfl, getElem_unzigzagBlock_zz s.blk, rfl, _, rfl,
      zigzagBlock_unzigzagBlock s.blk⟩
  · exact ⟨{ State.reset with blk := indexBlock }, _, _, rfl, rfl, zigzag_twice_indexBlock⟩

/-! ### The level shifts -/

theorem clamp_eq_max_min {v lo hi : Int} (h : lo ≤ hi) : clamp v lo hi = max lo (min hi v) := by
  rw [clamp]
  split_ifs <;> omega

theorem clamp_bounds (v : Int) {lo hi : Int} (h : lo ≤ hi) : lo ≤ clamp v lo hi ∧ clamp v lo hi ≤ hi := by
  rw [clamp]
  split_ifs <;> omega

/-- A value clamped to a small range is stored as it is. -/
theorem toInt_s32_clamp (v : Int) {lo hi : Int} (h : lo ≤ hi) (hlo : -65536 ≤ lo) (hhi : hi ≤ 65536) :
    (s32 (clamp v lo hi)).toInt = max lo (min hi v) := by
  obtain ⟨hge, hle⟩ := clamp_bounds v h
  rw [toInt_s32_small (hlo.trans hge) (hle.trans hhi), clamp_eq_max_min h]

theorem s32_toInt_add_levelShift (w : Word) : s32 (w.toInt + levelShift) = w + 128 := by
  rw [s32, BitVec.ofInt_add, BitVec.ofInt_toInt]
  rfl

theorem s32_toInt_sub_levelShift (w : Word) : s32 (w.toInt - levelShift) = w - 128 := by
  rw [s32, sub_eq_add_neg, BitVec.ofInt_add, BitVec.ofInt_neg, BitVec.ofInt_toInt, ← BitVec.sub_eq_add_neg]
  rfl

/-- Settles O42, kind by kind, entry by entry. -/
theorem levelShiftsByKind : Obligations.LevelShiftsByKind := by
  refine ⟨decode_encode (i := .shiftClamp .luminance) rfl, decode_encode (i := .shiftClamp .chrominance) rfl,
    decode_encode (i := .unshift .luminance) rfl, decode_encode (i := .unshift .chrominance) rfl, fun s k =>
    ⟨⟨_, rfl, completed_succeed rfl, fun i => ?_, rfl⟩, ⟨_, rfl, completed_succeed rfl, fun i => ?_, rfl⟩⟩⟩
  · refine (congrArg BitVec.toInt (getElem_blkMap (shiftClampValue k) s.blk i)).trans ?_
    cases k with
    | luminance =>
      rw [shiftClampValue, s32_toInt_add_levelShift]
      exact toInt_s32_clamp _ (by decide) (by decide) (by decide)
    | chrominance => exact toInt_s32_clamp _ (by decide) (by decide) (by decide)
  · refine (getElem_blkMap (unshiftValue k) s.blk i).trans ?_
    cases k with
    | luminance => exact s32_toInt_sub_levelShift _
    | chrominance => exact s32_toInt _

end Sys2Proof.Machine
end

section
/-! PROOFS. The quantizer (43_quantizer.md R82 to R86): the entries of a scale table, the least of them, and rounding
half up as two inequalities. -/

namespace Sys2Proof.Machine

/-! ### The least entry of a scale table -/

/-- `tableMin` is the least of its starting value and the entries. -/
theorem min?_entries_eq_tableMin (t : Vector (BitVec 15) 64) :
    ((2 ^ 15 - 1) :: t.toList.map BitVec.toNat).min? = some (tableMin t) := by
  rw [List.min?_cons', List.foldl_map, tableMin]

theorem tableMin_le (t : Vector (BitVec 15) 64) (i : Fin 64) : tableMin t ≤ t[i].toNat :=
  (List.min?_eq_some_iff.mp (min?_entries_eq_tableMin t)).2 _
    (List.mem_cons_of_mem _ (List.mem_map_of_mem (Vector.mem_toList_iff.mpr (Vector.getElem_mem i.isLt))))

/-- The starting value is the greatest 15-bit value, so the least is always an entry. -/
theorem exists_entry_eq_tableMin (t : Vector (BitVec 15) 64) : ∃ i : Fin 64, tableMin t = t[i].toNat := by
  rcases List.mem_cons.mp (List.min?_eq_some_iff.mp (min?_entries_eq_tableMin t)).1 with hstart | hentry
  · have hle := tableMin_le t 0
    exact ⟨0, by omega⟩
  · obtain ⟨e, he, hmin⟩ := List.mem_map.mp hentry
    obtain ⟨i, hi, rfl⟩ := Vector.getElem_of_mem (Vector.mem_toList_iff.mp he)
    exact ⟨⟨i, hi⟩, hmin.symm⟩

/-! ### Q_ADJUST -/

/-- The table Q_ADJUST builds from the base table of kind k and channel c's quality factor (R83). -/
def adjustTable (c : Channel) (k : Kind) (s : State) : Vector (BitVec 15) 64 :=
  scaleTable s.qbase[kindIndex k] s.chCfg[c].quality.toNat

/-- What Q_ADJUST writes before it completes (R83). -/
def adjusted (c : Channel) (k : Kind) (s : State) : State :=
  setResults (u32 (adjustTable c k s)[0].toNat) (u32 (tableMin (adjustTable c k s)))
    { s with qt := s.qt.set c (adjustTable c k s) }

section Adjusted
variable (c : Channel) (k : Kind) (s : State)

theorem getElem_adjusted_qt : (succeed (adjusted c k s)).qt[c] = adjustTable c k s := Vector.getElem_set_self _

theorem toNat_adjusted_result0 : (succeed (adjusted c k s)).result0.toNat = (adjustTable c k s)[0].toNat :=
  toNat_u32_toNat _ (by decide)

theorem toNat_adjusted_result1 : (succeed (adjusted c k s)).result1.toNat = tableMin (adjustTable c k s) := by
  have hle := tableMin_le (adjustTable c k s) 0
  exact toNat_u32 (by omega)

end Adjusted

theorem qualityOk_iff {cfg : ChCfg} : qualityOk cfg = true ↔ cfg.quality.toNat ≤ 100 := decide_eq_true_iff

theorem exec_qAdjust {c : Channel} {k : Kind} {s : State} (h : s.chCfg[c].quality.toNat ≤ 100) :
    exec (.qAdjust c k) s = .next (succeed (adjusted c k s)) := exec_of_check rfl (qualityOk_iff.mpr h)

/-- Settles O43: the entries are `toNat_scaleTable`'s, and RESULT1 is the `tableMin` of the table set. -/
theorem qAdjustBuildsOneScaleTable : Obligations.QAdjustBuildsOneScaleTable := by
  refine ⟨fun c => ⟨decode_encode (i := .qAdjust c .luminance) rfl, decode_encode (i := .qAdjust c .chrominance) rfl⟩,
    fun s c k => ⟨fun hquality => ⟨_, exec_qAdjust hquality, completed_succeed rfl, ?_, fun c' hc => ?_, ?_, ?_, ?_,
      rfl⟩, fun hquality => ?_⟩⟩
  · rw [getElem_adjusted_qt]
    exact toNat_scaleTable _ _
  · exact Vector.getElem_set_ne c.isLt c'.isLt (Fin.val_ne_of_ne hc.symm)
  · rw [getElem_adjusted_qt, toNat_adjusted_result0]
  · rw [getElem_adjusted_qt, toNat_adjusted_result1]
    exact exists_entry_eq_tableMin _
  · rw [getElem_adjusted_qt, toNat_adjusted_result1]
    exact tableMin_le _
  · exact exec_of_failed_check (b := qualityOk s.chCfg[c]) rfl (mt qualityOk_iff.mp (by omega))

/-! ### Rounding half up -/

/-- q is a / b rounded half up, for b > 0 (R9). -/
def RoundsHalfUp (a b q : Int) : Prop := 2 * b * q ≤ 2 * a + b ∧ 2 * a + b < 2 * b * (q + 1)

theorem rdiv_roundsHalfUp (a : Int) {b : Int} (hb : 0 < b) : RoundsHalfUp a b (rdiv a b) := by
  have hpos : 0 < 2 * b := by omega
  exact ⟨Int.mul_ediv_self_le hpos.ne', (Int.lt_mul_ediv_self_add hpos).trans_eq (mul_add_one _ _).symm⟩

/-- A quotient by a scale of at least 1 stays a 32-bit value (R84). -/
theorem rdiv_scale_bounds (w : Word) {scale : Int} (h : 100 ≤ scale) :
    -(2 ^ 31) ≤ rdiv (100 * w.toInt) scale ∧ rdiv (100 * w.toInt) scale < 2 ^ 31 := by
  have hpos : 0 < 2 * scale := by omega
  have hlo : -(2 ^ 31) ≤ w.toInt := BitVec.le_toInt w
  have hhi : w.toInt < 2 ^ 31 := BitVec.toInt_lt
  exact ⟨(Int.le_ediv_iff_mul_le hpos).mpr (by omega), (Int.ediv_lt_iff_lt_mul hpos).mpr (by omega)⟩

theorem toInt_s32_of_bounds {v : Int} (hlo : -(2 ^ 31) ≤ v) (hhi : v < 2 ^ 31) : (s32 v).toInt = v :=
  BitVec.toInt_ofInt_eq_self (by decide) hlo hhi

/-- Dividing by the scale and multiplying by it again, each rounded half up, moves v by at most half a scale plus one
half (R86). -/
theorem RoundsHalfUp.round_trip {v scale q r : Int} (hquant : RoundsHalfUp (100 * v) scale q)
    (hdequant : RoundsHalfUp (q * scale) 100 r) :
    200 * (r - v) ≤ scale + 100 ∧ 200 * (v - r) ≤ scale + 100 := by
  obtain ⟨hquantLe, hquantLt⟩ := hquant
  obtain ⟨hdequantLe, hdequantLt⟩ := hdequant
  constructor <;> linarith

/-! ### QUANT and DEQUANT -/

section Entries
variable {qt : Vector (BitVec 15) 64} {i : Fin 64} (b : Block)

/-- An entry of QUANT is the quotient itself: the wrap to 32 bits never changes it (R84). -/
theorem quantBlock_roundsHalfUp (hscale : 100 ≤ qt[i].toNat) :
    RoundsHalfUp (100 * b[i].toInt) qt[i].toNat (quantBlock qt b)[i].toInt := by
  have hentry : (quantBlock qt b)[i] = s32 (rdiv (100 * b[i].toInt) qt[i].toNat) := Vector.getElem_ofFn ..
  obtain ⟨hlo, hhi⟩ := rdiv_scale_bounds b[i] (Int.ofNat_le.mpr hscale)
  rw [hentry, toInt_s32_of_bounds hlo hhi]
  exact rdiv_roundsHalfUp _ (by omega)

/-- An entry of DEQUANT is the rounded product, wrapped to 32 bits (R85). -/
theorem exists_dequantBlock_roundsHalfUp (qt : Vector (BitVec 15) 64) (i : Fin 64) :
    ∃ r, (dequantBlock qt b)[i] = s32 r ∧ RoundsHalfUp (b[i].toInt * qt[i].toNat) 100 r :=
  ⟨_, Vector.getElem_ofFn .., rdiv_roundsHalfUp _ (by decide)⟩

end Entries

/-- Settles O44: QUANT's entries by `quantBlock_roundsHalfUp`, DEQUANT's by the quotient before it wraps. -/
theorem quantAndDequantRoundHalfUp : Obligations.QuantAndDequantRoundHalfUp := by
  refine ⟨fun c => ⟨decode_encode (i := .quant c) rfl, decode_encode (i := .dequant c) rfl⟩, fun s c hscales =>
    ⟨⟨_, rfl, completed_succeed rfl, fun i => ?_, rfl⟩, ⟨_, rfl, completed_succeed rfl, fun i => ?_, rfl⟩⟩⟩
  · obtain ⟨hle, hlt⟩ := quantBlock_roundsHalfUp s.blk (hscales c i).1
    rw [mul_right_comm, mul_right_comm 2 (_ + 1)]
    exact ⟨hle.trans_eq (by ring), hlt.trans_eq' (by ring)⟩
  · obtain ⟨r, hentry, hle, hlt⟩ := exists_dequantBlock_roundsHalfUp s.blk s.qt[c] i
    rw [mul_assoc]
    exact ⟨r, hentry, hle, hlt⟩

/-- Settles O45: the two roundings together keep the result within 128 of the entry, so DEQUANT does not wrap. -/
theorem quantisingLosesHalfAStep : Obligations.QuantisingLosesHalfAStep := by
  intro s c hscales
  refine ⟨_, _, rfl, rfl, fun i hlo hhi => ?_⟩
  obtain ⟨hmin, hmax⟩ := hscales c i
  obtain ⟨r, hentry, hround⟩ := exists_dequantBlock_roundsHalfUp (quantBlock s.qt[c] s.blk) s.qt[c] i
  obtain ⟨hup, hdown⟩ := (quantBlock_roundsHalfUp s.blk hmin).round_trip hround
  have hresult : (dequantBlock s.qt[c] (quantBlock s.qt[c] s.blk))[i].toInt = r := by
    rw [hentry, toInt_s32_of_bounds (by omega) (by omega)]
  calc 200 * |(dequantBlock s.qt[c] (quantBlock s.qt[c] s.blk))[i].toInt - s.blk[i].toInt|
      = 200 * |r - s.blk[i].toInt| := by rw [hresult]
    _ ≤ s.qt[c][i].toNat + 100 := by
      rcases abs_cases (r - s.blk[i].toInt) with ⟨habs, -⟩ | ⟨habs, -⟩ <;> omega

end Sys2Proof.Machine
end

section
/-! PROOFS. The box-filter samplers (44_sampler.md R87 to R90): the samples of a stored plane, what both commands
leave, and the two filters cell by cell. -/

namespace Sys2Proof.Machine

/-! ### The checks -/

theorem samplerOk_iff {srcLen dstLen : Nat} {s : State} :
    samplerOk srcLen dstLen s = true ↔ SamplerPasses srcLen dstLen s := by
  simp only [samplerOk, SamplerPasses, Bool.and_eq_true, Bool.or_eq_true, beq_iff_eq, rangeOk_iff,
    not_rangesOverlap_iff, and_assoc]

/-! ### The samples of a stored plane -/

/-- The two bytes a 16-bit value is stored in, put together again. -/
theorem highByte_append_lowByte (v : BitVec 16) : (v >>> 8).setWidth 8 ++ v.setWidth 8 = v := by
  refine BitVec.eq_of_getLsbD_eq fun i hi => ?_
  rw [BitVec.getLsbD_append]
  by_cases hlow : i < 8
  · simp [hlow]
  · simp [hlow, show i - 8 < 8 by omega, show 8 + (i - 8) = i by omega]

theorem memRead16_of_memBytes {m : Memory} {a : Nat} {v : BitVec 16} (h : memBytes m a 2 = bytes16 v) :
    memRead16 m a = v := by
  rw [memBytes_succ, memBytes_succ, bytes16, List.cons.injEq, List.cons.injEq] at h
  obtain ⟨hlow, hhigh, -⟩ := h
  rw [memRead16, hlow, hhigh]
  exact highByte_append_lowByte v

@[simp] theorem length_bytes16 (v : BitVec 16) : (bytes16 v).length = 2 := rfl

/-- The two bytes of sample n stand at twice its place. -/
theorem getElem?_planeBytes {l : List Int} {n : Nat} {v : Int} (h : l[n]? = some v) {k : Nat} (hk : k < 2) :
    (planeBytes l)[2 * n + k]? = (bytes16 (BitVec.ofInt 16 v))[k]? := by
  induction l generalizing n with
  | nil => cases h
  | cons w l ih =>
    cases n with
    | zero =>
      cases h
      rw [planeBytes, List.flatMap_cons, mul_zero, zero_add, List.getElem?_append_left hk]
    | succ n =>
      rw [show 2 * (n + 1) + k = (2 * n + k) + 2 by ring]
      exact ih h

theorem ld16_memWrite_planeBytes {l : List Int} {n : Nat} {v : Int} (h : l[n]? = some v) (m : Memory) (base : Nat) :
    ld16 (memWrite base (planeBytes l) m) base n = (BitVec.ofInt 16 v).toInt := by
  have hn : n < l.length := (List.getElem?_eq_some_iff.mp h).1
  have hbytes : memBytes (memWrite base (planeBytes l) m) (base + 2 * n) 2 = bytes16 (BitVec.ofInt 16 v) :=
    memBytes_memWrite_part m base _ _ (bytes16 _) (by rw [length_planeBytes, length_bytes16]; omega)
      fun _ => getElem?_planeBytes h
  rw [ld16, memRead16_of_memBytes hbytes]

theorem getElem?_planeOf {w h x y : Nat} (f : Nat → Nat → Int) (hx : x < w) (hy : y < h) :
    (planeOf w h f)[y * w + x]? = some (f x y) := by
  rw [planeOf, getElem?_flatMap_range h w _ (fun y => by simp) y x hy hx, List.getElem?_map, List.getElem?_range hx,
    Option.map_some]

theorem ld16_bounds (m : Memory) (base n : Nat) : -(2 ^ 15) ≤ ld16 m base n ∧ ld16 m base n < 2 ^ 15 :=
  ⟨BitVec.le_toInt _, BitVec.toInt_lt⟩

/-! ### What both commands leave -/

/-- s with a w × h plane stored at ARG1 and its number of samples in RESULT0, before the command completes (R88,
R89). -/
def storePlane (w h : Nat) (f : Nat → Nat → Int) (s : State) : State :=
  setResults (u32 (w * h)) 0 { s with mem := memWrite s.arg1.toNat (planeBytes (planeOf w h f)) s.mem }

section StorePlane
variable {w h : Nat} (f : Nat → Nat → Int) (s : State)

theorem toNat_storePlane_result0 (hw : w < 2 ^ 16) (hh : h < 2 ^ 16) :
    (succeed (storePlane w h f s)).result0.toNat = w * h :=
  toNat_u32 (calc
    w * h < 2 ^ 16 * 2 ^ 16 := Nat.mul_lt_mul'' hw hh
    _ = 2 ^ 32 := rfl)

theorem memSameOutside_storePlane :
    MemSameOutside s.arg1.toNat (2 * (w * h)) s (succeed (storePlane w h f s)) :=
  memSameOutside_memWrite rfl (by rw [length_planeBytes, length_planeOf, mul_comm h])

/-- A 16-bit value of the plane is read back from its place. -/
theorem ld16_storePlane {x y : Nat} (hx : x < w) (hy : y < h) (hlo : -(2 ^ 15) ≤ f x y) (hhi : f x y < 2 ^ 15) :
    ld16 (succeed (storePlane w h f s)).mem s.arg1.toNat (y * w + x) = f x y :=
  (ld16_memWrite_planeBytes (getElem?_planeOf f hx hy) _ _).trans
    (BitVec.toInt_ofInt_eq_self (by decide) hlo hhi)

end StorePlane

/-! ### UPSAMPLE -/

theorem exec_upsample {s : State} (h : Passes .upsample s) :
    exec .upsample s = .next (succeed (storePlane s.width.toNat s.height.toNat (upsampled s) s)) :=
  exec_of_check (b := upsampleOk s) rfl (samplerOk_iff.mpr h)

theorem ld16_upsample (s : State) {x y : Nat} (hx : x < s.width.toNat) (hy : y < s.height.toNat) :
    ld16 (succeed (storePlane s.width.toNat s.height.toNat (upsampled s) s)).mem s.arg1.toNat
      (y * s.width.toNat + x) = upsampled s x y :=
  have ⟨hlo, hhi⟩ := ld16_bounds s.mem s.arg0.toNat (y / 2 * (s.width.toNat / 2) + x / 2)
  ld16_storePlane _ _ hx hy hlo hhi

/-- The four samples of a cell of the destination are the cell's source sample (R88). -/
theorem upsampled_cell (s : State) {x y i j : Nat} (hi : i < 2) (hj : j < 2) :
    upsampled s (2 * x + i) (2 * y + j) = ld16 s.mem s.arg0.toNat (y * (s.width.toNat / 2) + x) := by
  rw [upsampled, show (2 * x + i) / 2 = x by omega, show (2 * y + j) / 2 = y by omega]

/-- Settles O46: the plane stored is `upsampled`, whose every value is a sample and so fits 16 bits. -/
theorem upsampleReplicates : Obligations.UpsampleReplicates := by
  refine ⟨decode_encode (i := .upsample) rfl, fun s => ⟨fun hpasses => ⟨_, exec_upsample hpasses,
    completed_succeed rfl, fun x y => ld16_upsample s, ?_, rfl, ?_, rfl⟩, fun hfails => ?_⟩⟩
  · exact toNat_storePlane_result0 _ _ s.width.isLt s.height.isLt
  · rw [mul_assoc]
    exact memSameOutside_storePlane _ _
  · exact exec_of_failed_check (b := upsampleOk s) rfl (mt samplerOk_iff.mp hfails)

/-! ### DOWNSAMPLE -/

theorem exec_downsample {s : State} (h : Passes .downsample s) : exec .downsample s =
    .next (succeed (storePlane (s.width.toNat / 2) (s.height.toNat / 2) (downsampled s) s)) :=
  exec_of_check (b := downsampleOk s) rfl (samplerOk_iff.mpr h)

theorem tdiv_four_bounds {n : Int} (hlo : 4 * -(2 ^ 15) ≤ n) (hhi : n < 4 * 2 ^ 15) :
    -(2 ^ 15) ≤ tdiv n 4 ∧ tdiv n 4 < 2 ^ 15 :=
  ⟨Int.tdiv_le_tdiv (by decide) hlo,
    Int.lt_of_le_sub_one (Int.tdiv_le_tdiv (by decide) (Int.le_sub_one_of_lt hhi))⟩

/-- The average of four samples is a 16-bit value, so storing it does not wrap (R89). -/
theorem downsampled_bounds (s : State) (x y : Nat) :
    -(2 ^ 15) ≤ downsampled s x y ∧ downsampled s x y < 2 ^ 15 := by
  have hsample := ld16_bounds s.mem s.arg0.toNat
  have h00 := hsample (2 * y * s.width.toNat + 2 * x)
  have h10 := hsample (2 * y * s.width.toNat + (2 * x + 1))
  have h01 := hsample ((2 * y + 1) * s.width.toNat + 2 * x)
  have h11 := hsample ((2 * y + 1) * s.width.toNat + (2 * x + 1))
  exact tdiv_four_bounds (by linarith) (by linarith)

theorem ld16_downsample (s : State) {x y : Nat} (hx : x < s.width.toNat / 2) (hy : y < s.height.toNat / 2) :
    ld16 (succeed (storePlane (s.width.toNat / 2) (s.height.toNat / 2) (downsampled s) s)).mem s.arg1.toNat
      (y * (s.width.toNat / 2) + x) = downsampled s x y :=
  have ⟨hlo, hhi⟩ := downsampled_bounds s x y
  ld16_storePlane _ _ hx hy hlo hhi

/-- Settles O47: the plane stored is `downsampled`, and `tdiv_four` is the truncation. -/
theorem downsampleAverages : Obligations.DownsampleAverages := by
  refine ⟨decode_encode (i := .downsample) rfl, fun s => ⟨fun hpasses => ⟨_, exec_downsample hpasses,
    completed_succeed rfl, ?_, ?_, rfl, ?_, rfl⟩, fun hfails => ?_⟩⟩
  · rintro x y hx hy _ _ rfl rfl
    rw [ld16_downsample s hx hy]
    exact tdiv_four _
  · exact toNat_storePlane_result0 _ _ (by omega) (by omega)
  · obtain ⟨hw, hh, -⟩ := hpasses
    have hlength : quarterPlaneLen s = 2 * (s.width.toNat / 2 * (s.height.toNat / 2)) :=
      quarterPlaneLen_even (by omega) (by omega)
    rw [← quarterPlaneLen, hlength]
    exact memSameOutside_storePlane _ _
  · exact exec_of_failed_check (b := downsampleOk s) rfl (mt samplerOk_iff.mp hfails)

/-! ### DOWNSAMPLE after UPSAMPLE -/

/-- The average of a cell of four equal samples is the sample (R90). -/
theorem downsampled_of_constant_cell {s : State} {x y : Nat} {v : Int}
    (h : ∀ i < 2, ∀ j < 2, ld16 s.mem s.arg0.toNat ((2 * y + j) * s.width.toNat + (2 * x + i)) = v) :
    downsampled s x y = v := by
  have hcell : downsampled s x y = tdiv (v + v + v + v) 4 := by
    have h00 := h 0 (by decide) 0 (by decide)
    have h10 := h 1 (by decide) 0 (by decide)
    have h01 := h 0 (by decide) 1 (by decide)
    have h11 := h 1 (by decide) 1 (by decide)
    simp only [add_zero] at h00 h10 h01
    simp only [downsampled, h00, h10, h01, h11]
  rw [hcell, show v + v + v + v = v * 4 by ring]
  exact Int.mul_tdiv_cancel v (by decide)

/-- Each of a · b items is item (x, y) of a plane of a × b items in row-major order. -/
theorem exists_rowMajor {n a b : Nat} (h : n < a * b) : ∃ x y, x < a ∧ y < b ∧ y * a + x = n :=
  ⟨n % a, n / a, Nat.mod_lt _ (Nat.pos_of_mul_pos_right (Nat.zero_lt_of_lt h)), Nat.div_lt_of_lt_mul h,
    Nat.div_add_mod' n a⟩

section Upsampled
variable {s r : State} (hwidth : r.width = s.width) (hheight : r.height = s.height)
  (hplane : ∀ x y, x < s.width.toNat → y < s.height.toNat →
    ld16 r.mem r.arg0.toNat (y * s.width.toNat + x) = upsampled s x y)

include hwidth hplane

/-- Where r's source plane is s upsampled, a cell's average is the sample of s the cell was filled with. -/
theorem downsampled_of_upsampled {x y : Nat} (hx : x < s.width.toNat / 2) (hy : y < s.height.toNat / 2) :
    downsampled r x y = ld16 s.mem s.arg0.toNat (y * (s.width.toNat / 2) + x) := by
  refine downsampled_of_constant_cell fun i hi j hj => ?_
  rw [hwidth, hplane _ _ (by omega) (by omega), upsampled_cell s hi hj]

include hheight

theorem downsample_of_upsampled (hpasses : Passes .downsample r) : ∃ u, exec .downsample r = .next u ∧
    ∀ n < s.width.toNat / 2 * (s.height.toNat / 2), ld16 u.mem r.arg1.toNat n = ld16 s.mem s.arg0.toNat n := by
  refine ⟨_, exec_downsample hpasses, fun n hn => ?_⟩
  obtain ⟨x, y, hx, hy, rfl⟩ := exists_rowMajor hn
  rw [← downsampled_of_upsampled hwidth hplane hx hy]
  rw [← hwidth] at hx ⊢
  rw [← hheight] at hy
  exact ld16_downsample r hx hy

end Upsampled

/-- Settles O48: each cell DOWNSAMPLE averages is one UPSAMPLE filled with the sample. -/
theorem downsampleUndoesUpsample : Obligations.DownsampleUndoesUpsample := by
  intro s t a hup hexec hdown
  cases (exec_upsample hup).symm.trans hexec
  exact downsample_of_upsampled (r := { succeed _ with arg0 := _, arg1 := a }) rfl rfl
    (fun _ _ => ld16_upsample s) hdown

end Sys2Proof.Machine
end

section
/-! PROOFS. DECODE_IMAGE of a source that holds the coded blocks of the image (45_compose.md R91, R95; 47_image.md R105
to R108). -/

namespace Sys2Proof.Machine

theorem variantTable : VariantTable := by
  intro v c _
  refine ⟨rfl, ?_, ?_, rfl⟩
  · rw [variantKind]
    by_cases hv : v = 2
    · rw [if_pos hv, if_neg (fun h => h.1 hv)]
    · rw [if_neg hv]
      simp only [ne_eq, hv, not_false_eq_true, true_and]
  · simp [variantSub]

theorem hostSideSame_decodedState (s : State) (p : DecPass) : HostSideSame s (decodedState s p) := by
  refine HostSideSame.trans ?_ (hostSideSame_leaveScratch _)
  constructor <;> simp

/-- A stream just opened for reading holds the bits of its source, and none of them in its buffer. -/
theorem streamBits_bsOpen (m : Memory) (base limit : Word) :
    streamBits m (bsOpen .reading base limit) = byteBits (memBytes m base.toNat limit.toNat) := rfl

theorem bufOk_bsOpen (mode : BsMode) (base limit : Word) : BufOk (bsOpen mode base limit) := by
  simp [BufOk, bsOpen]

/-- What the decode pass leaves over a source that begins with the bits of the coded blocks zs: no block underran, and
the reader has taken those bits, with less than a byte of its pulls still buffered (R108). -/
structure DecDone (s : State) (zs : List (BlockPos × Block)) (items : List (Nat × Nat)) (q : DecPass) : Prop where
  firstBad : q.firstBad = none
  n        : q.n = zs.length
  pred     : q.pred = lastDc (Vector.replicate 4 0) zs
  planes   : q.planes = (zs.map (placed (ctxSetup s))).reverse
  reads    : Reads s.mem (itemBits items) (bsOpen .reading s.srcBase s.srcLen) q.bs
  count    : q.bs.count.toNat ≤ 7

/-- The decode pass goes through to the end, and the command with it. -/
theorem exec_decodeImage_coded {s : State} {zs : List (BlockPos × Block)} {items : List (Nat × Nat)} {rest : List Bool}
    (htables : TablesLegal s) (hok : decodeImageOk s = true) (hz : zs.map Prod.fst = blocks s)
    (hitems : codedItems s (Vector.replicate 4 0) zs = some items)
    (hsource : byteBits (memBytes s.mem s.srcBase.toNat s.srcLen.toNat) = itemsBits items ++ rest) :
    ∃ q, exec .decodeImage s = .next (succeed (decodedState s q)) ∧ DecDone s zs items q := by
  have hcoded : codedItems (ctxSetup s) (decStart s).pred zs = some items := by
    rw [codedItems_ctxSetup, decStart, ctxSetup_dcpred, hitems]
  obtain ⟨q, hpass, hreads, hcount, hpred, hn, hbad, hplanes⟩ :=
    decodePass_coded (s := ctxSetup s) (tableOk_of_legal htables) zs (decStart s) (bufOk_bsOpen ..) hcoded
      ((streamBits_bsOpen ..).trans hsource)
  rw [hz] at hpass
  have hexec := exec_decodeImage_done hok hpass
  rw [hbad] at hexec
  exact ⟨q, hexec, hbad, hn.trans (Nat.zero_add _), hpred, hplanes.trans (List.append_nil _), hreads, hcount⟩

/-- The bytes pulled are those the bits taken begin in (R108). -/
theorem DecDone.cursor {s : State} {zs : List (BlockPos × Block)} {items : List (Nat × Nat)} {q : DecPass}
    (h : DecDone s zs items q) : q.bs.cursor.toNat = (itemBits items + 7) / 8 := by
  have hmoved : 8 * (q.bs.cursor.toNat - 0) + 0 = q.bs.count.toNat + itemBits items := h.reads.moved
  have hcount := h.count
  omega

/-- What is left of the source are the bits after the blocks'. -/
theorem DecDone.streamBits {s : State} {zs : List (BlockPos × Block)} {items : List (Nat × Nat)} {q : DecPass}
    {rest : List Bool} (h : DecDone s zs items q)
    (hsource : byteBits (memBytes s.mem s.srcBase.toNat s.srcLen.toNat) = itemsBits items ++ rest) :
    streamBits s.mem q.bs = rest := by
  rw [h.reads.bits, streamBits_bsOpen, hsource, ← length_itemsBits, List.drop_left]

theorem DecDone.writesPixels {s : State} {zs : List (BlockPos × Block)} {items : List (Nat × Nat)} {q : DecPass}
    (h : DecDone s zs items q) (hz : zs.map Prod.fst = blocks s) :
    WritesPixels s (ctxSetup s).qt zs (decodedState s q).mem := by
  rw [decodedState_mem, h.planes]
  exact writesPixels_ctxSetup (writesPixels_placed (s := ctxSetup s) hz s.mem)

/-- Settles O55: the terms are the spec's (`variantTable`, `blocks_inStreamOrder`, `reconstruct_runs`,
`itemsLineByLine`), and the decode pass takes the blocks' bits to the end (`exec_decodeImage_coded`). -/
theorem decodeImageOfCodedBlocks : Obligations.DecodeImageOfCodedBlocks := by
  refine ⟨variantTable, fun s _ => blocks_inStreamOrder s, reconstruct_runs, itemsLineByLine,
    fun s qt zs items rest htables hp hqt hz hitems hsource => ?_⟩
  obtain rfl := (contextScales_iff s qt).mp hqt
  obtain ⟨q, hexec, hdone⟩ := exec_decodeImage_coded htables (decodeImageOk_iff.mpr hp) hz hitems hsource
  have hfits : 4 * s.width.toNat * s.height.toNat < 2 ^ 32 := hp.2.1.trans_lt s.dstCap.isLt
  have herrpos : (decodedState s q).errpos = BitVec.ofNat 32 zs.length := by
    rw [decodedState_errpos, hdone.firstBad, Option.getD_none, hdone.n, u32]
  exact ⟨_, _, exec_of_check (b := ctxCheck s) rfl (ctxCheck_iff.mpr hp.1), hexec, rfl, rfl, rfl, rfl, rfl, rfl, rfl,
    rfl, rfl, hdone.pred, toNat_u32 hfits, hdone.cursor, herrpos, hdone.reads.mode, hdone.reads.base,
    hdone.reads.limit, rfl, hdone.streamBits hsource, hdone.writesPixels hz, memSameOutside_decodedState s q, rfl,
    (hostSideSame_decodedState s q).trans (hostSideSame_complete _ _ _)⟩

end Sys2Proof.Machine
end

section
/-! PROOFS. COMPOSE and DECOMPOSE (45_compose.md R92 to R97): the formulas with the spec's shifts and clamps, the four
samples in BLK, and that composing what was decomposed gives the pixel back. -/

namespace Sys2Proof.Machine

/-- The formulas' shift by 1, with Mathlib's shift of an integer by an integer (R9). -/
theorem asr_one (v : Int) : asr v 1 = v >>> (1 : Int) :=
  ((Int.shiftRight_natCast_right v 1).trans (Int.shiftRight_eq_div_pow v 1)).symm

/-! ### Clamped values and bytes -/

theorem clamp8_eq_max_min (v : Int) : clamp8 v = max 0 (min 255 v) := clamp_eq_max_min (by decide)

theorem clamp8_of_mem {v : Int} (hlo : 0 ≤ v) (hhi : v ≤ 255) : clamp8 v = v := by
  rw [clamp8_eq_max_min]
  omega

theorem clamp8_toNat (a : Byte) : clamp8 a.toNat = a.toNat := clamp8_of_mem (by omega) (by omega)

theorem byteOf_toNat (a : Byte) : byteOf a.toNat = a := by
  rw [byteOf, BitVec.ofInt_natCast, BitVec.ofNat_toNat, BitVec.setWidth_eq]

/-! ### COMPOSE's word -/

section Clip
variable {clip : Int → BitVec 8} (hclip : ∀ v, clip v = BitVec.ofInt 8 (max 0 (min 255 v)))
include hclip

theorem byteOf_clamp8 (v : Int) : byteOf (clamp8 v) = clip v := by rw [byteOf, clamp8_eq_max_min, hclip]

theorem argbWord_directCompose (p : Samples) :
    argbWord (directCompose p) = clip p.p1 ++ clip p.p2 ++ clip p.p3 ++ clip p.p4 := by
  simp only [argbWord, directCompose, byteOf_clamp8 hclip]

/-- r3 is clamped before R is formed, and so its own byte needs no further clamp (R93). -/
theorem argbWord_cdCompose (p : Samples) {r1 r3 : Int} (h1 : r1 = p.p1 - p.p3 >>> 1)
    (h3 : r3 = max (0 : Int) (min 255 (r1 - p.p2 >>> 1))) :
    argbWord (cdCompose p) = clip p.p4 ++ clip (r3 + p.p2) ++ clip (r1 + p.p3) ++ clip r3 := by
  have hbyte : byteOf r3 = clip r3 := by rw [← byteOf_clamp8 hclip, clamp8_of_mem (by omega) (by omega)]
  simp only [argbWord, cdCompose, asr_one, ← h1, clamp8_eq_max_min (r1 - _), ← h3, byteOf_clamp8 hclip,
    hbyte]

end Clip

/-! ### DECOMPOSE's samples in BLK -/

/-- What DECOMPOSE computes are 32-bit values: BLK holds them as they are (R96). -/
theorem withSamples_decomposePixel (m : Mode) (p : Argb) (b : Block) (c : Channel) :
    (withSamples (decomposePixel m p) b)[Fin.castLE (m := 64) (by decide) c].toInt = (decomposePixel m p).channel c := by
  obtain ⟨hlo, hhi⟩ := decomposePixel_small m p c
  exact withSamples_channel _ _ _ (toInt_s32_small (by omega) (by omega))

theorem getElem_withSamples_rest (p : Samples) (b : Block) {i : Fin 64} (h : 4 ≤ i.val) :
    (withSamples p b)[i] = b[i] := by
  simp only [withSamples, Fin.getElem_fin]
  rw [Vector.getElem_set_ne _ _ (by omega), Vector.getElem_set_ne _ _ (by omega), Vector.getElem_set_ne _ _ (by omega),
    Vector.getElem_set_ne _ _ (by omega)]

theorem cdDecompose_eq {p : Argb} {a r g b : Int} (ha : a = p.a.toNat) (hr : r = p.r.toNat) (hg : g = p.g.toNat)
    (hb : b = p.b.toNat) : cdDecompose p =
      { p1 := b + (r - b) >>> 1 + (g - (b + (r - b) >>> 1)) >>> 1, p2 := r - b, p3 := g - (b + (r - b) >>> 1),
        p4 := a } := by
  simp only [cdDecompose, asr_one, ha, hr, hg, hb]

/-- Settles O49: `argbWord_directCompose` and `argbWord_cdCompose` for the word, `withSamples_decomposePixel` for the
samples. -/
theorem composeAndDecomposeByFormula : Obligations.ComposeAndDecomposeByFormula := by
  refine ⟨⟨decode_encode (i := .compose .direct) rfl, decode_encode (i := .compose .colourDifference) rfl,
    decode_encode (i := .decompose .direct) rfl, decode_encode (i := .decompose .colourDifference) rfl⟩, ?_, ?_⟩
  · rintro s _ _ _ _ rfl rfl rfl rfl clip hclip
    exact ⟨⟨_, rfl, completed_succeed rfl, argbWord_directCompose hclip (blkSamples s.blk), rfl, rfl⟩,
      ⟨_, rfl, completed_succeed rfl, fun r1 r3 h1 h3 => argbWord_cdCompose hclip (blkSamples s.blk) h1 h3, rfl, rfl⟩⟩
  · intro s A R G B hA hR hG hB
    have hdirect := withSamples_decomposePixel .direct (argbOfWord s.arg0) s.blk
    have hcd := withSamples_decomposePixel .colourDifference (argbOfWord s.arg0) s.blk
    have hsamples := cdDecompose_eq (p := argbOfWord s.arg0) hA hR hG hB
    refine ⟨⟨_, rfl, completed_succeed rfl, (hdirect 0).trans hA.symm, (hdirect 1).trans hR.symm,
        (hdirect 2).trans hG.symm, (hdirect 3).trans hB.symm, fun i => getElem_withSamples_rest _ _, rfl⟩,
      ⟨_, rfl, completed_succeed rfl, (hcd 1).trans (congrArg Samples.p2 hsamples),
        (hcd 2).trans (congrArg Samples.p3 hsamples), (hcd 0).trans (congrArg Samples.p1 hsamples),
        (hcd 3).trans (congrArg Samples.p4 hsamples), fun i => getElem_withSamples_rest _ _, rfl⟩⟩

/-! ### COMPOSE after DECOMPOSE -/

theorem argbWord_argbOfWord (w : Word) : argbWord (argbOfWord w) = w := by
  simp only [argbWord, argbOfWord]
  rw [BitVec.extractLsb'_append_extractLsb'_eq_extractLsb' (by decide),
    BitVec.extractLsb'_append_extractLsb'_eq_extractLsb' (by decide),
    BitVec.extractLsb'_append_extractLsb'_eq_extractLsb' (by decide)]
  exact BitVec.extractLsb'_eq_self

/-- The lifting formula is undone step by step: with t = B + (Co >> 1), p1 − (Cg >> 1) is t, t − (Co >> 1) is B, and
adding Co and Cg gives R and G; each is a byte, and so no clamp changes it (R97). -/
theorem composePixel_decomposePixel (m : Mode) (p : Argb) : composePixel m (decomposePixel m p) = p := by
  cases m with
  | direct => simp only [composePixel, decomposePixel, directCompose, directDecompose, clamp8_toNat, byteOf_toNat]
  | colourDifference =>
    simp only [composePixel, decomposePixel, cdCompose, cdDecompose, add_sub_cancel_right, clamp8_toNat,
      add_sub_cancel, byteOf_toNat]

/-- DECOMPOSE leaves its samples where COMPOSE finds them (R95, R96). -/
theorem blkSamples_withSamples_decomposePixel (m : Mode) (p : Argb) (b : Block) :
    blkSamples (withSamples (decomposePixel m p) b) = decomposePixel m p := by
  have h := withSamples_decomposePixel m p b
  exact (Samples.mk.injEq ..).mpr ⟨h 0, h 1, h 2, h 3⟩

/-- Settles O50: `composePixel_decomposePixel`, through the samples in BLK. -/
theorem composeUndoesDecompose : Obligations.ComposeUndoesDecompose := by
  refine fun s m => ⟨_, _, rfl, rfl, ?_⟩
  simp only [succeed, complete_result0, setResults_result0, complete_blk, blkSamples_withSamples_decomposePixel,
    composePixel_decomposePixel, argbWord_argbOfWord]

end Sys2Proof.Machine
end

section
/-! PROOFS. BLK_DECODE: what it leaves, which end the stream's bits give, and the bits of an encoded block read back
(46_block_codec.md R98 to R101, R103 item 1). -/

namespace Sys2Proof.Machine

/-! ### What BLK_DECODE leaves -/

/-- The code BLK_DECODE completes with (R101, R115). -/
def BlkEnd.code : BlkEnd → ErrCode
  | .complete => .none
  | .truncated => .streamUnderrun
  | .fault => .huffmanDecodingFault

/-- Whether BLK_DECODE sets TRUNC (R115). -/
def BlkEnd.underran : BlkEnd → Bool
  | .truncated => true
  | .complete | .fault => false

theorem BlkEnd.fatal_iff (e : BlkEnd) : errFatal e.code = true ↔ e = .fault := by
  cases e <;> decide

/-- What a BLK_DECODE of channel c whose `blk_decode` answered r leaves: the reader and the predictor on every end, BLK
and the results on every end but a fault (log 10). -/
structure LeavesDecoded (c : Channel) (r : BlkDecoded) (s t : State) : Prop where
  completed : Completed r.stop.code r.stop.underran s t
  bs        : t.bs = r.bs
  dcpred    : t.dcpred = s.dcpred.set c r.pred
  whole     : r.stop ≠ .fault → t.blk = r.z ∧ t.result0 = u32 r.k ∧ t.result1 = bitsConsumed s.bs r.bs
  faulted   : r.stop = .fault → t.result0 = s.result0 ∧ t.result1 = s.result1 ∧ t.blk = s.blk
  frame     : t = { s with
    bs := t.bs, dcpred := t.dcpred, blk := t.blk, result0 := t.result0, result1 := t.result1
    latch := t.latch, status := t.status }

/-- With its stream open BLK_DECODE ends as `blk_decode` does. -/
theorem exec_blkDecode {s : State} {c : Channel} {k : Kind} {r : BlkDecoded} (hopen : StreamOpenIn .reading s)
    (hr : blkDecode s.ht[dcTable k] s.ht[acTable k] s.mem s.dcpred[c] s.bs = r) :
    ∃ t, exec (.blkDecode c k) s = .next t ∧ LeavesDecoded c r s t := by
  obtain ⟨b, pred, z, n, stop⟩ := r
  simp only [exec, execBlkDecode, streamOpen_iff.mpr hopen, hr, if_true]
  cases stop with
  | complete => exact ⟨_, rfl, completed_of_status _ _ rfl, rfl, rfl, fun _ => ⟨rfl, rfl, rfl⟩, nofun, rfl⟩
  | truncated => exact ⟨_, rfl, completed_of_status _ _ rfl, rfl, rfl, fun _ => ⟨rfl, rfl, rfl⟩, nofun, rfl⟩
  | fault => exact ⟨_, rfl, completed_of_status _ _ rfl, rfl, rfl, (absurd rfl ·), fun _ => ⟨rfl, rfl, rfl⟩, rfl⟩

namespace LeavesDecoded
variable {c : Channel} {r : BlkDecoded} {s t : State} {n : Nat}

theorem mem (h : LeavesDecoded c r s t) : t.mem = s.mem := by
  rw [h.frame]

theorem dcpred_self (h : LeavesDecoded c r s t) : t.dcpred[c] = r.pred := by
  rw [h.dcpred]
  exact Vector.getElem_set_self _

theorem dcpred_ne (h : LeavesDecoded c r s t) {c' : Channel} (hc : c' ≠ c) : t.dcpred[c'] = s.dcpred[c'] := by
  rw [h.dcpred]
  exact Vector.getElem_set_ne c.isLt c'.isLt (Fin.val_ne_of_ne hc.symm)

theorem err_iff (h : LeavesDecoded c r s t) : t.status.err = true ↔ r.stop = .fault := by
  rw [h.completed.err, BlkEnd.fatal_iff]

theorem not_err_iff (h : LeavesDecoded c r s t) : t.status.err = false ↔ r.stop ≠ .fault := by
  rw [Ne, ← h.err_iff, Bool.not_eq_true]

theorem streamBits (h : LeavesDecoded c r s t) (hreads : Reads s.mem n s.bs r.bs) :
    streamBits t.mem t.bs = (streamBits s.mem s.bs).drop n := by
  rw [h.mem, h.bs, hreads.bits]

/-- Of the reader only COUNT, BUF and CURSOR change. -/
theorem eq_update (h : LeavesDecoded c r s t) (hreads : Reads s.mem n s.bs r.bs) : t = { s with
    bs := { s.bs with count := t.bs.count, buf := t.bs.buf, cursor := t.bs.cursor }
    dcpred := t.dcpred, blk := t.blk, result0 := t.result0, result1 := t.result1
    latch := t.latch, status := t.status } := by
  have hbs : t.bs = { s.bs with count := t.bs.count, buf := t.bs.buf, cursor := t.bs.cursor } := by
    rw [h.bs]
    exact hreads.eq_update
  rw [← hbs]
  exact h.frame

end LeavesDecoded

/-- The number R101 forms of the cursors and the counts is that of the bits taken. -/
theorem Reads.bitsConsumed_eq {m : Memory} {n : Nat} {b b' : Bs} (h : Reads m n b b') :
    bitsConsumed b b' = BitVec.ofNat 32 n := by
  have hmoved := h.moved
  have hrises := h.rises
  have hdiff : 8 * ((b'.cursor.toNat : Int) - b.cursor.toNat) + b.count.toNat - b'.count.toNat = (n : Nat) := by omega
  rw [bitsConsumed, hdiff, s32, BitVec.ofInt_natCast]

/-! ### The statements -/

/-- Settles O51: what is left is `LeavesDecoded`, of an answer `blkDecode_spec` describes; which end the bits give is
`blkDecode_reads`. -/
theorem blkDecodeEndsThreeWays : Obligations.BlkDecodeEndsThreeWays := by
  intro s c k hlegal hopen
  obtain ⟨r, hr⟩ : ∃ r, blkDecode s.ht[dcTable k] s.ht[acTable k] s.mem s.dcpred[c] s.bs = r := ⟨_, rfl⟩
  obtain ⟨⟨n, hreads⟩, -, -, hzeros⟩ := blkDecode_spec _ _ _ _ _ hlegal.2 r hr.symm
  obtain ⟨t, hexec, hleaves⟩ := exec_blkDecode hopen hr
  have hcompleted := hleaves.completed
  refine ⟨t, hexec, ?_, ⟨n, hleaves.streamBits hreads, hreads.enough, fun herr => ?_⟩, fun herr => ?_,
    fun herr => hleaves.faulted (hleaves.err_iff.mp herr), fun c' => hleaves.dcpred_ne, ?_, fun htables => ?_,
    hleaves.eq_update hreads⟩
  · revert hcompleted
    cases r.stop with
    | complete => exact .inl
    | truncated => exact .inr ∘ .inl
    | fault => exact .inr ∘ .inr
  · obtain ⟨-, -, hbits⟩ := hleaves.whole (hleaves.not_err_iff.mp herr)
    rw [hbits, hreads.bitsConsumed_eq]
  · have hstop := hleaves.not_err_iff.mp herr
    obtain ⟨hblk, hpos, -⟩ := hleaves.whole hstop
    obtain ⟨hle, hzero, hkept, hfirst⟩ := hzeros hstop
    have hk : t.result0.toNat = r.k := by rw [hpos, toNat_u32 (by omega)]
    have hk0 : t.result0 = 0 ↔ r.k = 0 := by rw [← hk]; exact BitVec.toNat_inj.symm
    rw [hk, hblk, Ne, hk0, hleaves.dcpred_self]
    exact ⟨hle, hzero, hkept, hfirst⟩
  · rw [hleaves.bs, ← hr]
    exact bsLegal_blkDecode hopen.1 hlegal
  · obtain ⟨used, hlines, hused⟩ := blkDecode_reads (tableOk_of_legal htables (dcTable k))
      (tableOk_of_legal htables (acTable k)) s.mem s.dcpred[c] s.bs hlegal.2
    rw [hr] at hlines hused
    refine ⟨r.stop, r.k, r.z, used, ?_, hleaves.streamBits hused, fun hstop => ?_, ?_⟩
    · rw [hleaves.dcpred_self]
      exact hlines
    · obtain ⟨hblk, hpos, hbits⟩ := hleaves.whole hstop
      exact ⟨hblk, hpos, hbits.trans hused.bitsConsumed_eq⟩
    · revert hcompleted
      cases r.stop <;> exact id

/-- Settles O52: `blk_decode` gives the encoded block back (`blkDecode_blkSymbols`), and BLK_DECODE leaves it. -/
theorem blkDecodeOfAnEncodedBlock : Obligations.BlkDecodeOfAnEncodedBlock := by
  intro s c k Z items rest htables hlegal hopen hitems hbits
  obtain ⟨n, b, hr, hreads, hpos, hle, hzeros, hlast⟩ := blkDecode_blkSymbols (tableOk_of_legal htables _)
    (tableOk_of_legal htables _) hlegal.2 hitems hbits
  obtain ⟨t, hexec, hleaves⟩ := exec_blkDecode hopen hr
  obtain ⟨hblk, hr0, hr1⟩ := hleaves.whole nofun
  have hk : t.result0.toNat = n := (congrArg BitVec.toNat hr0).trans (toNat_u32 (n := n) (by omega))
  have hk1 : t.result0 = 1 ↔ n = 1 := by rw [← hk]; exact BitVec.toNat_inj.symm
  refine ⟨t, hexec, hleaves.completed, hblk, hleaves.dcpred_self, ?_, hr1.trans hreads.bitsConsumed_eq, ?_⟩
  · rw [hleaves.mem, hleaves.bs]
    exact hreads.rest hbits (length_itemsBits items)
  · rw [hk, hk1]
    exact ⟨hpos, hle, hzeros, hlast, fun c' => hleaves.dcpred_ne, hleaves.eq_update hreads⟩

end Sys2Proof.Machine
end

section
/-! PROOFS. BLK_ENCODE of a block without AC coefficients (46_block_codec.md R102, R103 item 3). -/

namespace Sys2Proof.Machine

/-- Over the zeros that end a block the loop of R102 gives one EOB, however many they are. -/
theorem acCodes_of_zeros {t : Ht} {z : Block} {eob : CodeEntry} (heob : CodeFor t 0x00 eob) {n k r : Nat}
    (hk : k + n = 64) (hrun : 0 < r + n) (hzeros : ∀ i : Fin 64, k ≤ i.val → z[i] = 0) :
    AcCodes t z k r (some [eob.item]) := by
  induction n generalizing k r with
  | zero =>
    obtain rfl : k = 64 := hk
    exact .eob hrun heob
  | succ n ih =>
    have hrest : AcCodes t z (k + 1) (r + 1) (some [eob.item]) :=
      ih (by omega) (by omega) fun i hi => hzeros i (Nat.le_of_succ_le hi)
    exact .zero (k := ⟨k, by omega⟩) (hzeros ⟨k, by omega⟩ le_rfl) hrest

/-- The items of a block without AC coefficients: the DC code, the magnitude and one EOB. -/
theorem blkSymbols_dcOnly {dc ac : Ht} (okd : TableOk dc) (oka : TableOk ac) {pred : Word} {z : Block} {d : Int}
    {e eob : CodeEntry} (hd : d = (z[0] - pred).toInt) (hsize : bitlen d ≤ 15) (he : CodeFor dc (bitlen d) e)
    (heob : CodeFor ac 0x00 eob) (hzeros : ∀ i : Fin 64, i ≠ 0 → z[i] = 0) :
    blkSymbols dc ac pred z = some [e.item, (mag d (bitlen d), bitlen d), eob.item] := by
  subst hd
  have hac : AcCodes ac z 1 0 (some [eob.item]) := acCodes_of_zeros (n := 63) heob rfl (by decide) fun i hi =>
    hzeros i fun h => by rw [h] at hi; exact absurd hi (by decide)
  exact (blkCodes_iff okd oka pred z _).mp
    (.dcValue ((sizeIs_iff _ _).mpr rfl) hsize he ((magBitsAre_iff _ _).mpr rfl) hac)

/-- Settles O54: `blkSymbols_dcOnly` gives the items, and BLK_ENCODE appends their bits (`blkEncodeAppendsTheItems`). -/
theorem dcOnlyBlockIsOneEob : Obligations.DcOnlyBlockIsOneEob := by
  intro s c k dc eob d htables hlegal hopen hzeros hd hsize hdc hdcSym heob heobSym hroom
  have hitems := blkSymbols_dcOnly (tableOk_of_legal htables (dcTable k)) (tableOk_of_legal htables (acTable k)) hd
    hsize ⟨hdc, hdcSym⟩ ⟨heob, congrArg BitVec.toNat heobSym⟩ hzeros
  have hcount : itemBits [dc.item, (mag d (bitlen d), bitlen d), eob.item] =
      dc.len.toNat + bitlen d + eob.len.toNat := (Nat.add_assoc ..).symm
  obtain ⟨-, hencode⟩ := blkEncodeAppendsTheItems
  rw [← hcount] at hroom
  obtain ⟨t, hexec, hcompleted, hr0, -, -, -, hcursor, hbits, -⟩ :=
    ((hencode s c k hlegal hopen).1 _ hitems).1 hroom
  refine ⟨t, hexec, hcompleted, ?_, ?_⟩
  · rw [hr0, hcount, BitVec.toNat_ofNat]
    omega
  · rw [hcursor, Nat.add_sub_cancel_left, ← hbits]
    simp only [CodeEntry.item, itemsBits_cons, itemsBits_nil, List.append_nil, List.append_assoc]

end Sys2Proof.Machine
end

section
/-! PROOFS. DECODE_IMAGE of the bytes a successful ENCODE_IMAGE wrote (46_block_codec.md R103; 47_image.md R107, R108,
R110). -/

namespace Sys2Proof.Machine

/-- The iteration order depends on the configuration only. -/
theorem blocks_congr {s u : State} (hv : u.variant = s.variant) (hw : u.width = s.width) (hh : u.height = s.height)
    (hc : u.chCfg = s.chCfg) : blocks u = blocks s := by
  have hchannel : channelBlocks u = channelBlocks s := by
    funext mx my c
    simp only [channelBlocks, hv, hc]
  simp only [blocks, macroblock, mbRows, mbCols, padWidth, padHeight, hv, hw, hh, hchannel]

/-- The items of coded blocks depend on the variant and the tables only. -/
theorem codedItems_congr {s u : State} (hv : u.variant = s.variant) (ht : u.ht = s.ht) (pred : Vector Word 4)
    (l : List (BlockPos × Block)) : codedItems u pred l = codedItems s pred l := by
  induction l generalizing pred with
  | nil => rfl
  | cons e rest ih =>
    obtain ⟨pos, z⟩ := e
    simp only [codedItems, hv, ht, ih]

theorem map_fst_preparedBlocks (s : State) (qt : Vector (Vector (BitVec 15) 64) 4) :
    (preparedBlocks s qt).map Prod.fst = blocks s := by
  simp [preparedBlocks, Function.comp_def]

/-- An ENCODE_IMAGE that succeeds has coded every block, and its sink holds the whole output (R110). -/
theorem encodeImage_succeeded {s t : State} (hok : encodeImageOk s = true) (h : exec .encodeImage s = .next t)
    (herr : t.status.err = false) : ∃ items body total q,
      codedItems s (Vector.replicate 4 0) (preparedBlocks s (ctxSetup s).qt) = some items ∧
      body = (itemBits items + 7) / 8 ∧ total = (body + 15) / 16 * 16 ∧ total ≤ s.dstCap.toNat ∧
      t = succeed (encodedState s q body) ∧ EncDone s items total q := by
  have hstart := encOk_start s.dstBase s.dstCap (ctxSetup s).dcpred
  cases hpass : imagePass s with
  | fault code n =>
    obtain ⟨j, more, -, -, -, -, hcode⟩ := encodePass_faultAt _ _ _ hstart hpass
    cases (exec_encodeImage_fault hok hpass).symm.trans h
    rcases hcode with ⟨rfl, -⟩ | ⟨rfl, -⟩ <;> cases herr
  | done p =>
    rcases encodePass_spec _ _ _ hstart with ⟨code, n, hfault⟩ | ⟨items, p', hdone, hitems, ok, -⟩
    · exact absurd (hfault.symm.trans hpass) nofun
    cases hdone.symm.trans hpass
    rcases finishEncode_spec ok _ _ rfl rfl with ⟨-, hfull⟩ | ⟨hfits, -⟩
    · cases (exec_encodeImage_full hok hpass hfull).symm.trans h
      cases herr
    · rw [codedItems_ctxSetup, ctxSetup_dcpred] at hitems
      obtain ⟨q, hexec, hq⟩ := exec_encodeImage_coded hok hitems rfl rfl hfits
      cases hexec.symm.trans h
      exact ⟨items, _, _, q, hitems, rfl, rfl, hfits, rfl, hq⟩

/-- Settles O60: the source holds the coded blocks (`encodeImage_succeeded`), and the decode pass takes their bits to
the end (`exec_decodeImage_coded`). -/
theorem decodeImageReadsWhatEncodeImageWrote : Obligations.DecodeImageReadsWhatEncodeImageWrote := by
  intro s t u d c htables hp hexec herr hu hpu
  obtain ⟨items, body, total, q, hitems, hbody, htotal, hfits, ht, hn, hpred, hlength, hbs, hbits⟩ :=
    encodeImage_succeeded (encodeImageOk_iff.mpr hp) hexec herr
  have hhost : HostSideSame s t := ht ▸ (hostSideSame_encodedState s q body).trans (hostSideSame_complete _ _ _)
  have hht : t.ht = s.ht := by rw [ht]; rfl
  have hlen : t.result0.toNat = total := by
    rw [ht]
    exact (congrArg (fun b => b.cursor.toNat) hbs).trans (toNat_u32 (hfits.trans_lt s.dstCap.isLt))
  have hmem : memBytes t.mem s.dstBase.toNat total = q.out := by
    rw [ht]
    exact memBytes_memWrite hlength
  have hvariant : u.variant = s.variant := hu ▸ hhost.variant
  have hutables : u.ht = s.ht := hu ▸ hht
  have hblocks : blocks u = blocks s :=
    blocks_congr hvariant (hu ▸ hhost.width) (hu ▸ hhost.height) (hu ▸ hhost.chCfg)
  have hsource : byteBits (memBytes u.mem u.srcBase.toNat u.srcLen.toNat) =
      itemsBits items ++ List.replicate (8 * total - itemBits items) true := by
    rw [hu, ← hbits, ← hmem, ← hlen]
  obtain ⟨p, hdecode, hdone⟩ := exec_decodeImage_coded (fun k => hutables ▸ htables k) (decodeImageOk_iff.mpr hpu)
    ((map_fst_preparedBlocks s (ctxSetup s).qt).trans hblocks.symm)
    ((codedItems_congr hvariant hutables _ _).trans hitems) hsource
  have hcount : p.n = q.n := by
    rw [hdone.n, hn, preparedBlocks, List.length_map]
  refine ⟨_, hdecode, rfl, rfl, rfl, ?_, ?_, ?_⟩ <;> rw [ht]
  · rw [succeed, complete_errpos, decodedState_errpos, hdone.firstBad, Option.getD_none, hcount]
    rfl
  · exact hdone.pred.trans hpred.symm
  · have hlt : body < 2 ^ 32 := by omega
    exact BitVec.eq_of_toNat_eq ((hdone.cursor.trans hbody.symm).trans (toNat_u32 hlt).symm)

end Sys2Proof.Machine
end

section
/-! PROOFS. NOP and CTX_INIT: the padded dimensions and the number of blocks of the iteration (47_image.md R104 to
R107). -/

namespace Sys2Proof.Machine

/-- Settles O27: NOP is a completion and nothing else. -/
theorem nopOnlyCompletes : Obligations.NopOnlyCompletes :=
  ⟨decode_encode (i := .nop) rfl, fun _ => ⟨_, rfl, completed_succeed rfl, rfl⟩⟩

/-! ### The padded dimensions -/

theorem variantUnit_bounds (v : BitVec 2) : 8 ≤ variantUnit v ∧ variantUnit v ≤ 16 := by
  rw [variantUnit]
  split <;> decide

/-- A dimension is padded to the next multiple of the unit. -/
theorem padTo_spec {unit : Nat} (hunit : 0 < unit) (w : Nat) :
    padTo unit w % unit = 0 ∧ w ≤ padTo unit w ∧ padTo unit w < w + unit := by
  have hsplit := Nat.div_add_mod' (w + unit - 1) unit
  have hrest : (w + unit - 1) % unit < unit := Nat.mod_lt _ hunit
  refine ⟨Nat.mul_mod_left _ _, ?_, ?_⟩ <;> rw [padTo] <;> omega

/-- A padded dimension fits its 17-bit register. -/
theorem toNat_padTo (v : BitVec 2) (w : BitVec 16) :
    (BitVec.ofNat 17 (padTo (variantUnit v) w.toNat)).toNat = padTo (variantUnit v) w.toNat := by
  have hunit := variantUnit_bounds v
  have hpad := padTo_spec (unit := variantUnit v) (by omega) w.toNat
  exact Nat.mod_eq_of_lt (by omega)

/-! ### The number of blocks -/

/-- The blocks a channel has in every macroblock. -/
def blocksPerMacroblock (s : State) (c : Channel) : Nat :=
  if s.chCfg[c].defen then 0 else if s.variant = 0 ∧ (c = 0 ∨ c = 3) then 4 else 1

/-- A channel has one block in a macroblock unless the variant subsamples others and not this one (R91). -/
theorem oneBlock_iff (v : BitVec 2) (c : Channel) :
    (variantUnit v = 8 ∨ variantSub v c = true) ↔ ¬(v = 0 ∧ (c = 0 ∨ c = 3)) := by
  revert v c
  decide

theorem length_channelBlocks (s : State) (mx my : Nat) (c : Channel) :
    (channelBlocks s mx my c).length = blocksPerMacroblock s c := by
  simp only [channelBlocks, blocksPerMacroblock, oneBlock_iff, ite_not]
  split_ifs <;> rfl

theorem length_macroblock (s : State) (mx my : Nat) :
    (macroblock s mx my).length = ∑ c : Channel, blocksPerMacroblock s c := by
  simp only [macroblock, List.length_flatMap, length_channelBlocks, List.map_cons, List.map_nil, List.sum_cons,
    List.sum_nil, Fin.sum_univ_four, Nat.add_assoc, Nat.add_zero]

theorem length_blocks (s : State) :
    (blocks s).length = mbCols s * mbRows s * ∑ c : Channel, blocksPerMacroblock s c := by
  rw [blocks, length_flatMap_range _ _ _ fun my => length_flatMap_range _ _ _ fun mx => length_macroblock s mx my]
  ring

theorem blocksPerMacroblock_le (s : State) (c : Channel) : blocksPerMacroblock s c ≤ 4 := by
  rw [blocksPerMacroblock]
  split_ifs <;> decide

/-- A row or a column of an image has at most 2^13 macroblocks. -/
theorem padTo_div_le (v : BitVec 2) (w : BitVec 16) : padTo (variantUnit v) w.toNat / variantUnit v ≤ 2 ^ 13 := by
  have hunit := variantUnit_bounds v
  have hpad := padTo_spec (unit := variantUnit v) (by omega) w.toNat
  rw [Nat.div_le_iff_le_mul_add_pred (by omega)]
  omega

/-- RESULT0 and RESULT1 of CTX_INIT hold both numbers whole. -/
theorem blockCounts_lt (s : State) : mbCols s * mbRows s < 2 ^ 32 ∧ (blocks s).length < 2 ^ 32 := by
  have hmb : mbCols s * mbRows s ≤ 2 ^ 13 * 2 ^ 13 := Nat.mul_le_mul (padTo_div_le _ _) (padTo_div_le _ _)
  have hper : ∑ c : Channel, blocksPerMacroblock s c ≤ 4 * 4 :=
    Finset.sum_le_card_nsmul _ _ _ fun c _ => blocksPerMacroblock_le s c
  have hall := Nat.mul_le_mul hmb hper
  rw [← length_blocks] at hall
  omega

/-! ### CTX_INIT -/

/-- Settles O28: PAD_W and PAD_H hold the padded dimensions (`padTo_spec`, `toNat_padTo`), the scale tables are R82's
(`contextScales_iff`), and the iteration has as many blocks as its macroblocks have (`length_blocks`). -/
theorem ctxInitSetsUpTheContext : Obligations.CtxInitSetsUpTheContext := by
  intro s
  refine ⟨fun hpasses => ?_, fun hfails => exec_of_failed_check (b := ctxCheck s) rfl (mt ctxCheck_iff.mp hfails)⟩
  obtain ⟨hmb, hblocks⟩ := blockCounts_lt s
  have hscales := (contextScales_iff s (ctxSetup s).qt).mpr rfl
  refine ⟨_, exec_of_check (b := ctxCheck s) rfl (ctxCheck_iff.mpr hpasses), rfl, rfl, rfl, rfl, rfl, rfl,
    fun unit hunit => ?_, ?_, fun c => Vector.getElem_replicate .., fun c i => (hscales c i).1,
    fun c i => (hscales c i).2, rfl⟩
  · obtain rfl : variantUnit s.variant = unit := hunit.symm
    have hpos : 0 < variantUnit s.variant := (by decide : 0 < 8).trans_le (variantUnit_bounds _).1
    obtain ⟨hw, hwle, hwlt⟩ := padTo_spec hpos s.width.toNat
    obtain ⟨hh, hhle, hhlt⟩ := padTo_spec hpos s.height.toNat
    simp only [succeed, complete_padW, complete_padH, complete_result1, setResults_padW, setResults_padH,
      setResults_result1, ctxSetup_padW, ctxSetup_padH, padWidth, padHeight, toNat_padTo, toNat_u32 hmb]
    exact ⟨hw, hwle, hwlt, hh, hhle, hhlt, rfl⟩
  · simp only [succeed, complete_result0, complete_result1, setResults_result0, setResults_result1, toNat_u32 hmb,
      toNat_u32 hblocks]
    exact length_blocks s

end Sys2Proof.Machine
end

section
/-! PROOFS. DECODE_IMAGE of a source of no bytes: every block is truncated to zeros, and every sample is the one a zero
block gives (42_transform.md R78; 47_image.md R108; 60_exceptions.md R115). -/

namespace Sys2Proof.Machine

/-! ### The decode pass over no bytes -/

/-- The block whose coefficients are all 0. -/
def zeroBlock : Block := Vector.replicate 64 0

theorem getElem_zeroBlock (i : Fin 64) : zeroBlock[i] = 0 := Vector.getElem_replicate ..

theorem toInt_getElem_zeroBlock (i : Fin 64) : zeroBlock[i].toInt = 0 := congrArg BitVec.toInt (getElem_zeroBlock i)

/-- No byte is pulled where none is left. -/
theorem bsFill_of_limit_le (m : Memory) (n fuel : Nat) {b : Bs} (h : b.limit.toNat ≤ b.cursor.toNat) :
    bsFill m n fuel b = b := by
  cases fuel with
  | zero => rfl
  | succ fuel => rw [bsFill, if_neg (by omega)]

/-- HT_READ of a source of no bytes underruns at once, since no code is of length 0. -/
theorem htRead_noBytes {h : Ht} (ok : TableOk h) (m : Memory) (base : Word) :
    htRead h m (bsOpen .reading base 0) = (bsOpen .reading base 0, .underrun) := by
  have hcan : bsCan m h.minLen.toNat (bsOpen .reading base 0) = (bsOpen .reading base 0, false) := by
    rw [bsCan, bsFill_of_limit_le _ _ _ (Nat.zero_le _), decide_eq_false]
    exact Nat.not_le.mpr ok.bounds.1
  rw [htRead, hcan]

theorem blkDecode_noBytes {dc : Ht} (ok : TableOk dc) (ac : Ht) (m : Memory) (pred base : Word) :
    blkDecode dc ac m pred (bsOpen .reading base 0) = ⟨bsOpen .reading base 0, pred, zeroBlock, 0, .truncated⟩ := by
  rw [blkDecode, htRead_noBytes ok]
  rfl

theorem decodeOne_noBytes {s : State} (ok : ∀ t : TableId, TableOk s.ht[t]) (pos : BlockPos) {p : DecPass}
    {base : Word} (hbs : p.bs = bsOpen .reading base 0) : decodeOne s pos p = .done
      { p with
        n := p.n + 1, firstBad := p.firstBad.or (some p.n), planes := placed s (pos, zeroBlock) :: p.planes } := by
  rw [decodeOne, hbs, blkDecode_noBytes (ok _)]
  cases p.firstBad <;> simp [placed]

/-- Every block of the pass is truncated to zeros, the first in the list before any other, and the stream and the
predictors stay. -/
theorem decodePass_noBytes {s : State} (ok : ∀ t : TableId, TableOk s.ht[t]) (l : List BlockPos) (p : DecPass)
    {base : Word} (hbs : p.bs = bsOpen .reading base 0) : decodePass s l p = .done
      { p with
        n := p.n + l.length, firstBad := p.firstBad.or (l.head?.map fun _ => p.n)
        planes := (l.map fun pos => placed s (pos, zeroBlock)).reverse ++ p.planes } := by
  induction l generalizing p with
  | nil => simp [decodePass]
  | cons pos rest ih =>
    rw [decodePass, decodeOne_noBytes ok pos hbs]
    refine (ih _ ?_).trans ?_
    · exact hbs
    · simp [Nat.add_assoc, Nat.add_comm 1]

/-- The zero blocks of the image, in stream order. -/
def zeroBlocks (s : State) : List (BlockPos × Block) := (blocks s).map fun pos => (pos, zeroBlock)

theorem map_fst_zeroBlocks (s : State) : (zeroBlocks s).map Prod.fst = blocks s := by
  simp [zeroBlocks, Function.comp_def]

/-- What the decode pass of a DECODE_IMAGE leaves over a source of no bytes. -/
structure DecEmpty (s : State) (q : DecPass) : Prop where
  bs       : q.bs = bsOpen .reading s.srcBase 0
  pred     : q.pred = Vector.replicate 4 0
  firstBad : q.firstBad = some 0
  planes   : q.planes = ((zeroBlocks s).map (placed (ctxSetup s))).reverse

theorem exec_decodeImage_noBytes {s : State} (htables : TablesLegal s) (hok : decodeImageOk s = true)
    (hlen : s.srcLen = 0) (hsome : blocks s ≠ []) :
    ∃ q, exec .decodeImage s = .next (complete .streamUnderrun true (decodedState s q)) ∧ DecEmpty s q := by
  have hbs : (decStart s).bs = bsOpen .reading s.srcBase 0 := by rw [decStart, hlen]
  have hpass := decodePass_noBytes (s := ctxSetup s) (tableOk_of_legal htables) (blocks s) (decStart s) hbs
  obtain ⟨pos, rest, hblocks⟩ := List.exists_cons_of_ne_nil hsome
  have hbad : (decStart s).firstBad.or ((blocks s).head?.map fun _ => (decStart s).n) = some 0 := by
    rw [hblocks]
    rfl
  rw [hbad] at hpass
  refine ⟨_, exec_decodeImage_done hok hpass, hbs, rfl, rfl, ?_⟩
  simp [zeroBlocks, decStart]

/-! ### The samples of a zero block -/

/-- The sample SHIFT_CLAMP makes of 0 (R78). -/
def zeroSample : Kind → Int
  | .luminance => 128
  | .chrominance => 0

theorem unzigzagBlock_zeroBlock : unzigzagBlock zeroBlock = zeroBlock :=
  block_ext fun i => by rw [getElem_unzigzagBlock, getElem_zeroBlock, getElem_zeroBlock]

theorem dequantBlock_zeroBlock (qt : Vector (BitVec 15) 64) : dequantBlock qt zeroBlock = zeroBlock :=
  block_ext fun i => by
    have hentry : (dequantBlock qt zeroBlock)[i] = s32 (rdiv (zeroBlock[i].toInt * qt[i].toNat) 100) :=
      Vector.getElem_ofFn ..
    rw [hentry, toInt_getElem_zeroBlock, zero_mul, getElem_zeroBlock]
    rfl

theorem idctBlock_zeroBlock : idctBlock zeroBlock = zeroBlock :=
  block_ext fun i => by
    have hsum : idctSum zeroBlock (i / 8) (i % 8) = 0 := by
      simp only [idctSum_eq, blkAt, toInt_getElem_zeroBlock, mul_zero, Finset.sum_const_zero]
    rw [idctBlock, getElem_blkOf, hsum, getElem_zeroBlock]
    rfl

/-- A zero block is a block of one sample. -/
theorem blkAt_reconstruct_zeroBlock (k : Kind) (qt : Vector (BitVec 15) 64) (row col : Nat) :
    blkAt (reconstruct k qt zeroBlock) row col = zeroSample k := by
  rw [reconstruct, unzigzagBlock_zeroBlock, dequantBlock_zeroBlock, idctBlock_zeroBlock, blkAt, shiftClampBlock,
    getElem_blkMap, toInt_getElem_zeroBlock]
  cases k <;> rfl

/-- Every sample of an image of zero blocks. -/
theorem SampleIs.eq_of_zeroBlocks {s : State} {qt : Vector (Vector (BitVec 15) 64) 4} {c : Channel} {x y : Nat}
    {v : Int} (h : SampleIs s qt (zeroBlocks s) c x y v) :
    v = if s.chCfg[c].defen then (s.chCfg[c].defval.toNat : Int) else zeroSample (variantKind s.variant c) := by
  rw [SampleIs] at h
  by_cases hd : s.chCfg[c].defen = true
  · rwa [if_pos hd] at h ⊢
  · rw [if_neg hd] at h ⊢
    obtain ⟨z, hz, hv⟩ := h
    obtain ⟨pos, -, hpos⟩ := List.mem_map.mp hz
    obtain rfl : zeroBlock = z := congrArg Prod.snd hpos
    rw [hv, blkAt_reconstruct_zeroBlock]

/-- A pixel in DMEM is composed of the samples of its four channels. -/
theorem WritesPixels.exists_samples {s : State} {qt : Vector (Vector (BitVec 15) 64) 4} {zs : List (BlockPos × Block)}
    {m : Memory} (h : WritesPixels s qt zs m) {x y : Nat} (hx : x < s.width.toNat) (hy : y < s.height.toNat) :
    ∃ p : Samples, (∀ c : Channel, SampleIs s qt zs c x y (p.channel c)) ∧
      memBytes m (s.dstBase.toNat + 4 * (y * s.width.toNat + x)) 4 =
        argbBytes (composePixel (variantMode s.variant) p) := by
  obtain ⟨b, u, hsamples, hexec, hbytes⟩ := h x y hx hy
  cases hexec
  have hchannel : ∀ c : Channel, (blkSamples b).channel c = b[Fin.castLE (m := 64) (by decide) c].toInt := fun c => by
    fin_cases c <;> rfl
  refine ⟨blkSamples b, fun c => ?_, hbytes.trans (congrArg argbBytes (argbOfWord_argbWord _))⟩
  rw [hchannel]
  exact hsamples c

/-- Settles O57: the decode pass gives a zero block for each place (`decodePass_noBytes`), and a zero block is a block
of one sample (`blkAt_reconstruct_zeroBlock`). -/
theorem emptySourceGivesMidGrey : Obligations.EmptySourceGivesMidGrey := by
  intro s htables hpasses hlen hsome
  obtain ⟨q, hexec, hbs, hpred, hbad, hplanes⟩ :=
    exec_decodeImage_noBytes htables (decodeImageOk_iff.mpr hpasses) hlen hsome
  have hpixels : WritesPixels s (ctxSetup s).qt (zeroBlocks s) (decodedState s q).mem := by
    rw [decodedState_mem, hplanes]
    exact writesPixels_ctxSetup (writesPixels_placed (s := ctxSetup s) (map_fst_zeroBlocks s) s.mem)
  refine ⟨_, hexec, rfl, rfl, rfl, ?_, ?_, ?_, fun c => ?_, fun x y hx hy => ?_⟩
  · simp
  · simp [hbad, u32]
  · simp [hbs, bsOpen]
  · simp [hpred]
  · obtain ⟨p, hsamples, hbytes⟩ := hpixels.exists_samples hx hy
    refine ⟨p, fun c => (hsamples c).eq_of_zeroBlocks.trans ?_, hbytes⟩
    cases variantKind s.variant c <;> rfl

end Sys2Proof.Machine
end

section
/-! PROOFS. How every command completes and what a failed check leaves (60_exceptions.md R113 to R120), a lost command
(70_reset_and_hazards.md R131), and the state after a reset (70_reset_and_hazards.md R126 to R128). -/

namespace Sys2Proof.Machine

/-! ### Completion -/

/-- A completion raises DONE, so the interrupt is IRQ_EN (R117, R120). -/
theorem irq_complete (code : ErrCode) (u : Bool) (s : State) : (complete code u s).irq = s.irqEn := by
  rw [State.irq, complete_status, statusCompleted_done, Bool.and_true, complete_irqEn]

/-- No command touches OVERRUN: its completion keeps it, and so does the start of a Context. -/
theorem exec_overrun {i : Instr} {s t : State} (h : exec i s = .next t) : t.status.overrun = s.status.overrun := by
  obtain ⟨code, u, r, he, -, hstatus, -, -⟩ := exec_completes i s
  rw [he] at h
  cases h
  rw [complete_status, statusCompleted_overrun]
  rcases hstatus with hsame | ⟨-, hcontext⟩
  · rw [hsame]
  · rw [hcontext, statusNewContext_overrun]

/-- Settles O17: `exec_completes` writes every command's next state as a completion with a code of its row. -/
theorem everyCommandCompletes : Obligations.EveryCommandCompletes := by
  intro i s
  obtain ⟨code, u, r, he, hhost, -, hcode, hunderrun⟩ := exec_completes i s
  refine ⟨complete code u r, he, rfl, rfl, hcode, rfl, fun h => ?_, exec_overrun he, ?_,
    hhost.trans (hostSideSame_complete code u r)⟩
  · rw [complete_status, statusCompleted_trunc, hunderrun h, Bool.or_true]
  · rw [irq_complete, hhost.irqEn]

/-! ### Failed checks -/

/-- Settles O18: a command that can fail a check is its work or `fail` by one Boolean, which says what its rule says;
the other commands have no check to fail. -/
theorem failedCheckChangesOnlyStatus : Obligations.FailedCheckChangesOnlyStatus := by
  intro i s h
  cases i
  case ctxInit => exact exec_of_failed_check (b := ctxCheck s) rfl (mt ctxCheck_iff.mp h)
  case bsOpenRead => exact exec_of_failed_check (b := openReadOk s) rfl (mt rangeOk_iff.mp h)
  case bsOpenWrite => exact exec_of_failed_check (b := openWriteOk s) rfl (mt rangeOk_iff.mp h)
  case bsCanSupply n => exact exec_of_failed_check (b := canSupplyOk n s) rfl (mt canSupplyOk_iff.mp h)
  case bsSupply n => exact exec_of_failed_check (b := supplyOk n s) rfl (mt supplyOk_iff.mp h)
  case bsConsume n => exact exec_of_failed_check (b := consumeOk n s) rfl (mt consumeOk_iff.mp h)
  case bsFlush => exact exec_of_failed_check (b := flushOk s) rfl (mt flushOk_iff.mp h)
  case htBuild t => exact exec_htBuild_none (Option.eq_none_iff_forall_ne_some.mpr fun a ha => h ⟨a, ha⟩)
  case htDecode t n => exact exec_of_failed_check (b := countOk n) rfl (mt countOk_iff.mp h)
  case qAdjust c k => exact exec_of_failed_check (b := qualityOk s.chCfg[c]) rfl (mt qualityOk_iff.mp h)
  case upsample => exact exec_of_failed_check (b := upsampleOk s) rfl (mt samplerOk_iff.mp h)
  case downsample => exact exec_of_failed_check (b := downsampleOk s) rfl (mt samplerOk_iff.mp h)
  case htRead | blkDecode => exact exec_of_failed_check (b := streamOpen .reading s) rfl (mt streamOpen_iff.mp h)
  case blkEncode => exact exec_of_failed_check (b := streamOpen .writing s) rfl (mt streamOpen_iff.mp h)
  case decodeImage => exact exec_of_failed_check (b := decodeImageOk s) rfl (mt decodeImageOk_iff.mp h)
  case encodeImage => exact exec_of_failed_check (b := encodeImageOk s) rfl (mt encodeImageOk_iff.mp h)
  all_goals exact absurd trivial h

/-! ### OVERRUN -/

/-- A register write never clears OVERRUN, but for a CTRL write of CLR_STATUS or SOFT_RESET. -/
theorem writeReg_overrun {s : State} {r : Reg} {v : Word}
    (hv : r = .ctrl → v.getLsbD 1 = false ∧ v.getLsbD 2 = false) (hs : s.status.overrun = true) :
    (writeReg r v s).status.overrun = true := by
  by_cases hctrl : r = .ctrl
  · obtain ⟨h1, h2⟩ := hv hctrl
    subst hctrl
    rw [writeReg, writeCtrl, h1, h2]
    exact hs
  by_cases hcmd : r = .cmd
  · subst hcmd
    rw [writeReg]
    rcases writeCmd_cases v s with ⟨-, hlost⟩ | ⟨-, -, hlatched⟩ | ⟨-, hillegal⟩
    · rw [hlost]
      rfl
    · rw [hlatched]
      exact hs
    · rw [hillegal, illegalCommand_latchCommand]
      exact hs
  · rw [writeReg_other hctrl hcmd]
    split
    · exact hs
    · obtain ⟨-, -, hstatus, -⟩ := writePlain_frame r v s
      rw [hstatus, hs]

/-- Settles O8: a CMD write while BUSY only sets OVERRUN; of the other steps only a reset and CLR_STATUS clear it. -/
theorem overrunMarksALostCommand : Obligations.OverrunMarksALostCommand := by
  refine ⟨fun s w rest he hbusy => ?_, fun s t hs h hreset hctrl => ?_⟩
  · rw [step_regWrite (regAt_regOffset .cmd) he, writeReg, writeCmd]
    exact congrArg _ (if_pos hbusy)
  cases step_does h with
  | command rest i _ he => exact (exec_overrun he).trans hs
  | illegal rest => exact hs
  | reset rest he => exact absurd he (hreset rest)
  | write rest off v r he hr =>
    refine writeReg_overrun (fun hrc => ?_) hs
    have hoff : off = 0x004 := by rw [← regOffset_of_regAt hr, hrc]; rfl
    exact hctrl 4 v rest (hoff ▸ he)
  | quiet rest d k m => exact hs

/-! ### Reset -/

/-- The machine right after reset is the reset of itself: nothing runs there, so a reset draws nothing. -/
theorem resetCore_reset : resetCore State.reset = State.reset := rfl

/-- A reset gives free values to the output range of the running command and leaves every other byte (R128). -/
theorem memSameOutside_resetCore (s : State) :
    MemSameOutside (runningWrites s).base (runningWrites s).len s (resetCore s) := by
  cases hb : s.busy with
  | false =>
    intro a _
    simp [resetCore, State.atReset, hb]
  | true =>
    exact memSameOutside_memWrite (out := freeBytes s.draws (runningWrites s).len)
      (by simp [resetCore, State.atReset, hb]) (length_freeBytes _ _)

/-- A CTRL write of SOFT_RESET resets, whatever its other bits. -/
theorem writeCtrl_softReset {v : Word} (h : v.getLsbD 1 = true) (s : State) : writeCtrl v s = resetCore s := if_pos h

/-- Settles O11: both resets are `resetCore`, which gives the state of R127. -/
theorem resetFromEveryState : Obligations.ResetFromEveryState := by
  refine ⟨resetCore_reset ▸ resetState_resetCore State.reset, fun s rest he => ?_⟩
  have hstep : step s = .next (resetCore { s with events := rest }) := by
    rcases he with he | ⟨v, hv, he⟩
    · rw [step_event he]
      rfl
    · rw [step_regWrite (regAt_regOffset .ctrl) he, writeReg, writeCtrl_softReset hv]
  exact ⟨_, hstep, rfl, resetState_resetCore _, rfl, rfl, memSameOutside_resetCore { s with events := rest }⟩

/-- Settles O26: what a reset gives from every state holds in `State.reset` (`resetCore_reset`), whose DMEM is empty and
whose parameters are within their constraints. -/
theorem resetIsLegal : Obligations.ResetIsLegal where
  params := by decide
  memory := ⟨memWf_nil, memInside_nil _⟩
  scales := resetCore_reset ▸ resetCore_scalesLegal State.reset
  tables := resetCore_reset ▸ resetCore_tablesLegal State.reset
  stream := resetCore_reset ▸ resetCore_streamLegal State.reset
  status := resetCore_reset ▸ statusLegal_resetCore State.reset
  padding := resetCore_reset ▸ resetCore_paddingLegal State.reset

end Sys2Proof.Machine
end
